-- ==== Sys2Proof/Word.lean ====
section
/-! DEFINITION. The word types of F5CORE (00_scope.md R11, R12): what the spec treats as bits. -/

namespace Sys2Proof

/-- One byte: a FIFO entry, a sample, a JPEG byte (00_scope.md R11). -/
abbrev Byte := BitVec 8

/-- A bus word, a command word or a 32-bit register (00_scope.md R11). -/
abbrev Word := BitVec 32

/-- The encoding of an IEEE 754 binary64 value (00_scope.md R11, R14). -/
abbrev F64 := BitVec 64

end Sys2Proof
end

