-- ==== Sys2Proof/Syntax.lean ====
section
/-! DEFINITION. The 33 commands of F5CORE, one constructor per row of spec/opcode_table.json (30_encoding.md R152).
Selectors that name one of a few tables or components are Fin; counts, indices and code parameters are Nat, as the
pseudocode's arithmetic is on integers (00_scope.md R13), and WellFormed bounds them by their fields' widths; what the
spec treats as bits is a BitVec. -/

namespace Sys2Proof

/-- A command with its operands, as 30_encoding.md R155 writes it. -/
inductive Instr where
  /-- No operation (40_control.md R180). -/
  | nop
  /-- Record a progress marker (R181). -/
  | mark (imm : BitVec 24)
  /-- Quality-scaled tables and divisors (42_transform_quant.md R221). -/
  | qtscale (q : Nat)
  /-- Divisors of QT tables 0 and 1 (R222). -/
  | divcalc
  /-- Forward DCT of PIXBUF (R225). -/
  | fdct
  /-- Quantise DCTBUF into a block (R229). -/
  | quant (t : Fin 2) (blk : Nat)
  /-- Natural to zig-zag order (43_zigzag_mux.md R261). -/
  | zzfwd (blk : Nat)
  /-- Zig-zag to natural order (R262). -/
  | zzinv (blk : Nat)
  /-- Frame geometry (R264). -/
  | geom
  /-- Block index of (component, unit, MCU) (R267). -/
  | blkaddr (comp : Fin 4) (unit mcu : Nat)
  /-- Zero the coefficient array (R268). -/
  | coefclr
  /-- Append bits to the stream (44_entropy_encoder.md R290). -/
  | putbits (size : Nat) (code : BitVec 16)
  /-- Pad and flush the accumulator (R293). -/
  | flush
  /-- Push one raw byte (R294). -/
  | emitraw (b : Byte)
  /-- Clear the DC predictors (R298). -/
  | predclr
  /-- Huffman-code one block (R300). -/
  | encblk (comp : Fin 4) (dt ac : Fin 2) (blk : Nat)
  /-- Huffman-code the whole array (R301). -/
  | encscan
  /-- Parse the JPEG header (45_entropy_decoder.md R350). -/
  | dechdr
  /-- Decode one block (R366). -/
  | decblk (comp : Fin 4) (dt ac : Fin 2) (blk : Nat)
  /-- Decode the whole scan (R368). -/
  | decscan
  /-- Build the permutation (41_permutation.md R193). -/
  | permgen
  /-- Indexed lookup in the permutation (R194). -/
  | permrd (i : Nat)
  /-- Set the cursor (R196). -/
  | curset (p : Nat)
  /-- Draw usable indices into the code-word buffer (R197). -/
  | offer (count : Nat)
  /-- Carried bit of one coefficient (46_f5_matrix.md R410). -/
  | xbit (a : Nat)
  /-- Count the coefficients (R402). -/
  | capcnt
  /-- Embed one bit by LSB matching (R411). -/
  | bstep (imm : BitVec 8)
  /-- Embed one k-bit value (R412). -/
  | mstep (val : Nat)
  /-- Extract one k-bit value (R413). -/
  | mxtr
  /-- Embed the header (R407). -/
  | embhdr
  /-- Embed the payload (R408). -/
  | embpay
  /-- Extract the header (R415). -/
  | exthdr
  /-- Extract the payload (R416). -/
  | extpay
  deriving DecidableEq, Repr

end Sys2Proof
end

