-- ==== Sys2Proof/WellFormed.lean ====
section
/-! DEFINITION. Which instructions a command word can hold: every operand fits its field (30_encoding.md R142 to R149).
A well-formed instruction may still fault (PUTBITS with SIZE 17, QTSCALE 0): that is its meaning's business. -/

namespace Sys2Proof

/-- `v` fits an unsigned field of `n` bits (00_scope.md R12). -/
def fitsField (n v : Nat) : Bool := decide (v < 2 ^ n)

/-- Every operand of the instruction fits its field. -/
def Instr.wellFormed : Instr → Bool
  | .nop | .divcalc | .fdct | .geom | .coefclr | .flush | .predclr | .encscan | .dechdr | .decscan
  | .permgen | .capcnt | .mxtr | .embhdr | .embpay | .exthdr | .extpay => true
  | .mark _ | .emitraw _ | .bstep _ => true
  | .qtscale q => fitsField 8 q
  | .quant _ blk => fitsField 18 blk
  | .zzfwd blk => fitsField 18 blk
  | .zzinv blk => fitsField 18 blk
  | .blkaddr _ unit mcu => fitsField 4 unit && fitsField 18 mcu
  | .putbits size _ => fitsField 5 size
  | .encblk _ _ _ blk => fitsField 18 blk
  | .decblk _ _ _ blk => fitsField 18 blk
  | .permrd i => fitsField 24 i
  | .curset p => fitsField 24 p
  | .offer count => fitsField 8 count
  | .xbit a => fitsField 24 a
  | .mstep val => fitsField 24 val

end Sys2Proof
end

