-- ==== Sys2Proof/Decode.lean ====
section
/-! DEFINITION. Decoding and encoding of command words (30_encoding.md R140 to R153). `decode` is total: a word is an
instruction, an illegal opcode or a word with a reserved bit set, checked in the order of R141. -/

namespace Sys2Proof

/-- Why a word is no command (30_encoding.md R141, R153). Both become faults of the core, which the machine takes. -/
inductive Reject where
  /-- The opcode is not in the map of R152. -/
  | illegal
  /-- A reserved bit of the opcode's format is 1. -/
  | rsvd
  deriving DecidableEq, Repr

/-- The command formats of 30_encoding.md R142 to R149. -/
inductive Format where
  | f0 | fi24 | fi8 | fq | fblk | fa | fpb | fh
  deriving DecidableEq, Repr

/-- The rows of the opcode map, without their operands (30_encoding.md R152). -/
inductive Op where
  | nop | mark | qtscale | divcalc | fdct | quant | zzfwd | zzinv | geom | blkaddr | coefclr
  | putbits | flush | emitraw | predclr | encblk | encscan | dechdr | decblk | decscan
  | permgen | permrd | curset | offer | xbit | capcnt | bstep | mstep | mxtr
  | embhdr | embpay | exthdr | extpay
  deriving DecidableEq, Repr

/-- The opcode of each row (30_encoding.md R152). -/
def Op.code : Op → Nat
  | .nop => 0x00
  | .mark => 0x01
  | .qtscale => 0x10
  | .divcalc => 0x11
  | .fdct => 0x12
  | .quant => 0x13
  | .zzfwd => 0x18
  | .zzinv => 0x19
  | .geom => 0x1A
  | .blkaddr => 0x1B
  | .coefclr => 0x1C
  | .putbits => 0x20
  | .flush => 0x21
  | .emitraw => 0x22
  | .predclr => 0x23
  | .encblk => 0x24
  | .encscan => 0x25
  | .dechdr => 0x30
  | .decblk => 0x31
  | .decscan => 0x32
  | .permgen => 0x40
  | .permrd => 0x41
  | .curset => 0x42
  | .offer => 0x43
  | .xbit => 0x48
  | .capcnt => 0x49
  | .bstep => 0x4A
  | .mstep => 0x4B
  | .mxtr => 0x4C
  | .embhdr => 0x4D
  | .embpay => 0x4E
  | .exthdr => 0x4F
  | .extpay => 0x50

/-- The format of each row (30_encoding.md R152). -/
def Op.format : Op → Format
  | .nop | .divcalc | .fdct | .geom | .coefclr | .flush | .predclr | .encscan | .dechdr | .decscan
  | .permgen | .capcnt | .mxtr | .embhdr | .embpay | .exthdr | .extpay => .f0
  | .mark | .permrd | .curset | .xbit | .mstep => .fi24
  | .qtscale | .emitraw | .offer | .bstep => .fi8
  | .quant => .fq
  | .zzfwd | .zzinv => .fblk
  | .blkaddr => .fa
  | .putbits => .fpb
  | .encblk | .decblk => .fh

/-- Every row of the opcode map. -/
def allOps : List Op :=
  [.nop, .mark, .qtscale, .divcalc, .fdct, .quant, .zzfwd, .zzinv, .geom, .blkaddr, .coefclr,
   .putbits, .flush, .emitraw, .predclr, .encblk, .encscan, .dechdr, .decblk, .decscan,
   .permgen, .permrd, .curset, .offer, .xbit, .capcnt, .bstep, .mstep, .mxtr,
   .embhdr, .embpay, .exthdr, .extpay]

/-- The row with a given opcode, if there is one (30_encoding.md R152, R153). -/
def opOfCode (c : Nat) : Option Op := allOps.find? (fun o => o.code == c)

/-- The reserved bits of a format, `RSVDMASK` (30_encoding.md R142 to R149). -/
def Format.rsvdMask : Format → Nat
  | .f0 => 0xFFFFFF
  | .fi24 => 0
  | .fi8 => 0xFFFF00
  | .fq => 0xDC0000
  | .fblk => 0xFC0000
  | .fa => 0
  | .fpb => 0xE00000
  | .fh => 0x0C0000

/-- The unsigned field of `n` bits of `w` whose lowest bit is bit `lo` (00_scope.md R12). -/
def fieldAt (w : Word) (lo n : Nat) : Nat := w.toNat / 2 ^ lo % 2 ^ n

/-- A one-bit selector field. -/
def selAt (w : Word) (lo : Nat) : Fin 2 := ⟨fieldAt w lo 1, Nat.mod_lt _ (by decide)⟩

/-- The component field, bits 23:22 (30_encoding.md R147, R149). -/
def compAt (w : Word) : Fin 4 := ⟨fieldAt w 22 2, Nat.mod_lt _ (by decide)⟩

/-- The opcode, bits 31:24 (30_encoding.md R140). -/
def opcodeOf (w : Word) : Nat := fieldAt w 24 8

/-- The instruction of a row, its operands taken from the word's fields (30_encoding.md R142 to R151, R155). -/
def Op.operands (w : Word) : Op → Instr
  | .nop => .nop
  | .mark => .mark (BitVec.ofNat 24 (fieldAt w 0 24))
  | .qtscale => .qtscale (fieldAt w 0 8)
  | .divcalc => .divcalc
  | .fdct => .fdct
  | .quant => .quant (selAt w 21) (fieldAt w 0 18)
  | .zzfwd => .zzfwd (fieldAt w 0 18)
  | .zzinv => .zzinv (fieldAt w 0 18)
  | .geom => .geom
  | .blkaddr => .blkaddr (compAt w) (fieldAt w 18 4) (fieldAt w 0 18)
  | .coefclr => .coefclr
  | .putbits => .putbits (fieldAt w 16 5) (BitVec.ofNat 16 (fieldAt w 0 16))
  | .flush => .flush
  | .emitraw => .emitraw (BitVec.ofNat 8 (fieldAt w 0 8))
  | .predclr => .predclr
  | .encblk => .encblk (compAt w) (selAt w 21) (selAt w 20) (fieldAt w 0 18)
  | .encscan => .encscan
  | .dechdr => .dechdr
  | .decblk => .decblk (compAt w) (selAt w 21) (selAt w 20) (fieldAt w 0 18)
  | .decscan => .decscan
  | .permgen => .permgen
  | .permrd => .permrd (fieldAt w 0 24)
  | .curset => .curset (fieldAt w 0 24)
  | .offer => .offer (fieldAt w 0 8)
  | .xbit => .xbit (fieldAt w 0 24)
  | .capcnt => .capcnt
  | .bstep => .bstep (BitVec.ofNat 8 (fieldAt w 0 8))
  | .mstep => .mstep (fieldAt w 0 24)
  | .mxtr => .mxtr
  | .embhdr => .embhdr
  | .embpay => .embpay
  | .exthdr => .exthdr
  | .extpay => .extpay

/-- Decoding and the first checks of every command, in the order of 30_encoding.md R141. -/
def decode (w : Word) : Except Reject Instr :=
  match opOfCode (opcodeOf w) with
  | none => .error .illegal
  | some op => if w.toNat &&& op.format.rsvdMask ≠ 0 then .error .rsvd else .ok (op.operands w)

/-- The row an instruction belongs to. -/
def Instr.op : Instr → Op
  | .nop => .nop
  | .mark _ => .mark
  | .qtscale _ => .qtscale
  | .divcalc => .divcalc
  | .fdct => .fdct
  | .quant _ _ => .quant
  | .zzfwd _ => .zzfwd
  | .zzinv _ => .zzinv
  | .geom => .geom
  | .blkaddr _ _ _ => .blkaddr
  | .coefclr => .coefclr
  | .putbits _ _ => .putbits
  | .flush => .flush
  | .emitraw _ => .emitraw
  | .predclr => .predclr
  | .encblk _ _ _ _ => .encblk
  | .encscan => .encscan
  | .dechdr => .dechdr
  | .decblk _ _ _ _ => .decblk
  | .decscan => .decscan
  | .permgen => .permgen
  | .permrd _ => .permrd
  | .curset _ => .curset
  | .offer _ => .offer
  | .xbit _ => .xbit
  | .capcnt => .capcnt
  | .bstep _ => .bstep
  | .mstep _ => .mstep
  | .mxtr => .mxtr
  | .embhdr => .embhdr
  | .embpay => .embpay
  | .exthdr => .exthdr
  | .extpay => .extpay

/-- Bits 23:0 of an instruction's word, written from the format tables of 30_encoding.md R142 to R149. -/
def Instr.operandBits : Instr → Nat
  | .nop | .divcalc | .fdct | .geom | .coefclr | .flush | .predclr | .encscan | .dechdr | .decscan
  | .permgen | .capcnt | .mxtr | .embhdr | .embpay | .exthdr | .extpay => 0
  | .mark imm => imm.toNat
  | .qtscale q => q
  | .quant t blk => t.val * 2 ^ 21 + blk
  | .zzfwd blk => blk
  | .zzinv blk => blk
  | .blkaddr comp unit mcu => comp.val * 2 ^ 22 + unit * 2 ^ 18 + mcu
  | .putbits size code => size * 2 ^ 16 + code.toNat
  | .emitraw b => b.toNat
  | .encblk comp dt ac blk => comp.val * 2 ^ 22 + dt.val * 2 ^ 21 + ac.val * 2 ^ 20 + blk
  | .decblk comp dt ac blk => comp.val * 2 ^ 22 + dt.val * 2 ^ 21 + ac.val * 2 ^ 20 + blk
  | .permrd i => i
  | .curset p => p
  | .offer count => count
  | .xbit a => a
  | .bstep imm => imm.toNat
  | .mstep val => val

/-- The command word of an instruction (30_encoding.md R140, R142 to R149, R152). -/
def encode (i : Instr) : Word := BitVec.ofNat 32 (i.op.code * 2 ^ 24 + i.operandBits)

/-- The instruction the decoder reads from a row of spec/opcode_table.json whose low `nbits` bits are `w`. A command is
one 32-bit word (30_encoding.md R140), so the bits above `nbits` are 0. -/
def decodeTableWord (nbits w : Nat) : Option Instr :=
  match decode (BitVec.ofNat 32 (w % 2 ^ nbits)) with
  | .ok i => some i
  | .error _ => none

end Sys2Proof
end

