-- ==== Sys2Proof/Config.lean ====
section
/-! DEFINITION. What an implementation fixes: the build-time parameters of 00_scope.md R9 and
92_eei_decisions.md (held in State as a field no step changes, log 1), and the free values: constants with no body,
so that no proof can lean on what they are. -/

namespace Sys2Proof

/-- The build-time parameters a model of F5CORE takes as arguments (00_scope.md R9, 20_memory.md R100). -/
structure Params where
  /-- `F5_BASE`, the block's base address on the host bus (92_eei_decisions.md D14, OPEN). -/
  f5Base : Word
  /-- `COEF_DEPTH`, the entries of the coefficient RAM and of the permutation RAM. -/
  coefDepth : Nat
  /-- `K_MAX_EMB`, the largest code parameter of the embedding commands. -/
  kMaxEmb : Nat
  /-- `CMDQ_DEPTH`. -/
  cmdqDepth : Nat
  /-- `RNGQ_DEPTH`. -/
  rngqDepth : Nat
  /-- `INQ_DEPTH`. -/
  inqDepth : Nat
  /-- `PAYINQ_DEPTH`. -/
  payinqDepth : Nat
  /-- `OUTQ_DEPTH`. -/
  outqDepth : Nat
  /-- `PAYOUTQ_DEPTH`. -/
  payoutqDepth : Nat
  deriving DecidableEq, Repr

/-- `CW_MAX = 2^K_MAX_EMB − 1` (00_scope.md R9). -/
def Params.cwMax (p : Params) : Nat := 2 ^ p.kMaxEmb - 1

/-- The defaults of 00_scope.md R9. `F5_BASE` has none: 0 is a DESIGN CHOICE (log 1). -/
def Params.default : Params where
  f5Base := 0
  coefDepth := 1048576
  kMaxEmb := 7
  cmdqDepth := 16
  rngqDepth := 64
  inqDepth := 64
  payinqDepth := 64
  outqDepth := 64
  payoutqDepth := 64

/-- The legal values of the parameters (00_scope.md R9, 92_eei_decisions.md OPEN parameters). -/
abbrev Params.wf (p : Params) : Prop :=
  p.f5Base.toNat + 0x2FFFFFFF ≤ 0xFFFFFFFF ∧
  p.coefDepth % 64 = 0 ∧ 64 ≤ p.coefDepth ∧ p.coefDepth ≤ 2 ^ 24 ∧
  1 ≤ p.kMaxEmb ∧ p.kMaxEmb ≤ 8 ∧
  1 ≤ p.cmdqDepth ∧ p.cmdqDepth ≤ 255 ∧
  1 ≤ p.rngqDepth ∧ p.rngqDepth ≤ 255 ∧
  1 ≤ p.inqDepth ∧ p.inqDepth ≤ 255 ∧
  1 ≤ p.payinqDepth ∧ p.payinqDepth ≤ 255 ∧
  1 ≤ p.outqDepth ∧ p.outqDepth ≤ 255 ∧
  1 ≤ p.payoutqDepth ∧ p.payoutqDepth ≤ 255

/-- The RAMs and tables whose contents are unspecified after a pin reset (10_state.md R70 to R76, R79). -/
inductive RamName where
  | coef | perm | pix | qt | dct | div | cw | dhMax | dhMin | dhPtr | dhVal
  deriving DecidableEq, Repr

/-- The power-on content of entry `index` of a RAM after the pin reset numbered `cycle`: any value
(93_implementation_defined.md U9, U11; log 6). The low bits of the entry's width are used. -/
opaque Config.powerOn (ram : RamName) (cycle index : Nat) : BitVec 64

/-- What the `n`-th read of a register not listed as exact returns while `BUSY = 1`: any value
(20_memory.md R132, 93_implementation_defined.md U12; log 7). -/
opaque Config.busyRead (n : Nat) : Word

/-- What the CWBUF window returns for entry `j` at or above `CWLEN`, between the commands numbered `cmdcnt` and the next:
any value (20_memory.md R105, 93_implementation_defined.md U10; log 8). -/
opaque Config.staleCw (n : Nat) (cmdcnt : Word) (j : Nat) : BitVec 24

/-- `ROUND` of an infinity or a NaN, which 42_transform_quant.md R228 does not define (log 9). -/
opaque Config.roundNonFinite (x : F64) : Int

/-- `NCOEF div (64·BPM)` when `BPM = 0`, which 45_entropy_decoder.md R368 does not define (log 10). -/
opaque Config.mcusWithoutBlocks (ncoef : Word) : Nat

/-- A HUFFVAL entry outside 0 to 255, which a table that was never loaded can name (45_entropy_decoder.md R363; log 17). -/
opaque Config.noSymbol (cycle table : Nat) (index : Int) : Byte

end Sys2Proof
end

