-- ==== Sys2Proof/Machine/State.lean ====
section
/-! DEFINITION. The state of F5CORE (10_state.md R30 to R85): every register, RAM, FIFO and hidden element the spec names,
as plain data, with the two agents (the core and the host), and the state after reset (70_reset_and_hazards.md R501). -/

namespace Sys2Proof.Machine

/-- A RAM or table: its written entries as (index, value) pairs, the indices strictly rising. An entry not listed was never
written since the last pin reset and reads as a free value (log 6). -/
abbrev Memory (w : Nat) := List (Nat × BitVec w)

/-- Four like things, one per component or decoder table. -/
structure Quad (α : Type) where
  c0 : α
  c1 : α
  c2 : α
  c3 : α
  deriving DecidableEq, Repr

/-- The legal values of `CTRL.QROUND` (10_state.md R32, 42_transform_quant.md R228). -/
inductive TieRule where
  /-- 0: half away from zero. -/
  | halfAway
  /-- 1: half up. -/
  | halfUp
  /-- 2: half to even. -/
  | halfEven
  deriving DecidableEq, Repr

/-- The run-time options of `CTRL` (10_state.md R32). -/
structure Ctrl where
  padbit : Bool
  hdrLossy : Bool
  rngSigned : Bool
  qround : TieRule
  deriving DecidableEq, Repr

/-- A `COMPCFGn` register (10_state.md R46). -/
structure CompCfg where
  cid : BitVec 8
  h : BitVec 4
  v : BitVec 4
  tq : BitVec 2
  td : Fin 2
  ta : Fin 2
  deriving DecidableEq, Repr

/-- Geometry and frame configuration (10_state.md R43 to R48). -/
structure Geo where
  ncoef : Word
  imgW : BitVec 16
  imgH : BitVec 16
  ncomp : BitVec 3
  comp : Quad CompCfg
  rstint : BitVec 16
  mcux : BitVec 16
  mcuy : BitVec 16
  deriving DecidableEq, Repr

/-- The stored flags of `DECFLAGS`, bits 3:0 (10_state.md R49); its other fields are views of the marker latch. -/
structure Seen where
  soi : Bool
  sof : Bool
  sos : Bool
  eoi : Bool
  deriving DecidableEq, Repr

/-- Entropy coder state (10_state.md R50 to R52). -/
structure Coder where
  pred : Quad (BitVec 16)
  putbuf : BitVec 24
  putbits : BitVec 5
  outcnt : Word
  incnt : Word
  deriving DecidableEq, Repr

/-- The marker latch of the bit reader (10_state.md R80). -/
inductive Latch where
  | empty
  | marker (code : Byte)
  | eos
  deriving DecidableEq, Repr

/-- The bit reader of the decoder (10_state.md R80). -/
structure BitReader where
  bitbuf : Byte
  /-- 0 to 8: the bits of `bitbuf` not yet consumed. -/
  bitcnt : Nat
  latch : Latch
  deriving DecidableEq, Repr

/-- Permutation and F5 registers (10_state.md R53 to R61). -/
structure F5Regs where
  permN : BitVec 25
  pos : BitVec 25
  k : BitVec 5
  paylen : Word
  embBits : Word
  embBytes : Word
  embChanged : Word
  embShrink : Word
  extLen : BitVec 23
  extK : BitVec 5
  extBytes : Word
  hdrword : Word
  capOnes : Word
  capZeros : Word
  capNondc : Word
  capLarge : Word
  cwlen : BitVec 8
  deriving DecidableEq, Repr

/-- The `VALID` register (10_state.md R62); `dht` is indexed by j = 2·Tc + Th. -/
structure Valid where
  div : Bool
  perm : Bool
  dht : Quad Bool
  deriving DecidableEq, Repr

/-- The command FIFO and the five byte FIFOs, oldest entry first, and `IN_EOS` (10_state.md R63, R82; 20_memory.md R120 to R125). -/
structure Fifos where
  cmd : List Word
  rng : List Byte
  inp : List Byte
  payin : List Byte
  out : List Byte
  payout : List Byte
  inEos : Bool
  deriving DecidableEq, Repr

/-- The RAMs and tables (10_state.md R70 to R76, R79). QT and DIV entry 64·t + i is entry i of table t; a decoder table's
MAXCODE, MINCODE and VALPTR entry is 17·j + l, and its HUFFVAL entry 256·j + i. -/
structure Rams where
  coef : Memory 16
  perm : Memory 24
  pix : Memory 8
  qt : Memory 16
  dct : Memory 64
  div : Memory 64
  cw : Memory 24
  dhMax : Memory 32
  dhMin : Memory 32
  dhPtr : Memory 32
  dhVal : Memory 8
  deriving DecidableEq, Repr

/-- The fault codes (60_exceptions.md R461). -/
inductive FaultCode where
  | illegal | rsvd | operand | coefrange | geom | nocode | unaligned | noperm | coefovf | nodiv | range
  deriving DecidableEq, Repr

/-- The FIFO a command waits on, `STATUS.STALLSRC` (10_state.md R33). -/
inductive StallSrc where
  | rng | inp | payin | out | payout
  deriving DecidableEq, Repr

/-- What an encoder command does once the bytes at hand are pushed (44_entropy_encoder.md R290 to R301). `scan` is the block
ENCSCAN codes next, and nothing for the other commands. -/
inductive Ending where
  /-- It retires. -/
  | retire
  /-- The FLUSH body is over: the packer is emptied, and the command retires. -/
  | flushed
  /-- BufBits(code, size) is over: the packer keeps the bits left. The (code, size) pairs `rest` follow, then the scan. -/
  | buffered (code size : Nat) (rest : List (Nat × Nat)) (scan : Option Nat)
  /-- The pairs `rest` follow, then the scan. -/
  | codes (rest : List (Nat × Nat)) (scan : Option Nat)
  deriving DecidableEq, Repr

/-- Where the marker state machine of DECHDR stands (45_entropy_decoder.md R340, R350). -/
inductive HdrPhase where
  /-- Looking for the `0xFF` of a marker. -/
  | search
  /-- After a `0xFF`: fill bytes or the marker code. -/
  | marker
  /-- The high byte of the segment length of marker `m`. -/
  | lenHi (m : Byte)
  /-- The low byte of the length. -/
  | lenLo (m hi : Byte)
  /-- `left` payload bytes to come; `got` holds those read, newest first. -/
  | payload (m : Byte) (left : Nat) (got : List Byte)
  deriving DecidableEq, Repr

/-- Where DecodeBlock stands (45_entropy_decoder.md R361, R363, R365). -/
inductive BlkPhase where
  /-- Inside DECODE of the DC symbol: `len` bits read, their value `code`. -/
  | dcCode (code len : Nat)
  /-- Inside RECEIVE of the `size`-bit DC difference: `left` bits to come. -/
  | dcBits (size value left : Nat)
  /-- Inside DECODE of the AC symbol for zig-zag position `k`. -/
  | acCode (k code len : Nat)
  /-- Inside RECEIVE of the `size` extra bits of the coefficient at position `k`. -/
  | acBits (k size value left : Nat)
  deriving DecidableEq, Repr

/-- The operands of one DecodeBlock (45_entropy_decoder.md R365). -/
structure BlkCtx where
  blk : Nat
  comp : Fin 4
  dt : Fin 2
  ac : Fin 2
  deriving DecidableEq, Repr

/-- Where DECSCAN stands (45_entropy_decoder.md R367, R368). `ff` says the byte `0xFF` was read and its successor was not. -/
inductive ScanPhase where
  /-- Before MCU `m`. -/
  | mcu (m : Nat)
  /-- In FindMarker, looking for the restart marker before MCU `m`. -/
  | restart (m : Nat) (ff : Bool)
  /-- Before block `j` of MCU `m`. -/
  | block (m j : Nat)
  /-- Inside block `j` of MCU `m`. -/
  | bits (m j : Nat) (ff : Bool) (p : BlkPhase)
  /-- In FindMarker after the last block. -/
  | tail (ff : Bool)
  deriving DecidableEq, Repr

/-- The command-internal state of EMBPAY (10_state.md R83, 46_f5_matrix.md R408). -/
structure EmbCtx where
  /-- Payload bytes taken from PAYIN. -/
  popped : Nat
  /-- A payload byte taken from PAYIN whose whitening byte has not come yet. -/
  hold : Option Byte
  /-- The rest of the current whitened byte and its bit count. -/
  cur : Byte
  avail : Nat
  /-- The bits of the current group and their count. -/
  val : Nat
  m : Nat
  deriving DecidableEq, Repr

/-- The command-internal state of EXTPAY (10_state.md R83, 46_f5_matrix.md R416). -/
structure ExtCtx where
  /-- The byte being assembled and its bit count. -/
  acc : Byte
  na : Nat
  /-- The bits of the last syndrome not yet put, lowest first, and their count. -/
  h : Nat
  left : Nat
  /-- A finished byte that waits for room in PAYOUT. -/
  out : Option Byte
  deriving DecidableEq, Repr

/-- The state internal to the executing command: where its body stands (10_state.md R83). -/
inductive Progress where
  /-- Dequeued, its body not begun. -/
  | start
  /-- An encoder command: the bytes at hand still to push to OUT, and what the command then does. -/
  | emit (bytes : List Byte) (ending : Ending)
  /-- PERMGEN: draws done, and the bytes of the next draw, oldest first. -/
  | permgen (i : Nat) (got : List Byte)
  /-- EMBHDR: the whitening bytes popped so far. -/
  | embHdr (got : List Byte)
  | embPay (c : EmbCtx)
  /-- EMBPAY draining PAYIN after exhaustion. -/
  | embDrain (popped : Nat)
  /-- EXTHDR: the 32 bits read, and the whitening bytes popped so far. -/
  | extHdr (bits : Word) (got : List Byte)
  | extPay (c : ExtCtx)
  | decHdr (p : HdrPhase)
  | decBlk (b : BlkCtx) (ff : Bool) (p : BlkPhase)
  | decScan (p : ScanPhase)
  deriving DecidableEq, Repr

/-- The core agent's state (10_state.md R81). HALTED carries the recorded fault code, so that `FCODE` is 0 exactly when no
fault is recorded (R33). -/
inductive Agent where
  | idle
  | exec (p : Progress)
  | stall (src : StallSrc) (p : Progress)
  | halted (code : FaultCode)
  deriving DecidableEq, Repr

/-- The width of a host bus access (20_memory.md R102). -/
inductive AccessWidth where
  | w8 | w16 | w32
  deriving DecidableEq, Repr

/-- A host bus access: an address, a width, and for a write its byte lanes and data (20_memory.md R102). -/
inductive BusAccess where
  | read (addr : Word) (width : AccessWidth)
  | write (addr : Word) (width : AccessWidth) (lanes : BitVec 4) (data : Word)
  deriving DecidableEq, Repr

/-- One move of the host (log 2). -/
inductive HostMove where
  /-- The core moves next. -/
  | yield
  /-- A bus access. -/
  | access (a : BusAccess)
  /-- The reset pin is asserted (70_reset_and_hazards.md R500). -/
  | pinReset
  deriving DecidableEq, Repr

/-- The state of F5CORE and of the host's pending moves. -/
structure State where
  /-- The build-time parameters; no step changes them (log 1). -/
  cfg : Params
  ctrl : Ctrl
  /-- `WARN` (10_state.md R34). -/
  warn : BitVec 16
  /-- `IRQEN` (R35). -/
  irqen : BitVec 3
  /-- `FCMD` (R38). -/
  fcmd : Word
  /-- `FPC` (R39). -/
  fpc : Word
  /-- `CMDCNT`, the program counter (R40). -/
  cmdcnt : Word
  /-- `MARK` (R41). -/
  mark : BitVec 24
  /-- `RESULT` (R42). -/
  result : Word
  geo : Geo
  coder : Coder
  seen : Seen
  reader : BitReader
  f5 : F5Regs
  valid : Valid
  fifo : Fifos
  ram : Rams
  agent : Agent
  /-- The word of the executing command, or of the last one (60_exceptions.md R462's `w`). -/
  cur : Word
  /-- What the host does next, oldest first (log 2). -/
  host : List HostMove
  /-- What the last host read returned (log 12). -/
  busData : Word
  /-- How many free values reads while BUSY have used (log 7). -/
  freeCount : Nat
  /-- How many pin resets there have been (log 6). -/
  powerCycles : Nat
  deriving DecidableEq, Repr

/-- Why a step can stop. No command raises it: the faults of 60_exceptions.md are next states. -/
inductive Fault where
  /-- Raised by `step` when the host's next access addresses a byte outside the block's window (20_memory.md R100): another
  device answers it, and the spec says nothing of that device. Safe: the model stops (log 14). -/
  | outsideWindow
  deriving DecidableEq, Repr

/-- Why an instruction has no meaning. -/
inductive Refusal where
  /-- Raised by an arm of `exec` whose instruction is not modelled. Safe: the model stops. No arm raises it. -/
  | notModelled (mnemonic : String)
  deriving DecidableEq, Repr

/-- The register part of reset: `CTRL` (70_reset_and_hazards.md R501, 10_state.md R32). -/
def Ctrl.reset : Ctrl where
  padbit := true
  hdrLossy := false
  rngSigned := false
  qround := .halfAway

/-- The reset values of `COMPCFG0..3` (10_state.md R46). -/
def CompCfg.reset : Quad CompCfg where
  c0 := { cid := 1, h := 2, v := 2, tq := 0, td := 0, ta := 0 }
  c1 := { cid := 2, h := 1, v := 1, tq := 1, td := 1, ta := 1 }
  c2 := { cid := 3, h := 1, v := 1, tq := 1, td := 1, ta := 1 }
  c3 := { cid := 4, h := 1, v := 1, tq := 0, td := 0, ta := 0 }

/-- Reset of geometry and frame configuration (70_reset_and_hazards.md R501). -/
def Geo.reset : Geo where
  ncoef := 0
  imgW := 0
  imgH := 0
  ncomp := 3
  comp := CompCfg.reset
  rstint := 0
  mcux := 0
  mcuy := 0

/-- Reset of the entropy coder state (70_reset_and_hazards.md R501). -/
def Coder.reset : Coder where
  pred := { c0 := 0, c1 := 0, c2 := 0, c3 := 0 }
  putbuf := 0
  putbits := 0
  outcnt := 0
  incnt := 0

/-- Reset of the `DECFLAGS` flags (70_reset_and_hazards.md R501). -/
def Seen.reset : Seen where
  soi := false
  sof := false
  sos := false
  eoi := false

/-- Reset of the bit reader (10_state.md R80); `BITBUF` has no reset value: 0 is a DESIGN CHOICE (log 11). -/
def BitReader.reset : BitReader where
  bitbuf := 0
  bitcnt := 0
  latch := .empty

/-- Reset of the permutation and F5 registers (70_reset_and_hazards.md R501). -/
def F5Regs.reset : F5Regs where
  permN := 0
  pos := 0
  k := 1
  paylen := 0
  embBits := 0
  embBytes := 0
  embChanged := 0
  embShrink := 0
  extLen := 0
  extK := 0
  extBytes := 0
  hdrword := 0
  capOnes := 0
  capZeros := 0
  capNondc := 0
  capLarge := 0
  cwlen := 0

/-- Reset of `VALID` (70_reset_and_hazards.md R501). -/
def Valid.reset : Valid where
  div := false
  perm := false
  dht := { c0 := false, c1 := false, c2 := false, c3 := false }

/-- Reset empties every FIFO and clears `IN_EOS` (70_reset_and_hazards.md R501). -/
def Fifos.reset : Fifos where
  cmd := []
  rng := []
  inp := []
  payin := []
  out := []
  payout := []
  inEos := false

/-- Every RAM unwritten: its contents unspecified (70_reset_and_hazards.md R500, R501; log 6). -/
def Rams.unwritten : Rams where
  coef := []
  perm := []
  pix := []
  qt := []
  dct := []
  div := []
  cw := []
  dhMax := []
  dhMin := []
  dhPtr := []
  dhVal := []

/-- The machine right after power-on and the reset pin (70_reset_and_hazards.md R500, R501, R502), with the default
parameters of 00_scope.md R9. -/
def State.reset : State where
  cfg := Params.default
  ctrl := Ctrl.reset
  warn := 0
  irqen := 0
  fcmd := 0
  fpc := 0
  cmdcnt := 0
  mark := 0
  result := 0
  geo := Geo.reset
  coder := Coder.reset
  seen := Seen.reset
  reader := BitReader.reset
  f5 := F5Regs.reset
  valid := Valid.reset
  fifo := Fifos.reset
  ram := Rams.unwritten
  agent := .idle
  cur := 0
  host := []
  busData := 0
  freeCount := 0
  powerCycles := 0

end Sys2Proof.Machine
end

