-- ==== Sys2Proof/Machine/Ops.lean ====
section
/-! DEFINITION. The named operations over RAMs, FIFOs and registers, fault entry and reset (the only way out of a fault), and
the loop that runs a command's body up to its end or its next wait. -/

namespace Sys2Proof.Machine

/-- What a step answers. -/
abbrev Out := Host.Outcome State Fault Refusal

/-! ### RAMs -/

/-- The written content of entry `i`, if it was written since the last pin reset. -/
def Memory.entry? {w : Nat} : Memory w → Nat → Option (BitVec w)
  | [], _ => none
  | (a, v) :: m, i => if a = i then some v else Memory.entry? m i

/-- Write entry `i`. The entries stay in rising order. -/
def Memory.write {w : Nat} : Memory w → Nat → BitVec w → Memory w
  | [], i, v => [(i, v)]
  | (a, u) :: m, i, v =>
    if i < a then (i, v) :: (a, u) :: m
    else if i = a then (i, v) :: m
    else (a, u) :: Memory.write m i v

/-- Consecutive entries from `base`. -/
def Memory.numbered {w : Nat} (base : Nat) : List (BitVec w) → Memory w
  | [] => []
  | v :: vs => (base, v) :: Memory.numbered (base + 1) vs

/-- Write consecutive entries from `base`: `RAM[base + n] <- vs[n]`. -/
def Memory.writeBlock {w : Nat} (m : Memory w) (base : Nat) (vs : List (BitVec w)) : Memory w :=
  m.filter (fun e => decide (e.1 < base)) ++ Memory.numbered base vs
    ++ m.filter (fun e => decide (base + vs.length ≤ e.1))

/-- The canonical form of a RAM's contents: indices strictly rising. -/
abbrev Memory.wf {w : Nat} (m : Memory w) : Prop := m.Pairwise (fun x y => x.1 < y.1)

/-- Read entry `i`: its written content, or the unspecified power-on content as a free value (10_state.md R70 to R79,
93_implementation_defined.md U9; log 6). -/
def State.readRam (s : State) (name : RamName) {w : Nat} (m : Memory w) (i : Nat) : BitVec w :=
  match Memory.entry? m i with
  | some v => v
  | none => (Config.powerOn name s.powerCycles i).setWidth w

/-- `COEF[i]` (10_state.md R70). -/
def State.coefAt (s : State) (i : Nat) : BitVec 16 := s.readRam .coef s.ram.coef i

/-- `COEF[i]` as the signed integer it holds (10_state.md R70). -/
def State.coefInt (s : State) (i : Nat) : Int := (s.coefAt i).toInt

/-- `PERM[i]` (10_state.md R71). -/
def State.permAt (s : State) (i : Nat) : BitVec 24 := s.readRam .perm s.ram.perm i

/-- `PIX[i]` (10_state.md R72). -/
def State.pixAt (s : State) (i : Nat) : Byte := s.readRam .pix s.ram.pix i

/-- `QT[t][i]` (10_state.md R73). -/
def State.qtAt (s : State) (t i : Nat) : BitVec 16 := s.readRam .qt s.ram.qt (64 * t + i)

/-- `DCT[i]` (10_state.md R74). -/
def State.dctAt (s : State) (i : Nat) : F64 := s.readRam .dct s.ram.dct i

/-- `DIV[t][i]` (10_state.md R75). -/
def State.divAt (s : State) (t i : Nat) : F64 := s.readRam .div s.ram.div (64 * t + i)

/-- `CW[i]` (10_state.md R76). -/
def State.cwAt (s : State) (i : Nat) : BitVec 24 := s.readRam .cw s.ram.cw i

/-- `MAXCODE[j][l]` of the decoder tables, −1 or a code (10_state.md R79, 45_entropy_decoder.md R351). -/
def State.maxcodeAt (s : State) (j l : Nat) : Int := (s.readRam .dhMax s.ram.dhMax (17 * j + l)).toInt

/-- `MINCODE[j][l]` (10_state.md R79). -/
def State.mincodeAt (s : State) (j l : Nat) : Int := (s.readRam .dhMin s.ram.dhMin (17 * j + l)).toInt

/-- `VALPTR[j][l]` (10_state.md R79). -/
def State.valptrAt (s : State) (j l : Nat) : Int := (s.readRam .dhPtr s.ram.dhPtr (17 * j + l)).toInt

/-- `HUFFVAL[j][i]`; an index outside 0 to 255 names no entry and reads as a free value (45_entropy_decoder.md R363; log 17). -/
def State.huffvalAt (s : State) (j : Nat) (i : Int) : Byte :=
  if 0 ≤ i ∧ i ≤ 255 then s.readRam .dhVal s.ram.dhVal (256 * j + i.toNat)
  else Config.noSymbol s.powerCycles j i

/-- `COEF[i] <- v`, the low 16 bits of an integer (00_scope.md R13 `trunc`). -/
def State.setCoef (s : State) (i : Nat) (v : Int) : State :=
  { s with ram.coef := Memory.write s.ram.coef i (BitVec.ofInt 16 v) }

/-- `COEF[base + n] <- vs[n]`. -/
def State.setCoefs (s : State) (base : Nat) (vs : List (BitVec 16)) : State :=
  { s with ram.coef := Memory.writeBlock s.ram.coef base vs }

/-- The values `COEF[base .. base + n − 1]`. -/
def State.coefs (s : State) (base n : Nat) : List (BitVec 16) :=
  (List.range n).map (fun i => s.coefAt (base + i))

/-! ### Four like things -/

/-- The `n`-th of four, 0 to 3. -/
def Quad.get {α : Type} (q : Quad α) : Nat → α
  | 0 => q.c0
  | 1 => q.c1
  | 2 => q.c2
  | _ => q.c3

/-- Replace the `n`-th of four, 0 to 3. -/
def Quad.set {α : Type} (q : Quad α) (n : Nat) (v : α) : Quad α :=
  match n with
  | 0 => { q with c0 := v }
  | 1 => { q with c1 := v }
  | 2 => { q with c2 := v }
  | _ => { q with c3 := v }

/-- Four equal things. -/
def Quad.all {α : Type} (v : α) : Quad α := { c0 := v, c1 := v, c2 := v, c3 := v }

/-- `PRED[c] <- v`. -/
def State.setPred (s : State) (c : Nat) (v : BitVec 16) : State :=
  { s with coder.pred := s.coder.pred.set c v }

/-- `for c in 0 .. 3: PRED[c] <- 0` (44_entropy_encoder.md R298). -/
def State.clearPreds (s : State) : State := { s with coder.pred := Quad.all 0 }

/-! ### FIFOs (20_memory.md R120 to R125) -/

/-- `Pop(RNG)`: the oldest byte, or nothing when the core must wait (20_memory.md R123). -/
def popRng (s : State) : Option (Byte × State) :=
  match s.fifo.rng with
  | [] => none
  | b :: q => some (b, { s with fifo.rng := q })

/-- `Pop(PAYIN)` (20_memory.md R123). -/
def popPayin (s : State) : Option (Byte × State) :=
  match s.fifo.payin with
  | [] => none
  | b :: q => some (b, { s with fifo.payin := q })

/-- `Push(OUT, b)`, which counts the byte in `OUTCNT`, or nothing when the core must wait (20_memory.md R123). -/
def pushOut (b : Byte) (s : State) : Option State :=
  if s.fifo.out.length < s.cfg.outqDepth then
    some { s with fifo.out := s.fifo.out ++ [b], coder.outcnt := s.coder.outcnt + 1 }
  else none

/-- `Push(PAYOUT, b)` (20_memory.md R123). -/
def pushPayout (b : Byte) (s : State) : Option State :=
  if s.fifo.payout.length < s.cfg.payoutqDepth then
    some { s with fifo.payout := s.fifo.payout ++ [b] }
  else none

/-- What `ReadIn()` gives (20_memory.md R124). -/
inductive InByte where
  | byte (b : Byte) (s : State)
  | eos
  | wait

/-- The JPEG input reader `ReadIn()` (20_memory.md R124). -/
def readIn (s : State) : InByte :=
  match s.fifo.inp with
  | b :: q => .byte b { s with fifo.inp := q, coder.incnt := s.coder.incnt + 1 }
  | [] => if s.fifo.inEos then .eos else .wait

/-! ### The end of a command, fault entry, reset -/

/-- Retirement, `pc <- pc + 1` (40_control.md R182, 10_state.md R40). The core is IDLE until the next dequeue, which `settle`
takes in the same step (70_reset_and_hazards.md R510; log 16). -/
def retire (s : State) : State := { s with cmdcnt := s.cmdcnt + 1, agent := .idle }

/-- Fault entry (60_exceptions.md R462): the code, the command word and the command index are recorded, the command FIFO is
emptied and the core halts. `CMDCNT` is not incremented, and nothing else changes. -/
def faultEntry (c : FaultCode) (s : State) : State :=
  { s with fcmd := s.cur, fpc := s.cmdcnt, fifo.cmd := [], agent := .halted c }

/-- A soft reset (70_reset_and_hazards.md R501), the only return from a fault (60_exceptions.md R463): every register takes
its reset value, the FIFOs and the bit reader are emptied, the core is IDLE, and the RAMs keep their contents. -/
def softReset (s : State) : State :=
  { s with
    ctrl := Ctrl.reset
    warn := 0
    irqen := 0
    fcmd := 0
    fpc := 0
    cmdcnt := 0
    mark := 0
    result := 0
    geo := Geo.reset
    coder := Coder.reset
    seen := Seen.reset
    reader := BitReader.reset
    f5 := F5Regs.reset
    valid := Valid.reset
    fifo := Fifos.reset
    agent := .idle
    cur := 0 }

/-- The reset pin: a soft reset after which the contents of the RAMs are unspecified (70_reset_and_hazards.md R500; log 6). -/
def pinReset (s : State) : State :=
  { softReset s with ram := Rams.unwritten, powerCycles := s.powerCycles + 1 }

/-! ### Running a body -/

/-- What one move of a command's body gives; `π` is the command's own progress. -/
inductive BodyStep (π : Type) where
  /-- The body goes on. -/
  | go (p : π) (s : State)
  /-- The body waits on a FIFO, where it stands (00_scope.md R16). -/
  | wait (src : StallSrc) (p : π) (s : State)
  /-- The body is complete. -/
  | done (s : State)
  /-- `raise Fault(c)` (40_control.md R182). -/
  | raise (c : FaultCode) (s : State)

/-- Run a body up to its end or its next wait, at most `n` moves (70_reset_and_hazards.md R511). A body that has not ended
after `n` moves stays in EXEC, and the core's next move goes on with it (log 4). -/
def drive {π : Type} (emb : π → Progress) (adv : π → State → BodyStep π) : Nat → π → State → State
  | 0, p, s => { s with agent := .exec (emb p) }
  | n + 1, p, s =>
    match adv p s with
    | .go p' s' => drive emb adv n p' s'
    | .wait src p' s' => { s' with agent := .stall src (emb p') }
    | .done s' => retire s'
    | .raise c s' => faultEntry c s'

end Sys2Proof.Machine
end

