-- ==== Sys2Proof/Machine/Flags.lean ====
section
/-! DEFINITION. The flag-like state (10_state.md R84): the warnings, the `STATUS`, `DECFLAGS` and `VALID` views and the
interrupt line. -/

namespace Sys2Proof.Machine

/-- The sixteen warnings (60_exceptions.md R465). -/
inductive Warning where
  | trunc | hdrcap | incomplete | nosof | badframe | notable | baddht | badcode
  | shorttail | noeoi | junk | unkmarker | rstmiss | hosterr | nosos | baddqt
  deriving DecidableEq, Repr

/-- The bit of `WARN` each warning has (60_exceptions.md R465). -/
def Warning.bit : Warning → Nat
  | .trunc => 0
  | .hdrcap => 1
  | .incomplete => 2
  | .nosof => 3
  | .badframe => 4
  | .notable => 5
  | .baddht => 6
  | .badcode => 7
  | .shorttail => 8
  | .noeoi => 9
  | .junk => 10
  | .unkmarker => 11
  | .rstmiss => 12
  | .hosterr => 13
  | .nosos => 14
  | .baddqt => 15

/-- `warn W`: set the sticky bit (00_scope.md R15, 60_exceptions.md R465). -/
def State.warns (s : State) (w : Warning) : State :=
  { s with warn := s.warn ||| BitVec.ofNat 16 (2 ^ w.bit) }

/-- The warning bit is set. -/
def State.hasWarning (s : State) (w : Warning) : Bool := s.warn.getLsbD w.bit

/-- The number of each fault code (60_exceptions.md R461). -/
def FaultCode.code : FaultCode → Nat
  | .illegal => 0x01
  | .rsvd => 0x02
  | .operand => 0x03
  | .coefrange => 0x04
  | .geom => 0x05
  | .nocode => 0x06
  | .unaligned => 0x07
  | .noperm => 0x08
  | .coefovf => 0x09
  | .nodiv => 0x0A
  | .range => 0x0B

/-- The number of each wait, `STALLSRC` (10_state.md R33). -/
def StallSrc.code : StallSrc → Nat
  | .rng => 1
  | .inp => 2
  | .payin => 3
  | .out => 4
  | .payout => 5

/-- A Boolean as a bit. -/
def bitOf (b : Bool) : Nat := if b then 1 else 0

/-- `STATUS.FAULT` (10_state.md R33, 70_reset_and_hazards.md R510). -/
def State.faulted (s : State) : Bool :=
  match s.agent with
  | .halted _ => true
  | _ => false

/-- `STATUS.BUSY`: no fault, and a command is executing or waits in the command FIFO (10_state.md R33). -/
def State.busy (s : State) : Bool :=
  match s.agent with
  | .halted _ => false
  | .exec _ => true
  | .stall _ _ => true
  | .idle => !s.fifo.cmd.isEmpty

/-- The `STATUS` register (10_state.md R33): BUSY bit 0, FAULT bit 1, STALL bit 2, FCODE 15:8, STALLSRC 18:16. -/
def State.statusWord (s : State) : Word :=
  match s.agent with
  | .halted c => BitVec.ofNat 32 (2 + c.code * 2 ^ 8)
  | .stall src _ => BitVec.ofNat 32 (1 + 4 + src.code * 2 ^ 16)
  | .exec _ => 1
  | .idle => BitVec.ofNat 32 (bitOf s.busy)

/-- The `DECFLAGS` register (10_state.md R49): the SEEN flags, and the marker latch as MK_VALID, MK_EOS and MK_CODE. -/
def State.decflagsWord (s : State) : Word :=
  let seen := bitOf s.seen.soi + 2 * bitOf s.seen.sof + 4 * bitOf s.seen.sos + 8 * bitOf s.seen.eoi
  match s.reader.latch with
  | .empty => BitVec.ofNat 32 seen
  | .marker m => BitVec.ofNat 32 (seen + 16 + m.toNat * 2 ^ 8)
  | .eos => BitVec.ofNat 32 (seen + 16 + 32)

/-- The `VALID` register (10_state.md R62). -/
def State.validWord (s : State) : Word :=
  BitVec.ofNat 32 (bitOf s.valid.div + 2 * bitOf s.valid.perm + 4 * bitOf s.valid.dht.c0
    + 8 * bitOf s.valid.dht.c1 + 16 * bitOf s.valid.dht.c2 + 32 * bitOf s.valid.dht.c3)

/-- The interrupt line (60_exceptions.md R470): DONE, FAULT and WARN terms, enabled by `IRQEN` bits 0, 1 and 2. -/
def irq (s : State) : Bool :=
  (s.irqen.getLsbD 0 && !s.busy && !s.faulted) || (s.irqen.getLsbD 1 && s.faulted)
    || (s.irqen.getLsbD 2 && decide (s.warn ≠ 0))

end Sys2Proof.Machine
end

