-- ==== Sys2Proof/Machine/Operands.lean ====
section
/-! DEFINITION. What commands compute from their operands and the configuration before they act: block ranges, geometry and
array layout, the permutation precondition, the combination of generator bytes, categories and extra bits, the carried bit. -/

namespace Sys2Proof.Machine

/-! ### Blocks and geometry (43_zigzag_mux.md R263 to R269) -/

/-- The block lies inside the array: not `64·BLK + 64 > NCOEF` (42_transform_quant.md R229 and the other block commands). -/
def State.blockInside (s : State) (blk : Nat) : Bool := decide (64 * blk + 64 ≤ s.geo.ncoef.toNat)

/-- `ceil(a / b)` (43_zigzag_mux.md R265). -/
def ceilDiv (a b : Nat) : Nat := (a + b - 1) / b

/-- `U(c)`: blocks of component `c` in one MCU (43_zigzag_mux.md R263). -/
def State.unitsOf (s : State) (c : Nat) : Nat :=
  if s.geo.ncomp = 1 then 1 else (s.geo.comp.get c).h.toNat * (s.geo.comp.get c).v.toNat

/-- `OFF(c) = U(0) + … + U(c − 1)`: first block of component `c` in an MCU (43_zigzag_mux.md R263). -/
def State.offsetOf (s : State) : Nat → Nat
  | 0 => 0
  | c + 1 => s.offsetOf c + s.unitsOf c

/-- `BPM`: blocks per MCU (43_zigzag_mux.md R263). -/
def State.bpm (s : State) : Nat := s.offsetOf s.geo.ncomp.toNat

/-- The component of block `j` of an MCU: the component `c`, below `n`, with `OFF(c) ≤ j < OFF(c) + U(c)` (43_zigzag_mux.md R269). -/
def State.componentBelow (s : State) (j : Nat) : Nat → Nat
  | 0 => 0
  | c + 1 => if s.offsetOf c ≤ j then c else s.componentBelow j c

/-- The component of block `j` of an MCU, for `j < BPM` (43_zigzag_mux.md R269). -/
def State.componentOf (s : State) (j : Nat) : Nat := s.componentBelow j s.geo.ncomp.toNat

/-- Every component below `n` has H and V in 1 to 4 (43_zigzag_mux.md R265). -/
def State.factorsLegal (s : State) : Nat → Bool
  | 0 => true
  | c + 1 =>
    let cfg := s.geo.comp.get c
    decide (1 ≤ cfg.h.toNat ∧ cfg.h.toNat ≤ 4 ∧ 1 ≤ cfg.v.toNat ∧ cfg.v.toNat ≤ 4) && s.factorsLegal c

/-- The largest H of the components below `n` (43_zigzag_mux.md R265). -/
def State.hmax (s : State) : Nat → Nat
  | 0 => 0
  | c + 1 => max (s.hmax c) (s.geo.comp.get c).h.toNat

/-- The largest V of the components below `n` (43_zigzag_mux.md R265). -/
def State.vmax (s : State) : Nat → Nat
  | 0 => 0
  | c + 1 => max (s.vmax c) (s.geo.comp.get c).v.toNat

/-- What `Geometry()` returns. -/
structure GeomResult where
  mx : Nat
  my : Nat
  n : Nat
  deriving DecidableEq, Repr

/-- `Geometry()` (43_zigzag_mux.md R265): nothing where it raises `Fault(GEOM)`. -/
def State.geometry (s : State) : Option GeomResult :=
  let nc := s.geo.ncomp.toNat
  if s.geo.imgW = 0 ∨ s.geo.imgH = 0 ∨ nc < 1 ∨ 4 < nc then none
  else if s.factorsLegal nc = false then none
  else if nc = 1 then
    let mx := ceilDiv s.geo.imgW.toNat 8
    let my := ceilDiv s.geo.imgH.toNat 8
    some { mx := mx, my := my, n := 64 * mx * my * s.bpm }
  else if 10 < s.bpm then none
  else
    let mx := ceilDiv s.geo.imgW.toNat (8 * s.hmax nc)
    let my := ceilDiv s.geo.imgH.toNat (8 * s.vmax nc)
    some { mx := mx, my := my, n := 64 * mx * my * s.bpm }

/-- `MCUX <- mx; MCUY <- my; NCOEF <- n` (43_zigzag_mux.md R264). -/
def State.setGeometry (s : State) (g : GeomResult) : State :=
  { s with
    geo.mcux := BitVec.ofNat 16 g.mx
    geo.mcuy := BitVec.ofNat 16 g.my
    geo.ncoef := BitVec.ofNat 32 g.n }

/-! ### The permutation (41_permutation.md R191, R192, R199) -/

/-- `NeedPerm()` passes: the permutation is complete and of the array's size (41_permutation.md R199). -/
def State.permReady (s : State) : Bool :=
  s.valid.perm && decide (s.f5.permN.toNat = s.geo.ncoef.toNat)

/-- `RngWord(OR)` of four bytes, oldest first (41_permutation.md R191). -/
def rngWordOr (signed : Bool) (b0 b1 b2 b3 : Byte) : Word :=
  if signed then
    b0.signExtend 32 ||| b1.signExtend 32 <<< 8 ||| b2.signExtend 32 <<< 16 ||| b3.signExtend 32 <<< 24
  else b3 ++ b2 ++ b1 ++ b0

/-- `RngWord(XOR)` of four bytes, oldest first (41_permutation.md R191, R192). -/
def rngWordXor (signed : Bool) (b0 b1 b2 b3 : Byte) : Word :=
  if signed then
    b0.signExtend 32 ^^^ b1.signExtend 32 <<< 8 ^^^ b2.signExtend 32 <<< 16 ^^^ b3.signExtend 32 <<< 24
  else b3 ++ b2 ++ b1 ++ b0

/-- `NextValue(m)` once the word is there: the signed remainder, corrected into `[0, m)` (41_permutation.md R191). -/
def boundedValue (w : Word) (m : Nat) : Nat :=
  let r := w.toInt.tmod m
  (if r < 0 then r + m else r).toNat

/-! ### Categories and extra bits (44_entropy_encoder.md R299, 45_entropy_decoder.md R362) -/

/-- `bitlen(m)` (00_scope.md R13). -/
def bitlen (m : Nat) : Nat := if m = 0 then 0 else Nat.log2 m + 1

/-- `Cat(v)` (44_entropy_encoder.md R299). -/
def category (v : Int) : Nat := bitlen v.natAbs

/-- `Extra(v)`: the `Cat(v)` low bits of `v`, or of `v − 1` for a negative `v` (44_entropy_encoder.md R299). -/
def extraBits (v : Int) : Nat := ((if 0 ≤ v then v else v - 1) % (2 ^ category v : Nat)).toNat

/-- `Extend(v, s)` (45_entropy_decoder.md R362). -/
def extend (v size : Nat) : Int := if v < 2 ^ (size - 1) then (v : Int) - 2 ^ size + 1 else v

/-! ### The F5 layer (46_f5_matrix.md R400, R409) -/

/-- `XB(v)`, the carried bit; nothing for 0 (46_f5_matrix.md R400). -/
def carriedBit (v : Int) : Option Bool :=
  if v = 0 then none
  else if 0 < v then some (decide (v % 2 = 1))
  else some (decide (v % 2 = 0))

/-- `DecMag(v)`: one step toward zero (46_f5_matrix.md R400). -/
def decMag (v : Int) : Int := if 0 < v then v - 1 else v + 1

/-- `min(PAYLEN, 0x7FFFFF)` (10_state.md R56). -/
def State.payLength (s : State) : Nat := min s.f5.paylen.toNat 0x7FFFFF

/-- The usable-coefficient test of an index: not DC and not zero (00_scope.md R17, 41_permutation.md R195). -/
def State.usable (s : State) (p : Nat) : Bool := decide (p % 64 ≠ 0) && decide (s.coefInt p ≠ 0)

end Sys2Proof.Machine
end

