-- ==== Sys2Proof/Machine/Control.lean ====
section
/-! DEFINITION. The control commands (40_control.md). A meaning is the command's body inside the execution frame of R182: it
ends in `retire`, in `faultEntry`, or in a wait. -/

namespace Sys2Proof.Machine

/-- NOP (40_control.md R180). -/
def execNop (s : State) : Out := .next (retire s)

/-- MARK (40_control.md R181). -/
def execMark (imm : BitVec 24) (s : State) : Out := .next (retire { s with mark := imm })

end Sys2Proof.Machine
end

