-- ==== Sys2Proof/Machine/Float.lean ====
section
/-! DEFINITION. IEEE 754 binary64 addition, subtraction, multiplication and division, rounded to nearest, ties to even
(00_scope.md R14), and the rounding of a value to an integer (42_transform_quant.md R228). Each operation computes the exact
result as an integer times a power of two and rounds once at the end. -/

namespace Sys2Proof.Machine

/-- What a binary64 encoding stands for: `fin neg m e` is ±m · 2^e. -/
inductive F64Value where
  | nan
  | inf (neg : Bool)
  | fin (neg : Bool) (m : Nat) (e : Int)
  deriving DecidableEq, Repr

/-- The value of an encoding: sign bit 63, exponent bits 62:52, fraction bits 51:0. -/
def f64Value (x : F64) : F64Value :=
  let bits := x.toNat
  let neg := decide (bits / 2 ^ 63 = 1)
  let ex : Nat := bits / 2 ^ 52 % 2 ^ 11
  let fr : Nat := bits % 2 ^ 52
  if ex = 2047 then (if fr = 0 then .inf neg else .nan)
  else if ex = 0 then .fin neg fr (-1074)
  else .fin neg (fr + 2 ^ 52) ((ex : Int) - 1075)

/-- Sign, exponent field and fraction as an encoding. -/
def f64Pack (neg : Bool) (ex fr : Nat) : F64 :=
  BitVec.ofNat 64 ((if neg then 2 ^ 63 else 0) + ex * 2 ^ 52 + fr)

/-- An infinity. -/
def f64Inf (neg : Bool) : F64 := f64Pack neg 2047 0

/-- A quiet NaN. Which one is not visible: only the product of an unwritten DCTBUF entry can be a NaN (log 19). -/
def f64Nan : F64 := f64Pack false 2047 (2 ^ 51)

/-- A signed zero. -/
def f64Zero (neg : Bool) : F64 := f64Pack neg 0 0

/-- `m / 2^k` rounded to an integer, to nearest, ties to even; `k ≥ 1`. -/
def roundShift (m k : Nat) : Nat :=
  let f := m / 2 ^ k
  let r := m % 2 ^ k
  let half := 2 ^ (k - 1)
  if half < r ∨ (r = half ∧ f % 2 = 1) then f + 1 else f

/-- The encoding of `mant · 2^q`, for a `mant` of at most 53 bits, where `q = −1074` if it has fewer than 53. -/
def f64OfParts (neg : Bool) (mant : Nat) (q : Int) : F64 :=
  if mant < 2 ^ 52 then f64Pack neg 0 mant
  else if 2047 ≤ q + 1075 then f64Inf neg
  else f64Pack neg (q + 1075).toNat (mant - 2 ^ 52)

/-- ±m · 2^e rounded to binary64, to nearest, ties to even (00_scope.md R14). -/
def f64Round (neg : Bool) (m : Nat) (e : Int) : F64 :=
  if m = 0 then f64Zero neg
  else
    let q : Int := max (e + (Nat.log2 m + 1 : Nat) - 53) (-1074)
    let mant := if q ≤ e then m * 2 ^ (e - q).toNat else roundShift m (q - e).toNat
    if mant = 2 ^ 53 then f64OfParts neg (2 ^ 52) (q + 1) else f64OfParts neg mant q

/-- `f64(n)`: the binary64 value of an integer (00_scope.md R14). -/
def f64OfInt (n : Int) : F64 := f64Round (decide (n < 0)) n.natAbs 0

/-- The signed integer ±m. -/
def signedNat (neg : Bool) (m : Nat) : Int := if neg then -(m : Int) else m

/-- The opposite sign. -/
def f64Neg (x : F64) : F64 := x ^^^ BitVec.ofNat 64 (2 ^ 63)

/-- `fadd` (00_scope.md R14). -/
def fadd (x y : F64) : F64 :=
  match f64Value x, f64Value y with
  | .nan, _ => f64Nan
  | _, .nan => f64Nan
  | .inf a, .inf b => if a = b then f64Inf a else f64Nan
  | .inf a, .fin _ _ _ => f64Inf a
  | .fin _ _ _, .inf b => f64Inf b
  | .fin a m e, .fin b n f =>
    let g := min e f
    let sum := signedNat a (m * 2 ^ (e - g).toNat) + signedNat b (n * 2 ^ (f - g).toNat)
    if sum = 0 then f64Zero (a && b) else f64Round (decide (sum < 0)) sum.natAbs g

/-- `fsub` (00_scope.md R14). -/
def fsub (x y : F64) : F64 := fadd x (f64Neg y)

/-- `fmul` (00_scope.md R14). -/
def fmul (x y : F64) : F64 :=
  match f64Value x, f64Value y with
  | .nan, _ => f64Nan
  | _, .nan => f64Nan
  | .inf a, .inf b => f64Inf (a != b)
  | .inf a, .fin b n _ => if n = 0 then f64Nan else f64Inf (a != b)
  | .fin a m _, .inf b => if m = 0 then f64Nan else f64Inf (a != b)
  | .fin a m e, .fin b n f => f64Round (a != b) (m * n) (e + f)

/-- `fdiv` (00_scope.md R14). The quotient is taken to at least 55 bits with a sticky last bit, so that rounding it is rounding
the exact quotient. -/
def fdiv (x y : F64) : F64 :=
  match f64Value x, f64Value y with
  | .nan, _ => f64Nan
  | _, .nan => f64Nan
  | .inf _, .inf _ => f64Nan
  | .inf a, .fin b _ _ => f64Inf (a != b)
  | .fin a _ _, .inf b => f64Zero (a != b)
  | .fin a m e, .fin b n f =>
    if n = 0 then (if m = 0 then f64Nan else f64Inf (a != b))
    else
      let k := Nat.log2 n + 56
      let quo := m * 2 ^ k / n
      let sticky := if m * 2 ^ k % n = 0 then 0 else 1
      f64Round (a != b) (2 * quo + sticky) (e - f - k - 1)

/-- The binary64 value nearest to a decimal literal: `n / 10^d` (00_scope.md R14). Both parts are exact, so the division's one
rounding is the rounding of the literal. -/
def f64Decimal (n d : Nat) : F64 := fdiv (f64OfInt n) (f64OfInt (10 ^ d : Nat))

/-- Floor plus the tie rule, for the rational `num / den` with `den > 0` (42_transform_quant.md R228). -/
def roundRatio (tie : TieRule) (num : Int) (den : Nat) : Int :=
  let f := num / (den : Int)
  let r := num - f * den
  if 2 * r < den then f
  else if den < 2 * r then f + 1
  else match tie with
    | .halfAway => if 0 < num then f + 1 else f
    | .halfUp => f + 1
    | .halfEven => if f % 2 = 0 then f else f + 1

/-- `ROUND(x)` (42_transform_quant.md R228). The rule is for a finite `x`: otherwise the result is a free value (log 9). -/
def roundF64 (tie : TieRule) (x : F64) : Int :=
  match f64Value x with
  | .nan => Config.roundNonFinite x
  | .inf _ => Config.roundNonFinite x
  | .fin neg m e =>
    if 0 ≤ e then signedNat neg (m * 2 ^ e.toNat)
    else roundRatio tie (signedNat neg m) (2 ^ (-e).toNat)

end Sys2Proof.Machine
end

