-- ==== Sys2Proof/Machine/Tables.lean ====
section
/-! DEFINITION. The constant tables of F5CORE: the zig-zag order, the base quantisation matrices, the AAN scale factors and
butterfly constants, and the fixed Huffman tables with their canonical codes. -/

namespace Sys2Proof.Machine

/-- `ZZ[k]`: the natural index of the k-th coefficient in zig-zag order (43_zigzag_mux.md R260). -/
def zzTable : List Nat :=
  [0, 1, 8, 16, 9, 2, 3, 10, 17, 24, 32, 25, 18, 11, 4, 5,
   12, 19, 26, 33, 40, 48, 41, 34, 27, 20, 13, 6, 7, 14, 21, 28,
   35, 42, 49, 56, 57, 50, 43, 36, 29, 22, 15, 23, 30, 37, 44, 51,
   58, 59, 52, 45, 38, 31, 39, 46, 53, 60, 61, 54, 47, 55, 62, 63]

/-- `ZZ[k]` (43_zigzag_mux.md R260). -/
def zz (k : Nat) : Nat := zzTable.getD k 0

/-- `ZZI[i]`: the zig-zag position of natural index `i`, the inverse of `ZZ` (43_zigzag_mux.md R260). -/
def zzi (i : Nat) : Nat := zzTable.idxOf i

/-- `QBASE_LUM`, the base matrix of table 0 (42_transform_quant.md R220). -/
def qbaseLum : List Nat :=
  [16, 11, 10, 16, 24, 40, 51, 61,
   12, 12, 14, 19, 26, 58, 60, 55,
   14, 13, 16, 24, 40, 57, 69, 56,
   14, 17, 22, 29, 51, 87, 80, 62,
   18, 22, 37, 56, 68, 109, 103, 77,
   24, 35, 55, 64, 81, 104, 113, 92,
   49, 64, 78, 87, 103, 121, 120, 101,
   72, 92, 95, 98, 112, 100, 103, 99]

/-- `QBASE_CHR`, the base matrix of table 1 (42_transform_quant.md R220). -/
def qbaseChr : List Nat :=
  [17, 18, 24, 47, 99, 99, 99, 99,
   18, 21, 26, 66, 99, 99, 99, 99,
   24, 26, 56, 99, 99, 99, 99, 99,
   47, 66, 99, 99, 99, 99, 99, 99,
   99, 99, 99, 99, 99, 99, 99, 99,
   99, 99, 99, 99, 99, 99, 99, 99,
   99, 99, 99, 99, 99, 99, 99, 99,
   99, 99, 99, 99, 99, 99, 99, 99]

/-- `AAN[0..7]` as binary64 (42_transform_quant.md R223): 1.0, 1.387039845, 1.306562965, 1.175875602, 1.0, 0.785694958, 0.541196100, 0.275899379. -/
def aanTable : List F64 :=
  [0x3FF0000000000000, 0x3FF63150B14861EF, 0x3FF4E7AE914D6FCA, 0x3FF2D062EF6C11AA,
   0x3FF0000000000000, 0x3FE92469C0A7BF3B, 0x3FE1517A7BC720BB, 0x3FD1A855DE72AB5D]

/-- `AAN[k]` (42_transform_quant.md R223). -/
def aanScale (k : Nat) : F64 := aanTable.getD k 0

/-- The butterfly constant 0.707106781 (42_transform_quant.md R224). -/
def butterfly707 : F64 := 0x3FE6A09E6665983E

/-- The butterfly constant 0.382683433 (42_transform_quant.md R224). -/
def butterfly382 : F64 := 0x3FD87DE2A75D2F39

/-- The butterfly constant 0.541196100 (42_transform_quant.md R224). -/
def butterfly541 : F64 := 0x3FE1517A7BC720BB

/-- The butterfly constant 1.306562965 (42_transform_quant.md R224). -/
def butterfly1306 : F64 := 0x3FF4E7AE914D6FCA

/-- The constant 1.0. -/
def f64One : F64 := 0x3FF0000000000000

/-- The constant 8.0. -/
def f64Eight : F64 := 0x4020000000000000

/-- The constant 128.0. -/
def f64OneTwentyEight : F64 := 0x4060000000000000

/-- A fixed Huffman table: BITS[1..16] and HUFFVAL (44_entropy_encoder.md R295). -/
structure HuffSpec where
  bits : List Nat
  huffval : List Nat
  deriving DecidableEq, Repr

/-- Table DC0, luminance DC (44_entropy_encoder.md R295). -/
def huffDc0 : HuffSpec where
  bits := [0, 1, 5, 1, 1, 1, 1, 1, 1, 0, 0, 0, 0, 0, 0, 0]
  huffval :=
    [0x00, 0x01, 0x02, 0x03, 0x04, 0x05, 0x06, 0x07, 0x08, 0x09, 0x0A, 0x0B]

/-- Table DC1, chrominance DC (44_entropy_encoder.md R295). -/
def huffDc1 : HuffSpec where
  bits := [0, 3, 1, 1, 1, 1, 1, 1, 1, 1, 1, 0, 0, 0, 0, 0]
  huffval :=
    [0x00, 0x01, 0x02, 0x03, 0x04, 0x05, 0x06, 0x07, 0x08, 0x09, 0x0A, 0x0B]

/-- Table AC0, luminance AC (44_entropy_encoder.md R295). -/
def huffAc0 : HuffSpec where
  bits := [0, 2, 1, 3, 3, 2, 4, 3, 5, 5, 4, 4, 0, 0, 1, 125]
  huffval :=
    [0x01, 0x02, 0x03, 0x00, 0x04, 0x11, 0x05, 0x12, 0x21, 0x31, 0x41, 0x06, 0x13, 0x51, 0x61, 0x07,
   0x22, 0x71, 0x14, 0x32, 0x81, 0x91, 0xA1, 0x08, 0x23, 0x42, 0xB1, 0xC1, 0x15, 0x52, 0xD1, 0xF0,
   0x24, 0x33, 0x62, 0x72, 0x82, 0x09, 0x0A, 0x16, 0x17, 0x18, 0x19, 0x1A, 0x25, 0x26, 0x27, 0x28,
   0x29, 0x2A, 0x34, 0x35, 0x36, 0x37, 0x38, 0x39, 0x3A, 0x43, 0x44, 0x45, 0x46, 0x47, 0x48, 0x49,
   0x4A, 0x53, 0x54, 0x55, 0x56, 0x57, 0x58, 0x59, 0x5A, 0x63, 0x64, 0x65, 0x66, 0x67, 0x68, 0x69,
   0x6A, 0x73, 0x74, 0x75, 0x76, 0x77, 0x78, 0x79, 0x7A, 0x83, 0x84, 0x85, 0x86, 0x87, 0x88, 0x89,
   0x8A, 0x92, 0x93, 0x94, 0x95, 0x96, 0x97, 0x98, 0x99, 0x9A, 0xA2, 0xA3, 0xA4, 0xA5, 0xA6, 0xA7,
   0xA8, 0xA9, 0xAA, 0xB2, 0xB3, 0xB4, 0xB5, 0xB6, 0xB7, 0xB8, 0xB9, 0xBA, 0xC2, 0xC3, 0xC4, 0xC5,
   0xC6, 0xC7, 0xC8, 0xC9, 0xCA, 0xD2, 0xD3, 0xD4, 0xD5, 0xD6, 0xD7, 0xD8, 0xD9, 0xDA, 0xE1, 0xE2,
   0xE3, 0xE4, 0xE5, 0xE6, 0xE7, 0xE8, 0xE9, 0xEA, 0xF1, 0xF2, 0xF3, 0xF4, 0xF5, 0xF6, 0xF7, 0xF8,
   0xF9, 0xFA]

/-- Table AC1, chrominance AC (44_entropy_encoder.md R295). -/
def huffAc1 : HuffSpec where
  bits := [0, 2, 1, 2, 4, 4, 3, 4, 7, 5, 4, 4, 0, 1, 2, 119]
  huffval :=
    [0x00, 0x01, 0x02, 0x03, 0x11, 0x04, 0x05, 0x21, 0x31, 0x06, 0x12, 0x41, 0x51, 0x07, 0x61, 0x71,
   0x13, 0x22, 0x32, 0x81, 0x08, 0x14, 0x42, 0x91, 0xA1, 0xB1, 0xC1, 0x09, 0x23, 0x33, 0x52, 0xF0,
   0x15, 0x62, 0x72, 0xD1, 0x0A, 0x16, 0x24, 0x34, 0xE1, 0x25, 0xF1, 0x17, 0x18, 0x19, 0x1A, 0x26,
   0x27, 0x28, 0x29, 0x2A, 0x35, 0x36, 0x37, 0x38, 0x39, 0x3A, 0x43, 0x44, 0x45, 0x46, 0x47, 0x48,
   0x49, 0x4A, 0x53, 0x54, 0x55, 0x56, 0x57, 0x58, 0x59, 0x5A, 0x63, 0x64, 0x65, 0x66, 0x67, 0x68,
   0x69, 0x6A, 0x73, 0x74, 0x75, 0x76, 0x77, 0x78, 0x79, 0x7A, 0x82, 0x83, 0x84, 0x85, 0x86, 0x87,
   0x88, 0x89, 0x8A, 0x92, 0x93, 0x94, 0x95, 0x96, 0x97, 0x98, 0x99, 0x9A, 0xA2, 0xA3, 0xA4, 0xA5,
   0xA6, 0xA7, 0xA8, 0xA9, 0xAA, 0xB2, 0xB3, 0xB4, 0xB5, 0xB6, 0xB7, 0xB8, 0xB9, 0xBA, 0xC2, 0xC3,
   0xC4, 0xC5, 0xC6, 0xC7, 0xC8, 0xC9, 0xCA, 0xD2, 0xD3, 0xD4, 0xD5, 0xD6, 0xD7, 0xD8, 0xD9, 0xDA,
   0xE2, 0xE3, 0xE4, 0xE5, 0xE6, 0xE7, 0xE8, 0xE9, 0xEA, 0xF2, 0xF3, 0xF4, 0xF5, 0xF6, 0xF7, 0xF8,
   0xF9, 0xFA]

/-- A Huffman code: its value and its length in bits. -/
structure HuffCode where
  code : Nat
  size : Nat
  deriving DecidableEq, Repr

/-- `n` codes of length `l` from `code` for the first `n` of `syms` (44_entropy_encoder.md R296, the inner loop). -/
def codesOfLength (l : Nat) : Nat → Nat → List Nat → List (Nat × HuffCode)
  | 0, _, _ => []
  | _ + 1, _, [] => []
  | n + 1, code, sym :: syms => (sym, { code := code, size := l }) :: codesOfLength l n (code + 1) syms

/-- Canonical code assignment from length `l` on (44_entropy_encoder.md R296): the code of each symbol, in HUFFVAL order. -/
def canonicalFrom (l code : Nat) : List Nat → List Nat → List (Nat × HuffCode)
  | [], _ => []
  | n :: bits, syms =>
    codesOfLength l n code syms ++ canonicalFrom (l + 1) (2 * (code + n)) bits (syms.drop n)

/-- `Canonical(BITS, HUFFVAL)` (44_entropy_encoder.md R296). -/
def canonical (t : HuffSpec) : List (Nat × HuffCode) := canonicalFrom 1 0 t.bits t.huffval

/-- Some length from `l` on receives a code `≥ 2^l` (45_entropy_decoder.md R351). -/
def overflowsFrom (l code : Nat) : List Nat → Bool
  | [] => false
  | n :: bits => (decide (0 < n) && decide (2 ^ l < code + n)) || overflowsFrom (l + 1) (2 * (code + n)) bits

/-- `Canonical(BITS, HUFFVAL)` overflows (45_entropy_decoder.md R351). -/
def canonicalOverflows (bits : List Nat) : Bool := overflowsFrom 1 0 bits

/-- The encoder's DC table `dt` (44_entropy_encoder.md R295). -/
def huffDc (dt : Fin 2) : HuffSpec := if dt = 0 then huffDc0 else huffDc1

/-- The encoder's AC table `ac` (44_entropy_encoder.md R295). -/
def huffAc (ac : Fin 2) : HuffSpec := if ac = 0 then huffAc0 else huffAc1

/-- `EHUF[table][sym]`: the code of a symbol, if the table has it (10_state.md R78). -/
def ehuf (t : HuffSpec) (sym : Nat) : Option HuffCode := (canonical t).lookup sym

end Sys2Proof.Machine
end

