-- ==== Sys2Proof/Machine/ZigZag.lean ====
section
/-! DEFINITION. The zig-zag reindexer and the coefficient array (43_zigzag_mux.md). -/

namespace Sys2Proof.Machine

/-- ZZFWD (43_zigzag_mux.md R261): entry k takes the value of natural index `ZZ[k]`. -/
def execZzfwd (blk : Nat) (s : State) : Out :=
  .next (
    if s.blockInside blk = false then faultEntry .coefrange s
    else retire (s.setCoefs (64 * blk) ((List.range 64).map (fun k => s.coefAt (64 * blk + zz k)))))

/-- ZZINV (43_zigzag_mux.md R262): entry `ZZ[k]` takes the value of position k. -/
def execZzinv (blk : Nat) (s : State) : Out :=
  .next (
    if s.blockInside blk = false then faultEntry .coefrange s
    else retire (s.setCoefs (64 * blk) ((List.range 64).map (fun i => s.coefAt (64 * blk + zzi i)))))

/-- GEOM (43_zigzag_mux.md R264). -/
def execGeom (s : State) : Out :=
  .next (
    match s.geometry with
    | none => faultEntry .geom s
    | some g => if s.cfg.coefDepth < g.n then faultEntry .coefovf s else retire (s.setGeometry g))

/-- BLKADDR (43_zigzag_mux.md R267). -/
def execBlkaddr (comp : Fin 4) (unit mcu : Nat) (s : State) : Out :=
  .next (
    if s.geo.ncomp.toNat ≤ comp.val ∨ s.unitsOf comp.val ≤ unit ∨ s.geo.mcux.toNat * s.geo.mcuy.toNat ≤ mcu then
      faultEntry .operand s
    else retire { s with result := BitVec.ofNat 32 (mcu * s.bpm + s.offsetOf comp.val + unit) })

/-- `for i in 0 .. NCOEF−1: COEF[i] <- 0` (43_zigzag_mux.md R268, 45_entropy_decoder.md R368). -/
def State.clearArray (s : State) : State := s.setCoefs 0 (List.replicate s.geo.ncoef.toNat 0)

/-- COEFCLR (43_zigzag_mux.md R268). -/
def execCoefclr (s : State) : Out := .next (retire s.clearArray)

end Sys2Proof.Machine
end

