-- ==== Sys2Proof/Machine/Decoder.lean ====
section
/-! DEFINITION. The entropy decoder and the bitstream parser (45_entropy_decoder.md). DECHDR is a state machine over bytes,
DecodeBlock one over bits; a move takes one byte or one bit, so a command resumes exactly where it waited (20_memory.md R123). -/

namespace Sys2Proof.Machine

/-! ### Segment parsers -/

/-- MAXCODE, MINCODE and VALPTR of table `j` from length `l` on (45_entropy_decoder.md R351, the loop). -/
def loadLengths (j : Nat) : Nat → Nat → Nat → List Nat → State → State
  | _, _, _, [], s => s
  | l, code, p, n :: bits, s =>
    if n = 0 then
      loadLengths j (l + 1) (2 * code) p bits
        { s with ram.dhMax := Memory.write s.ram.dhMax (17 * j + l) (BitVec.ofInt 32 (-1)) }
    else
      loadLengths j (l + 1) (2 * (code + n)) (p + n) bits
        { s with
          ram.dhPtr := Memory.write s.ram.dhPtr (17 * j + l) (BitVec.ofNat 32 p)
          ram.dhMin := Memory.write s.ram.dhMin (17 * j + l) (BitVec.ofNat 32 code)
          ram.dhMax := Memory.write s.ram.dhMax (17 * j + l) (BitVec.ofNat 32 (code + n - 1)) }

/-- `VALID.DHT_VALID[j] <- v`. -/
def State.setDhtValid (s : State) (j : Nat) (v : Bool) : State :=
  { s with valid.dht := s.valid.dht.set j v }

/-- Load decoder table `j` (45_entropy_decoder.md R351). -/
def loadTable (j : Nat) (bits : List Nat) (vals : List Byte) (s : State) : State :=
  let s' := loadLengths j 1 0 0 bits s
  State.setDhtValid { s' with ram.dhVal := Memory.writeBlock s'.ram.dhVal (256 * j) vals } j true

/-- `ParseDHT` of what is left of the payload (45_entropy_decoder.md R351). The first argument bounds the entries. -/
def parseDht : Nat → List Byte → State → State
  | 0, _, s => s
  | _ + 1, [], s => s
  | fuel + 1, t :: rest, s =>
    let tc := t.toNat / 16
    let th := t.toNat % 16
    if 1 < tc ∨ 1 < th ∨ rest.length < 16 then s.warns .baddht
    else
      let bits := (rest.take 16).map BitVec.toNat
      let total := bits.sum
      let after := rest.drop 16
      if 256 < total ∨ after.length < total then s.warns .baddht
      else
        let j := 2 * tc + th
        parseDht fuel (after.drop total)
          (if canonicalOverflows bits then (s.warns .baddht).setDhtValid j false
           else loadTable j bits (after.take total) s)

/-- The 16-bit entry of zig-zag position `k` in a DQT table of precision `pq` (45_entropy_decoder.md R353). -/
def dqtEntry (pq : Nat) (p : List Byte) (k : Nat) : BitVec 16 :=
  if pq = 0 then (p.getD k 0).setWidth 16 else (p.getD (2 * k) 0) ++ (p.getD (2 * k + 1) 0)

/-- `ParseDQT` of what is left of the payload (45_entropy_decoder.md R353). The first argument bounds the entries. -/
def parseDqt : Nat → List Byte → State → State
  | 0, _, s => s
  | _ + 1, [], s => s
  | fuel + 1, t :: rest, s =>
    let pq := t.toNat / 16
    let tq := t.toNat % 16
    let size := 64 * (pq + 1)
    if 1 < pq ∨ 3 < tq ∨ rest.length < size then s.warns .baddqt
    else
      parseDqt fuel (rest.drop size)
        { s with ram.qt := Memory.writeBlock s.ram.qt (64 * tq) ((List.range 64).map (fun i => dqtEntry pq rest (zzi i))) }

/-- Byte `i` of a payload as a number. -/
def byteAt (p : List Byte) (i : Nat) : Nat := (p.getD i 0).toNat

/-- The component register SOF0 gives component `i` (45_entropy_decoder.md R352). -/
def sofComponent (p : List Byte) (i : Nat) : CompCfg where
  cid := p.getD (6 + 3 * i) 0
  h := BitVec.ofNat 4 (byteAt p (7 + 3 * i) / 16)
  v := BitVec.ofNat 4 (byteAt p (7 + 3 * i))
  tq := BitVec.ofNat 2 (byteAt p (8 + 3 * i))
  td := 0
  ta := 0

/-- Write the components below `n` from SOF0 (45_entropy_decoder.md R352). -/
def sofComponents (p : List Byte) : Nat → Quad CompCfg → Quad CompCfg
  | 0, q => q
  | i + 1, q => (sofComponents p i q).set i (sofComponent p i)

/-- The sum of `H_i·V_i` over the components below `n` (45_entropy_decoder.md R352). -/
def sofUnits (p : List Byte) (n : Nat) : Nat :=
  ((List.range n).map (fun i => byteAt p (7 + 3 * i) / 16 * (byteAt p (7 + 3 * i) % 16))).sum

/-- Every sampling factor in 1 to 4 and every table selector at most 3 (45_entropy_decoder.md R352). -/
def sofLegal (p : List Byte) (n : Nat) : Bool :=
  (List.range n).all (fun i =>
    let h := byteAt p (7 + 3 * i) / 16
    let v := byteAt p (7 + 3 * i) % 16
    decide (1 ≤ h ∧ h ≤ 4 ∧ 1 ≤ v ∧ v ≤ 4 ∧ byteAt p (8 + 3 * i) ≤ 3))

/-- `ParseSOF0(P)` (45_entropy_decoder.md R352). -/
def parseSof0 (p : List Byte) (s : State) : State :=
  if p.length < 6 ∨ p.length < 6 + 3 * byteAt p 5 then s.warns .badframe
  else
    let y := 256 * byteAt p 1 + byteAt p 2
    let x := 256 * byteAt p 3 + byteAt p 4
    let nf := byteAt p 5
    if byteAt p 0 ≠ 8 ∨ nf < 1 ∨ 4 < nf ∨ x = 0 ∨ y = 0 ∨ sofLegal p nf = false ∨ (1 < nf ∧ 10 < sofUnits p nf) then
      s.warns .badframe
    else
      { s with
        geo.imgW := BitVec.ofNat 16 x
        geo.imgH := BitVec.ofNat 16 y
        geo.ncomp := BitVec.ofNat 3 nf
        geo.comp := sofComponents p nf s.geo.comp
        seen.sof := true }

/-- `ParseDRI(P)` (45_entropy_decoder.md R355). -/
def parseDri (p : List Byte) (s : State) : State :=
  if p.length = 2 then { s with geo.rstint := BitVec.ofNat 16 (256 * byteAt p 0 + byteAt p 1) }
  else s.warns .badframe

/-- SOS names the frame's components in order, with table ids 0 or 1 (45_entropy_decoder.md R354). -/
def sosMatches (p : List Byte) (s : State) (n : Nat) : Bool :=
  (List.range n).all (fun j =>
    decide (p.getD (1 + 2 * j) 0 = (s.geo.comp.get j).cid ∧ byteAt p (2 + 2 * j) / 16 ≤ 1 ∧ byteAt p (2 + 2 * j) % 16 ≤ 1))

/-- Every table SOS names is loaded (45_entropy_decoder.md R354). -/
def sosTablesLoaded (p : List Byte) (s : State) (n : Nat) : Bool :=
  (List.range n).all (fun j =>
    s.valid.dht.get (byteAt p (2 + 2 * j) / 16) && s.valid.dht.get (2 + byteAt p (2 + 2 * j) % 16))

/-- A one-bit table id as a selector. -/
def selector (n : Nat) : Fin 2 := ⟨n % 2, Nat.mod_lt _ (by decide)⟩

/-- Write TD and TA of the components below `n` from SOS (45_entropy_decoder.md R354). -/
def sosTables (p : List Byte) : Nat → Quad CompCfg → Quad CompCfg
  | 0, q => q
  | j + 1, q =>
    let q' := sosTables p j q
    q'.set j { q'.get j with td := selector (byteAt p (2 + 2 * j) / 16), ta := selector (byteAt p (2 + 2 * j)) }

/-- `ParseSOS(P)` and DECHDR's end after it (45_entropy_decoder.md R350, R354). `Geometry()` cannot fault here, because
ParseSOF0 checked its conditions; if it did, it would raise its own fault (log 23). -/
def parseSos (p : List Byte) (s : State) : BodyStep HdrPhase :=
  let ns := byteAt p 0
  if s.seen.sof = false then .done (s.warns .nosof)
  else if p.length < 1 ∨ p.length ≠ 1 + 2 * ns + 3 then .done (s.warns .badframe)
  else if ns ≠ s.geo.ncomp.toNat then .done (s.warns .badframe)
  else if sosMatches p s ns = false then .done (s.warns .badframe)
  else if sosTablesLoaded p s ns = false then .done (s.warns .notable)
  else
    let s' := { s with geo.comp := sosTables p ns s.geo.comp }
    match s'.geometry with
    | none => .raise .geom s'
    | some g =>
      if s'.cfg.coefDepth < g.n then .raise .coefovf s'
      else
        let s'' := s'.setGeometry g
        .done { s'' with seen.sos := true }

/-- The segment of marker `m` with payload `p`, and what DECHDR does next (45_entropy_decoder.md R350). -/
def parseSegment (m : Byte) (p : List Byte) (s : State) : BodyStep HdrPhase :=
  if m = 0xDB then .go .search (parseDqt p.length p s)
  else if m = 0xC4 then .go .search (parseDht p.length p s)
  else if m = 0xC0 then .go .search (parseSof0 p s)
  else if m = 0xDD then .go .search (parseDri p s)
  else if m = 0xDA then parseSos p s
  else if (0xE0 ≤ m.toNat ∧ m.toNat ≤ 0xEF) ∨ m = 0xFE then .go .search s
  else .go .search (s.warns .unkmarker)

/-! ### DECHDR -/

/-- The marker codes that cannot start a header segment (45_entropy_decoder.md R340). -/
def strayMarker (m : Byte) : Bool :=
  decide (m = 0x00 ∨ m = 0x01 ∨ (0xD0 ≤ m.toNat ∧ m.toNat ≤ 0xD7))

/-- One byte of the header (45_entropy_decoder.md R340, R350). -/
def hdrByte (b : Byte) : HdrPhase → State → BodyStep HdrPhase
  | .search, s => if b = 0xFF then .go .marker s else .go .search (s.warns .junk)
  | .marker, s =>
    if b = 0xFF then .go .marker s
    else if strayMarker b then .go .search (s.warns .junk)
    else if b = 0xD8 then .go .search { s with seen.soi := true }
    else if b = 0xD9 then .done (State.warns { s with seen.eoi := true } .nosos)
    else .go (.lenHi b) s
  | .lenHi m, s => .go (.lenLo m b) s
  | .lenLo m hi, s =>
    let len := 256 * hi.toNat + b.toNat
    if len < 2 then .go .search (s.warns .junk)
    else if len = 2 then parseSegment m [] s
    else .go (.payload m (len - 2) []) s
  | .payload m left got, s =>
    if left ≤ 1 then parseSegment m ((b :: got).reverse) s
    else .go (.payload m (left - 1) (b :: got)) s

/-- One move of DECHDR: read a byte, or end the header at the end of the input (45_entropy_decoder.md R350). -/
def hdrStep (p : HdrPhase) (s : State) : BodyStep HdrPhase :=
  match readIn s with
  | .wait => .wait .inp p s
  | .eos => .done (s.warns .nosos)
  | .byte b s' => hdrByte b p s'

/-- Run DECHDR up to its end or its next wait. Every move but the last takes a byte. -/
def runDechdr (p : HdrPhase) (s : State) : State :=
  drive (fun p => .decHdr p) hdrStep (s.fifo.inp.length + 1) p s

/-- DECHDR's first effects (45_entropy_decoder.md R350). -/
def hdrInit (s : State) : State :=
  { s with
    seen := Seen.reset
    valid.dht := Quad.all false
    geo.rstint := 0
    reader.bitcnt := 0
    reader.latch := .empty }

/-- DECHDR (45_entropy_decoder.md R350). -/
def execDechdr (s : State) : Out := .next (runDechdr .search (hdrInit s))

/-! ### The bit reader -/

/-- One move of NEXTBIT. -/
inductive BitStep where
  /-- The next bit. -/
  | bit (b : Bool) (s : State)
  /-- `NONE`: the data has ended. -/
  | none (s : State)
  /-- A byte was taken and the bit is not there yet; `ff` says it was a `0xFF` whose successor decides. -/
  | more (ff : Bool) (s : State)
  | wait

/-- Write the latch. -/
def State.setLatch (s : State) (l : Latch) : State := { s with reader.latch := l }

/-- Load a data byte: `BITBUF <- b; BITCNT <- 8` (45_entropy_decoder.md R360). -/
def State.loadByte (s : State) (b : Byte) : State := { s with reader.bitbuf := b, reader.bitcnt := 8 }

/-- NEXTBIT, one byte or one bit at a time (45_entropy_decoder.md R360). -/
def bitStep (ff : Bool) (s : State) : BitStep :=
  if 0 < s.reader.bitcnt then
    .bit (s.reader.bitbuf.getLsbD (s.reader.bitcnt - 1)) { s with reader.bitcnt := s.reader.bitcnt - 1 }
  else match s.reader.latch with
    | .marker _ => .none s
    | .eos => .none s
    | .empty =>
      match readIn s with
      | .wait => .wait
      | .eos => .none (s.setLatch .eos)
      | .byte b s' =>
        if b = 0xFF then .more true s'
        else if ff = false then .more false (s'.loadByte b)
        else if b = 0x00 then .more false (s'.loadByte 0xFF)
        else .none (s'.setLatch (.marker b))

/-- What one bit makes of a DECODE in progress (45_entropy_decoder.md R363). -/
inductive SymStep where
  | more (code len : Nat)
  | bad
  | sym (v : Nat)
  deriving DecidableEq, Repr

/-- One bit of DECODE(j), after `len` bits of value `code` (45_entropy_decoder.md R363). -/
def decodeBit (s : State) (j code len : Nat) (b : Bool) : SymStep :=
  let code' := 2 * code + bitOf b
  let len' := len + 1
  if s.maxcodeAt j len' < (code' : Int) then (if 16 ≤ len' then .bad else .more code' len')
  else .sym (s.huffvalAt j (s.valptrAt j len' + code' - s.mincodeAt j len')).toNat

/-! ### DecodeBlock -/

/-- How DecodeBlock ends (45_entropy_decoder.md R365). -/
inductive BlkEnd where
  | ok | short | bad
  deriving DecidableEq, Repr

/-- One move of DecodeBlock. -/
inductive BlkStep where
  | go (ff : Bool) (p : BlkPhase) (s : State)
  | wait
  | ended (e : BlkEnd) (s : State)

/-- `for i in 0 .. 63: COEF[b + i] <- 0` (45_entropy_decoder.md R365). -/
def beginBlock (blk : Nat) (s : State) : State := s.setCoefs (64 * blk) (List.replicate 64 0)

/-- The loop test `k < 64` (45_entropy_decoder.md R365). -/
def nextAc (k : Nat) (s : State) : BlkStep :=
  if k < 64 then .go false (.acCode k 0 0) s else .ended .ok s

/-- The DC difference is known (45_entropy_decoder.md R365). -/
def dcDone (c : BlkCtx) (diff : Int) (s : State) : BlkStep :=
  let v := s.coder.pred.get c.comp.val + BitVec.ofInt 16 diff
  nextAc 1 ((s.setPred c.comp.val v).setCoef (64 * c.blk) v.toInt)

/-- The DC symbol `t` is known (45_entropy_decoder.md R365). -/
def dcSymbol (c : BlkCtx) (t : Nat) (s : State) : BlkStep :=
  if 11 < t then .ended .bad s
  else if t = 0 then dcDone c 0 s
  else .go false (.dcBits t 0 t) s

/-- The AC symbol `rs` for position `k` is known (45_entropy_decoder.md R365). -/
def acSymbol (k rs : Nat) (s : State) : BlkStep :=
  let r := rs / 16
  let size := rs % 16
  if size = 0 then (if r = 15 then nextAc (k + 16) s else .ended .ok s)
  else if 63 < k + r ∨ 10 < size then .ended .bad s
  else .go false (.acBits (k + r) size 0 size) s

/-- One bit of DecodeBlock (45_entropy_decoder.md R361 to R365). -/
def blkBit (c : BlkCtx) (b : Bool) : BlkPhase → State → BlkStep
  | .dcCode code len, s =>
    match decodeBit s c.dt.val code len b with
    | .more code' len' => .go false (.dcCode code' len') s
    | .bad => .ended .bad s
    | .sym t => dcSymbol c t s
  | .dcBits size value left, s =>
    if left ≤ 1 then dcDone c (extend (2 * value + bitOf b) size) s
    else .go false (.dcBits size (2 * value + bitOf b) (left - 1)) s
  | .acCode k code len, s =>
    match decodeBit s (2 + c.ac.val) code len b with
    | .more code' len' => .go false (.acCode k code' len') s
    | .bad => .ended .bad s
    | .sym rs => acSymbol k rs s
  | .acBits k size value left, s =>
    if left ≤ 1 then nextAc (k + 1) (s.setCoef (64 * c.blk + zz k) (extend (2 * value + bitOf b) size))
    else .go false (.acBits k size (2 * value + bitOf b) (left - 1)) s

/-- One move of DecodeBlock: a byte, a bit, or the end of the data (45_entropy_decoder.md R365). -/
def blkStep (c : BlkCtx) (ff : Bool) (p : BlkPhase) (s : State) : BlkStep :=
  match bitStep ff s with
  | .wait => .wait
  | .none s' => .ended .short s'
  | .more ff' s' => .go ff' p s'
  | .bit b s' => blkBit c b p s'

/-! ### DECBLK -/

/-- The end of DECBLK (45_entropy_decoder.md R366). -/
def decblkEnd : BlkEnd → State → State
  | .ok, s => { s with result := 0 }
  | .short, s => { s.warns .shorttail with result := 1 }
  | .bad, s => { s.warns .badcode with result := 2 }

/-- The progress of DECBLK: its operands, and where DecodeBlock stands. -/
structure DecblkAt where
  ctx : BlkCtx
  ff : Bool
  phase : BlkPhase
  deriving DecidableEq, Repr

/-- One move of DECBLK (45_entropy_decoder.md R366). -/
def decblkStep (p : DecblkAt) (s : State) : BodyStep DecblkAt :=
  match blkStep p.ctx p.ff p.phase s with
  | .go ff ph s' => .go { p with ff := ff, phase := ph } s'
  | .wait => .wait .inp p s
  | .ended e s' => .done (decblkEnd e s')

/-- Run DECBLK up to its end or its next wait. A move takes a bit or a byte. -/
def runDecblk (p : DecblkAt) (s : State) : State :=
  drive (fun p => .decBlk p.ctx p.ff p.phase) decblkStep (9 * s.fifo.inp.length + s.reader.bitcnt + 2) p s

/-- DECBLK (45_entropy_decoder.md R366). -/
def execDecblk (comp : Fin 4) (dt ac : Fin 2) (blk : Nat) (s : State) : Out :=
  .next (
    if s.blockInside blk = false then faultEntry .coefrange s
    else if s.valid.dht.get dt.val = false ∨ s.valid.dht.get (2 + ac.val) = false then
      retire { s.warns .notable with result := 3 }
    else
      runDecblk { ctx := { blk := blk, comp := comp, dt := dt, ac := ac }, ff := false, phase := .dcCode 0 0 }
        (beginBlock blk s))

/-! ### DECSCAN -/

/-- One move of FindMarker (45_entropy_decoder.md R364). -/
inductive MarkStep where
  | go (ff : Bool) (s : State)
  | wait
  /-- The marker or the end of the stream, which stays latched. -/
  | found (l : Latch) (s : State)

/-- FindMarker after its `BITCNT <- 0`, one byte at a time (45_entropy_decoder.md R364). -/
def markStep (ff : Bool) (s : State) : MarkStep :=
  match s.reader.latch with
  | .marker m => .found (.marker m) s
  | .eos => .found .eos s
  | .empty =>
    match readIn s with
    | .wait => .wait
    | .eos => .found .eos (s.setLatch .eos)
    | .byte b s' =>
      if b = 0xFF then .go true s'
      else if ff = false then .go false s'
      else if b = 0x00 then .go false s'
      else .found (.marker b) (s'.setLatch (.marker b))

/-- `BITCNT <- 0`, the start of FindMarker (45_entropy_decoder.md R364). -/
def State.alignBits (s : State) : State := { s with reader.bitcnt := 0 }

/-- The latch holds one of RST0 to RST7 (45_entropy_decoder.md R367). -/
def isRestart : Latch → Bool
  | .marker m => decide (0xD0 ≤ m.toNat ∧ m.toNat ≤ 0xD7)
  | .empty => false
  | .eos => false

/-- Restart handling once FindMarker has its marker (45_entropy_decoder.md R367). -/
def restartFound (l : Latch) (s : State) : State :=
  State.clearPreds (if isRestart l then s.setLatch .empty else s.warns .rstmiss)

/-- The end of DECSCAN once FindMarker has its marker (45_entropy_decoder.md R368). -/
def tailFound (l : Latch) (s : State) : State :=
  if l = .marker 0xD9 then State.setLatch { s with seen.eoi := true } .empty else s.warns .noeoi

/-- `nmcu`, `NCOEF div (64·BPM)`; a free value when `BPM = 0` (45_entropy_decoder.md R368; log 10). -/
def State.mcuCount (s : State) : Nat :=
  if s.bpm = 0 then Config.mcusWithoutBlocks s.geo.ncoef else s.geo.ncoef.toNat / (64 * s.bpm)

/-- The operands of block `j` of MCU `m` (43_zigzag_mux.md R266, R269; 45_entropy_decoder.md R368). -/
def scanBlock (s : State) (m j : Nat) : BlkCtx :=
  let c := s.componentOf j
  let cfg := s.geo.comp.get c
  { blk := m * s.bpm + j, comp := ⟨c % 4, Nat.mod_lt _ (by decide)⟩, dt := cfg.td, ac := cfg.ta }

/-- A restart marker is due before MCU `m` (45_entropy_decoder.md R367). -/
def restartDue (s : State) (m : Nat) : Bool :=
  decide (s.geo.rstint ≠ 0 ∧ 0 < m ∧ m % s.geo.rstint.toNat = 0)

/-- One move of DECSCAN (45_entropy_decoder.md R367, R368). -/
def scanStep : ScanPhase → State → BodyStep ScanPhase
  | .mcu m, s =>
    if s.mcuCount ≤ m then .go (.tail false) s.alignBits
    else if restartDue s m then .go (.restart m false) s.alignBits
    else .go (.block m 0) s
  | .restart m ff, s =>
    match markStep ff s with
    | .go ff' s' => .go (.restart m ff') s'
    | .wait => .wait .inp (.restart m ff) s
    | .found l s' => .go (.block m 0) (restartFound l s')
  | .block m j, s =>
    if s.bpm ≤ j then .go (.mcu (m + 1)) s
    else .go (.bits m j false (.dcCode 0 0)) (beginBlock (scanBlock s m j).blk s)
  | .bits m j ff p, s =>
    match blkStep (scanBlock s m j) ff p s with
    | .go ff' p' s' => .go (.bits m j ff' p') s'
    | .wait => .wait .inp (.bits m j ff p) s
    | .ended .ok s' => .go (.block m (j + 1)) s'
    | .ended .short s' => .go (.tail false) (s'.warns .shorttail).alignBits
    | .ended .bad s' => .done (s'.warns .badcode)
  | .tail ff, s =>
    match markStep ff s with
    | .go ff' s' => .go (.tail ff') s'
    | .wait => .wait .inp (.tail ff) s
    | .found l s' => .done (tailFound l s')

/-- Run DECSCAN up to its end or its next wait. A move takes a bit or a byte, or passes between blocks; where the MCUs hold no
blocks, as many moves as there are MCUs may be needed, and the core's next move goes on (log 4). -/
def runDecscan (p : ScanPhase) (s : State) : State :=
  drive (fun p => .decScan p) scanStep (32 * (s.fifo.inp.length + s.reader.bitcnt + 4)) p s

/-- DECSCAN's first effects (45_entropy_decoder.md R368). -/
def scanInit (s : State) : State :=
  { s.clearArray.clearPreds with reader.bitcnt := 0, reader.latch := .empty }

/-- DECSCAN (45_entropy_decoder.md R368). -/
def execDecscan (s : State) : Out :=
  .next (if s.seen.sos = false then retire (s.warns .nosos) else runDecscan (.mcu 0) (scanInit s))

end Sys2Proof.Machine
end

