-- ==== Sys2Proof/Machine/Encoder.lean ====
section
/-! DEFINITION. The entropy encoder and bit packer (44_entropy_encoder.md). An encoder command is a state machine over the bytes it
pushes: its effects come in the pseudocode's order (20_memory.md R131), and one that waits on the OUT FIFO holds what is still
to do as its progress (log 5). -/

namespace Sys2Proof.Machine

/-! ### The bit packer -/

/-- `PUTBUF` and `PUTBITS` as numbers (10_state.md R51). -/
structure Packer where
  buf : Nat
  bits : Nat
  deriving DecidableEq, Repr

/-- The packer's registers. -/
def State.packer (s : State) : Packer := { buf := s.coder.putbuf.toNat, bits := s.coder.putbits.toNat }

/-- Write the packer's registers. -/
def State.setPacker (s : State) (p : Packer) : State :=
  { s with coder.putbuf := BitVec.ofNat 24 p.buf, coder.putbits := BitVec.ofNat 5 p.bits }

/-- A byte the bit packer pushes, with the stuffed `0x00` after a `0xFF` (44_entropy_encoder.md R292). -/
def stuffed (c : Byte) : List Byte := if c = 0xFF then [c, 0x00] else [c]

/-- The top `n` bytes of the 24-bit accumulator, stuffed, and what is left of it (44_entropy_encoder.md R291, the loop). -/
def takeBytes : Nat → Nat → List Byte × Nat
  | 0, acc => ([], acc)
  | n + 1, acc =>
    let r := takeBytes n (acc * 2 ^ 8 % 2 ^ 24)
    (stuffed (BitVec.ofNat 8 (acc / 2 ^ 16)) ++ r.1, r.2)

/-- `BufBits(code, size)` (44_entropy_encoder.md R291): the bytes it pushes and the packer after. -/
def bufBits (code size : Nat) (p : Packer) : List Byte × Packer :=
  let v := code % 2 ^ size
  let pb := p.bits + size
  let acc := (v * 2 ^ (24 - pb) ||| p.buf) % 2 ^ 24
  let r := takeBytes (pb / 8) acc
  (r.1, { buf := r.2, bits := pb % 8 })

/-- The FLUSH body (44_entropy_encoder.md R293): the bytes it pushes. The packer is emptied after them. -/
def flushBytes (padbit : Bool) (p : Packer) : List Byte :=
  if p.bits = 0 then []
  else stuffed (BitVec.ofNat 8 (p.buf / 2 ^ 16 ||| (if padbit then 0xFF / 2 ^ p.bits else 0)))

/-! ### Block coding -/

/-- The (code, size) of a symbol. Every symbol a codable block needs has one (44_entropy_encoder.md R295). -/
def codeOf (t : HuffSpec) (sym : Nat) : Nat × Nat :=
  match ehuf t sym with
  | some c => (c.code, c.size)
  | none => (0, 0)

/-- The codes of the AC values in zig-zag order, after a run of `r` zeros (44_entropy_encoder.md R300, the loop). -/
def acCodes (t : HuffSpec) : Nat → List Int → List (Nat × Nat)
  | r, [] => if 0 < r then [codeOf t 0x00] else []
  | r, v :: vs =>
    if v = 0 then acCodes t (r + 1) vs
    else
      List.replicate (r / 16) (codeOf t 0xF0)
        ++ codeOf t (r % 16 * 16 + category v) :: (extraBits v, category v) :: acCodes t 0 vs

/-- The codes of the DC difference (44_entropy_encoder.md R300). -/
def dcCodes (t : HuffSpec) (diff : Int) : List (Nat × Nat) :=
  codeOf t (category diff) :: (if diff = 0 then [] else [(extraBits diff, category diff)])

/-- The AC values of a block in zig-zag order, `COEF[b + ZZ[k]]` for k = 1 to 63 (44_entropy_encoder.md R300). -/
def acValues (blk : Nat) (s : State) : List Int :=
  (List.range 63).map (fun k => s.coefInt (64 * blk + zz (k + 1)))

/-- `COEF[b] − PRED[COMP]`, an unbounded integer (44_entropy_encoder.md R300). -/
def dcDiff (comp blk : Nat) (s : State) : Int := s.coefInt (64 * blk) - (s.coder.pred.get comp).toInt

/-- Every category of the block has a code (44_entropy_encoder.md R300, the checks before any write). -/
def codable (comp blk : Nat) (s : State) : Bool :=
  decide (category (dcDiff comp blk s) ≤ 11) && (acValues blk s).all (fun v => decide (category v ≤ 10))

/-- The (code, size) pairs ENCBLK appends for a block (44_entropy_encoder.md R300). -/
def blockCodes (comp : Nat) (dt ac : Fin 2) (blk : Nat) (s : State) : List (Nat × Nat) :=
  dcCodes (huffDc dt) (dcDiff comp blk s) ++ acCodes (huffAc ac) 0 (acValues blk s)

/-! ### Running an encoder command -/

/-- The next block of ENCSCAN, or its FLUSH body after the last (44_entropy_encoder.md R301). A block is checked first, then its
predictor is written, and its codes follow (R300). -/
def scanNext (b : Nat) (s : State) : BodyStep (List Byte × Ending) :=
  if s.geo.ncoef.toNat / 64 ≤ b then .go (flushBytes s.ctrl.padbit s.packer, .flushed) s
  else
    let c := s.componentOf (b % s.bpm)
    if codable c b s = false then .raise .nocode s
    else
      .go ([], .codes (blockCodes c (s.geo.comp.get c).td (s.geo.comp.get c).ta b s) (some (b + 1)))
        (s.setPred c (s.coefAt (64 * b)))

/-- The bytes at hand are pushed: write the packer, take the next code or the next block, or end the command. -/
def emitNext : Ending → State → BodyStep (List Byte × Ending)
  | .retire, s => .done s
  | .flushed, s => .done (s.setPacker { buf := 0, bits := 0 })
  | .buffered code size rest scan, s => .go ([], .codes rest scan) (s.setPacker (bufBits code size s.packer).2)
  | .codes ((code, size) :: rest) scan, s => .go ((bufBits code size s.packer).1, .buffered code size rest scan) s
  | .codes [] none, s => .done s
  | .codes [] (some b), s => scanNext b s

/-- One move of an encoder command: push a byte, or go on (20_memory.md R123, R131). -/
def emitStep : List Byte × Ending → State → BodyStep (List Byte × Ending)
  | ([], e), s => emitNext e s
  | (b :: bs, e), s =>
    match pushOut b s with
    | none => .wait .out (b :: bs, e) s
    | some s' => .go (bs, e) s'

/-- The (code, size) pairs still to append. -/
def Ending.pairs : Ending → List (Nat × Nat)
  | .retire => []
  | .flushed => []
  | .buffered _ _ rest _ => rest
  | .codes rest _ => rest

/-- The block ENCSCAN codes next. -/
def Ending.nextBlock : Ending → Option Nat
  | .retire => none
  | .flushed => none
  | .buffered _ _ _ scan => scan
  | .codes _ scan => scan

/-- The blocks ENCSCAN has still to code. -/
def Ending.blocksLeft (e : Ending) (s : State) : Nat :=
  match e.nextBlock with
  | none => 0
  | some b => s.geo.ncoef.toNat / 64 - b

/-- Run an encoder command up to its end or its next wait. A code takes at most 12 moves and a block at most 318 codes, so the
command never pauses. -/
def runEmit (p : List Byte × Ending) (s : State) : State :=
  drive (fun p => .emit p.1 p.2) emitStep (p.1.length + 12 * p.2.pairs.length + 4096 * p.2.blocksLeft s + 8) p s

/-- PUTBITS (44_entropy_encoder.md R290). -/
def execPutbits (size : Nat) (code : BitVec 16) (s : State) : Out :=
  .next (if 16 < size then faultEntry .operand s else runEmit ([], .codes [(code.toNat, size)] none) s)

/-- FLUSH (44_entropy_encoder.md R293). -/
def execFlush (s : State) : Out := .next (runEmit (flushBytes s.ctrl.padbit s.packer, .flushed) s)

/-- EMITRAW (44_entropy_encoder.md R294). -/
def execEmitraw (b : Byte) (s : State) : Out :=
  .next (if s.coder.putbits ≠ 0 then faultEntry .unaligned s else runEmit ([b], .retire) s)

/-- PREDCLR (44_entropy_encoder.md R298). -/
def execPredclr (s : State) : Out := .next (retire s.clearPreds)

/-- ENCBLK (44_entropy_encoder.md R300): the checks, then the predictor, then the codes. -/
def execEncblk (comp : Fin 4) (dt ac : Fin 2) (blk : Nat) (s : State) : Out :=
  .next (
    if s.blockInside blk = false then faultEntry .coefrange s
    else if codable comp.val blk s = false then faultEntry .nocode s
    else runEmit ([], .codes (blockCodes comp.val dt ac blk s) none) (s.setPred comp.val (s.coefAt (64 * blk))))

/-- ENCSCAN (44_entropy_encoder.md R301). -/
def execEncscan (s : State) : Out :=
  .next (
    match s.geometry with
    | none => faultEntry .geom s
    | some g =>
      if g.mx ≠ s.geo.mcux.toNat ∨ g.my ≠ s.geo.mcuy.toNat ∨ g.n ≠ s.geo.ncoef.toNat then faultEntry .geom s
      else runEmit ([], .codes [] (some 0)) s.clearPreds)

end Sys2Proof.Machine
end

