-- ==== Sys2Proof/Machine/Permutation.lean ====
section
/-! DEFINITION. The generator bytes and the permutation engine (41_permutation.md). -/

namespace Sys2Proof.Machine

/-! ### The filtered cursor -/

/-- The next usable entry of the permutation from position `pos`, looking at no more than `n` entries: the coefficient index
if there is one, and the position after the last entry looked at (41_permutation.md R195). -/
def scanUsable (s : State) : Nat → Nat → Option Nat × Nat
  | 0, pos => (none, pos)
  | n + 1, pos =>
    let p := (s.permAt pos).toNat
    if s.usable p then (some p, pos + 1) else scanUsable s n (pos + 1)

/-- `NextUsable()` (41_permutation.md R195): nothing for `NONE`. -/
def nextUsable (s : State) : Option Nat × State :=
  let r := scanUsable s (s.f5.permN.toNat - s.f5.pos.toNat) s.f5.pos.toNat
  (r.1, { s with f5.pos := BitVec.ofNat 25 r.2 })

/-! ### PERMGEN -/

/-- `(PERM[t], PERM[j]) <- (PERM[j], PERM[t])` (41_permutation.md R193). -/
def swapPerm (s : State) (t j : Nat) : State :=
  { s with ram.perm := Memory.write (Memory.write s.ram.perm t (s.permAt j)) j (s.permAt t) }

/-- PERMGEN's first effects: `PERM_VALID <- 0`, and the identity of `[0, N)` (41_permutation.md R193). -/
def permInit (s : State) : State :=
  { s with
    valid.perm := false
    ram.perm := Memory.writeBlock s.ram.perm 0 ((List.range s.geo.ncoef.toNat).map (BitVec.ofNat 24)) }

/-- Draw `i` of PERMGEN with its four bytes: swap the tail position with the drawn one (41_permutation.md R191, R193). -/
def permDraw (i : Nat) (b0 b1 b2 b3 : Byte) (s : State) : State :=
  let n := s.geo.ncoef.toNat
  swapPerm s (n - 1 - i) (boundedValue (rngWordOr s.ctrl.rngSigned b0 b1 b2 b3) (n - i))

/-- PERMGEN's last effects (41_permutation.md R193). -/
def permFinish (s : State) : State :=
  { s with f5.permN := s.geo.ncoef.setWidth 25, f5.pos := 0, valid.perm := true }

/-- One move of PERMGEN: end it, or pop one RNG byte (41_permutation.md R193). The progress is the draw's number and the
bytes of the draw popped so far. -/
def permgenStep : Nat × List Byte → State → BodyStep (Nat × List Byte)
  | (i, got), s =>
    if s.geo.ncoef.toNat ≤ i then .done (permFinish s)
    else match popRng s with
      | none => .wait .rng (i, got) s
      | some (b, s') =>
        match got with
        | [b0, b1, b2] => .go (i + 1, []) (permDraw i b0 b1 b2 b s')
        | _ => .go (i, got ++ [b]) s'

/-- Run PERMGEN from draw `p.1` up to its end or its next wait. Every move but the last pops a byte. -/
def runPermgen (p : Nat × List Byte) (s : State) : State :=
  drive (fun p => .permgen p.1 p.2) permgenStep (s.fifo.rng.length + 1) p s

/-- PERMGEN (41_permutation.md R193). -/
def execPermgen (s : State) : Out := .next (runPermgen (0, []) (permInit s))

/-- PERMRD (41_permutation.md R194). -/
def execPermrd (i : Nat) (s : State) : Out :=
  .next (
    if s.permReady = false then faultEntry .noperm s
    else if s.f5.permN.toNat ≤ i then faultEntry .coefrange s
    else retire { s with result := (s.permAt i).setWidth 32 })

/-- CURSET (41_permutation.md R196). -/
def execCurset (p : Nat) (s : State) : Out :=
  .next (
    if s.permReady = false then faultEntry .noperm s
    else if s.f5.permN.toNat < p then faultEntry .operand s
    else retire { s with f5.pos := BitVec.ofNat 25 p })

/-- `CW[CWLEN] <- p; CWLEN <- CWLEN + 1` (41_permutation.md R197, 46_f5_matrix.md R405). -/
def appendCw (p : Nat) (s : State) : State :=
  { s with
    ram.cw := Memory.write s.ram.cw s.f5.cwlen.toNat (BitVec.ofNat 24 p)
    f5.cwlen := s.f5.cwlen + 1 }

/-- Draw up to `n` usable indices into CWBUF: whether all were found, and the state (41_permutation.md R197, 46_f5_matrix.md R405). -/
def drawCw : Nat → State → Bool × State
  | 0, s => (true, s)
  | n + 1, s =>
    match nextUsable s with
    | (none, s') => (false, s')
    | (some p, s') => drawCw n (appendCw p s')

/-- OFFER (41_permutation.md R197). -/
def execOffer (count : Nat) (s : State) : Out :=
  .next (
    if s.cfg.cwMax < count then faultEntry .operand s
    else if s.permReady = false then faultEntry .noperm s
    else
      let r := (drawCw count { s with f5.cwlen := 0 }).2
      retire { r with result := r.f5.cwlen.setWidth 32 })

end Sys2Proof.Machine
end

