-- ==== Sys2Proof/Machine/F5.lean ====
section
/-! DEFINITION. F5 embedding, matrix encoding and extraction (46_f5_matrix.md). -/

namespace Sys2Proof.Machine

/-! ### Carried bit and capacity -/

/-- XBIT (46_f5_matrix.md R410). -/
def execXbit (a : Nat) (s : State) : Out :=
  .next (
    if s.geo.ncoef.toNat ≤ a then faultEntry .coefrange s
    else
      retire { s with result :=
        match carriedBit (s.coefInt a) with
        | none => 0xFFFFFFFF
        | some b => BitVec.ofNat 32 (bitOf b) })

/-- The non-DC indices below `n` whose coefficient satisfies `f` (46_f5_matrix.md R402). -/
def countNonDc (f : Int → Bool) (s : State) (n : Nat) : Nat :=
  (List.range n).countP (fun i => decide (i % 64 ≠ 0) && f (s.coefInt i))

/-- CAPCNT (46_f5_matrix.md R402). -/
def execCapcnt (s : State) : Out :=
  let n := s.geo.ncoef.toNat
  let ones := countNonDc (fun v => decide (v = 1 ∨ v = -1)) s n
  let zeros := countNonDc (fun v => decide (v = 0)) s n
  let nondc := countNonDc (fun _ => true) s n
  .next (retire
    { s with
      f5.capOnes := BitVec.ofNat 32 ones
      f5.capZeros := BitVec.ofNat 32 zeros
      f5.capNondc := BitVec.ofNat 32 nondc
      f5.capLarge := BitVec.ofNat 32 (nondc - ones - zeros) })

/-! ### Embedding procedures -/

/-- How LsbEmbed and MatrixEmbed end (46_f5_matrix.md R403, R405). -/
inductive EmbedEnd where
  | embedded | lost | exhausted
  deriving DecidableEq, Repr

/-- `COEF[p] <- DecMag(COEF[p]); EMB_CHANGED <- EMB_CHANGED + 1` (46_f5_matrix.md R403, R405). -/
def toggle (p : Nat) (s : State) : State :=
  let s' := s.setCoef p (decMag (s.coefInt p))
  { s' with f5.embChanged := s'.f5.embChanged + 1 }

/-- `EMB_SHRINK <- EMB_SHRINK + 1` (46_f5_matrix.md R403, R405). -/
def countShrink (s : State) : State := { s with f5.embShrink := s.f5.embShrink + 1 }

/-- LsbEmbed with at most `n` draws (46_f5_matrix.md R403). -/
def lsbEmbedLoop (b retry : Bool) : Nat → State → EmbedEnd × State
  | 0, s => (.exhausted, s)
  | n + 1, s =>
    match nextUsable s with
    | (none, s1) => (.exhausted, s1)
    | (some p, s1) =>
      if carriedBit (s1.coefInt p) = some b then (.embedded, s1)
      else if (toggle p s1).coefInt p ≠ 0 then (.embedded, toggle p s1)
      else if retry = false then (.lost, countShrink (toggle p s1))
      else lsbEmbedLoop b retry n (countShrink (toggle p s1))

/-- The permutation entries the cursor has not looked at. A draw takes at least one, so this and one more bound the draws of
any loop that ends when the cursor is exhausted. -/
def State.entriesLeft (s : State) : Nat := s.f5.permN.toNat - s.f5.pos.toNat

/-- `LsbEmbed(b, retry)` (46_f5_matrix.md R403). -/
def lsbEmbed (b retry : Bool) (s : State) : EmbedEnd × State := lsbEmbedLoop b retry (s.entriesLeft + 1) s

/-- `Syndrome(CW, n)` over members `i` on (46_f5_matrix.md R404): `n` members left. -/
def syndromeFrom (s : State) (i : Nat) : Nat → Nat
  | 0 => 0
  | n + 1 =>
    (if carriedBit (s.coefInt (s.cwAt i).toNat) = some true then i + 1 else 0) ^^^ syndromeFrom s (i + 1) n

/-- `Syndrome(CW, n)` (46_f5_matrix.md R404). -/
def syndrome (s : State) (n : Nat) : Nat := syndromeFrom s 0 n

/-- `for i in idx .. n−2: CW[i] <- CW[i+1]; CWLEN <- n − 1` (46_f5_matrix.md R405). -/
def discardCw (idx n : Nat) (s : State) : State :=
  { s with
    ram.cw := Memory.writeBlock s.ram.cw idx ((List.range (n - 1 - idx)).map (fun i => s.cwAt (idx + i + 1)))
    f5.cwlen := BitVec.ofNat 8 (n - 1) }

/-- The loop of MatrixEmbed, with at most `fuel` rounds; every round but the last draws a fresh coefficient (46_f5_matrix.md R405). -/
def matrixLoop (val n : Nat) : Nat → State → EmbedEnd × State
  | 0, s => (.exhausted, s)
  | fuel + 1, s =>
    let d := syndrome s n ^^^ val
    if d = 0 then (.embedded, s)
    else
      let a := (s.cwAt (d - 1)).toNat
      let s1 := toggle a s
      if s1.coefInt a ≠ 0 then (.embedded, s1)
      else
        match nextUsable (discardCw (d - 1) n (countShrink s1)) with
        | (none, s2) => (.exhausted, s2)
        | (some p, s2) => matrixLoop val n fuel (appendCw p s2)

/-- `MatrixEmbed(val, k)` (46_f5_matrix.md R405). -/
def matrixEmbed (val k : Nat) (s : State) : EmbedEnd × State :=
  let n := 2 ^ k - 1
  match drawCw n { s with f5.cwlen := 0 } with
  | (false, s1) => (.exhausted, s1)
  | (true, s1) => matrixLoop val n (s1.entriesLeft + 1) s1

/-! ### Step commands -/

/-- The RESULT of a step command (46_f5_matrix.md R411, R412). -/
def embedResult : EmbedEnd → Word
  | .embedded => 0
  | .lost => 1
  | .exhausted => 2

/-- BSTEP (46_f5_matrix.md R411): bit 0 of the operand is the bit, bit 1 says not to retry. -/
def execBstep (imm : BitVec 8) (s : State) : Out :=
  .next (
    if 3 < imm.toNat then faultEntry .operand s
    else if s.permReady = false then faultEntry .noperm s
    else
      let r := lsbEmbed (imm.getLsbD 0) (!imm.getLsbD 1) s
      retire { r.2 with result := embedResult r.1 })

/-- MSTEP (46_f5_matrix.md R412). -/
def execMstep (val : Nat) (s : State) : Out :=
  .next (
    if s.f5.k.toNat < 1 ∨ s.cfg.kMaxEmb < s.f5.k.toNat ∨ 2 ^ s.f5.k.toNat ≤ val then faultEntry .operand s
    else if s.permReady = false then faultEntry .noperm s
    else
      let r := matrixEmbed val s.f5.k.toNat s
      retire { r.2 with result := embedResult r.1 })

/-- The syndrome of the next `n` usable coefficients, member numbers from `i` on, onto `h`; nothing if the cursor is exhausted
first (46_f5_matrix.md R413). -/
def drawSyndrome : Nat → Nat → Nat → State → Option Nat × State
  | 0, _, h, s => (some h, s)
  | n + 1, i, h, s =>
    match nextUsable s with
    | (none, s') => (none, s')
    | (some p, s') =>
      drawSyndrome n (i + 1) (if carriedBit (s'.coefInt p) = some true then h ^^^ (i + 1) else h) s'

/-- MXTR (46_f5_matrix.md R413). -/
def execMxtr (s : State) : Out :=
  .next (
    if s.f5.k.toNat < 1 then faultEntry .operand s
    else if s.permReady = false then faultEntry .noperm s
    else
      let r := drawSyndrome (2 ^ s.f5.k.toNat - 1) 0 0 s
      retire { r.2 with result :=
        match r.1 with
        | none => 0xFFFFFFFF
        | some h => BitVec.ofNat 32 h })

/-! ### EMBHDR -/

/-- The header `min(PAYLEN, 0x7FFFFF) or (K << 24)` (46_f5_matrix.md R407, R409). -/
def State.headerWord (s : State) : Word := BitVec.ofNat 32 (s.payLength ||| s.f5.k.toNat * 2 ^ 24)

/-- EMBHDR's effects before its first pop (46_f5_matrix.md R407). -/
def embHdrInit (s : State) : State :=
  { s with
    f5.embBits := 0
    f5.embBytes := 0
    f5.embChanged := 0
    f5.embShrink := 0
    f5.hdrword := s.headerWord }

/-- Embed header bits `i` to `i + n − 1` (46_f5_matrix.md R407, the loop). -/
def embedHeader (hw : Word) : Nat → Nat → State → State
  | 0, _, s => s
  | n + 1, i, s =>
    match lsbEmbed (hw.getLsbD i) (!s.ctrl.hdrLossy) s with
    | (.exhausted, s') => (s'.warns .hdrcap).warns .trunc
    | (.embedded, s') => embedHeader hw n (i + 1) s'
    | (.lost, s') => embedHeader hw n (i + 1) s'

/-- One move of EMBHDR: pop a whitening byte, and after the fourth embed the header (46_f5_matrix.md R407). -/
def embHdrStep (got : List Byte) (s : State) : BodyStep (List Byte) :=
  match popRng s with
  | none => .wait .rng got s
  | some (b, s') =>
    match got with
    | [b0, b1, b2] => .done (embedHeader (s'.f5.hdrword ^^^ rngWordXor s'.ctrl.rngSigned b0 b1 b2 b) 32 0 s')
    | _ => .go (got ++ [b]) s'

/-- Run EMBHDR up to its end or its next wait. Every move pops a byte. -/
def runEmbhdr (got : List Byte) (s : State) : State :=
  drive (fun got => .embHdr got) embHdrStep (s.fifo.rng.length + 1) got s

/-- EMBHDR (46_f5_matrix.md R407). -/
def execEmbhdr (s : State) : Out :=
  .next (
    if s.cfg.kMaxEmb < s.f5.k.toNat then faultEntry .operand s
    else if s.permReady = false then faultEntry .noperm s
    else runEmbhdr [] (embHdrInit s))

/-! ### EMBPAY -/

/-- The bits of a group: one in plain mode, `K` in matrix mode (46_f5_matrix.md R408). -/
def State.groupSize (s : State) : Nat := if s.f5.k.toNat ≤ 1 then 1 else s.f5.k.toNat

/-- Embed a group (46_f5_matrix.md R408): LsbEmbed with retry in plain mode, MatrixEmbed in matrix mode. -/
def embedGroup (val : Nat) (s : State) : EmbedEnd × State :=
  if s.f5.k.toNat ≤ 1 then lsbEmbed (decide (val % 2 = 1)) true s else matrixEmbed val s.f5.k.toNat s

/-- `EMB_BITS <- EMB_BITS + m; EMB_BYTES <- EMB_BITS div 8` (46_f5_matrix.md R408). -/
def countEmbedded (m : Nat) (s : State) : State :=
  let bits := s.f5.embBits + BitVec.ofNat 32 m
  { s with f5.embBits := bits, f5.embBytes := bits >>> 3 }

/-- The progress of EMBPAY: embedding, or draining PAYIN after exhaustion. -/
inductive EmbpayAt where
  | embed (c : EmbCtx)
  | drain (popped : Nat)
  deriving DecidableEq, Repr

/-- EMBPAY's progress as command-internal state. -/
def EmbpayAt.progress : EmbpayAt → Progress
  | .embed c => .embPay c
  | .drain popped => .embDrain popped

/-- A group is complete, or the payload has ended inside it (46_f5_matrix.md R408). -/
def groupReady (c : EmbCtx) (s : State) : Bool :=
  decide (c.m = s.groupSize)
    || (decide (0 < c.m) && decide (c.avail = 0) && decide (c.hold = none) && decide (c.popped = s.payLength))

/-- One move of EMBPAY: embed a group, take a payload bit, pop a byte, or end (46_f5_matrix.md R408). A payload byte is popped
from PAYIN and then its whitening byte from RNG (log 13). -/
def embpayStep : EmbpayAt → State → BodyStep EmbpayAt
  | .embed c, s =>
    if groupReady c s then
      match embedGroup c.val s with
      | (.exhausted, s') => .go (.drain c.popped) (s'.warns .trunc)
      | (.embedded, s') => .go (.embed { c with val := 0, m := 0 }) (countEmbedded c.m s')
      | (.lost, s') => .go (.embed { c with val := 0, m := 0 }) (countEmbedded c.m s')
    else if 0 < c.avail then
      .go (.embed { c with
        cur := c.cur >>> 1
        avail := c.avail - 1
        val := c.val ||| bitOf (c.cur.getLsbD 0) * 2 ^ c.m
        m := c.m + 1 }) s
    else
      match c.hold with
      | some p =>
        match popRng s with
        | none => .wait .rng (.embed c) s
        | some (b, s') => .go (.embed { c with hold := none, cur := p ^^^ b, avail := 8 }) s'
      | none =>
        if c.popped = s.payLength then .done s
        else
          match popPayin s with
          | none => .wait .payin (.embed c) s
          | some (b, s') => .go (.embed { c with popped := c.popped + 1, hold := some b }) s'
  | .drain popped, s =>
    if s.payLength ≤ popped then .done s
    else
      match popPayin s with
      | none => .wait .payin (.drain popped) s
      | some (_, s') => .go (.drain (popped + 1)) s'

/-- Run EMBPAY up to its end or its next wait. A payload byte takes at most 18 moves. -/
def runEmbpay (p : EmbpayAt) (s : State) : State :=
  drive EmbpayAt.progress embpayStep (18 * (s.fifo.payin.length + 2)) p s

/-- EMBPAY (46_f5_matrix.md R408). -/
def execEmbpay (s : State) : Out :=
  .next (
    if s.cfg.kMaxEmb < s.f5.k.toNat then faultEntry .operand s
    else if s.permReady = false then faultEntry .noperm s
    else runEmbpay (.embed { popped := 0, hold := none, cur := 0, avail := 0, val := 0, m := 0 }) s)

/-! ### EXTHDR -/

/-- Read header bits `i` to `i + n − 1` onto `h`; nothing if the cursor is exhausted first (46_f5_matrix.md R415, the loop). -/
def readHeader : Nat → Nat → Nat → State → Option Nat × State
  | 0, _, h, s => (some h, s)
  | n + 1, i, h, s =>
    match nextUsable s with
    | (none, s') => (none, s')
    | (some p, s') => readHeader n (i + 1) (if carriedBit (s'.coefInt p) = some true then h + 2 ^ i else h) s'

/-- `HDRWORD <- H; EXT_LEN <- H[22:0]; EXT_K <- H[28:24]` (46_f5_matrix.md R415). -/
def setHeader (h : Word) (s : State) : State :=
  { s with f5.hdrword := h, f5.extLen := h.extractLsb' 0 23, f5.extK := h.extractLsb' 24 5 }

/-- One move of EXTHDR after its 32 bits: pop a whitening byte, and after the fourth un-whiten the header (46_f5_matrix.md R415). -/
def extHdrStep : Word × List Byte → State → BodyStep (Word × List Byte)
  | (h, got), s =>
    match popRng s with
    | none => .wait .rng (h, got) s
    | some (b, s') =>
      match got with
      | [b0, b1, b2] => .done (setHeader (h ^^^ rngWordXor s'.ctrl.rngSigned b0 b1 b2 b) s')
      | _ => .go (h, got ++ [b]) s'

/-- Run EXTHDR up to its end or its next wait. Every move pops a byte. -/
def runExthdr (p : Word × List Byte) (s : State) : State :=
  drive (fun p => .extHdr p.1 p.2) extHdrStep (s.fifo.rng.length + 1) p s

/-- EXTHDR (46_f5_matrix.md R415). -/
def execExthdr (s : State) : Out :=
  .next (
    if s.permReady = false then faultEntry .noperm s
    else
      match readHeader 32 0 0 { s with f5.extBytes := 0 } with
      | (none, s') => retire { s'.warns .incomplete with f5.extLen := 0, f5.extK := 0 }
      | (some h, s') => runExthdr (BitVec.ofNat 32 h, []) s')

/-! ### EXTPAY -/

/-- The next group of bits: the carried bit of one coefficient in plain mode, the syndrome of `2^EXT_K − 1` otherwise; nothing
if the cursor is exhausted (46_f5_matrix.md R416). -/
def drawGroup (s : State) : Option Nat × State :=
  drawSyndrome (if s.f5.extK = 0 then 1 else 2 ^ s.f5.extK.toNat - 1) 0 0 s

/-- The bits a group gives (46_f5_matrix.md R416). -/
def State.extGroupSize (s : State) : Nat := if s.f5.extK = 0 then 1 else s.f5.extK.toNat

/-- One move of EXTPAY: push a finished byte, whiten it, put a bit, or draw a group (46_f5_matrix.md R416). -/
def extpayStep (c : ExtCtx) (s : State) : BodyStep ExtCtx :=
  match c.out with
  | some b =>
    match pushPayout b s with
    | none => .wait .payout c s
    | some s' =>
      let s'' := { s' with f5.extBytes := s'.f5.extBytes + 1 }
      if s''.f5.extBytes.toNat = s''.f5.extLen.toNat then .done s''
      else .go { c with out := none, acc := 0, na := 0 } s''
  | none =>
    if 8 ≤ c.na then
      match popRng s with
      | none => .wait .rng c s
      | some (r, s') => .go { c with out := some (c.acc ^^^ r) } s'
    else if 0 < c.left then
      .go { c with
        acc := c.acc ||| BitVec.ofNat 8 (c.h % 2 * 2 ^ c.na)
        na := c.na + 1
        h := c.h / 2
        left := c.left - 1 } s
    else
      match drawGroup s with
      | (none, s') => .done (s'.warns .incomplete)
      | (some h, s') => .go { c with h := h, left := s'.extGroupSize } s'

/-- Run EXTPAY up to its end or its next wait. A payload byte takes at most 18 moves and one RNG byte. -/
def runExtpay (c : ExtCtx) (s : State) : State :=
  drive (fun c => .extPay c) extpayStep (18 * (s.fifo.rng.length + 2)) c s

/-- EXTPAY (46_f5_matrix.md R416). -/
def execExtpay (s : State) : Out :=
  .next (
    if s.permReady = false then faultEntry .noperm s
    else if s.f5.extLen = 0 then retire { s with f5.extBytes := 0 }
    else runExtpay { acc := 0, na := 0, h := 0, left := 0, out := none } { s with f5.extBytes := 0 })

end Sys2Proof.Machine
end

