-- ==== Sys2Proof/Machine/Transform.lean ====
section
/-! DEFINITION. The forward DCT and the quantiser (42_transform_quant.md). -/

namespace Sys2Proof.Machine

/-! ### Quantisation tables and divisors -/

/-- `scale` of a quality factor (42_transform_quant.md R221). -/
def qualityScale (q : Nat) : Nat := if q < 50 then 5000 / q else 200 - 2 * q

/-- `clamp((base·scale + 50) div 100, 1, 255)` (42_transform_quant.md R221). -/
def scaledEntry (scale base : Nat) : Nat := min (max ((base * scale + 50) / 100) 1) 255

/-- QT tables 0 and 1 at a quality factor, in natural order (42_transform_quant.md R221). -/
def scaledTables (q : Nat) : List (BitVec 16) :=
  (qbaseLum ++ qbaseChr).map (fun b => BitVec.ofNat 16 (scaledEntry (qualityScale q) b))

/-- One divisor: `1.0 / (((f64(q)·AAN[r])·AAN[c])·8.0)` (42_transform_quant.md R222). -/
def divisor (q r c : Nat) : F64 :=
  fdiv f64One (fmul (fmul (fmul (f64OfInt q) (aanScale r)) (aanScale c)) f64Eight)

/-- Some entry of QT tables 0 and 1 is 0 (42_transform_quant.md R222). -/
def someQtZero (s : State) : Bool := (List.range 128).any (fun i => decide (s.qtAt 0 i = 0))

/-- `DivCalc()` after its check (42_transform_quant.md R222): entry 64·t + 8·r + c of both tables. -/
def computeDivisors (s : State) : State :=
  { s with
    ram.div := Memory.writeBlock s.ram.div 0
      ((List.range 128).map (fun i => divisor (s.qtAt 0 i).toNat (i % 64 / 8) (i % 8)))
    valid.div := true }

/-- `DivCalc()` and the end of the command that called it (42_transform_quant.md R222). -/
def divCalc (s : State) : State :=
  if someQtZero s then faultEntry .operand s else retire (computeDivisors s)

/-- QTSCALE (42_transform_quant.md R221). -/
def execQtscale (q : Nat) (s : State) : Out :=
  .next (
    if q < 1 ∨ 100 < q then faultEntry .operand s
    else divCalc { s with ram.qt := Memory.writeBlock s.ram.qt 0 (scaledTables q) })

/-- DIVCALC (42_transform_quant.md R222). -/
def execDivcalc (s : State) : Out := .next (divCalc s)

/-! ### Forward DCT -/

/-- The one-dimensional butterfly `AAN1D` (42_transform_quant.md R224), on eight values. -/
def aan1d : List F64 → List F64
  | [d0, d1, d2, d3, d4, d5, d6, d7] =>
    let tmp0 := fadd d0 d7
    let tmp7 := fsub d0 d7
    let tmp1 := fadd d1 d6
    let tmp6 := fsub d1 d6
    let tmp2 := fadd d2 d5
    let tmp5 := fsub d2 d5
    let tmp3 := fadd d3 d4
    let tmp4 := fsub d3 d4
    let tmp10 := fadd tmp0 tmp3
    let tmp13 := fsub tmp0 tmp3
    let tmp11 := fadd tmp1 tmp2
    let tmp12 := fsub tmp1 tmp2
    let o0 := fadd tmp10 tmp11
    let o4 := fsub tmp10 tmp11
    let z1 := fmul (fadd tmp12 tmp13) butterfly707
    let o2 := fadd tmp13 z1
    let o6 := fsub tmp13 z1
    let odd10 := fadd tmp4 tmp5
    let odd11 := fadd tmp5 tmp6
    let odd12 := fadd tmp6 tmp7
    let z5 := fmul (fsub odd10 odd12) butterfly382
    let z2 := fadd (fmul butterfly541 odd10) z5
    let z4 := fadd (fmul butterfly1306 odd12) z5
    let z3 := fmul odd11 butterfly707
    let z11 := fadd tmp7 z3
    let z13 := fsub tmp7 z3
    let o5 := fadd z13 z2
    let o3 := fsub z13 z2
    let o1 := fadd z11 z4
    let o7 := fsub z11 z4
    [o0, o1, o2, o3, o4, o5, o6, o7]
  | ds => ds

/-- Row `r` of an 8×8 block in natural order (42_transform_quant.md R225). -/
def rowOf (xs : List F64) (r : Nat) : List F64 := (List.range 8).map (fun c => xs.getD (8 * r + c) 0)

/-- `AAN1D` on every row (42_transform_quant.md R225, row pass). -/
def rowPass (xs : List F64) : List F64 := ((List.range 8).map (fun r => aan1d (rowOf xs r))).flatten

/-- The block with rows and columns exchanged. -/
def transposed (xs : List F64) : List F64 := (List.range 64).map (fun i => xs.getD (8 * (i % 8) + i / 8) 0)

/-- The row pass and then the column pass (42_transform_quant.md R225). -/
def dct8x8 (xs : List F64) : List F64 := transposed (rowPass (transposed (rowPass xs)))

/-- `f64(PIX[i]) − 128.0` (42_transform_quant.md R225). -/
def centred (b : Byte) : F64 := fsub (f64OfInt b.toNat) f64OneTwentyEight

/-- FDCT (42_transform_quant.md R225). -/
def execFdct (s : State) : Out :=
  .next (retire
    { s with ram.dct := Memory.writeBlock s.ram.dct 0 (dct8x8 ((List.range 64).map (fun i => centred (s.pixAt i)))) })

/-! ### Quantisation -/

/-- The 64 values `ROUND(DCT[i]·DIV[T][i])` (42_transform_quant.md R228, R229). -/
def quantised (t : Nat) (s : State) : List Int :=
  (List.range 64).map (fun i => roundF64 s.ctrl.qround (fmul (s.dctAt i) (s.divAt t i)))

/-- QUANT (42_transform_quant.md R229). -/
def execQuant (t : Fin 2) (blk : Nat) (s : State) : Out :=
  .next (
    if s.blockInside blk = false then faultEntry .coefrange s
    else if s.valid.div = false then faultEntry .nodiv s
    else if (quantised t.val s).any (fun q => decide (q < -32768 ∨ 32767 < q)) then faultEntry .range s
    else retire (s.setCoefs (64 * blk) ((quantised t.val s).map (BitVec.ofInt 16))))

end Sys2Proof.Machine
end

