-- ==== Sys2Proof/Machine/Dispatch.lean ====
section
/-! DEFINITION. The meaning of every command: one arm per constructor, one call of that command's own meaning. -/

namespace Sys2Proof.Machine

def exec (i : Instr) (s : State) : Host.Outcome State Fault Refusal :=
  match i with
  | .nop => Sys2Proof.Machine.execNop s
  | .mark imm => Sys2Proof.Machine.execMark imm s
  | .qtscale q => Sys2Proof.Machine.execQtscale q s
  | .divcalc => Sys2Proof.Machine.execDivcalc s
  | .fdct => Sys2Proof.Machine.execFdct s
  | .quant t blk => Sys2Proof.Machine.execQuant t blk s
  | .zzfwd blk => Sys2Proof.Machine.execZzfwd blk s
  | .zzinv blk => Sys2Proof.Machine.execZzinv blk s
  | .geom => Sys2Proof.Machine.execGeom s
  | .blkaddr comp unit mcu => Sys2Proof.Machine.execBlkaddr comp unit mcu s
  | .coefclr => Sys2Proof.Machine.execCoefclr s
  | .putbits size code => Sys2Proof.Machine.execPutbits size code s
  | .flush => Sys2Proof.Machine.execFlush s
  | .emitraw b => Sys2Proof.Machine.execEmitraw b s
  | .predclr => Sys2Proof.Machine.execPredclr s
  | .encblk comp dt ac blk => Sys2Proof.Machine.execEncblk comp dt ac blk s
  | .encscan => Sys2Proof.Machine.execEncscan s
  | .dechdr => Sys2Proof.Machine.execDechdr s
  | .decblk comp dt ac blk => Sys2Proof.Machine.execDecblk comp dt ac blk s
  | .decscan => Sys2Proof.Machine.execDecscan s
  | .permgen => Sys2Proof.Machine.execPermgen s
  | .permrd n => Sys2Proof.Machine.execPermrd n s
  | .curset p => Sys2Proof.Machine.execCurset p s
  | .offer count => Sys2Proof.Machine.execOffer count s
  | .xbit a => Sys2Proof.Machine.execXbit a s
  | .capcnt => Sys2Proof.Machine.execCapcnt s
  | .bstep imm => Sys2Proof.Machine.execBstep imm s
  | .mstep val => Sys2Proof.Machine.execMstep val s
  | .mxtr => Sys2Proof.Machine.execMxtr s
  | .embhdr => Sys2Proof.Machine.execEmbhdr s
  | .embpay => Sys2Proof.Machine.execEmbpay s
  | .exthdr => Sys2Proof.Machine.execExthdr s
  | .extpay => Sys2Proof.Machine.execExtpay s

end Sys2Proof.Machine
end

