-- ==== Sys2Proof/Machine/HostBus.lean ====
section
/-! DEFINITION. The host's bus accesses: the register map, the windows and the access rules (10_state.md R31 to R63,
20_memory.md R101 to R127). -/

namespace Sys2Proof.Machine

/-- `ID` (10_state.md R31). -/
def idValue : Word := 0x46354331

/-- The host-visible registers (10_state.md R31 to R63). -/
inductive HostReg where
  | id | ctrl | status | warn | irqen | cmd | cmdlvl | fcmd | fpc | cmdcnt | mark | result
  | ncoef | imgW | imgH | ncomp | compcfg (c : Fin 4) | rstint | mcux | mcuy | decflags
  | pred (c : Fin 4) | putbuf | putbits | outcnt | incnt
  | permN | pos | k | paylen | embBits | embBytes | embChanged | embShrink
  | extLen | extK | extBytes | hdrword | capOnes | capZeros | capNondc | capLarge | cwlen | valid
  | rngData | inData | inCtrl | payinData | outData | payoutData | lvl0 | lvl1 | fifoclr
  deriving DecidableEq, Repr

/-- Offsets of the registers of identification, control, status, faults and results (10_state.md R31 to R63). -/
def controlRegisters : List (Nat × HostReg) :=
  [(0x000, .id), (0x004, .ctrl), (0x008, .status), (0x00C, .warn), (0x010, .irqen), (0x014, .cmd),
   (0x018, .cmdlvl), (0x01C, .fcmd), (0x020, .fpc), (0x024, .cmdcnt), (0x028, .mark), (0x02C, .result)]

/-- Offsets of the registers of geometry and frame configuration (10_state.md R31 to R63). -/
def frameRegisters : List (Nat × HostReg) :=
  [(0x030, .ncoef), (0x034, .imgW), (0x038, .imgH), (0x03C, .ncomp), (0x040, .compcfg 0), (0x044, .compcfg 1),
   (0x048, .compcfg 2), (0x04C, .compcfg 3), (0x050, .rstint), (0x054, .mcux), (0x058, .mcuy), (0x05C, .decflags)]

/-- Offsets of the registers of entropy coder, permutation cursor and embedding operands (10_state.md R31 to R63). -/
def coderRegisters : List (Nat × HostReg) :=
  [(0x060, .pred 0), (0x064, .pred 1), (0x068, .pred 2), (0x06C, .pred 3), (0x070, .putbuf), (0x074, .putbits),
   (0x078, .outcnt), (0x07C, .incnt), (0x080, .permN), (0x084, .pos), (0x088, .k), (0x08C, .paylen)]

/-- Offsets of the registers of embedding, extraction and capacity results (10_state.md R31 to R63). -/
def f5Registers : List (Nat × HostReg) :=
  [(0x090, .embBits), (0x094, .embBytes), (0x098, .embChanged), (0x09C, .embShrink), (0x0A0, .extLen), (0x0A4, .extK),
   (0x0A8, .extBytes), (0x0AC, .hdrword), (0x0B0, .capOnes), (0x0B4, .capZeros), (0x0B8, .capNondc), (0x0BC, .capLarge)]

/-- Offsets of the registers of CWLEN, VALID and the FIFO ports (10_state.md R31 to R63). -/
def portRegisters : List (Nat × HostReg) :=
  [(0x0C0, .cwlen), (0x0C4, .valid), (0x100, .rngData), (0x104, .inData), (0x108, .inCtrl), (0x10C, .payinData),
   (0x110, .outData), (0x114, .payoutData), (0x118, .lvl0), (0x11C, .lvl1), (0x120, .fifoclr)]

/-- The offset of every register (10_state.md R31 to R63). -/
def registerMap : List (Nat × HostReg) :=
  controlRegisters ++ frameRegisters ++ coderRegisters ++ f5Registers ++ portRegisters

/-- What an offset of the window names (20_memory.md R101); each window's argument counts its words. -/
inductive Region where
  | reg (r : HostReg)
  | pix (j : Nat)
  | qt (i : Nat)
  | dct (j : Nat)
  | div (j : Nat)
  | cw (j : Nat)
  | zz (k : Nat)
  | coef (i : Nat)
  | perm (i : Nat)
  | unmapped
  deriving DecidableEq, Repr

/-- The word `off` lies in a window of `n` words at `base`. -/
def inWindow (off base n : Nat) : Bool := decide (base ≤ off) && decide (off < base + 4 * n)

/-- The host bus map for an aligned offset (20_memory.md R101, R109). -/
def regionOf (cfg : Params) (off : Nat) : Region :=
  match registerMap.lookup off with
  | some r => .reg r
  | none =>
    if inWindow off 0x1000 16 then .pix ((off - 0x1000) / 4)
    else if inWindow off 0x2000 256 then .qt ((off - 0x2000) / 4)
    else if inWindow off 0x3000 128 then .dct ((off - 0x3000) / 4)
    else if inWindow off 0x3400 256 then .div ((off - 0x3400) / 4)
    else if inWindow off 0x3800 cfg.cwMax then .cw ((off - 0x3800) / 4)
    else if inWindow off 0x3C00 64 then .zz ((off - 0x3C00) / 4)
    else if inWindow off 0x10000000 cfg.coefDepth then .coef ((off - 0x10000000) / 4)
    else if inWindow off 0x20000000 cfg.coefDepth then .perm ((off - 0x20000000) / 4)
    else .unmapped

/-! ### Effects of an access on a waiting core -/

/-- A FIFO access that serves the FIFO a command waits on ends the wait: STALL to EXEC (70_reset_and_hazards.md R510). -/
def wake (src : StallSrc) (s : State) : State :=
  match s.agent with
  | .stall src' p => if src' = src then { s with agent := .exec p } else s
  | .idle => s
  | .exec _ => s
  | .halted _ => s

/-- An ignored or discarded access: `WARN.HOSTERR` (60_exceptions.md R465). -/
def refuseAccess (s : State) : State := s.warns .hosterr

/-- A read returns `v`. -/
def answer (v : Word) (s : State) : State := { s with busData := v }

/-- An access that has no effect but `HOSTERR`; a read returns 0 (20_memory.md R102, R106, R109). -/
def refuseRead (s : State) : State := answer 0 (refuseAccess s)

/-! ### Reads -/

/-- The registers that read exact values while `BUSY = 1` (20_memory.md R132). -/
def HostReg.exact : HostReg → Bool
  | .status | .cmdlvl | .cmdcnt | .mark | .warn | .irqen | .inCtrl | .lvl0 | .lvl1 | .outcnt | .incnt
  | .outData | .payoutData => true
  | _ => false

/-- `CTRL` as a word (10_state.md R32). -/
def Ctrl.word (c : Ctrl) : Word :=
  BitVec.ofNat 32 (2 * bitOf c.padbit + 4 * bitOf c.hdrLossy + 8 * bitOf c.rngSigned
    + 16 * (match c.qround with
      | .halfAway => 0
      | .halfUp => 1
      | .halfEven => 2))

/-- A `COMPCFGn` register as a word (10_state.md R46). -/
def CompCfg.word (c : CompCfg) : Word :=
  BitVec.ofNat 32 (c.cid.toNat + c.h.toNat * 2 ^ 8 + c.v.toNat * 2 ^ 12 + c.tq.toNat * 2 ^ 16
    + c.td.val * 2 ^ 18 + c.ta.val * 2 ^ 19)

/-- A one-bit field of a written word as a selector. -/
def selBit (v : Word) (i : Nat) : Fin 2 := if v.getLsbD i then 1 else 0

/-- A written word as a `COMPCFGn` register (10_state.md R46). -/
def CompCfg.ofWord (v : Word) : CompCfg where
  cid := v.extractLsb' 0 8
  h := v.extractLsb' 8 4
  v := v.extractLsb' 12 4
  tq := v.extractLsb' 16 2
  td := selBit v 18
  ta := selBit v 19

/-- The value a register reads, for the registers without a read effect; write-only registers read 0 (10_state.md R31 to R63). -/
def State.regValue (s : State) : HostReg → Word
  | .id => idValue
  | .ctrl => s.ctrl.word
  | .status => s.statusWord
  | .warn => s.warn.setWidth 32
  | .irqen => s.irqen.setWidth 32
  | .cmd => 0
  | .cmdlvl => BitVec.ofNat 32 s.fifo.cmd.length
  | .fcmd => s.fcmd
  | .fpc => s.fpc
  | .cmdcnt => s.cmdcnt
  | .mark => s.mark.setWidth 32
  | .result => s.result
  | .ncoef => s.geo.ncoef
  | .imgW => s.geo.imgW.setWidth 32
  | .imgH => s.geo.imgH.setWidth 32
  | .ncomp => s.geo.ncomp.setWidth 32
  | .compcfg c => (s.geo.comp.get c.val).word
  | .rstint => s.geo.rstint.setWidth 32
  | .mcux => s.geo.mcux.setWidth 32
  | .mcuy => s.geo.mcuy.setWidth 32
  | .decflags => s.decflagsWord
  | .pred c => (s.coder.pred.get c.val).signExtend 32
  | .putbuf => s.coder.putbuf.setWidth 32
  | .putbits => s.coder.putbits.setWidth 32
  | .outcnt => s.coder.outcnt
  | .incnt => s.coder.incnt
  | .permN => s.f5.permN.setWidth 32
  | .pos => s.f5.pos.setWidth 32
  | .k => s.f5.k.setWidth 32
  | .paylen => s.f5.paylen
  | .embBits => s.f5.embBits
  | .embBytes => s.f5.embBytes
  | .embChanged => s.f5.embChanged
  | .embShrink => s.f5.embShrink
  | .extLen => s.f5.extLen.setWidth 32
  | .extK => s.f5.extK.setWidth 32
  | .extBytes => s.f5.extBytes
  | .hdrword => s.f5.hdrword
  | .capOnes => s.f5.capOnes
  | .capZeros => s.f5.capZeros
  | .capNondc => s.f5.capNondc
  | .capLarge => s.f5.capLarge
  | .cwlen => s.f5.cwlen.setWidth 32
  | .valid => s.validWord
  | .rngData => 0
  | .inData => 0
  | .inCtrl => BitVec.ofNat 32 (bitOf s.fifo.inEos)
  | .payinData => 0
  | .outData => 0
  | .payoutData => 0
  | .lvl0 => BitVec.ofNat 32 (s.fifo.rng.length + s.fifo.inp.length * 2 ^ 8 + s.fifo.payin.length * 2 ^ 16)
  | .lvl1 => BitVec.ofNat 32 (s.fifo.out.length + s.fifo.payout.length * 2 ^ 8)
  | .fifoclr => 0

/-- A popped output byte, with the valid bit (20_memory.md R122). -/
def poppedWord (b : Byte) : Word := 0x80000000 ||| b.setWidth 32

/-- A read of `OUT_DATA` (20_memory.md R122). -/
def readOutData (s : State) : State :=
  match s.fifo.out with
  | [] => answer 0 s
  | b :: q => wake .out (answer (poppedWord b) { s with fifo.out := q })

/-- A read of `PAYOUT_DATA` (20_memory.md R122). -/
def readPayoutData (s : State) : State :=
  match s.fifo.payout with
  | [] => answer 0 s
  | b :: q => wake .payout (answer (poppedWord b) { s with fifo.payout := q })

/-- A read of a register (10_state.md R31 to R63). While `BUSY = 1` a register not listed as exact returns a free value
(20_memory.md R132; log 7, log 20). -/
def readReg (r : HostReg) (s : State) : State :=
  if s.busy && !r.exact then { answer (Config.busyRead s.freeCount) s with freeCount := s.freeCount + 1 }
  else match r with
    | .outData => readOutData s
    | .payoutData => readPayoutData s
    | _ => answer (s.regValue r) s

/-- Half `j mod 2` of a binary64 value, low word first (20_memory.md R105, R110). -/
def halfWord (x : F64) (j : Nat) : Word := if j % 2 = 0 then x.extractLsb' 0 32 else x.extractLsb' 32 32

/-- Four samples packed little-endian (20_memory.md R103). -/
def pixWord (s : State) (j : Nat) : Word :=
  s.pixAt (4 * j + 3) ++ s.pixAt (4 * j + 2) ++ s.pixAt (4 * j + 1) ++ s.pixAt (4 * j)

/-- The value of a window word (20_memory.md R103 to R108). -/
def windowValue (s : State) : Region → Word
  | .reg _ => 0
  | .pix j => pixWord s j
  | .qt i => (s.qtAt 0 i).setWidth 32
  | .dct j => halfWord (s.dctAt (j / 2)) j
  | .div j => halfWord (s.divAt 0 (j / 2)) j
  | .cw j =>
    if j < s.f5.cwlen.toNat then (s.cwAt j).setWidth 32
    else (Config.staleCw s.freeCount s.cmdcnt j).setWidth 32
  | .zz k => BitVec.ofNat 32 (Sys2Proof.Machine.zz k)
  | .coef i => (s.coefAt i).signExtend 32
  | .perm i => (s.permAt i).setWidth 32
  | .unmapped => 0

/-- An aligned 32-bit read at an offset of the window (20_memory.md R101 to R109, R122). -/
def busRead (off : Nat) (s : State) : State :=
  match regionOf s.cfg off with
  | .reg r => readReg r s
  | .unmapped => refuseRead s
  | w => if s.busy then refuseRead s else answer (windowValue s w) s

/-! ### Writes -/

/-- What a bus access comes to. -/
inductive AccessResult where
  /-- It has taken effect. -/
  | done (s : State)
  /-- The bus write is held until the core frees an entry (20_memory.md R120, R121). -/
  | held
  /-- The address is not the block's (20_memory.md R100). -/
  | outside

/-- A write of `CMD` (20_memory.md R120). A held write is looked at again at each of the host's turns, so the command's fault, which
empties the FIFO, ends the hold and discards the write with `HOSTERR`. R120 names a dequeue only as what ends a hold: DESIGN
CHOICE, log 25. -/
def writeCmd (v : Word) (s : State) : AccessResult :=
  if s.faulted then .done (refuseAccess s)
  else if s.cfg.cmdqDepth ≤ s.fifo.cmd.length then .held
  else .done { s with fifo.cmd := s.fifo.cmd ++ [v] }

/-- A push to a full input FIFO: held, or discarded while a fault is recorded (20_memory.md R121). A write already held when the
executing command faults is discarded then, with `HOSTERR`. R121 names a pop only as what ends a hold: DESIGN CHOICE, log 25. -/
def pushFull (s : State) : AccessResult := if s.faulted then .done (refuseAccess s) else .held

/-- A write of `RNG_DATA` (20_memory.md R121). -/
def writeRngData (v : Word) (s : State) : AccessResult :=
  if s.cfg.rngqDepth ≤ s.fifo.rng.length then pushFull s
  else .done (wake .rng { s with fifo.rng := s.fifo.rng ++ [v.extractLsb' 0 8] })

/-- A write of `IN_DATA` (20_memory.md R121). -/
def writeInData (v : Word) (s : State) : AccessResult :=
  if s.fifo.inEos then .done (refuseAccess s)
  else if s.cfg.inqDepth ≤ s.fifo.inp.length then pushFull s
  else .done (wake .inp { s with fifo.inp := s.fifo.inp ++ [v.extractLsb' 0 8] })

/-- A write of `PAYIN_DATA` (20_memory.md R121). -/
def writePayinData (v : Word) (s : State) : AccessResult :=
  if s.cfg.payinqDepth ≤ s.fifo.payin.length then pushFull s
  else .done (wake .payin { s with fifo.payin := s.fifo.payin ++ [v.extractLsb' 0 8] })

/-- A write of `IN_CTRL`: `EOS_CLR` acts first, then `EOS`, which ends a wait of the input reader (10_state.md R63,
70_reset_and_hazards.md R510). -/
def writeInCtrl (v : Word) (s : State) : State :=
  let s1 := if v.getLsbD 1 then { s with fifo.inEos := false } else s
  if v.getLsbD 0 then wake .inp { s1 with fifo.inEos := true } else s1

/-- A write of `FIFOCLR` (20_memory.md R127). -/
def writeFifoclr (v : Word) (s : State) : State :=
  { s with
    fifo.rng := if v.getLsbD 0 then [] else s.fifo.rng
    fifo.inp := if v.getLsbD 1 then [] else s.fifo.inp
    fifo.inEos := if v.getLsbD 1 then false else s.fifo.inEos
    fifo.payin := if v.getLsbD 2 then [] else s.fifo.payin
    fifo.out := if v.getLsbD 3 then [] else s.fifo.out
    fifo.payout := if v.getLsbD 4 then [] else s.fifo.payout }

/-- The tie rule a write of `CTRL` leaves: a write of 3 keeps the field (10_state.md R32). -/
def tieOfWord (v : Word) (old : TieRule) : TieRule :=
  match v.getLsbD 5, v.getLsbD 4 with
  | false, false => .halfAway
  | false, true => .halfUp
  | true, false => .halfEven
  | true, true => old

/-- A write of `CTRL` with `SRST = 0` (10_state.md R32). -/
def writeCtrl (v : Word) (s : State) : State :=
  { s with
    ctrl.padbit := v.getLsbD 1
    ctrl.hdrLossy := v.getLsbD 2
    ctrl.rngSigned := v.getLsbD 3
    ctrl.qround := tieOfWord v s.ctrl.qround }

/-- A write of `NCOEF`: `min(v − (v rem 64), COEF_DEPTH)` (10_state.md R43). -/
def writeNcoef (v : Word) (s : State) : State :=
  { s with geo.ncoef := BitVec.ofNat 32 (min (v.toNat - v.toNat % 64) s.cfg.coefDepth) }

/-- A write of `NCOMP`: 0 and 5 to 7 leave the field unchanged (10_state.md R45). -/
def writeNcomp (v : Word) (s : State) : State :=
  let n : BitVec 3 := v.extractLsb' 0 3
  if 1 ≤ n.toNat ∧ n.toNat ≤ 4 then { s with geo.ncomp := n } else s

/-- A write of a configuration or counter register; nothing for a register that has no such write (10_state.md R43 to R56). -/
def writeConfig (r : HostReg) (v : Word) (s : State) : Option State :=
  match r with
  | .ctrl => some (writeCtrl v s)
  | .ncoef => some (writeNcoef v s)
  | .imgW => some { s with geo.imgW := v.extractLsb' 0 16 }
  | .imgH => some { s with geo.imgH := v.extractLsb' 0 16 }
  | .ncomp => some (writeNcomp v s)
  | .compcfg c => some { s with geo.comp := s.geo.comp.set c.val (CompCfg.ofWord v) }
  | .rstint => some { s with geo.rstint := v.extractLsb' 0 16 }
  | .pred c => some (s.setPred c.val (v.extractLsb' 0 16))
  | .outcnt => some { s with coder.outcnt := v }
  | .incnt => some { s with coder.incnt := v }
  | .k => some { s with f5.k := v.extractLsb' 0 5 }
  | .paylen => some { s with f5.paylen := v }
  | .inCtrl => some (writeInCtrl v s)
  | .fifoclr => some (writeFifoclr v s)
  | _ => none

/-- A write of a register (10_state.md R31 to R63, 20_memory.md R106). A read-only register refuses it; a configuration
register, `FIFOCLR`, `CTRL` with `SRST = 0` and `IN_CTRL` with `EOS_CLR = 1` refuse it while `BUSY = 1`. -/
def writeReg (r : HostReg) (v : Word) (s : State) : AccessResult :=
  match r with
  | .cmd => writeCmd v s
  | .rngData => writeRngData v s
  | .inData => writeInData v s
  | .payinData => writePayinData v s
  | .warn => .done { s with warn := s.warn &&& ~~~(v.extractLsb' 0 16) }
  | .irqen => .done { s with irqen := v.extractLsb' 0 3 }
  | r =>
    if r = .ctrl ∧ v.getLsbD 0 = true then .done (softReset s)
    else if r = .inCtrl ∧ v.getLsbD 1 = false then .done (writeInCtrl v s)
    else if s.busy then .done (refuseAccess s)
    else match writeConfig r v s with
      | some s' => .done s'
      | none => .done (refuseAccess s)

/-- The four bytes of a window word, PIX entry `4·j` in bits 7:0 (20_memory.md R103). -/
def wordBytes (v : Word) : List Byte :=
  [v.extractLsb' 0 8, v.extractLsb' 8 8, v.extractLsb' 16 8, v.extractLsb' 24 8]

/-- A write of a window word; nothing for a read-only window (20_memory.md R103 to R108). -/
def writeWindow (w : Region) (v : Word) (s : State) : Option State :=
  match w with
  | .pix j =>
    some { s with ram.pix := Memory.writeBlock s.ram.pix (4 * j) (wordBytes v) }
  | .qt i => some { s with ram.qt := Memory.write s.ram.qt i (v.extractLsb' 0 16) }
  | .coef i => some { s with ram.coef := Memory.write s.ram.coef i (v.extractLsb' 0 16) }
  | _ => none

/-- An aligned 32-bit write at an offset of the window (20_memory.md R101 to R109). -/
def busWrite (off : Nat) (v : Word) (s : State) : AccessResult :=
  match regionOf s.cfg off with
  | .reg r => writeReg r v s
  | w =>
    if s.busy then .done (refuseAccess s)
    else match writeWindow w v s with
      | some s' => .done s'
      | none => .done (refuseAccess s)

/-! ### Accesses -/

/-- The offset of a bus address in the block's window (20_memory.md R100). -/
def offsetOfAddr (cfg : Params) (addr : Word) : Option Nat :=
  if cfg.f5Base.toNat ≤ addr.toNat ∧ addr.toNat ≤ cfg.f5Base.toNat + 0x2FFFFFFF then
    some (addr.toNat - cfg.f5Base.toNat)
  else none

/-- A host bus access (20_memory.md R102): only an aligned 32-bit access with all byte lanes has an effect. -/
def busAccess (a : BusAccess) (s : State) : AccessResult :=
  match a with
  | .read addr width =>
    match offsetOfAddr s.cfg addr with
    | none => .outside
    | some off => if width = .w32 ∧ off % 4 = 0 then .done (busRead off s) else .done (refuseRead s)
  | .write addr width lanes v =>
    match offsetOfAddr s.cfg addr with
    | none => .outside
    | some off =>
      if width = .w32 ∧ lanes = 0xF ∧ off % 4 = 0 then busWrite off v s else .done (refuseAccess s)

end Sys2Proof.Machine
end

