-- ==== Sys2Proof/Machine/Agents.lean ====
section
/-! DEFINITION. What each agent does in a step: the core dequeues, begins or goes on with a command (10_state.md R81,
70_reset_and_hazards.md R510), and the host makes its next access. -/

namespace Sys2Proof.Machine

/-- Go on with a command that has begun (20_memory.md R123: it resumes exactly where it waited). -/
def continueCommand (p : Progress) (s : State) : State :=
  match p with
  | .start => s
  | .emit bytes e => runEmit (bytes, e) s
  | .permgen i got => runPermgen (i, got) s
  | .embHdr got => runEmbhdr got s
  | .embPay c => runEmbpay (.embed c) s
  | .embDrain popped => runEmbpay (.drain popped) s
  | .extHdr h got => runExthdr (h, got) s
  | .extPay c => runExtpay c s
  | .decHdr ph => runDechdr ph s
  | .decBlk c ff ph => runDecblk { ctx := c, ff := ff, phase := ph } s
  | .decScan ph => runDecscan ph s

/-- `Execute(w)` for the dequeued word: decode it, take the fault of a word that is no command, or run the command
(40_control.md R182, 30_encoding.md R141). -/
def beginCommand (s : State) : Out :=
  match decode s.cur with
  | .error .illegal => .next (faultEntry .illegal s)
  | .error .rsvd => .next (faultEntry .rsvd s)
  | .ok i => exec i s

/-- One move of the core: begin a dequeued command, go on with one, or nothing (IDLE, STALL and HALTED have no core step:
00_scope.md R16, 60_exceptions.md R462; log 3). -/
def coreMove (s : State) : Out :=
  match s.agent with
  | .exec .start => beginCommand s
  | .exec p => .next (continueCommand p s)
  | .idle => .next s
  | .stall _ _ => .next s
  | .halted _ => .next s

/-- The dequeue of an IDLE core (20_memory.md R120), taken in the step that made it possible: a retirement goes from EXEC to
EXEC with the next command, and a write to CMD of an idle core starts it (70_reset_and_hazards.md R510; log 16). -/
def settle (s : State) : State :=
  match s.agent, s.fifo.cmd with
  | .idle, w :: q => { s with fifo.cmd := q, cur := w, agent := .exec .start }
  | _, _ => s

/-- `settle` on the state an outcome holds. -/
def settleOut : Out → Out
  | .next s => .next (settle s)
  | .fault f => .fault f
  | .refused r => .refused r

/-- The core's move, and the dequeue that may follow it. -/
def coreStep (s : State) : Out := settleOut (coreMove s)

/-- One step: the host's next move says which agent acts (log 2). A held bus write lets the core move and stays the host's
next move (20_memory.md R120, R121, R130). Each step looks at it again: a write held when the executing command faults is
discarded with `HOSTERR`, a case R120 and R121 leave open (DESIGN CHOICE, log 25). -/
def agentStep (s : State) : Out :=
  match s.host with
  | [] => coreStep s
  | .yield :: h => coreStep { s with host := h }
  | .pinReset :: h => .next (pinReset { s with host := h })
  | .access a :: h =>
    match busAccess a { s with host := h } with
    | .done s' => .next (settle s')
    | .held => coreStep s
    | .outside => .fault .outsideWindow

/-- The state in which the core's next step begins the command of word `w`, as if the core had just dequeued it
(70_reset_and_hazards.md R502; log 15). -/
def loadCommand (w : Word) (s : State) : State :=
  { s with cur := w, agent := .exec .start, host := .yield :: s.host }

end Sys2Proof.Machine
end

