-- ==== Sys2Proof/Machine/Step.lean ====
section
/-! DEFINITION. The step function, and the state whose next step runs a given command word. -/

namespace Sys2Proof.Machine

/-- One step of the machine (log 2, log 3). -/
def step (s : State) : Host.Outcome State Fault Refusal := agentStep s

/-- `s` with the command of the low `nbits` bits of `w` where the core takes its next command (log 15). -/
def State.withFetchWord (s : State) (nbits w : Nat) : State :=
  loadCommand (BitVec.ofNat 32 (w % 2 ^ nbits)) s

end Sys2Proof.Machine
end

