-- ==== Sys2Proof/Safety.lean ====
section
/-! DEFINITION. What the claims are about: the fault-free states, the invariants every step keeps, and the spec's own
vocabulary for bit streams, host accesses and the usable coefficients. -/

namespace Sys2Proof.Machine

/-- No fault is recorded (10_state.md R33). -/
def State.safe (s : State) : Bool := !s.faulted

/-- A command has been dequeued and has neither retired nor faulted: EXEC or STALL (70_reset_and_hazards.md R510). -/
def State.executing (s : State) : Bool :=
  match s.agent with
  | .exec _ => true
  | .stall _ _ => true
  | .idle => false
  | .halted _ => false

/-! ### The invariant -/

/-- Every RAM is in its canonical form. -/
structure Rams.Canonical (r : Rams) : Prop where
  coef : Memory.wf r.coef
  perm : Memory.wf r.perm
  pix : Memory.wf r.pix
  qt : Memory.wf r.qt
  dct : Memory.wf r.dct
  div : Memory.wf r.div
  cw : Memory.wf r.cw
  dhMax : Memory.wf r.dhMax
  dhMin : Memory.wf r.dhMin
  dhPtr : Memory.wf r.dhPtr
  dhVal : Memory.wf r.dhVal

/-- No FIFO holds more entries than it has (00_scope.md R9, 20_memory.md R120 to R122). -/
structure Fifos.Fits (cfg : Params) (f : Fifos) : Prop where
  cmd : f.cmd.length ≤ cfg.cmdqDepth
  rng : f.rng.length ≤ cfg.rngqDepth
  inp : f.inp.length ≤ cfg.inqDepth
  payin : f.payin.length ≤ cfg.payinqDepth
  out : f.out.length ≤ cfg.outqDepth
  payout : f.payout.length ≤ cfg.payoutqDepth

/-- The bit packer's invariant (44_entropy_encoder.md R291): at most 7 bits are pending, and the bits below them are 0. -/
def Coder.Aligned (c : Coder) : Prop :=
  c.putbits.toNat ≤ 7 ∧ c.putbuf.toNat % 2 ^ (24 - c.putbits.toNat) = 0

/-- EMBPAY is embedding. -/
def Agent.embedding : Agent → Bool
  | .exec (.embPay _) => true
  | .stall _ (.embPay _) => true
  | _ => false

/-- Every (code, size) pair an encoder command has still to append has at most 16 bits (44_entropy_encoder.md R291). -/
def Ending.fits : Ending → Bool
  | .retire => true
  | .flushed => true
  | .buffered _ size rest _ => decide (size ≤ 16) && rest.all (fun c => decide (c.2 ≤ 16))
  | .codes rest _ => rest.all (fun c => decide (c.2 ≤ 16))

/-- An encoder command's progress fits BufBits. -/
def Agent.codesFit : Agent → Bool
  | .exec (.emit _ e) => e.fits
  | .stall _ (.emit _ e) => e.fits
  | _ => true

/-- The invariant of the machine: what the rules say of every register, RAM and FIFO at every moment. -/
structure State.Inv (s : State) : Prop where
  /-- The parameters are legal (00_scope.md R9). -/
  params : s.cfg.wf
  rams : s.ram.Canonical
  fifos : s.fifo.Fits s.cfg
  /-- `NCOEF` is a multiple of 64 and at most `COEF_DEPTH` (10_state.md R43, 43_zigzag_mux.md R264). -/
  array : s.geo.ncoef.toNat % 64 = 0 ∧ s.geo.ncoef.toNat ≤ s.cfg.coefDepth
  /-- `NCOMP` is 1 to 4 (10_state.md R45). -/
  components : 1 ≤ s.geo.ncomp.toNat ∧ s.geo.ncomp.toNat ≤ 4
  packer : s.coder.Aligned
  /-- `BITCNT` is 0 to 8 (10_state.md R80). -/
  reader : s.reader.bitcnt ≤ 8
  /-- The cursor is inside the permutation, and that inside its RAM (10_state.md R53, R54). -/
  cursor : s.f5.pos.toNat ≤ s.f5.permN.toNat ∧ s.f5.permN.toNat ≤ s.cfg.coefDepth
  /-- `CWLEN` is at most `CW_MAX` (10_state.md R61). -/
  codeWord : s.f5.cwlen.toNat ≤ s.cfg.cwMax
  /-- An idle core has taken every command, and a fault has emptied the command FIFO (70_reset_and_hazards.md R510, 60_exceptions.md R462). -/
  queue : s.executing = false → s.fifo.cmd = []
  /-- EMBPAY began with a legal K, which cannot change while it runs (46_f5_matrix.md R408, 20_memory.md R106). -/
  embedding : s.agent.embedding = true → s.f5.k.toNat ≤ s.cfg.kMaxEmb
  /-- BufBits is given at most 16 bits (44_entropy_encoder.md R291). -/
  encoding : s.agent.codesFit = true

/-! ### The permutation -/

/-- `PERM[0 .. n−1]` as numbers. -/
def State.permList (s : State) (n : Nat) : List Nat := (List.range n).map (fun i => (s.permAt i).toNat)

/-- `PERM` is a bijection of `[0, n)` (41_permutation.md R199). -/
def State.Bijective (s : State) (n : Nat) : Prop := (s.permList n).Perm (List.range n)

/-- PERMGEN is between two of its draws. -/
def Agent.shuffling : Agent → Bool
  | .exec (.permgen _ _) => true
  | .stall _ (.permgen _ _) => true
  | _ => false

/-- The permutation's invariant: a complete permutation is a bijection of `[0, PERM_N)`; one under construction is a
bijection of `[0, NCOEF)` and not yet valid (41_permutation.md R193, R199). -/
structure State.PermInv (s : State) : Prop where
  complete : s.valid.perm = true → s.Bijective s.f5.permN.toNat
  building : s.agent.shuffling = true → s.valid.perm = false ∧ s.Bijective s.geo.ncoef.toNat

/-- The usable coefficient indices of `PERM[a .. a + n − 1]`, in order (00_scope.md R17, 41_permutation.md R195). -/
def State.usableFrom (s : State) (a n : Nat) : List Nat :=
  ((List.range n).map (fun i => (s.permAt (a + i)).toNat)).filter (fun p => s.usable p)

/-- The usable coefficients the cursor has not drawn yet. -/
def State.usableLeft (s : State) : List Nat := s.usableFrom s.f5.pos.toNat s.entriesLeft

/-- The cursor stands right after the last of the indices drawn since `s`, or where it stood if none was drawn
(41_permutation.md R195). -/
def State.drewLast (s t : State) (drawn : List Nat) : Prop :=
  match drawn.getLast? with
  | none => t.f5.pos = s.f5.pos
  | some p => s.f5.pos.toNat < t.f5.pos.toNat ∧ (s.permAt (t.f5.pos.toNat - 1)).toNat = p

/-- How many of the listed coefficients differ between two states. -/
def State.changedAmong (s t : State) (ps : List Nat) : Nat := (ps.filter (fun p => decide (t.coefAt p ≠ s.coefAt p))).length

/-- How many of the listed coefficients are 0. -/
def State.zerosAmong (t : State) (ps : List Nat) : Nat := (ps.filter (fun p => decide (t.coefInt p = 0))).length

/-- Embedding's effect on COEF: a coefficient outside `ps` is unchanged, and each in `ps` is unchanged or one step nearer to 0
(46_f5_matrix.md R400). -/
def State.toggledOnly (s t : State) (ps : List Nat) : Prop :=
  (∀ a, a ∉ ps → t.coefAt a = s.coefAt a) ∧ ∀ a ∈ ps, t.coefAt a = s.coefAt a ∨ t.coefInt a = decMag (s.coefInt a)

/-- The carried bits, 1 for a member that carries 1, of a list of coefficient indices (46_f5_matrix.md R400). -/
def State.carried (s : State) (ps : List Nat) : List Nat :=
  ps.map (fun p => if carriedBit (s.coefInt p) = some true then 1 else 0)

/-- The syndrome of carried bits: the XOR of the 1-based numbers of the members that carry 1 (46_f5_matrix.md R404). -/
def syndromeOf (bits : List Nat) : Nat :=
  (bits.zipIdx 1).foldl (fun h m => if m.1 = 1 then h ^^^ m.2 else h) 0

/-- The value whose bit i is the i-th of a list of bits (46_f5_matrix.md R409, least-significant first). -/
def valueOf : List Nat → Nat
  | [] => 0
  | b :: bs => b + 2 * valueOf bs

/-! ### Bit streams (44_entropy_encoder.md R291, R292) -/

/-- The bits of a byte, most significant first. -/
def byteBits (b : Byte) : List Bool := (List.range 8).map (fun i => b.getLsbD (7 - i))

/-- The `size` low bits of `code`, most significant first. -/
def lowBits (code size : Nat) : List Bool := (List.range size).map (fun i => code.testBit (size - 1 - i))

/-- The pending bits of the accumulator, first given first. -/
def State.pendingBits (s : State) : List Bool :=
  (List.range s.coder.putbits.toNat).map (fun i => s.coder.putbuf.getLsbD (23 - i))

/-- The bits of whole bytes. -/
def streamBits (bytes : List Byte) : List Bool := bytes.flatMap byteBits

/-- Byte stuffing: every `0xFF` is followed by `0x00` (44_entropy_encoder.md R292). -/
def stuff (bytes : List Byte) : List Byte := bytes.flatMap (fun b => if b = 0xFF then [b, 0x00] else [b])

/-- The bits of a list of (code, size) pairs. -/
def codeBits (cs : List (Nat × Nat)) : List Bool := cs.flatMap (fun c => lowBits c.1 c.2)

/-- The component of block `b` of the array (43_zigzag_mux.md R269). -/
def State.blockComponent (s : State) (b : Nat) : Nat := s.componentOf (b % s.bpm)

/-- The pairs ENCSCAN appends for `n` blocks from block `b` on, with the predictors `preds` (44_entropy_encoder.md R301). -/
def scanCodes (s : State) : Nat → Nat → Quad (BitVec 16) → List (Nat × Nat)
  | 0, _, _ => []
  | n + 1, b, preds =>
    let c := s.blockComponent b
    blockCodes c (s.geo.comp.get c).td (s.geo.comp.get c).ta b { s with coder.pred := preds }
      ++ scanCodes s n (b + 1) (preds.set c (s.coefAt (64 * b)))

/-- The predictors after ENCSCAN has coded `n` blocks from block `b` on: each component's is the DC value of its last block
(44_entropy_encoder.md R300, R301). -/
def scanPreds (s : State) : Nat → Nat → Quad (BitVec 16) → Quad (BitVec 16)
  | 0, _, preds => preds
  | n + 1, b, preds => scanPreds s n (b + 1) (preds.set (s.blockComponent b) (s.coefAt (64 * b)))

/-- Every one of `n` blocks from block `b` on has a code (44_entropy_encoder.md R300, R301). -/
def scanCodable (s : State) : Nat → Nat → Quad (BitVec 16) → Bool
  | 0, _, _ => true
  | n + 1, b, preds =>
    let c := s.blockComponent b
    codable c b { s with coder.pred := preds } && scanCodable s n (b + 1) (preds.set c (s.coefAt (64 * b)))

/-- The bits the decoder's bit reader holds, the next one first (45_entropy_decoder.md R360). -/
def State.readerBits (s : State) : List Bool :=
  (List.range s.reader.bitcnt).map (fun i => s.reader.bitbuf.getLsbD (s.reader.bitcnt - 1 - i))

/-- A decoder table holds a Huffman table: every symbol's code lies in its length's range and names the symbol
(45_entropy_decoder.md R351, R363). -/
def State.holdsTable (s : State) (j : Nat) (h : HuffSpec) : Prop :=
  (∀ l, 1 ≤ l → l ≤ 16 → h.bits.getD (l - 1) 0 = 0 → s.maxcodeAt j l = -1) ∧
  ∀ e ∈ canonical h,
    s.mincodeAt j e.2.size ≤ (e.2.code : Int) ∧ (e.2.code : Int) ≤ s.maxcodeAt j e.2.size ∧
    (s.huffvalAt j (s.valptrAt j e.2.size + e.2.code - s.mincodeAt j e.2.size)).toNat = e.1 ∧
    ∃ e' ∈ canonical h, e'.2.size = e.2.size ∧ (e'.2.code : Int) = s.maxcodeAt j e.2.size

/-- BITS and HUFFVAL as the bytes of a DHT segment. -/
def HuffSpec.bytes (h : HuffSpec) : List Byte := (h.bits ++ h.huffval).map (BitVec.ofNat 8)

/-- A baseline header of one component: SOI, DQT, SOF0, DHT with tables DC0 and AC0, SOS (45_entropy_decoder.md R350). -/
def headerBytes (width height : BitVec 16) (q : List Byte) : List Byte :=
  [0xFF, 0xD8, 0xFF, 0xDB, 0x00, 0x43, 0x00] ++ q
    ++ [0xFF, 0xC0, 0x00, 0x0B, 0x08, height.extractLsb' 8 8, height.extractLsb' 0 8, width.extractLsb' 8 8,
      width.extractLsb' 0 8, 0x01, 0x01, 0x11, 0x00]
    ++ [0xFF, 0xC4, 0x00, 0xD2, 0x00] ++ huffDc0.bytes ++ [0x10] ++ huffAc0.bytes
    ++ [0xFF, 0xDA, 0x00, 0x08, 0x01, 0x01, 0x00, 0x00, 0x3F, 0x00]

/-- A marker segment with `fill` fill bytes: `0xFF`s, the code, the length, which counts itself, and the payload
(45_entropy_decoder.md R340, R350). -/
def segment (fill : Nat) (m : Byte) (p : List Byte) : List Byte :=
  List.replicate (fill + 1) 0xFF ++ [m, BitVec.ofNat 8 ((p.length + 2) / 256), BitVec.ofNat 8 (p.length + 2)] ++ p

/-! ### Waits (20_memory.md R123) -/

/-- The state with bytes appended to the three input FIFOs, and the end of the input as given. -/
def State.feed (rng inp payin : List Byte) (eos : Bool) (s : State) : State :=
  { s with
    fifo.rng := s.fifo.rng ++ rng
    fifo.inp := s.fifo.inp ++ inp
    fifo.payin := s.fifo.payin ++ payin
    fifo.inEos := eos }

/-- The state after `n` pops of the OUT FIFO and `m` of the PAYOUT FIFO. -/
def State.popped (n m : Nat) (s : State) : State :=
  { s with fifo.out := s.fifo.out.drop n, fifo.payout := s.fifo.payout.drop m }

/-- The state with the two output FIFOs deeper by `n` and `m`. -/
def State.deepened (n m : Nat) (s : State) : State :=
  { s with cfg.outqDepth := s.cfg.outqDepth + n, cfg.payoutqDepth := s.cfg.payoutqDepth + m }

/-! ### Binary64 (00_scope.md R14) -/

/-- The exact value of a finite binary64 encoding. -/
def f64Exact (x : F64) : Option ℚ :=
  match f64Value x with
  | .fin neg m e => some ((signedNat neg m : ℚ) * (2 : ℚ) ^ e)
  | .inf _ => none
  | .nan => none

/-- The sign bit. -/
def f64Sign (x : F64) : Bool := x.getLsbD 63

/-- `r` is the binary64 value nearest to `q`, of two equally near ones the even one; from the midpoint above the largest finite value
on it is an infinity (00_scope.md R14). -/
def NearestEven (q : ℚ) (r : F64) : Prop :=
  if (2 : ℚ) ^ 1024 - (2 : ℚ) ^ 970 ≤ |q| then r = f64Inf (decide (q < 0))
  else
    ∃ v, f64Exact r = some v ∧
      ∀ y w, f64Exact y = some w → |q - v| ≤ |q - w| ∧ (|q - w| = |q - v| → w ≠ v → r.toNat % 2 = 0)

/-! ### The shuffle (41_permutation.md R193) -/

/-- The elements at two places exchanged. -/
def swapAt (l : List Nat) (a b : Nat) : List Nat := (l.set a (l.getD b 0)).set b (l.getD a 0)

/-- The values drawn from generator bytes, four a draw: draw `i` of `n` is `NextValue(n − i)`. -/
def drawsFrom (signed : Bool) (n : Nat) : Nat → List Byte → List Nat
  | i, b0 :: b1 :: b2 :: b3 :: rest =>
    if i < n then boundedValue (rngWordOr signed b0 b1 b2 b3) (n - i) :: drawsFrom signed n (i + 1) rest else []
  | _, _ => []

/-- The Fisher–Yates shuffle of `[0, n)` from the end: draw `i` exchanges the tail place `n − 1 − i` with the drawn place. -/
def shuffled (n : Nat) (draws : List Nat) : List Nat :=
  draws.zipIdx.foldl (fun l d => swapAt l (n - 1 - d.2) d.1) (List.range n)

/-! ### Extraction (46_f5_matrix.md R416) -/

/-- The payload bits of groups of `2^k − 1` carried bits: the `k` bits of each group's syndrome, lowest first. -/
def groupBits (k : Nat) : Nat → List Nat → List Nat
  | 0, _ => []
  | fuel + 1, bits =>
    if bits.length < 2 ^ k - 1 then []
    else (List.range k).map (fun i => syndromeOf (bits.take (2 ^ k - 1)) / 2 ^ i % 2)
      ++ groupBits k fuel (bits.drop (2 ^ k - 1))

/-- The payload bits the carried bits hold: themselves in plain mode, the syndromes' bits otherwise. -/
def payloadBits (k : Nat) (bits : List Nat) : List Nat := if k = 0 then bits else groupBits k bits.length bits

/-- Byte `j` of a list of bits, least-significant first. -/
def byteOfBits (bits : List Nat) (j : Nat) : Byte := BitVec.ofNat 8 (valueOf ((bits.drop (8 * j)).take 8))

/-! ### Host accesses (20_memory.md R100 to R102) -/

/-- An aligned 32-bit host write of `v` at offset `off` of the window. -/
def writeAt (cfg : Params) (off : Nat) (v : Word) : HostMove :=
  .access (.write (cfg.f5Base + BitVec.ofNat 32 off) .w32 0xF v)

/-- An aligned 32-bit host read at offset `off` of the window. -/
def readAt (cfg : Params) (off : Nat) : HostMove := .access (.read (cfg.f5Base + BitVec.ofNat 32 off) .w32)

/-- The state in which the host's next move is `m`. -/
def State.andThen (s : State) (m : HostMove) (h : List HostMove) : State := { s with host := m :: h }

/-- `WARN.HOSTERR` set. -/
def warnHostErr (w : BitVec 16) : BitVec 16 := w ||| 0x2000

end Sys2Proof.Machine
end

