-- ==== Sys2Proof/Certificates/Slice0/Obligations.lean ====
section
/-! DEFINITION. The statements for the provers. A statement about one command gives its next state whole: every field not named in
the new state is the old one, so each is also the command's frame. -/

open Sys2Proof Sys2Proof.Machine

/-! ### Encoding (30_encoding.md) -/

/-- The encodings of 30_encoding.md R157, and one word for each family it has no example for, written from R142 to R152. -/
def Obligations.SpecExampleWordsDecode : Prop :=
  decode 0x00000000 = .ok .nop ∧ decode 0x01123456 = .ok (.mark 0x123456) ∧ decode 0x10000050 = .ok (.qtscale 80) ∧
  decode 0x13200005 = .ok (.quant 1 5) ∧ decode 0x1B800003 = .ok (.blkaddr 2 0 3) ∧
  decode 0x20030005 = .ok (.putbits 3 5) ∧ decode 0x220000D9 = .ok (.emitraw 0xD9) ∧
  decode 0x24700004 = .ok (.encblk 1 1 1 4) ∧ decode 0x31000000 = .ok (.decblk 0 0 0 0) ∧
  decode 0x4A000003 = .ok (.bstep 3) ∧ decode 0x4B000002 = .ok (.mstep 2) ∧
  decode 0x18000007 = .ok (.zzfwd 7) ∧ decode 0x43000003 = .ok (.offer 3) ∧ decode 0x50000000 = .ok .extpay

/-- No bit of an encoding is dropped: decoding an encoded well-formed instruction gives it back (R140 to R152). -/
def Obligations.DecodeInvertsEncode : Prop :=
  ∀ i : Instr, i.wellFormed = true → decode (encode i) = .ok i

/-- Each word has one meaning: a word that decodes is the encoding of the well-formed instruction it decodes to. -/
def Obligations.EncodeInvertsDecode : Prop :=
  ∀ (w : Word) (i : Instr), decode w = .ok i → i.wellFormed = true ∧ encode i = w

/-- The opcodes of each format (R152), and the two faults of a word that is no command, taken in the order of R141: an opcode
outside the map, then a reserved bit of the opcode's format. -/
def Obligations.WordsThatAreNoCommandFault : Prop :=
  let f0 := [0x00, 0x11, 0x12, 0x1A, 0x1C, 0x21, 0x23, 0x25, 0x30, 0x32, 0x40, 0x49, 0x4C, 0x4D, 0x4E, 0x4F, 0x50]
  let fi24 := [0x01, 0x41, 0x42, 0x48, 0x4B]
  let fi8 := [0x10, 0x22, 0x43, 0x4A]
  let others := [0x13, 0x18, 0x19, 0x1B, 0x20, 0x24, 0x31]
  ∀ s : State, s.agent = .exec .start → s.host = [] →
    let w := s.cur.toNat
    let opc := w / 2 ^ 24
    let reserved :=
      (opc ∈ f0 ∧ w % 2 ^ 24 ≠ 0) ∨ (opc ∈ fi8 ∧ w / 2 ^ 8 % 2 ^ 16 ≠ 0) ∨
      (opc = 0x13 ∧ (w / 2 ^ 22 % 2 ^ 2 ≠ 0 ∨ w / 2 ^ 18 % 2 ^ 3 ≠ 0)) ∨
      ((opc = 0x18 ∨ opc = 0x19) ∧ w / 2 ^ 18 % 2 ^ 6 ≠ 0) ∨ (opc = 0x20 ∧ w / 2 ^ 21 % 2 ^ 3 ≠ 0) ∨
      ((opc = 0x24 ∨ opc = 0x31) ∧ w / 2 ^ 18 % 2 ^ 2 ≠ 0)
    (opc ∉ f0 ++ fi24 ++ fi8 ++ others → step s = .next (faultEntry .illegal s)) ∧
    (reserved → step s = .next (faultEntry .rsvd s)) ∧
    (opc ∈ f0 ++ fi24 ++ fi8 ++ others → ¬reserved →
      ∃ i t, decode s.cur = .ok i ∧ exec i s = .next t ∧ step s = .next (settle t))

/-! ### The step, retirement and faults -/

/-- When the dequeued word decodes, the core's step is exec of the instruction, after which an idle core dequeues the next word;
the host's `yield` is consumed (40_control.md R182, 70_reset_and_hazards.md R510). -/
def Obligations.StepRunsTheDecodedCommand : Prop :=
  ∀ (s : State) (i : Instr) (h : List HostMove), s.agent = .exec .start → decode s.cur = .ok i →
    (s.host = [] → ∃ t, exec i s = .next t ∧ step s = .next (settle t)) ∧
    (s.host = .yield :: h →
      ∃ t, exec i { s with host := h } = .next t ∧ step s = .next (settle t)) ∧
    (∀ t w q, t.agent = .idle → t.fifo.cmd = w :: q →
      settle t = { t with fifo.cmd := q, cur := w, agent := .exec .start }) ∧
    (∀ t, t.agent ≠ .idle ∨ t.fifo.cmd = [] → settle t = t)

/-- How every command ends: a fault records the word and the index and does not advance CMDCNT, a retirement advances it by
one, and a wait or a pause leaves it (10_state.md R38 to R40, 40_control.md R182, 60_exceptions.md R462). A command waits exactly on a
FIFO that cannot serve it: an empty input FIFO, with more input to come for IN, or a full output FIFO (20_memory.md R123, R124).
The pause, a state in which the core goes on at its next move, is the model's (log 4). -/
def Obligations.CommandsEndInOneOfTheSpecsWays : Prop :=
  ∀ (i : Instr) (s : State), ∃ t, exec i s = .next t ∧
    ((t.agent = .idle ∧ t.cmdcnt = s.cmdcnt + 1 ∧ t.fcmd = s.fcmd ∧ t.fpc = s.fpc ∧ t.fifo.cmd = s.fifo.cmd) ∨
     (∃ c, t.agent = .halted c ∧ t.cmdcnt = s.cmdcnt ∧ t.fcmd = s.cur ∧ t.fpc = s.cmdcnt ∧ t.fifo.cmd = []) ∨
     ((∃ src p, t.agent = .stall src p) ∧ t.cmdcnt = s.cmdcnt ∧ t.fcmd = s.fcmd ∧ t.fpc = s.fpc ∧ t.fifo.cmd = s.fifo.cmd) ∨
     ((∃ p, t.agent = .exec p) ∧ t.cmdcnt = s.cmdcnt ∧ t.fcmd = s.fcmd ∧ t.fpc = s.fpc ∧ t.fifo.cmd = s.fifo.cmd)) ∧
    ∀ src p, t.agent = .stall src p →
      match src with
      | .rng => t.fifo.rng = []
      | .inp => t.fifo.inp = [] ∧ t.fifo.inEos = false
      | .payin => t.fifo.payin = []
      | .out => t.cfg.outqDepth ≤ t.fifo.out.length
      | .payout => t.cfg.payoutqDepth ≤ t.fifo.payout.length

/-- No command writes an option, an enable, a host operand register, the sample buffer or the end-of-input flag. Warnings are
sticky, and FIFOs are first-in first-out: a command takes bytes from the front of an input FIFO and appends them at the
back of an output FIFO (60_exceptions.md R465, 20_memory.md R125). -/
def Obligations.CommandsKeepControlStateAndFifoOrder : Prop :=
  ∀ (i : Instr) (s t : State), exec i s = .next t →
    t.cfg = s.cfg ∧ t.ctrl = s.ctrl ∧ t.irqen = s.irqen ∧ t.cur = s.cur ∧ t.host = s.host ∧ t.busData = s.busData ∧
    t.freeCount = s.freeCount ∧ t.powerCycles = s.powerCycles ∧ t.f5.k = s.f5.k ∧ t.f5.paylen = s.f5.paylen ∧
    t.ram.pix = s.ram.pix ∧ t.fifo.inEos = s.fifo.inEos ∧
    (∀ n, s.warn.getLsbD n = true → t.warn.getLsbD n = true) ∧
    (∃ taken, s.fifo.rng = taken ++ t.fifo.rng) ∧ (∃ taken, s.fifo.inp = taken ++ t.fifo.inp) ∧
    (∃ taken, s.fifo.payin = taken ++ t.fifo.payin) ∧ (∃ put, t.fifo.out = s.fifo.out ++ put) ∧
    (∃ put, t.fifo.payout = s.fifo.payout ++ put)

/-- Which commands use each byte FIFO and which write each RAM (41_permutation.md R198, and the Writes line of each command's rule). -/
def Obligations.OnlyTheNamedCommandsUseEachFifoAndRam : Prop :=
  ∀ (i : Instr) (s t : State), exec i s = .next t →
    (i.op ∉ [Op.permgen, .embhdr, .embpay, .exthdr, .extpay] → t.fifo.rng = s.fifo.rng) ∧
    (i.op ∉ [Op.dechdr, .decblk, .decscan] → t.fifo.inp = s.fifo.inp ∧ t.coder.incnt = s.coder.incnt) ∧
    (i.op ∉ [Op.embpay] → t.fifo.payin = s.fifo.payin) ∧
    (i.op ∉ [Op.putbits, .flush, .emitraw, .encblk, .encscan] → t.fifo.out = s.fifo.out ∧ t.coder.outcnt = s.coder.outcnt) ∧
    (i.op ∉ [Op.extpay] → t.fifo.payout = s.fifo.payout) ∧
    (i.op ∉ [Op.quant, .zzfwd, .zzinv, .coefclr, .decblk, .decscan, .bstep, .mstep, .embhdr, .embpay] →
      t.ram.coef = s.ram.coef) ∧
    (i.op ∉ [Op.permgen] → t.ram.perm = s.ram.perm) ∧
    (i.op ∉ [Op.qtscale, .dechdr] → t.ram.qt = s.ram.qt) ∧
    (i.op ∉ [Op.fdct] → t.ram.dct = s.ram.dct) ∧
    (i.op ∉ [Op.qtscale, .divcalc] → t.ram.div = s.ram.div) ∧
    (i.op ∉ [Op.offer, .mstep, .embpay] → t.ram.cw = s.ram.cw ∧ t.f5.cwlen = s.f5.cwlen) ∧
    (i.op ∉ [Op.dechdr] → t.ram.dhMax = s.ram.dhMax ∧ t.ram.dhMin = s.ram.dhMin ∧ t.ram.dhPtr = s.ram.dhPtr ∧
      t.ram.dhVal = s.ram.dhVal)

/-- Which commands write each result, configuration and progress register (10_state.md R41 to R62, and the Writes line of each
command's rule). -/
def Obligations.OnlyTheNamedCommandsWriteEachRegister : Prop :=
  ∀ (i : Instr) (s t : State), exec i s = .next t →
    (i.op ∉ [Op.mark] → t.mark = s.mark) ∧
    (i.op ∉ [Op.permrd, .offer, .blkaddr, .decblk, .xbit, .bstep, .mstep, .mxtr] → t.result = s.result) ∧
    (i.op ∉ [Op.geom, .dechdr] → t.geo = s.geo) ∧
    (i.op ∉ [Op.predclr, .encblk, .encscan, .decblk, .decscan] → t.coder.pred = s.coder.pred) ∧
    (i.op ∉ [Op.putbits, .flush, .encblk, .encscan] → t.coder.putbuf = s.coder.putbuf ∧ t.coder.putbits = s.coder.putbits) ∧
    (i.op ∉ [Op.dechdr, .decscan] → t.seen = s.seen) ∧
    (i.op ∉ [Op.dechdr, .decblk, .decscan] → t.reader = s.reader) ∧
    (i.op ∉ [Op.qtscale, .divcalc] → t.valid.div = s.valid.div) ∧
    (i.op ∉ [Op.permgen] → t.valid.perm = s.valid.perm ∧ t.f5.permN = s.f5.permN) ∧
    (i.op ∉ [Op.dechdr] → t.valid.dht = s.valid.dht) ∧
    (i.op ∉ [Op.permgen, .curset, .offer, .bstep, .mstep, .mxtr, .embhdr, .embpay, .exthdr, .extpay] →
      t.f5.pos = s.f5.pos) ∧
    (i.op ∉ [Op.bstep, .mstep, .embhdr, .embpay] →
      t.f5.embChanged = s.f5.embChanged ∧ t.f5.embShrink = s.f5.embShrink) ∧
    (i.op ∉ [Op.embhdr, .embpay] → t.f5.embBits = s.f5.embBits ∧ t.f5.embBytes = s.f5.embBytes) ∧
    (i.op ∉ [Op.embhdr, .exthdr] → t.f5.hdrword = s.f5.hdrword) ∧
    (i.op ∉ [Op.exthdr] → t.f5.extLen = s.f5.extLen ∧ t.f5.extK = s.f5.extK) ∧
    (i.op ∉ [Op.exthdr, .extpay] → t.f5.extBytes = s.f5.extBytes) ∧
    (i.op ∉ [Op.capcnt] → t.f5.capOnes = s.f5.capOnes ∧ t.f5.capZeros = s.f5.capZeros ∧
      t.f5.capNondc = s.f5.capNondc ∧ t.f5.capLarge = s.f5.capLarge) ∧
    (i.op ∉ [Op.embhdr, .embpay, .exthdr, .extpay, .dechdr, .decblk, .decscan] → t.warn = s.warn)

/-- A halted core stays halted, its fault record kept, through every step but the reset pin and a soft reset (60_exceptions.md R463). -/
def Obligations.OnlyAResetLeavesHalted : Prop :=
  ∀ (s t : State) (c : FaultCode), s.cfg.wf → s.agent = .halted c → step s = .next t →
    (t.agent = .halted c ∧ t.fcmd = s.fcmd ∧ t.fpc = s.fpc ∧ t.cmdcnt = s.cmdcnt) ∨
    (∃ h, s.host = .pinReset :: h) ∨
    (∃ h v, s.host = writeAt s.cfg 0x004 v :: h ∧ v.getLsbD 0 = true)

/-! ### Reset and the invariants -/

/-- The reset state meets both invariants. -/
def Obligations.ResetMeetsTheInvariants : Prop := State.reset.Inv ∧ State.reset.PermInv

/-- Every step keeps the invariant: legal parameters, canonical RAMs, FIFOs within their depths, NCOEF a multiple of 64 and at most
COEF_DEPTH, NCOMP 1 to 4, at most 7 pending bits with zeros below them, BITCNT at most 8, the cursor inside the
permutation, CWLEN at most CW_MAX, no command waiting while the core is idle or halted, K legal while EMBPAY runs, and at most 16
bits in each code an encoder command has still to append. -/
def Obligations.StepKeepsTheInvariant : Prop :=
  ∀ s t : State, s.Inv → step s = .next t → t.Inv

/-- Every step keeps the permutation a bijection (41_permutation.md R199), PERMGEN's own steps between its draws included. -/
def Obligations.StepKeepsThePermutationABijection : Prop :=
  ∀ s t : State, s.Inv → s.PermInv → step s = .next t → t.PermInv

/-- The values registers read right after reset (70_reset_and_hazards.md R501, 10_state.md R31 to R63), whatever the parameters. -/
def Obligations.RegistersReadTheirResetValues : Prop :=
  ∀ (cfg : Params) (h : List HostMove), cfg.wf →
    ∀ r ∈ [(0x000, 0x46354331), (0x004, 0x00000002), (0x008, 0), (0x00C, 0), (0x010, 0), (0x018, 0), (0x01C, 0), (0x020, 0),
        (0x024, 0), (0x028, 0), (0x02C, 0), (0x030, 0), (0x034, 0), (0x038, 0), (0x03C, 3), (0x040, 0x00002201),
        (0x044, 0x000D1102), (0x048, 0x000D1103), (0x04C, 0x00001104), (0x050, 0), (0x054, 0), (0x058, 0), (0x05C, 0)]
      ++ [(0x060, 0), (0x064, 0), (0x068, 0), (0x06C, 0), (0x070, 0), (0x074, 0), (0x078, 0), (0x07C, 0), (0x080, 0),
        (0x084, 0), (0x088, 1), (0x08C, 0), (0x090, 0), (0x094, 0), (0x098, 0), (0x09C, 0), (0x0A0, 0), (0x0A4, 0),
        (0x0A8, 0), (0x0AC, 0), (0x0B0, 0), (0x0B4, 0), (0x0B8, 0), (0x0BC, 0), (0x0C0, 0), (0x0C4, 0), (0x108, 0),
        (0x110, 0), (0x114, 0), (0x118, 0), (0x11C, 0)],
      step { State.reset with cfg := cfg, host := readAt cfg r.1 :: h } =
        .next { State.reset with cfg := cfg, host := h, busData := BitVec.ofNat 32 r.2 }

/-- A write of CTRL with SRST = 1 is accepted in every state and gives the reset state with the RAMs kept; the reset pin gives it with
the RAMs unspecified (70_reset_and_hazards.md R500, R501). The reset values of BITBUF and of the current word are log 11's. -/
def Obligations.ResetsGiveTheResetState : Prop :=
  ∀ (s : State) (v : Word) (h : List HostMove), s.cfg.wf →
    (v.getLsbD 0 = true → step { s with host := writeAt s.cfg 0x004 v :: h } =
      .next { State.reset with
        cfg := s.cfg, ram := s.ram, host := h, busData := s.busData, freeCount := s.freeCount, powerCycles := s.powerCycles }) ∧
    step { s with host := .pinReset :: h } =
      .next { State.reset with
        cfg := s.cfg, host := h, busData := s.busData, freeCount := s.freeCount, powerCycles := s.powerCycles + 1 }

/-! ### Host accesses (20_memory.md) -/

/-- The COEF, QT and PIXBUF windows (R107, R104, R103): a COEF read is sign-extended, a COEF or QT write stores the low 16 bits,
samples are packed little-endian, and a write changes nothing but the entries it names. -/
def Obligations.WritableWindowsReadAndWrite : Prop :=
  ∀ (s : State) (v : Word) (h : List HostMove), s.cfg.wf → s.busy = false →
    (∀ i, i < s.cfg.coefDepth →
      step { s with host := readAt s.cfg (0x10000000 + 4 * i) :: h } =
        .next { s with host := h, busData := (s.coefAt i).signExtend 32 } ∧
      ∃ t, step { s with host := writeAt s.cfg (0x10000000 + 4 * i) v :: h } = .next t ∧
        t = { s with host := h, ram.coef := t.ram.coef } ∧ t.coefAt i = v.extractLsb' 0 16 ∧
        ∀ a, a ≠ i → t.coefAt a = s.coefAt a) ∧
    (∀ i, i < 256 →
      step { s with host := readAt s.cfg (0x2000 + 4 * i) :: h } =
        .next { s with host := h, busData := (s.qtAt (i / 64) (i % 64)).setWidth 32 } ∧
      ∃ t, step { s with host := writeAt s.cfg (0x2000 + 4 * i) v :: h } = .next t ∧
        t = { s with host := h, ram.qt := t.ram.qt } ∧ t.qtAt (i / 64) (i % 64) = v.extractLsb' 0 16 ∧
        ∀ a, a ≠ i → t.qtAt 0 a = s.qtAt 0 a) ∧
    (∀ j, j < 16 →
      step { s with host := readAt s.cfg (0x1000 + 4 * j) :: h } =
        .next { s with
          host := h
          busData := BitVec.ofNat 32 ((s.pixAt (4 * j)).toNat + (s.pixAt (4 * j + 1)).toNat * 2 ^ 8
            + (s.pixAt (4 * j + 2)).toNat * 2 ^ 16 + (s.pixAt (4 * j + 3)).toNat * 2 ^ 24) } ∧
      ∃ t, step { s with host := writeAt s.cfg (0x1000 + 4 * j) v :: h } = .next t ∧
        t = { s with host := h, ram.pix := t.ram.pix } ∧
        (∀ m, m < 4 → t.pixAt (4 * j + m) = v.extractLsb' (8 * m) 8) ∧
        ∀ a, a < 4 * j ∨ 4 * j + 4 ≤ a → t.pixAt a = s.pixAt a)

/-- The read-only windows DCTBUF, DIV, CWBUF, ZZ and PERM (R105, R108): reads, and writes refused with HOSTERR. A CWBUF entry at or above
CWLEN reads as some 24-bit value. -/
def Obligations.ReadOnlyWindowsReadAndRefuseWrites : Prop :=
  ∀ (s : State) (v : Word) (h : List HostMove), s.cfg.wf → s.busy = false →
    let reads := fun (off : Nat) (x : Word) =>
      step { s with host := readAt s.cfg off :: h } = .next { s with host := h, busData := x } ∧
      step { s with host := writeAt s.cfg off v :: h } = .next { s with host := h, warn := warnHostErr s.warn }
    (∀ i, i < 64 → reads (0x3000 + 8 * i) ((s.dctAt i).extractLsb' 0 32) ∧ reads (0x3004 + 8 * i) ((s.dctAt i).extractLsb' 32 32)) ∧
    (∀ i, i < 128 → reads (0x3400 + 8 * i) ((s.divAt (i / 64) (i % 64)).extractLsb' 0 32) ∧
      reads (0x3404 + 8 * i) ((s.divAt (i / 64) (i % 64)).extractLsb' 32 32)) ∧
    (∀ j, j < s.cfg.cwMax → j < s.f5.cwlen.toNat → reads (0x3800 + 4 * j) ((s.cwAt j).setWidth 32)) ∧
    (∀ j, j < s.cfg.cwMax → s.f5.cwlen.toNat ≤ j → ∃ stale : BitVec 24, reads (0x3800 + 4 * j) (stale.setWidth 32)) ∧
    (∀ k, k < 64 → reads (0x3C00 + 4 * k) (BitVec.ofNat 32 (zz k))) ∧
    (∀ i, i < s.cfg.coefDepth → reads (0x20000000 + 4 * i) ((s.permAt i).setWidth 32))

/-- While a command executes (R106), every window access, and every write but those of CMD, the three input FIFOs, WARN, IRQEN, IN_CTRL
with EOS_CLR = 0 and CTRL with SRST = 1, is ignored with HOSTERR; a read among them returns 0. -/
def Obligations.BusyRefusesWindowsAndConfiguration : Prop :=
  ∀ (s : State) (off : Nat) (v : Word) (h : List HostMove), s.cfg.wf → s.executing = true → off % 4 = 0 → off < 0x30000000 →
    (0x1000 ≤ off →
      step { s with host := readAt s.cfg off :: h } = .next { s with host := h, busData := 0, warn := warnHostErr s.warn }) ∧
    (off ∉ [0x00C, 0x010, 0x014, 0x100, 0x104, 0x10C] → ¬(off = 0x004 ∧ v.getLsbD 0 = true) →
      ¬(off = 0x108 ∧ v.getLsbD 1 = false) →
      step { s with host := writeAt s.cfg off v :: h } = .next { s with host := h, warn := warnHostErr s.warn })

/-- A narrow access, a write with a lane disabled, a misaligned access, and an aligned access to an offset that no register or window
has (R101) have no effect but HOSTERR; a read returns 0 (R102, R109). -/
def Obligations.OnlyAlignedMappedWordsAreAccesses : Prop :=
  ∀ (s : State) (off : Nat) (width : AccessWidth) (lanes : BitVec 4) (v : Word) (h : List HostMove),
    s.Inv → off < 0x30000000 →
    (width ≠ .w32 ∨ off % 4 ≠ 0 →
      step { s with host := .access (.read (s.cfg.f5Base + BitVec.ofNat 32 off) width) :: h } =
        .next { s with host := h, busData := 0, warn := warnHostErr s.warn }) ∧
    (width ≠ .w32 ∨ lanes ≠ 0xF ∨ off % 4 ≠ 0 →
      step { s with host := .access (.write (s.cfg.f5Base + BitVec.ofNat 32 off) width lanes v) :: h } =
        .next { s with host := h, warn := warnHostErr s.warn }) ∧
    (off % 4 = 0 →
      (0x0C8 ≤ off ∧ off < 0x100) ∨ (0x124 ≤ off ∧ off < 0x1000) ∨ (0x1040 ≤ off ∧ off < 0x2000) ∨
        (0x2400 ≤ off ∧ off < 0x3000) ∨ (0x3200 ≤ off ∧ off < 0x3400) ∨ (0x3800 + 4 * s.cfg.cwMax ≤ off ∧ off < 0x3C00) ∨
        (0x3D00 ≤ off ∧ off < 0x10000000) ∨ (0x10000000 + 4 * s.cfg.coefDepth ≤ off ∧ off < 0x20000000) ∨
        0x20000000 + 4 * s.cfg.coefDepth ≤ off →
      step { s with host := readAt s.cfg off :: h } = .next { s with host := h, busData := 0, warn := warnHostErr s.warn } ∧
      step { s with host := writeAt s.cfg off v :: h } = .next { s with host := h, warn := warnHostErr s.warn })

/-- A push of a byte (R121): appended, and a command that waits on that FIFO goes on; held while the FIFO is full, which the core's
move may end; discarded with HOSTERR when full after a fault (for a push held when the fault came, which R121 leaves open, that is log 25), and for
IN once IN_EOS is set. -/
def Obligations.PushesFeedTheInputFifos : Prop :=
  ∀ (s : State) (v : Word) (h : List HostMove), s.Inv →
    let b := v.extractLsb' 0 8
    let rngPush := { s with host := writeAt s.cfg 0x100 v :: h }
    let inPush := { s with host := writeAt s.cfg 0x104 v :: h }
    let payPush := { s with host := writeAt s.cfg 0x10C v :: h }
    let refused := { s with host := h, warn := warnHostErr s.warn }
    (s.fifo.rng.length < s.cfg.rngqDepth →
      step rngPush = .next (wake .rng { s with host := h, fifo.rng := s.fifo.rng ++ [b] })) ∧
    (s.cfg.rngqDepth ≤ s.fifo.rng.length → step rngPush = if s.faulted then .next refused else coreStep rngPush) ∧
    (s.fifo.inEos = true → step inPush = .next refused) ∧
    (s.fifo.inEos = false → s.fifo.inp.length < s.cfg.inqDepth →
      step inPush = .next (wake .inp { s with host := h, fifo.inp := s.fifo.inp ++ [b] })) ∧
    (s.fifo.inEos = false → s.cfg.inqDepth ≤ s.fifo.inp.length →
      step inPush = if s.faulted then .next refused else coreStep inPush) ∧
    (s.fifo.payin.length < s.cfg.payinqDepth →
      step payPush = .next (wake .payin { s with host := h, fifo.payin := s.fifo.payin ++ [b] })) ∧
    (s.cfg.payinqDepth ≤ s.fifo.payin.length → step payPush = if s.faulted then .next refused else coreStep payPush) ∧
    (∀ (src : StallSrc) (p : Progress) (u : State), u.agent = .stall src p → wake src u = { u with agent := .exec p }) ∧
    (∀ (src : StallSrc) (u : State), (∀ p, u.agent ≠ .stall src p) → wake src u = u)

/-- A read of an output FIFO's port pops its oldest byte with the valid bit, or returns 0 (R122), and ends a wait for room (R123,
70_reset_and_hazards.md R510; that the wait ends in this step and the command goes on in the next is log 24). -/
def Obligations.ReadsPopTheOutputFifos : Prop :=
  ∀ (s : State) (b : Byte) (q : List Byte) (h : List HostMove), s.Inv →
    (s.fifo.out = b :: q → step { s with host := readAt s.cfg 0x110 :: h } =
      .next (wake .out { s with host := h, fifo.out := q, busData := 0x80000000 ||| b.setWidth 32 })) ∧
    (s.fifo.out = [] → step { s with host := readAt s.cfg 0x110 :: h } = .next { s with host := h, busData := 0 }) ∧
    (s.fifo.payout = b :: q → step { s with host := readAt s.cfg 0x114 :: h } =
      .next (wake .payout { s with host := h, fifo.payout := q, busData := 0x80000000 ||| b.setWidth 32 })) ∧
    (s.fifo.payout = [] → step { s with host := readAt s.cfg 0x114 :: h } = .next { s with host := h, busData := 0 })

/-- A write of CMD (R120): an idle core starts the word at once, a busy core queues it, a full FIFO holds the write, and a halted core
discards it with HOSTERR (for a write held when the fault came, which R120 leaves open, that is log 25). -/
def Obligations.CommandWritesQueueOrStart : Prop :=
  ∀ (s : State) (w : Word) (h : List HostMove), s.Inv →
    let written := { s with host := writeAt s.cfg 0x014 w :: h }
    (s.agent = .idle → step written = .next { s with host := h, cur := w, agent := .exec .start }) ∧
    (s.executing = true → s.fifo.cmd.length < s.cfg.cmdqDepth →
      step written = .next { s with host := h, fifo.cmd := s.fifo.cmd ++ [w] }) ∧
    (s.executing = true → s.cfg.cmdqDepth ≤ s.fifo.cmd.length → step written = coreStep written) ∧
    (s.faulted = true → step written = .next { s with host := h, warn := warnHostErr s.warn })

/-- STATUS reads the agent's state, exactly even while busy: FCODE is 0 while no fault is recorded, STALLSRC is 0 while nothing waits,
and the unlisted bits are 0. The interrupt line follows STATUS, WARN and IRQEN (10_state.md R33, R35, 60_exceptions.md R470). -/
def Obligations.StatusAndInterruptLineFollowTheState : Prop :=
  ∀ (s : State) (h : List HostMove), s.Inv →
    ∃ v, step { s with host := readAt s.cfg 0x008 :: h } = .next { s with host := h, busData := v } ∧
      (v.getLsbD 0 = true ↔ s.executing = true) ∧
      (v.getLsbD 1 = true ↔ ∃ c, s.agent = .halted c) ∧
      (v.getLsbD 2 = true ↔ ∃ src p, s.agent = .stall src p) ∧
      (s.agent = .idle → v = 0) ∧
      (∀ p, s.agent = .exec p → v = 1) ∧
      (∀ c, s.agent = .halted c → v.toNat = 2 + 2 ^ 8 * c.code) ∧
      (∀ src p, s.agent = .stall src p → v.toNat = 1 + 4 + 2 ^ 16 * src.code) ∧
      (irq s = true ↔
        (s.irqen.getLsbD 0 = true ∧ v.getLsbD 0 = false ∧ v.getLsbD 1 = false) ∨
        (s.irqen.getLsbD 1 = true ∧ v.getLsbD 1 = true) ∨ (s.irqen.getLsbD 2 = true ∧ s.warn ≠ 0))

/-- What a write of each writable register stores: WARN clears the bits written 1, IRQEN stores three bits, and IN_CTRL without EOS_CLR
sets IN_EOS or changes nothing, at any time; while not busy, EOS_CLR acts before EOS, and the others store their fields, NCOEF, NCOMP
and QROUND legalised; a write of a read-only register is ignored with HOSTERR (10_state.md R32, R34, R35, R43 to R56, R63, 20_memory.md R127). -/
def Obligations.RegisterWritesStoreTheirFields : Prop :=
  ∀ (s : State) (v : Word) (h : List HostMove), s.Inv →
    let write := fun (off : Nat) => step { s with host := writeAt s.cfg off v :: h }
    let u := { s with host := h }
    let lo16 : BitVec 16 := v.extractLsb' 0 16
    (∀ off ∈ [0x000, 0x008, 0x018, 0x01C, 0x020, 0x024, 0x028, 0x02C, 0x054, 0x058, 0x05C, 0x070, 0x074, 0x080, 0x084, 0x0C0,
        0x0C4, 0x110, 0x114, 0x118, 0x11C], write off = .next { u with warn := warnHostErr s.warn }) ∧
    (∀ n, n < 12 → write (0x090 + 4 * n) = .next { u with warn := warnHostErr s.warn }) ∧
    write 0x00C = .next { u with warn := s.warn &&& ~~~lo16 } ∧
    write 0x010 = .next { u with irqen := v.extractLsb' 0 3 } ∧
    (v.getLsbD 1 = false → v.getLsbD 0 = true → write 0x108 = .next (wake .inp { u with fifo.inEos := true })) ∧
    (v.getLsbD 1 = false → v.getLsbD 0 = false → write 0x108 = .next u) ∧
    (s.busy = false →
      (v.getLsbD 0 = false → ∃ t, write 0x004 = .next t ∧ t = { u with ctrl := t.ctrl } ∧
        t.ctrl.padbit = v.getLsbD 1 ∧ t.ctrl.hdrLossy = v.getLsbD 2 ∧ t.ctrl.rngSigned = v.getLsbD 3 ∧
        t.ctrl.qround = (match v.toNat / 2 ^ 4 % 2 ^ 2 with
          | 0 => .halfAway
          | 1 => .halfUp
          | 2 => .halfEven
          | _ => s.ctrl.qround)) ∧
      (v.getLsbD 1 = true → write 0x108 = .next { u with fifo.inEos := v.getLsbD 0 }) ∧
      write 0x030 = .next { u with geo.ncoef := BitVec.ofNat 32 (min (v.toNat - v.toNat % 64) s.cfg.coefDepth) } ∧
      write 0x034 = .next { u with geo.imgW := lo16 } ∧
      write 0x038 = .next { u with geo.imgH := lo16 } ∧
      write 0x03C = .next { u with
        geo.ncomp := if v.toNat % 8 = 0 ∨ 4 < v.toNat % 8 then s.geo.ncomp else v.extractLsb' 0 3 } ∧
      (∀ c : Fin 4, ∃ t, write (0x040 + 4 * c.val) = .next t ∧ t = { u with geo.comp := t.geo.comp } ∧
        (t.geo.comp.get c.val).word = v &&& 0xFFFFF ∧ ∀ d : Fin 4, d ≠ c → t.geo.comp.get d.val = s.geo.comp.get d.val) ∧
      write 0x050 = .next { u with geo.rstint := lo16 } ∧
      (∀ c : Fin 4, ∃ t, write (0x060 + 4 * c.val) = .next t ∧ t = { u with coder.pred := t.coder.pred } ∧
        t.coder.pred.get c.val = lo16 ∧ ∀ d : Fin 4, d ≠ c → t.coder.pred.get d.val = s.coder.pred.get d.val) ∧
      write 0x078 = .next { u with coder.outcnt := v } ∧
      write 0x07C = .next { u with coder.incnt := v } ∧
      write 0x088 = .next { u with f5.k := v.extractLsb' 0 5 } ∧
      write 0x08C = .next { u with f5.paylen := v } ∧
      write 0x120 = .next { u with
        fifo.rng := if v.getLsbD 0 then [] else s.fifo.rng
        fifo.inp := if v.getLsbD 1 then [] else s.fifo.inp
        fifo.inEos := if v.getLsbD 1 then false else s.fifo.inEos
        fifo.payin := if v.getLsbD 2 then [] else s.fifo.payin
        fifo.out := if v.getLsbD 3 then [] else s.fifo.out
        fifo.payout := if v.getLsbD 4 then [] else s.fifo.payout })

/-- A read of a register with no effect of its own (10_state.md R31 to R63): the value it holds, a write-only register 0. While BUSY,
only the registers R132 lists are exact; any other returns some value, which the model takes from a counter (log 7, log 20). -/
def Obligations.RegisterReadsReturnTheirRegister : Prop :=
  ∀ (s : State) (h : List HostMove), s.Inv →
    let read := fun (off : Nat) => step { s with host := readAt s.cfg off :: h }
    let exact : List (Nat × Word) :=
      [(0x00C, s.warn.setWidth 32), (0x010, s.irqen.setWidth 32), (0x018, BitVec.ofNat 32 s.fifo.cmd.length), (0x024, s.cmdcnt),
        (0x028, s.mark.setWidth 32), (0x078, s.coder.outcnt), (0x07C, s.coder.incnt), (0x108, BitVec.ofNat 32 (bitOf s.fifo.inEos)),
        (0x118, BitVec.ofNat 32 (s.fifo.rng.length + 2 ^ 8 * s.fifo.inp.length + 2 ^ 16 * s.fifo.payin.length)),
        (0x11C, BitVec.ofNat 32 (s.fifo.out.length + 2 ^ 8 * s.fifo.payout.length))]
    let others : List (Nat × Word) :=
      [(0x000, 0x46354331), (0x004, s.ctrl.word), (0x014, 0), (0x01C, s.fcmd), (0x020, s.fpc), (0x02C, s.result),
        (0x030, s.geo.ncoef), (0x034, s.geo.imgW.setWidth 32), (0x038, s.geo.imgH.setWidth 32), (0x03C, s.geo.ncomp.setWidth 32)]
      ++ [(0x040, s.geo.comp.c0.word), (0x044, s.geo.comp.c1.word), (0x048, s.geo.comp.c2.word), (0x04C, s.geo.comp.c3.word),
        (0x050, s.geo.rstint.setWidth 32), (0x054, s.geo.mcux.setWidth 32), (0x058, s.geo.mcuy.setWidth 32), (0x05C, s.decflagsWord),
        (0x060, s.coder.pred.c0.signExtend 32), (0x064, s.coder.pred.c1.signExtend 32), (0x068, s.coder.pred.c2.signExtend 32),
        (0x06C, s.coder.pred.c3.signExtend 32), (0x070, s.coder.putbuf.setWidth 32), (0x074, s.coder.putbits.setWidth 32)]
      ++ [(0x080, s.f5.permN.setWidth 32), (0x084, s.f5.pos.setWidth 32), (0x088, s.f5.k.setWidth 32), (0x08C, s.f5.paylen),
        (0x090, s.f5.embBits), (0x094, s.f5.embBytes), (0x098, s.f5.embChanged), (0x09C, s.f5.embShrink),
        (0x0A0, s.f5.extLen.setWidth 32), (0x0A4, s.f5.extK.setWidth 32), (0x0A8, s.f5.extBytes), (0x0AC, s.f5.hdrword)]
      ++ [(0x0B0, s.f5.capOnes), (0x0B4, s.f5.capZeros), (0x0B8, s.f5.capNondc), (0x0BC, s.f5.capLarge),
        (0x0C0, s.f5.cwlen.setWidth 32), (0x0C4, s.validWord), (0x100, 0), (0x104, 0), (0x10C, 0), (0x120, 0)]
    (∀ r ∈ exact, read r.1 = .next { s with host := h, busData := r.2 }) ∧
    (s.busy = false → ∀ r ∈ others, read r.1 = .next { s with host := h, busData := r.2 }) ∧
    (s.busy = true → ∀ r ∈ others,
      ∃ v, read r.1 = .next { s with host := h, busData := v, freeCount := s.freeCount + 1 }) ∧
    s.ctrl.word.toNat =
      2 * bitOf s.ctrl.padbit + 4 * bitOf s.ctrl.hdrLossy + 8 * bitOf s.ctrl.rngSigned
        + (match s.ctrl.qround with
          | .halfAway => 0
          | .halfUp => 16
          | .halfEven => 32) ∧
    s.validWord.toNat = bitOf s.valid.div + 2 * bitOf s.valid.perm + 4 * bitOf s.valid.dht.c0 + 8 * bitOf s.valid.dht.c1
      + 16 * bitOf s.valid.dht.c2 + 32 * bitOf s.valid.dht.c3 ∧
    s.decflagsWord.toNat = bitOf s.seen.soi + 2 * bitOf s.seen.sof + 4 * bitOf s.seen.sos + 8 * bitOf s.seen.eoi
      + (match s.reader.latch with
        | .empty => 0
        | .marker m => 16 + 2 ^ 8 * m.toNat
        | .eos => 16 + 32)

/-! ### Control (40_control.md) -/

/-- NOP (R180) and MARK (R181), and what retirement (R182) and fault entry (60_exceptions.md R462) write and leave. -/
def Obligations.NopMarkRetirementAndFaultEntry : Prop :=
  ∀ (imm : BitVec 24) (s : State) (c : FaultCode),
    exec .nop s = .next { s with cmdcnt := s.cmdcnt + 1, agent := .idle } ∧
    exec (.mark imm) s = .next { s with mark := imm, cmdcnt := s.cmdcnt + 1, agent := .idle } ∧
    retire s = { s with cmdcnt := s.cmdcnt + 1, agent := .idle } ∧
    faultEntry c s = { s with fcmd := s.cur, fpc := s.cmdcnt, fifo.cmd := [], agent := .halted c } ∧
    (faultEntry c s).statusWord = BitVec.ofNat 32 (2 + 256 * c.code) ∧ (faultEntry c s).busy = false

/-! ### Transform and quantisation (42_transform_quant.md) -/

/-- QTSCALE (R221) and DIVCALC (R222): the scaled tables, their divisors in the order of the parentheses, and the faults that write
nothing. The AAN factors are the binary64 values nearest to R223's decimals; the operations round as RoundIsNearestWithTheTieRule says. -/
def Obligations.QtscaleAndDivcalcBuildTheTables : Prop :=
  let aan : List ℚ :=
    [1, 1387039845 / 1000000000, 1306562965 / 1000000000, 1175875602 / 1000000000, 1, 785694958 / 1000000000,
      541196100 / 1000000000, 275899379 / 1000000000]
  (∀ k, k < 8 → NearestEven (aan.getD k 0) (aanScale k)) ∧ f64Exact f64One = some 1 ∧ f64Exact f64Eight = some 8 ∧
  ∀ (q : Nat) (s : State),
    (1 ≤ q → q ≤ 100 →
      ∃ t, exec (.qtscale q) s = .next t ∧
        t = retire { s with ram.qt := t.ram.qt, ram.div := t.ram.div, valid.div := true } ∧
        (∀ i, i < 64 →
          (t.qtAt 0 i).toNat = min (max ((qbaseLum.getD i 0 * (if q < 50 then 5000 / q else 200 - 2 * q) + 50) / 100) 1) 255 ∧
          (t.qtAt 1 i).toNat = min (max ((qbaseChr.getD i 0 * (if q < 50 then 5000 / q else 200 - 2 * q) + 50) / 100) 1) 255 ∧
          t.qtAt 2 i = s.qtAt 2 i ∧ t.qtAt 3 i = s.qtAt 3 i) ∧
        ∀ d r c, d < 2 → r < 8 → c < 8 →
          t.divAt d (8 * r + c) =
            fdiv f64One (fmul (fmul (fmul (f64OfInt (t.qtAt d (8 * r + c)).toNat) (aanScale r)) (aanScale c)) f64Eight)) ∧
    (q = 0 ∨ 100 < q → exec (.qtscale q) s = .next (faultEntry .operand s)) ∧
    ((∀ i, i < 64 → s.qtAt 0 i ≠ 0 ∧ s.qtAt 1 i ≠ 0) →
      ∃ t, exec .divcalc s = .next t ∧ t = retire { s with ram.div := t.ram.div, valid.div := true } ∧
        ∀ d r c, d < 2 → r < 8 → c < 8 →
          t.divAt d (8 * r + c) =
            fdiv f64One (fmul (fmul (fmul (f64OfInt (s.qtAt d (8 * r + c)).toNat) (aanScale r)) (aanScale c)) f64Eight)) ∧
    ((∃ i, i < 64 ∧ (s.qtAt 0 i = 0 ∨ s.qtAt 1 i = 0)) → exec .divcalc s = .next (faultEntry .operand s))

/-- Every entry of the scaled tables lies in 1 to 255; all are 255 at quality 1 and all are 1 at quality 100 (R230). -/
def Obligations.QualityTablesAreBounded : Prop :=
  ∀ (q : Nat) (s : State), 1 ≤ q → q ≤ 100 →
    ∃ t, exec (.qtscale q) s = .next t ∧
      ∀ d i, d < 2 → i < 64 → 1 ≤ (t.qtAt d i).toNat ∧ (t.qtAt d i).toNat ≤ 255 ∧
        (q = 1 → (t.qtAt d i).toNat = 255) ∧ (q = 100 → (t.qtAt d i).toNat = 1)

/-- FDCT (R225): AAN1D on every row of the centred samples and then on every column. AAN1D is the butterfly of R224, with the binary64
values nearest to its four decimal constants; the operations round as RoundIsNearestWithTheTieRule says. -/
def Obligations.FdctTransformsRowsThenColumns : Prop :=
  f64Exact f64OneTwentyEight = some 128 ∧
  (∃ c707 c382 c541 c1306 : F64,
    NearestEven (707106781 / 1000000000) c707 ∧ NearestEven (382683433 / 1000000000) c382 ∧
    NearestEven (541196100 / 1000000000) c541 ∧ NearestEven (1306562965 / 1000000000) c1306 ∧
    ∀ d0 d1 d2 d3 d4 d5 d6 d7 : F64,
      let even1 := fadd (fadd d0 d7) (fadd d3 d4)
      let even2 := fadd (fadd d1 d6) (fadd d2 d5)
      let even3 := fsub (fadd d0 d7) (fadd d3 d4)
      let z1 := fmul (fadd (fsub (fadd d1 d6) (fadd d2 d5)) even3) c707
      let odd10 := fadd (fsub d3 d4) (fsub d2 d5)
      let odd11 := fadd (fsub d2 d5) (fsub d1 d6)
      let odd12 := fadd (fsub d1 d6) (fsub d0 d7)
      let z5 := fmul (fsub odd10 odd12) c382
      let z2 := fadd (fmul c541 odd10) z5
      let z4 := fadd (fmul c1306 odd12) z5
      let z11 := fadd (fsub d0 d7) (fmul odd11 c707)
      let z13 := fsub (fsub d0 d7) (fmul odd11 c707)
      aan1d [d0, d1, d2, d3, d4, d5, d6, d7] =
        [fadd even1 even2, fadd z11 z4, fadd even3 z1, fsub z13 z2, fsub even1 even2, fadd z13 z2, fsub even3 z1, fsub z11 z4]) ∧
  ∀ s : State, ∃ t, exec .fdct s = .next t ∧ t = retire { s with ram.dct := t.ram.dct } ∧
    let row := fun r => aan1d ((List.range 8).map (fun c => fsub (f64OfInt (s.pixAt (8 * r + c)).toNat) f64OneTwentyEight))
    ∀ r c, r < 8 → c < 8 →
      t.dctAt (8 * r + c) = (aan1d ((List.range 8).map (fun r' => (row r').getD c 0))).getD r 0

/-- QUANT (R229): 64 products, rounded, into one block; its three faults in their order, which write nothing. -/
def Obligations.QuantRoundsIntoOneBlock : Prop :=
  ∀ (d : Fin 2) (blk : Nat) (s : State),
    let q := fun i => roundF64 s.ctrl.qround (fmul (s.dctAt i) (s.divAt d.val i))
    (s.geo.ncoef.toNat < 64 * blk + 64 → exec (.quant d blk) s = .next (faultEntry .coefrange s)) ∧
    (64 * blk + 64 ≤ s.geo.ncoef.toNat → s.valid.div = false → exec (.quant d blk) s = .next (faultEntry .nodiv s)) ∧
    (64 * blk + 64 ≤ s.geo.ncoef.toNat → s.valid.div = true → (∃ i, i < 64 ∧ (q i < -32768 ∨ 32767 < q i)) →
      exec (.quant d blk) s = .next (faultEntry .range s)) ∧
    (64 * blk + 64 ≤ s.geo.ncoef.toNat → s.valid.div = true → (∀ i, i < 64 → -32768 ≤ q i ∧ q i ≤ 32767) →
      ∃ t, exec (.quant d blk) s = .next t ∧ t = retire { s with ram.coef := t.ram.coef } ∧
        (∀ i, i < 64 → t.coefInt (64 * blk + i) = q i) ∧
        ∀ a, a < 64 * blk ∨ 64 * blk + 64 ≤ a → t.coefAt a = s.coefAt a)

/-- ROUND (R228) of a finite value: the nearest integer, and the tie rules of QROUND where two are equally near. The binary64 operations
on finite values round the exact result to nearest, ties to even; an exact sum of 0 is −0 only for two −0s, and the sign of a product
or quotient is the signs' difference; f64(n) is exact below 2^53 (00_scope.md R14). -/
def Obligations.RoundIsNearestWithTheTieRule : Prop :=
  (∀ (tie : TieRule) (x : F64) (neg : Bool) (m : Nat) (e : Int), f64Value x = .fin neg m e →
    let num := signedNat neg m
    let den : Int := 2 ^ (-e).toNat
    let r := roundF64 tie x
    (0 ≤ e → r = num * 2 ^ e.toNat) ∧
    (e < 0 →
      2 * (num - r * den) ≤ den ∧ -den ≤ 2 * (num - r * den) ∧
      (2 * (num - r * den) = den ∨ 2 * (num - r * den) = -den →
        (tie = .halfAway → (0 < num → 2 * (num - r * den) = -den) ∧ (num < 0 → 2 * (num - r * den) = den)) ∧
        (tie = .halfUp → 2 * (num - r * den) = -den) ∧ (tie = .halfEven → r % 2 = 0)))) ∧
  (∀ (x y : F64) (a b : ℚ), f64Exact x = some a → f64Exact y = some b →
    NearestEven (a + b) (fadd x y) ∧ NearestEven (a - b) (fsub x y) ∧ NearestEven (a * b) (fmul x y) ∧
    (b ≠ 0 → NearestEven (a / b) (fdiv x y) ∧ f64Sign (fdiv x y) = (f64Sign x != f64Sign y)) ∧
    f64Sign (fmul x y) = (f64Sign x != f64Sign y) ∧
    (a + b = 0 → fadd x y = f64Zero (f64Sign x && f64Sign y)) ∧
    (a - b = 0 → fsub x y = f64Zero (f64Sign x && !f64Sign y))) ∧
  ∀ n : Int, n.natAbs < 2 ^ 53 → f64Exact (f64OfInt n) = some (n : ℚ)

/-! ### Zig-zag and coefficient array (43_zigzag_mux.md) -/

/-- ZZFWD (R261) and ZZINV (R262) reorder one block by the ZZ table, and each undoes the other. -/
def Obligations.ZigZagReordersOneBlockAndUndoes : Prop :=
  ∀ (blk : Nat) (s : State),
    (s.geo.ncoef.toNat < 64 * blk + 64 →
      exec (.zzfwd blk) s = .next (faultEntry .coefrange s) ∧ exec (.zzinv blk) s = .next (faultEntry .coefrange s)) ∧
    (64 * blk + 64 ≤ s.geo.ncoef.toNat →
      (∃ t, exec (.zzfwd blk) s = .next t ∧ t = retire { s with ram.coef := t.ram.coef } ∧
        (∀ k, k < 64 → t.coefAt (64 * blk + k) = s.coefAt (64 * blk + zz k)) ∧
        (∀ a, a < 64 * blk ∨ 64 * blk + 64 ≤ a → t.coefAt a = s.coefAt a) ∧
        ∃ u, exec (.zzinv blk) t = .next u ∧ ∀ a, u.coefAt a = s.coefAt a) ∧
      (∃ t, exec (.zzinv blk) s = .next t ∧ t = retire { s with ram.coef := t.ram.coef } ∧
        (∀ k, k < 64 → t.coefAt (64 * blk + zz k) = s.coefAt (64 * blk + k)) ∧
        (∀ a, a < 64 * blk ∨ 64 * blk + 64 ≤ a → t.coefAt a = s.coefAt a) ∧
        ∃ u, exec (.zzfwd blk) t = .next u ∧ ∀ a, u.coefAt a = s.coefAt a))

/-- GEOM (R264, R265): the MCU counts and the array length of a legal frame, and its two faults, which write nothing. -/
def Obligations.GeomComputesTheFrame : Prop :=
  ∀ s : State, s.cfg.wf →
    let n := s.geo.ncomp.toNat
    let w := s.geo.imgW.toNat
    let ht := s.geo.imgH.toNat
    let hOf := fun c => (s.geo.comp.get c).h.toNat
    let vOf := fun c => (s.geo.comp.get c).v.toNat
    let blocks := if n = 1 then 1 else ((List.range n).map (fun c => hOf c * vOf c)).sum
    let hmax := if n = 1 then 1 else ((List.range n).map hOf).foldl max 0
    let vmax := if n = 1 then 1 else ((List.range n).map vOf).foldl max 0
    let mx := (w + 8 * hmax - 1) / (8 * hmax)
    let my := (ht + 8 * vmax - 1) / (8 * vmax)
    let legal := 0 < w ∧ 0 < ht ∧ 1 ≤ n ∧ n ≤ 4 ∧
      (∀ c, c < n → 1 ≤ hOf c ∧ hOf c ≤ 4 ∧ 1 ≤ vOf c ∧ vOf c ≤ 4) ∧ (1 < n → blocks ≤ 10)
    (¬legal → exec .geom s = .next (faultEntry .geom s)) ∧
    (legal → s.cfg.coefDepth < 64 * mx * my * blocks → exec .geom s = .next (faultEntry .coefovf s)) ∧
    (legal → 64 * mx * my * blocks ≤ s.cfg.coefDepth →
      ∃ t, exec .geom s = .next t ∧
        t = retire { s with geo.mcux := t.geo.mcux, geo.mcuy := t.geo.mcuy, geo.ncoef := t.geo.ncoef } ∧
        t.geo.mcux.toNat = mx ∧ t.geo.mcuy.toNat = my ∧ t.geo.ncoef.toNat = 64 * mx * my * blocks)

/-- BLKADDR (R267): the block's index, or OPERAND. COEFCLR (R268): the array zeroed, and nothing above it. -/
def Obligations.BlkaddrAndCoefclr : Prop :=
  ∀ (comp : Fin 4) (unit mcu : Nat) (s : State),
    let off := fun c => ((List.range c).map s.unitsOf).sum
    (s.geo.ncomp.toNat ≤ comp.val ∨ s.unitsOf comp.val ≤ unit ∨ s.geo.mcux.toNat * s.geo.mcuy.toNat ≤ mcu →
      exec (.blkaddr comp unit mcu) s = .next (faultEntry .operand s)) ∧
    (comp.val < s.geo.ncomp.toNat → unit < s.unitsOf comp.val → mcu < s.geo.mcux.toNat * s.geo.mcuy.toNat →
      exec (.blkaddr comp unit mcu) s =
        .next (retire { s with result := BitVec.ofNat 32 (mcu * off s.geo.ncomp.toNat + off comp.val + unit) })) ∧
    ∃ t, exec .coefclr s = .next t ∧ t = retire { s with ram.coef := t.ram.coef } ∧
      (∀ a, a < s.geo.ncoef.toNat → t.coefAt a = 0) ∧ ∀ a, s.geo.ncoef.toNat ≤ a → t.coefAt a = s.coefAt a

/-! ### Entropy encoder (44_entropy_encoder.md) -/

/-- PUTBITS (R290, R291, R292): the bits out and pending are the bits pending before followed by the SIZE low bits of CODE, most
significant first; whole bytes are pushed with stuffing. -/
def Obligations.PutbitsAppendsItsBits : Prop :=
  ∀ (size : Nat) (code : BitVec 16) (s : State),
    (16 < size → exec (.putbits size code) s = .next (faultEntry .operand s)) ∧
    (size ≤ 16 → s.coder.Aligned → s.fifo.out.length + 2 * ((s.coder.putbits.toNat + size) / 8) ≤ s.cfg.outqDepth →
      ∃ t bytes, exec (.putbits size code) s = .next t ∧
        t = retire { s with
          fifo.out := s.fifo.out ++ stuff bytes
          coder.putbuf := t.coder.putbuf
          coder.putbits := t.coder.putbits
          coder.outcnt := s.coder.outcnt + BitVec.ofNat 32 (stuff bytes).length } ∧
        streamBits bytes ++ t.pendingBits = s.pendingBits ++ lowBits code.toNat size ∧ t.coder.Aligned)

/-- FLUSH (R293): the pending bits, padded to a byte with PADBIT, are pushed with stuffing, and nothing pends. -/
def Obligations.FlushPadsThePendingBits : Prop :=
  ∀ s : State, s.coder.Aligned → s.fifo.out.length + 2 ≤ s.cfg.outqDepth →
    ∃ t bytes, exec .flush s = .next t ∧
      t = retire { s with
        fifo.out := s.fifo.out ++ stuff bytes
        coder.putbuf := 0
        coder.putbits := 0
        coder.outcnt := s.coder.outcnt + BitVec.ofNat 32 (stuff bytes).length } ∧
      streamBits bytes =
        s.pendingBits ++ List.replicate ((8 - s.coder.putbits.toNat) % 8) s.ctrl.padbit

/-- EMITRAW (R294): one byte, not stuffed; UNALIGNED with bits pending; a wait while OUT is full. PREDCLR (R298). -/
def Obligations.EmitrawAndPredclr : Prop :=
  ∀ (b : Byte) (s : State),
    (s.coder.putbits ≠ 0 → exec (.emitraw b) s = .next (faultEntry .unaligned s)) ∧
    (s.coder.putbits = 0 → s.fifo.out.length < s.cfg.outqDepth →
      exec (.emitraw b) s = .next (retire { s with fifo.out := s.fifo.out ++ [b], coder.outcnt := s.coder.outcnt + 1 })) ∧
    (s.coder.putbits = 0 → s.cfg.outqDepth ≤ s.fifo.out.length →
      exec (.emitraw b) s = .next { s with agent := .stall .out (.emit [b] .retire) }) ∧
    exec .predclr s = .next (retire { s with coder.pred := { c0 := 0, c1 := 0, c2 := 0, c3 := 0 } })

/-- ENCBLK (R300): its two faults, which write nothing; else the block's codes are appended and the predictor takes its DC. -/
def Obligations.EncblkAppendsTheBlocksCodes : Prop :=
  ∀ (comp : Fin 4) (dt ac : Fin 2) (blk : Nat) (s : State),
    let ok := category (s.coefInt (64 * blk) - (s.coder.pred.get comp.val).toInt) ≤ 11 ∧
      ∀ k, 1 ≤ k → k < 64 → category (s.coefInt (64 * blk + zz k)) ≤ 10
    let bits := codeBits (blockCodes comp.val dt ac blk s)
    (s.geo.ncoef.toNat < 64 * blk + 64 → exec (.encblk comp dt ac blk) s = .next (faultEntry .coefrange s)) ∧
    (64 * blk + 64 ≤ s.geo.ncoef.toNat → ¬ok → exec (.encblk comp dt ac blk) s = .next (faultEntry .nocode s)) ∧
    (64 * blk + 64 ≤ s.geo.ncoef.toNat → ok → s.coder.Aligned →
      s.fifo.out.length + 2 * ((s.coder.putbits.toNat + bits.length) / 8) ≤ s.cfg.outqDepth →
      ∃ t bytes, exec (.encblk comp dt ac blk) s = .next t ∧
        t = retire { s with
          fifo.out := s.fifo.out ++ stuff bytes
          coder.pred := s.coder.pred.set comp.val (s.coefAt (64 * blk))
          coder.putbuf := t.coder.putbuf
          coder.putbits := t.coder.putbits
          coder.outcnt := s.coder.outcnt + BitVec.ofNat 32 (stuff bytes).length } ∧
        streamBits bytes ++ t.pendingBits = s.pendingBits ++ bits ∧ t.coder.Aligned)

/-- ENCSCAN (R301): GEOM unless the geometry is the array's; NOCODE on the first block without a code, unless OUT fills first, with the
blocks before it coded and pushed and their last bits pending; else every block's codes in array order, the predictors
cleared first, and the last byte padded. Each component's predictor is then the DC value of its last coded block. -/
def Obligations.EncscanAppendsEveryBlock : Prop :=
  ∀ s : State,
    let blocks := s.geo.ncoef.toNat / 64
    let zero : Quad (BitVec 16) := { c0 := 0, c1 := 0, c2 := 0, c3 := 0 }
    let bits := codeBits (scanCodes s blocks 0 zero)
    let matching := s.geometry = some { mx := s.geo.mcux.toNat, my := s.geo.mcuy.toNat, n := s.geo.ncoef.toNat }
    (¬matching → exec .encscan s = .next (faultEntry .geom s)) ∧
    (matching → scanCodable s blocks 0 zero = false →
      ∃ t, exec .encscan s = .next t ∧ (t.agent = .halted .nocode ∨ ∃ p, t.agent = .stall .out p)) ∧
    (∀ m, matching → m < blocks → scanCodable s m 0 zero = true → scanCodable s (m + 1) 0 zero = false → s.coder.Aligned →
      let before := codeBits (scanCodes s m 0 zero)
      s.fifo.out.length + 2 * ((s.coder.putbits.toNat + before.length) / 8) ≤ s.cfg.outqDepth →
      ∃ t bytes, exec .encscan s = .next t ∧
        t = faultEntry .nocode { s with
          fifo.out := s.fifo.out ++ stuff bytes
          coder.pred := scanPreds s m 0 zero
          coder.putbuf := t.coder.putbuf
          coder.putbits := t.coder.putbits
          coder.outcnt := s.coder.outcnt + BitVec.ofNat 32 (stuff bytes).length } ∧
        streamBits bytes ++ t.pendingBits = s.pendingBits ++ before ∧ t.coder.Aligned) ∧
    (matching → scanCodable s blocks 0 zero = true → s.coder.Aligned →
      s.fifo.out.length + 2 * ((s.coder.putbits.toNat + bits.length + 7) / 8) ≤ s.cfg.outqDepth →
      ∃ t bytes, exec .encscan s = .next t ∧
        t = retire { s with
          fifo.out := s.fifo.out ++ stuff bytes
          coder.pred := scanPreds s blocks 0 zero
          coder.putbuf := 0
          coder.putbits := 0
          coder.outcnt := s.coder.outcnt + BitVec.ofNat 32 (stuff bytes).length } ∧
        streamBits bytes =
          s.pendingBits ++ bits ++ List.replicate ((8 - (s.coder.putbits.toNat + bits.length) % 8) % 8) s.ctrl.padbit)

/-! ### Entropy decoder (45_entropy_decoder.md) -/

/-- DECHDR (R340, R350 to R355). It clears its flags and searches for a marker; fed later, a DECHDR that waits ends as if the bytes had all
been there (20_memory.md R123); with the end of the input known it never waits, and without SEEN_SOS a warning says why. What each
piece of the input does, as a search that goes on after it or as the command's end: stray bytes and codes, SOI, EOI, a bad length, APPn
and COM, an unknown marker, DRI, DQT, DHT, SOF0, SOS, and an input that ends inside a segment. A baseline header of one component
loads the frame, the array length, the quantisation table in natural order and decoder tables 0 and 2, warns nothing, and
leaves the bytes after it in IN. -/
def Obligations.DechdrAcceptsABaselineHeader : Prop :=
  let run := runDechdr .search
  let passes := fun (u : State) (bytes : List Byte) (v : State) => ∀ rest : List Byte,
    run { u with fifo.inp := bytes ++ rest } =
      run { v with fifo.inp := rest, coder.incnt := u.coder.incnt + BitVec.ofNat 32 bytes.length }
  let ends := fun (u : State) (bytes : List Byte) (v : State) => ∀ rest : List Byte,
    run { u with fifo.inp := bytes ++ rest } =
      retire { v with fifo.inp := rest, coder.incnt := u.coder.incnt + BitVec.ofNat 32 bytes.length }
  let warned := fun (u : State) (w : BitVec 16) => { u with warn := u.warn ||| w }
  let stray := fun (m : Byte) => m = 0x00 ∨ m = 0x01 ∨ (0xD0 ≤ m.toNat ∧ m.toNat ≤ 0xD7)
  let starts := fun (m : Byte) => ¬stray m ∧ m ≠ 0xD8 ∧ m ≠ 0xD9 ∧ m ≠ 0xFF
  let skipped := fun (m : Byte) => (0xE0 ≤ m.toNat ∧ m.toNat ≤ 0xEF) ∨ m = 0xFE
  let dqt := fun (p : List Byte) (u : State) => parseDqt p.length p u
  let dht := fun (p : List Byte) (u : State) => parseDht p.length p u
  (∀ s : State, exec .dechdr s = .next (run { s with
    seen := { soi := false, sof := false, sos := false, eoi := false }
    valid.dht := { c0 := false, c1 := false, c2 := false, c3 := false }
    geo.rstint := 0
    reader.bitcnt := 0
    reader.latch := .empty })) ∧
  (∀ (s t : State) (a b : List Byte) (p : Progress),
    exec .dechdr { s with fifo.inp := a } = .next t → t.agent = .stall .inp p →
    t.fifo.inp = [] ∧ exec .dechdr { s with fifo.inp := a ++ b } = .next (continueCommand p { t with fifo.inp := b })) ∧
  (∀ s : State, s.fifo.inEos = true →
    ∃ t, exec .dechdr s = .next t ∧ (∃ taken, s.fifo.inp = taken ++ t.fifo.inp) ∧
      (t.agent = .idle ∧ (t.seen.sos = true ∨ t.warn &&& 0x4038 ≠ 0) ∨ t.agent = .halted .coefovf)) ∧
  (∀ (u : State) (fill : Nat) (m : Byte) (p : List Byte),
    let mark := List.replicate (fill + 1) 0xFF ++ [m]
    (m ≠ 0xFF → passes u [m] (warned u 0x0400)) ∧
    (stray m → passes u mark (warned u 0x0400)) ∧
    (m = 0xD8 → passes u mark { u with seen.soi := true }) ∧
    (m = 0xD9 → ends u mark { warned u 0x4000 with seen.eoi := true }) ∧
    (∀ l : Byte, starts m → l.toNat < 2 → passes u (mark ++ [0x00, l]) (warned u 0x0400)) ∧
    (p.length < 65534 →
      (skipped m → passes u (segment fill m p) u) ∧
      (starts m → ¬skipped m → m ∉ [0xDB, 0xC4, 0xC0, 0xDD, 0xDA] → passes u (segment fill m p) (warned u 0x0800)) ∧
      (∀ a b : Byte, p = [a, b] → passes u (segment fill 0xDD p) { u with geo.rstint := a ++ b }) ∧
      (p.length ≠ 2 → passes u (segment fill 0xDD p) (warned u 0x0010)) ∧
      passes u (segment fill 0xDB p) (dqt p u) ∧ passes u (segment fill 0xC4 p) (dht p u) ∧
      ∀ cut, starts m → u.fifo.inEos = true → cut <+: segment fill m p → cut ≠ segment fill m p →
        run { u with fifo.inp := cut } =
          retire { warned u 0x4000 with fifo.inp := [], coder.incnt := u.coder.incnt + BitVec.ofNat 32 cut.length })) ∧
  (∀ (u : State) (id : Byte) (q more : List Byte),
    let pq := id.toNat / 16
    let tq := id.toNat % 16
    dqt [] u = u ∧
    (1 < pq ∨ 3 < tq ∨ q.length < 64 * (pq + 1) → dqt (id :: q) u = warned u 0x8000) ∧
    (pq ≤ 1 → tq ≤ 3 → q.length = 64 * (pq + 1) →
      ∃ v, dqt (id :: q ++ more) u = dqt more v ∧ v = { u with ram.qt := v.ram.qt } ∧
        (∀ k, k < 64 → v.qtAt tq (zz k) =
          if pq = 0 then (q.getD k 0).setWidth 16 else q.getD (2 * k) 0 ++ q.getD (2 * k + 1) 0) ∧
        ∀ i, i < 64 * tq ∨ 64 * tq + 64 ≤ i → v.qtAt 0 i = u.qtAt 0 i)) ∧
  (∀ (u : State) (id : Byte) (q bits vals more : List Byte),
    let tc := id.toNat / 16
    let th := id.toNat % 16
    let j := 2 * tc + th
    let bit := fun (l : Nat) => (bits.getD (l - 1) 0).toNat
    let first := fun (l : Nat) => ((List.range (l - 1)).map (fun i => bit (i + 1) * 2 ^ (l - (i + 1)))).sum
    let before := fun (l : Nat) => ((List.range (l - 1)).map (fun i => bit (i + 1))).sum
    let total := (bits.map BitVec.toNat).sum
    let named := ((q.take 16).map BitVec.toNat).sum
    let overflows := ∃ l, 1 ≤ l ∧ l ≤ 16 ∧ bit l ≠ 0 ∧ 2 ^ l < first l + bit l
    dht [] u = u ∧
    (1 < tc ∨ 1 < th ∨ q.length < 16 ∨ 256 < named ∨ q.length < 16 + named → dht (id :: q) u = warned u 0x0040) ∧
    (tc ≤ 1 → th ≤ 1 → bits.length = 16 → total ≤ 256 → vals.length = total →
      (overflows → dht (id :: bits ++ vals ++ more) u =
        dht more { warned u 0x0040 with valid.dht := u.valid.dht.set j false }) ∧
      (¬overflows → ∃ v, dht (id :: bits ++ vals ++ more) u = dht more v ∧
        v = { u with
          valid.dht := u.valid.dht.set j true
          ram.dhMax := v.ram.dhMax
          ram.dhMin := v.ram.dhMin
          ram.dhPtr := v.ram.dhPtr
          ram.dhVal := v.ram.dhVal } ∧
        (∀ l, 1 ≤ l → l ≤ 16 →
          (bit l = 0 → v.maxcodeAt j l = -1 ∧ v.mincodeAt j l = u.mincodeAt j l ∧ v.valptrAt j l = u.valptrAt j l) ∧
          (bit l ≠ 0 → v.valptrAt j l = before l ∧ v.mincodeAt j l = first l ∧ v.maxcodeAt j l = first l + bit l - 1)) ∧
        (∀ i : Nat, i < total → v.huffvalAt j i = vals.getD i 0) ∧
        (∀ j' l, l ≤ 16 → j' ≠ j ∨ l = 0 →
          v.maxcodeAt j' l = u.maxcodeAt j' l ∧ v.mincodeAt j' l = u.mincodeAt j' l ∧ v.valptrAt j' l = u.valptrAt j' l) ∧
        ∀ (j' i : Nat), i < 256 → j' ≠ j ∨ total ≤ i → v.huffvalAt j' i = u.huffvalAt j' i))) ∧
  (∀ (u : State) (fill : Nat) (p : List Byte), p.length < 65534 →
    let at' := fun (i : Nat) => (p.getD i 0).toNat
    let x := 256 * at' 3 + at' 4
    let y := 256 * at' 1 + at' 2
    let nf := at' 5
    let legal := 6 ≤ p.length ∧ 6 + 3 * nf ≤ p.length ∧ at' 0 = 8 ∧ 1 ≤ nf ∧ nf ≤ 4 ∧ x ≠ 0 ∧ y ≠ 0 ∧
      (∀ i, i < nf → 1 ≤ at' (7 + 3 * i) / 16 ∧ at' (7 + 3 * i) / 16 ≤ 4 ∧ 1 ≤ at' (7 + 3 * i) % 16 ∧ at' (7 + 3 * i) % 16 ≤ 4 ∧
        at' (8 + 3 * i) ≤ 3) ∧
      (1 < nf → ((List.range nf).map (fun i => at' (7 + 3 * i) / 16 * (at' (7 + 3 * i) % 16))).sum ≤ 10)
    (¬legal → passes u (segment fill 0xC0 p) (warned u 0x0010)) ∧
    (legal → ∃ v, passes u (segment fill 0xC0 p) v ∧
      v = { u with
        geo.imgW := BitVec.ofNat 16 x
        geo.imgH := BitVec.ofNat 16 y
        geo.ncomp := BitVec.ofNat 3 nf
        geo.comp := v.geo.comp
        seen.sof := true } ∧
      (∀ i, i < nf → v.geo.comp.get i = {
        cid := p.getD (6 + 3 * i) 0
        h := BitVec.ofNat 4 (at' (7 + 3 * i) / 16)
        v := BitVec.ofNat 4 (at' (7 + 3 * i) % 16)
        tq := BitVec.ofNat 2 (at' (8 + 3 * i))
        td := 0
        ta := 0 }) ∧
      ∀ i, nf ≤ i → i < 4 → v.geo.comp.get i = u.geo.comp.get i)) ∧
  (∀ (u : State) (fill : Nat) (p : List Byte), p.length < 65534 → u.geo.ncomp.toNat ≤ 4 →
    let at' := fun (i : Nat) => (p.getD i 0).toNat
    let ns := at' 0
    let scan := segment fill 0xDA p
    let shaped := 1 ≤ p.length ∧ p.length = 1 + 2 * ns + 3 ∧ ns = u.geo.ncomp.toNat ∧
      ∀ j, j < ns → p.getD (1 + 2 * j) 0 = (u.geo.comp.get j).cid ∧ at' (2 + 2 * j) / 16 ≤ 1 ∧ at' (2 + 2 * j) % 16 ≤ 1
    let loaded := ∀ j, j < ns →
      u.valid.dht.get (at' (2 + 2 * j) / 16) = true ∧ u.valid.dht.get (2 + at' (2 + 2 * j) % 16) = true
    (u.seen.sof = false → ends u scan (warned u 0x0008)) ∧
    (u.seen.sof = true → ¬shaped → ends u scan (warned u 0x0010)) ∧
    (u.seen.sof = true → shaped → ¬loaded → ends u scan (warned u 0x0020)) ∧
    ∀ g, u.seen.sof = true → shaped → loaded → u.geometry = some g →
      ∃ comp : Quad CompCfg,
        (∀ j, j < ns → (comp.get j).td.val = at' (2 + 2 * j) / 16 ∧ (comp.get j).ta.val = at' (2 + 2 * j) % 16 ∧
          comp.get j = { u.geo.comp.get j with td := (comp.get j).td, ta := (comp.get j).ta }) ∧
        (∀ j, ns ≤ j → j < 4 → comp.get j = u.geo.comp.get j) ∧
        (u.cfg.coefDepth < g.n → ∀ rest : List Byte, run { u with fifo.inp := scan ++ rest } =
          faultEntry .coefovf { u with
            fifo.inp := rest, coder.incnt := u.coder.incnt + BitVec.ofNat 32 scan.length, geo.comp := comp }) ∧
        (g.n ≤ u.cfg.coefDepth → ends u scan { u with
          geo.comp := comp
          geo.mcux := BitVec.ofNat 16 g.mx
          geo.mcuy := BitVec.ofNat 16 g.my
          geo.ncoef := BitVec.ofNat 32 g.n
          seen.sos := true })) ∧
  ∀ (width height : BitVec 16) (q rest : List Byte) (s : State),
    let mx := (width.toNat + 7) / 8
    let my := (height.toNat + 7) / 8
    width ≠ 0 → height ≠ 0 → q.length = 64 → 64 * mx * my ≤ s.cfg.coefDepth →
    s.fifo.inp = headerBytes width height q ++ rest →
    ∃ t, exec .dechdr s = .next t ∧
      t = retire { s with
        geo := {
          ncoef := BitVec.ofNat 32 (64 * mx * my)
          imgW := width
          imgH := height
          ncomp := 1
          comp := s.geo.comp.set 0 { cid := 1, h := 1, v := 1, tq := 0, td := 0, ta := 0 }
          rstint := 0
          mcux := BitVec.ofNat 16 mx
          mcuy := BitVec.ofNat 16 my }
        coder.incnt := s.coder.incnt + 306
        seen := { soi := true, sof := true, sos := true, eoi := false }
        reader := { bitbuf := s.reader.bitbuf, bitcnt := 0, latch := .empty }
        valid.dht := { c0 := true, c1 := false, c2 := true, c3 := false }
        fifo.inp := rest
        ram.qt := t.ram.qt
        ram.dhMax := t.ram.dhMax
        ram.dhMin := t.ram.dhMin
        ram.dhPtr := t.ram.dhPtr
        ram.dhVal := t.ram.dhVal } ∧
      (∀ k, k < 64 → t.qtAt 0 (zz k) = (q.getD k 0).setWidth 16) ∧ (∀ i, 64 ≤ i → t.qtAt 0 i = s.qtAt 0 i) ∧
      t.holdsTable 0 huffDc0 ∧ t.holdsTable 2 huffAc0 ∧
      (∀ j l, l ≤ 16 → (j ≠ 0 ∧ j ≠ 2) ∨ l = 0 →
        t.maxcodeAt j l = s.maxcodeAt j l ∧ t.mincodeAt j l = s.mincodeAt j l ∧ t.valptrAt j l = s.valptrAt j l) ∧
      ∀ (j i : Nat), i < 256 → (j ≠ 0 ∧ j ≠ 2) ∨ (j = 0 ∧ 12 ≤ i) ∨ (j = 2 ∧ 162 ≤ i) → t.huffvalAt j i = s.huffvalAt j i

/-- DECBLK (R366) with the end of the input known: it never waits, ends with RESULT 0, 1 or 2 and the warning of each, writes only
its block and its predictor, and counts the bytes it takes; its fault, and RESULT 3 for a table that is not loaded. -/
def Obligations.DecblkEndsWithItsResult : Prop :=
  ∀ (comp : Fin 4) (dt ac : Fin 2) (blk : Nat) (s : State),
    (s.geo.ncoef.toNat < 64 * blk + 64 → exec (.decblk comp dt ac blk) s = .next (faultEntry .coefrange s)) ∧
    (64 * blk + 64 ≤ s.geo.ncoef.toNat → s.valid.dht.get dt.val = false ∨ s.valid.dht.get (2 + ac.val) = false →
      exec (.decblk comp dt ac blk) s = .next (retire { s with warn := s.warn ||| 0x0020, result := 3 })) ∧
    (64 * blk + 64 ≤ s.geo.ncoef.toNat → s.valid.dht.get dt.val = true → s.valid.dht.get (2 + ac.val) = true →
      s.fifo.inEos = true →
      ∃ t taken, exec (.decblk comp dt ac blk) s = .next t ∧
        t = retire { s with
          ram.coef := t.ram.coef
          coder.pred := t.coder.pred
          coder.incnt := s.coder.incnt + BitVec.ofNat 32 taken
          reader := t.reader
          fifo.inp := s.fifo.inp.drop taken
          warn := t.warn
          result := t.result } ∧
        taken ≤ s.fifo.inp.length ∧
        ((t.result = 0 ∧ t.warn = s.warn) ∨ (t.result = 1 ∧ t.warn = s.warn ||| 0x0100) ∨
          (t.result = 2 ∧ t.warn = s.warn ||| 0x0080)) ∧
        (∀ c : Fin 4, c ≠ comp → t.coder.pred.get c.val = s.coder.pred.get c.val) ∧
        ∀ a, a < 64 * blk ∨ 64 * blk + 64 ≤ a → t.coefAt a = s.coefAt a)

/-- DECBLK inverts ENCBLK on a codable block (46_f5_matrix.md R417, 44_entropy_encoder.md R300, 45_entropy_decoder.md R365, R366): where the
decoder's tables hold the encoder's, and the bits the reader holds and the stuffed bytes in IN are those of the block's codes,
from the middle of a byte on or from its start, the block and its predictor come back, and the reader holds the bits left. -/
def Obligations.DecblkInvertsEncblk : Prop :=
  ∀ (comp : Fin 4) (dt ac : Fin 2) (blk : Nat) (s e : State) (bytes rest : List Byte) (pad : List Bool),
    64 * blk + 64 ≤ s.geo.ncoef.toNat → s.valid.dht.get dt.val = true → s.valid.dht.get (2 + ac.val) = true →
    s.holdsTable dt.val (huffDc dt) → s.holdsTable (2 + ac.val) (huffAc ac) →
    s.reader.latch = .empty → s.fifo.inp = stuff bytes ++ rest →
    codable comp.val blk e = true → e.coder.pred.get comp.val = s.coder.pred.get comp.val →
    s.readerBits ++ streamBits bytes = codeBits (blockCodes comp.val dt ac blk e) ++ pad → pad.length < 8 →
    ∃ t, exec (.decblk comp dt ac blk) s = .next t ∧
      t = retire { s with
        ram.coef := t.ram.coef
        coder.pred := s.coder.pred.set comp.val (e.coefAt (64 * blk))
        coder.incnt := s.coder.incnt + BitVec.ofNat 32 (stuff bytes).length
        reader := { bitbuf := t.reader.bitbuf, bitcnt := pad.length, latch := .empty }
        fifo.inp := rest
        result := 0 } ∧
      t.readerBits = pad ∧
      (∀ i, i < 64 → t.coefAt (64 * blk + i) = e.coefAt (64 * blk + i)) ∧
      ∀ a, a < 64 * blk ∨ 64 * blk + 64 ≤ a → t.coefAt a = s.coefAt a

/-- DECSCAN (R368). Without SEEN_SOS it only warns NOSOS. With the end of the input known and at least one block per MCU it never waits and
retires whatever the data is, writing only COEF below NCOEF, the predictors, the reader, SEEN_EOI, WARN and the input: with RSTMISS
only where restarts are due and only with SHORTTAIL, after BADCODE with no search for EOI, else with SEEN_EOI or NOEOI.
It decodes what the encoder codes (46_f5_matrix.md R417; 44_entropy_encoder.md R301): where the tables hold the encoder's, and IN holds
`count` whole restart intervals (R367), each byte-aligned, with the predictors cleared and with a restart marker behind it, and then
`more` blocks, those blocks come back and every later one is 0. `last` is what follows the codes in the last byte: padding, or
sixteen 1-bits, which no table of R295 gives a code: BADCODE. `ending` is the marker that comes next, or the end of the input: it ends
the scan with SEEN_EOI or NOEOI, after SHORTTAIL if blocks were due, and RSTMISS if a restart was. -/
def Obligations.DecscanAlwaysRetires : Prop :=
  ∀ s : State,
    (s.seen.sos = false → exec .decscan s = .next (retire { s with warn := s.warn ||| 0x4000 })) ∧
    (s.seen.sos = true → s.fifo.inEos = true → 0 < s.bpm →
      ∃ (t : State) (taken : Nat) (rst : BitVec 16), exec .decscan s = .next t ∧
        t = retire { s with
          ram.coef := t.ram.coef
          coder.pred := t.coder.pred
          coder.incnt := s.coder.incnt + BitVec.ofNat 32 taken
          reader := t.reader
          seen.eoi := t.seen.eoi
          fifo.inp := s.fifo.inp.drop taken
          warn := t.warn } ∧
        taken ≤ s.fifo.inp.length ∧ (∀ a, s.geo.ncoef.toNat ≤ a → t.coefAt a = s.coefAt a) ∧
        (rst = 0 ∨ (rst = 0x1000 ∧ s.geo.rstint ≠ 0 ∧ t.warn.getLsbD 8 = true)) ∧
        ((t.warn = s.warn ||| rst ∨ t.warn = s.warn ||| rst ||| 0x0100) ∧ t.seen.eoi = true ∧ t.reader.latch = .empty ∨
          (t.warn = s.warn ||| rst ||| 0x0200 ∨ t.warn = s.warn ||| rst ||| 0x0300) ∧ t.seen.eoi = s.seen.eoi ∧
            t.reader.latch ≠ .empty ∨
          rst = 0 ∧ t.warn = s.warn ||| 0x0080 ∧ t.seen.eoi = s.seen.eoi ∧ t.reader.latch = .empty)) ∧
    (∀ (e : State) (data : Nat → List Byte) (pad : Nat → List Bool) (rst : Nat → Byte) (count more : Nat) (last : List Bool)
        (ending : Option Byte) (rest : List Byte),
      let zero : Quad (BitVec 16) := { c0 := 0, c1 := 0, c2 := 0, c3 := 0 }
      let total := s.geo.ncoef.toNat / 64
      let every := if s.geo.rstint = 0 then total else s.geo.rstint.toNat * s.bpm
      let n := count * every + more
      let coded := (List.range count).flatMap (fun i => stuff (data i) ++ [0xFF, rst i]) ++ stuff (data count)
      let decoded := fun (t : State) =>
        (∀ a, a < 64 * n → t.coefAt a = e.coefAt a) ∧ (∀ a, 64 * n ≤ a → a < s.geo.ncoef.toNat → t.coefAt a = 0) ∧
        ∀ a, s.geo.ncoef.toNat ≤ a → t.coefAt a = s.coefAt a
      s.seen.sos = true → 0 < s.bpm → s.geo.ncomp.toNat ≤ 4 → s.geo.ncoef.toNat % (64 * s.bpm) = 0 → e.geo = s.geo →
      (∀ c, c < s.geo.ncomp.toNat →
        s.holdsTable (s.geo.comp.get c).td.val (huffDc (s.geo.comp.get c).td) ∧
        s.holdsTable (2 + (s.geo.comp.get c).ta.val) (huffAc (s.geo.comp.get c).ta)) →
      (0 < count → s.geo.rstint ≠ 0 ∧ count * every < total) → more ≤ every → n ≤ total →
      (∀ i, i < count → scanCodable e every (i * every) zero = true ∧ (pad i).length < 8 ∧
        streamBits (data i) = codeBits (scanCodes e every (i * every) zero) ++ pad i ∧ 0xD0 ≤ (rst i).toNat ∧ (rst i).toNat ≤ 0xD7) →
      scanCodable e more (count * every) zero = true →
      streamBits (data count) = codeBits (scanCodes e more (count * every) zero) ++ last →
      (match ending with
        | some m => m ≠ 0x00 ∧ m ≠ 0xFF ∧ s.fifo.inp = coded ++ 0xFF :: m :: rest
        | none => s.fifo.inp = coded ∧ s.fifo.inEos = true ∧ rest = []) →
      (∀ w : BitVec 16,
        (n = total ∧ last.length < 8 ∧ w = 0) ∨
          (n < total ∧ more = every ∧ last.length < 8 ∧ (∀ m, ending = some m → m.toNat < 0xD0 ∨ 0xD7 < m.toNat) ∧ w = 0x1100) ∨
          (n < total ∧ more < every ∧ last = [] ∧ w = 0x0100) →
        ∃ t, exec .decscan s = .next t ∧
          t = retire { s with
            ram.coef := t.ram.coef
            coder.pred := if w = 0x1100 then zero else scanPreds e more (count * every) zero
            coder.incnt := s.coder.incnt + BitVec.ofNat 32 (s.fifo.inp.length - rest.length)
            reader := {
              bitbuf := t.reader.bitbuf
              bitcnt := 0
              latch := match ending with
                | some m => if m = 0xD9 then .empty else .marker m
                | none => .eos }
            seen.eoi := if ending = some 0xD9 then true else s.seen.eoi
            fifo.inp := rest
            warn := s.warn ||| w ||| (if ending = some 0xD9 then 0 else 0x0200) } ∧
          decoded t) ∧
      (n < total → more < every → last.take 16 = List.replicate 16 true →
        ∃ (t : State) (taken : Nat), exec .decscan s = .next t ∧
          t = retire { s with
            ram.coef := t.ram.coef
            coder.pred := scanPreds e more (count * every) zero
            coder.incnt := s.coder.incnt + BitVec.ofNat 32 taken
            reader := { bitbuf := t.reader.bitbuf, bitcnt := t.reader.bitcnt, latch := .empty }
            fifo.inp := s.fifo.inp.drop taken
            warn := s.warn ||| 0x0080 } ∧
          taken ≤ coded.length ∧ decoded t))

/-! ### Permutation (41_permutation.md) -/

/-- PERMGEN (R193, R198): with 4·N generator bytes at hand it pops exactly those and leaves the Fisher–Yates shuffle their values give,
a bijection of `[0, N)`. -/
def Obligations.PermgenShufflesTheIndices : Prop :=
  ∀ s : State, s.geo.ncoef.toNat ≤ 2 ^ 24 → 4 * s.geo.ncoef.toNat ≤ s.fifo.rng.length →
    ∃ t, exec .permgen s = .next t ∧
      t = retire { s with
        ram.perm := t.ram.perm
        fifo.rng := s.fifo.rng.drop (4 * s.geo.ncoef.toNat)
        f5.permN := s.geo.ncoef.setWidth 25
        f5.pos := 0
        valid.perm := true } ∧
      t.permList s.geo.ncoef.toNat =
        shuffled s.geo.ncoef.toNat (drawsFrom s.ctrl.rngSigned s.geo.ncoef.toNat 0 s.fifo.rng) ∧
      t.Bijective s.geo.ncoef.toNat ∧ ∀ i, s.geo.ncoef.toNat ≤ i → t.permAt i = s.permAt i

/-- PERMGEN is a pure function of NCOEF, RNG_SIGNED and its 4·NCOEF generator bytes (R200). -/
def Obligations.PermgenIsDeterminedByItsInputs : Prop :=
  ∀ s s' : State, s.geo.ncoef.toNat ≤ 2 ^ 24 → s'.geo.ncoef = s.geo.ncoef → s'.ctrl.rngSigned = s.ctrl.rngSigned →
    4 * s.geo.ncoef.toNat ≤ s.fifo.rng.length → 4 * s.geo.ncoef.toNat ≤ s'.fifo.rng.length →
    s'.fifo.rng.take (4 * s.geo.ncoef.toNat) = s.fifo.rng.take (4 * s.geo.ncoef.toNat) →
    ∃ t t', exec .permgen s = .next t ∧ exec .permgen s' = .next t' ∧
      ∀ i, i < s.geo.ncoef.toNat → t'.permAt i = t.permAt i

/-- A wait has no other effect (20_memory.md R123): PERMGEN that runs dry and is fed later ends as if the bytes had all been there. So does
every command that waits: on RNG, IN or PAYIN, it goes on, once the input FIFOs are fed and the end of the input is as given,
to what it would have answered had all that been there; on OUT or PAYOUT, once bytes are popped, to what it would have answered with
that much more room. A PUTBITS or a FLUSH that waits has not yet written the packer (20_memory.md R131; 44_entropy_encoder.md R291,
R293). A DECSCAN whose MCUs hold no blocks is left out (logs 4 and 10). -/
def Obligations.PermgenResumesWhereItWaited : Prop :=
  (∀ (s t : State) (a b : List Byte) (p : Progress),
    exec .permgen { s with fifo.rng := a } = .next t → t.agent = .stall .rng p →
    t.fifo.rng = [] ∧
    exec .permgen { s with fifo.rng := a ++ b } = .next (continueCommand p { t with fifo.rng := b })) ∧
  ∀ (i : Instr) (s t : State) (src : StallSrc) (p : Progress), (i = .decscan → 0 < s.bpm) →
    exec i s = .next t → t.agent = .stall src p →
    (src ∈ [StallSrc.rng, .inp, .payin] → ∀ (rng inp payin : List Byte) (eos : Bool),
      exec i (s.feed rng inp payin eos) = .next (continueCommand p (t.feed rng inp payin eos))) ∧
    (src ∈ [StallSrc.out, .payout] → ∀ (n m : Nat) (u : State),
      n ≤ t.fifo.out.length → m ≤ t.fifo.payout.length → exec i (s.deepened n m) = .next u →
      continueCommand p (t.popped n m) = { u.popped n m with cfg := s.cfg }) ∧
    (i.op ∈ [Op.putbits, .flush] → t.coder.putbuf = s.coder.putbuf ∧ t.coder.putbits = s.coder.putbits)

/-- The faults of the cursor and embedding commands, which write nothing: NOPERM unless the permutation is complete and of the array's
size (R199), and the operand faults (R194, R196, R197; 46_f5_matrix.md R407, R408, R411 to R413), which come first where
60_exceptions.md R464 says so. -/
def Obligations.PermutationCommandsFaultInOrder : Prop :=
  ∀ s : State,
    (s.valid.perm = false ∨ s.f5.permN.toNat ≠ s.geo.ncoef.toNat →
      (∀ i, exec (.permrd i) s = .next (faultEntry .noperm s) ∧ exec (.curset i) s = .next (faultEntry .noperm s)) ∧
      (∀ n, n ≤ s.cfg.cwMax → exec (.offer n) s = .next (faultEntry .noperm s)) ∧
      (∀ imm : BitVec 8, imm.toNat ≤ 3 → exec (.bstep imm) s = .next (faultEntry .noperm s)) ∧
      (∀ val, 1 ≤ s.f5.k.toNat → s.f5.k.toNat ≤ s.cfg.kMaxEmb → val < 2 ^ s.f5.k.toNat →
        exec (.mstep val) s = .next (faultEntry .noperm s)) ∧
      (1 ≤ s.f5.k.toNat → exec .mxtr s = .next (faultEntry .noperm s)) ∧
      (s.f5.k.toNat ≤ s.cfg.kMaxEmb →
        exec .embhdr s = .next (faultEntry .noperm s) ∧ exec .embpay s = .next (faultEntry .noperm s)) ∧
      exec .exthdr s = .next (faultEntry .noperm s) ∧ exec .extpay s = .next (faultEntry .noperm s)) ∧
    (∀ i, s.permReady = true → s.f5.permN.toNat ≤ i → exec (.permrd i) s = .next (faultEntry .coefrange s)) ∧
    (∀ p, s.permReady = true → s.f5.permN.toNat < p → exec (.curset p) s = .next (faultEntry .operand s)) ∧
    (∀ n, s.cfg.cwMax < n → exec (.offer n) s = .next (faultEntry .operand s)) ∧
    (∀ imm : BitVec 8, 3 < imm.toNat → exec (.bstep imm) s = .next (faultEntry .operand s)) ∧
    (∀ val, s.f5.k.toNat = 0 ∨ s.cfg.kMaxEmb < s.f5.k.toNat ∨ 2 ^ s.f5.k.toNat ≤ val →
      exec (.mstep val) s = .next (faultEntry .operand s)) ∧
    (s.f5.k.toNat = 0 → exec .mxtr s = .next (faultEntry .operand s)) ∧
    (s.cfg.kMaxEmb < s.f5.k.toNat →
      exec .embhdr s = .next (faultEntry .operand s) ∧ exec .embpay s = .next (faultEntry .operand s))

/-- PERMRD (R194) reads one entry and CURSET (R196) sets the cursor; neither changes anything else. -/
def Obligations.PermrdAndCurset : Prop :=
  ∀ (n : Nat) (s : State), s.permReady = true →
    (n < s.f5.permN.toNat → exec (.permrd n) s = .next (retire { s with result := (s.permAt n).setWidth 32 })) ∧
    (n ≤ s.f5.permN.toNat →
      ∃ t, exec (.curset n) s = .next t ∧ t = retire { s with f5.pos := t.f5.pos } ∧ t.f5.pos.toNat = n)

/-- OFFER (R197): the next `count` usable coefficients, or all there are, become the code word, and the cursor stands right after the
last of them, where it was when none is asked for, or at the end of the permutation when it runs out (R195). -/
def Obligations.OfferTakesTheNextUsable : Prop :=
  ∀ (count : Nat) (s : State), s.cfg.wf → count ≤ s.cfg.cwMax → s.permReady = true →
    s.f5.pos.toNat ≤ s.f5.permN.toNat →
    let n := min count s.usableLeft.length
    ∃ t, exec (.offer count) s = .next t ∧
      t = retire { s with
        ram.cw := t.ram.cw
        f5.cwlen := BitVec.ofNat 8 n
        f5.pos := t.f5.pos
        result := BitVec.ofNat 32 n } ∧
      (∀ i, i < n → (t.cwAt i).toNat = s.usableLeft.getD i 0) ∧ (∀ i, n ≤ i → t.cwAt i = s.cwAt i) ∧
      t.usableLeft = s.usableLeft.drop n ∧ (n < count → t.f5.pos = s.f5.permN) ∧
      (n = count → s.drewLast t (s.usableLeft.take n)) ∧
      s.f5.pos.toNat ≤ t.f5.pos.toNat ∧ t.f5.pos.toNat ≤ t.f5.permN.toNat

/-! ### Embedding and extraction (46_f5_matrix.md) -/

/-- XBIT (R410): the carried bit of one coefficient, all ones for 0. -/
def Obligations.XbitReadsTheCarriedBit : Prop :=
  ∀ (a : Nat) (s : State),
    (s.geo.ncoef.toNat ≤ a → exec (.xbit a) s = .next (faultEntry .coefrange s)) ∧
    (a < s.geo.ncoef.toNat →
      ∃ r, exec (.xbit a) s = .next (retire { s with result := r }) ∧
        (s.coefInt a = 0 → r = 0xFFFFFFFF) ∧
        (0 < s.coefInt a → (r.toNat : Int) = s.coefInt a % 2) ∧
        (s.coefInt a < 0 → (r.toNat : Int) = 1 - s.coefInt a % 2))

/-- CAPCNT (R402): how many non-DC coefficients of the array are ±1, 0, any, and the rest. -/
def Obligations.CapcntCountsTheCoefficients : Prop :=
  ∀ s : State, s.geo.ncoef.toNat % 64 = 0 →
    let nonDc := (List.range s.geo.ncoef.toNat).filter (fun i => i % 64 ≠ 0)
    let ones := (nonDc.filter (fun i => s.coefInt i = 1 ∨ s.coefInt i = -1)).length
    let zeros := (nonDc.filter (fun i => s.coefInt i = 0)).length
    exec .capcnt s = .next (retire { s with
      f5.capOnes := BitVec.ofNat 32 ones
      f5.capZeros := BitVec.ofNat 32 zeros
      f5.capNondc := BitVec.ofNat 32 (63 * (s.geo.ncoef.toNat / 64))
      f5.capLarge := BitVec.ofNat 32 (63 * (s.geo.ncoef.toNat / 64) - ones - zeros) })

/-- BSTEP (R411, R403) over a bijective permutation. The coefficients `pre` it meets first are ±1 with the other bit: each shrinks to 0.
Not lossy, the first other coefficient `p` is toggled unless it already carries the bit; with none left RESULT is 2. Lossy,
the first coefficient decides: RESULT 1 when it shrinks. The cursor stands right after the last coefficient met (R195). Nothing else
changes. -/
def Obligations.BstepEmbedsOneBit : Prop :=
  ∀ (b lossy : Bool) (imm : BitVec 8) (s : State) (pre post : List Nat) (p : Nat),
    s.Inv → s.PermInv → s.permReady = true → imm.toNat = bitOf b + 2 * bitOf lossy →
    let shrinks := fun q => carriedBit (s.coefInt q) ≠ some b ∧ (s.coefInt q = 1 ∨ s.coefInt q = -1)
    let framed := fun (t : State) (r : Word) =>
      t = retire { s with
        ram.coef := t.ram.coef
        f5.pos := t.f5.pos
        f5.embChanged := t.f5.embChanged
        f5.embShrink := t.f5.embShrink
        result := r }
    (∀ q ∈ pre, shrinks q) →
    (s.usableLeft = pre ++ p :: post → ¬shrinks p → (lossy = true → pre = []) →
      ∃ t, exec (.bstep imm) s = .next t ∧ framed t 0 ∧ t.usableLeft = post ∧ s.drewLast t (pre ++ [p]) ∧
        carriedBit (t.coefInt p) = some b ∧
        t.coefInt p = (if carriedBit (s.coefInt p) = some b then s.coefInt p else decMag (s.coefInt p)) ∧
        (∀ q ∈ pre, t.coefInt q = 0) ∧ (∀ a, a ∉ pre → a ≠ p → t.coefAt a = s.coefAt a) ∧
        t.f5.embShrink = s.f5.embShrink + BitVec.ofNat 32 pre.length ∧
        t.f5.embChanged = s.f5.embChanged
          + BitVec.ofNat 32 (pre.length + (if carriedBit (s.coefInt p) = some b then 0 else 1))) ∧
    (s.usableLeft = pre → (lossy = true → pre = []) →
      ∃ t, exec (.bstep imm) s = .next t ∧ framed t 2 ∧ t.f5.pos = s.f5.permN ∧
        (∀ q ∈ pre, t.coefInt q = 0) ∧ (∀ a, a ∉ pre → t.coefAt a = s.coefAt a) ∧
        t.f5.embShrink = s.f5.embShrink + BitVec.ofNat 32 pre.length ∧
        t.f5.embChanged = s.f5.embChanged + BitVec.ofNat 32 pre.length) ∧
    (s.usableLeft = p :: post → shrinks p → lossy = true →
      ∃ t, exec (.bstep imm) s = .next t ∧ framed t 1 ∧ t.usableLeft = post ∧ s.drewLast t [p] ∧ t.coefInt p = 0 ∧
        (∀ a, a ≠ p → t.coefAt a = s.coefAt a) ∧ t.f5.embShrink = s.f5.embShrink + 1 ∧
        t.f5.embChanged = s.f5.embChanged + 1)

/-- MSTEP (R412, R405) with legal operands always retires, with RESULT 0 or 2. It draws the coefficients `drawn`, the next usable ones:
RESULT 0 leaves the cursor right after the last and a code word of `2^K − 1` members that carries val; RESULT 2 has drawn all
there are and exhausts the cursor. No other coefficient changes, each drawn one keeps its value or is one step nearer to 0,
the code word is the drawn ones that are not now 0, in order, and the two counters count the changed ones and the zeros. -/
def Obligations.MstepEmbedsOneValue : Prop :=
  ∀ (val : Nat) (s : State), s.Inv → s.PermInv → s.permReady = true → 1 ≤ s.f5.k.toNat →
    s.f5.k.toNat ≤ s.cfg.kMaxEmb → val < 2 ^ s.f5.k.toNat →
    let n := 2 ^ s.f5.k.toNat - 1
    ∃ (t : State) (d : Nat),
      let drawn := s.usableLeft.take d
      let word := (List.range t.f5.cwlen.toNat).map (fun i => (t.cwAt i).toNat)
      exec (.mstep val) s = .next t ∧
      t = retire { s with
        ram.coef := t.ram.coef
        ram.cw := t.ram.cw
        f5.pos := t.f5.pos
        f5.cwlen := t.f5.cwlen
        f5.embChanged := s.f5.embChanged + BitVec.ofNat 32 (s.changedAmong t drawn)
        f5.embShrink := s.f5.embShrink + BitVec.ofNat 32 (t.zerosAmong drawn)
        result := t.result } ∧
      s.toggledOnly t drawn ∧ t.usableLeft = s.usableLeft.drop d ∧
      word = drawn.filter (fun p => decide (t.coefInt p ≠ 0)) ∧ (∀ i, n ≤ i → t.cwAt i = s.cwAt i) ∧
      ((t.result = 0 ∧ t.f5.cwlen.toNat = n ∧ syndromeOf (t.carried word) = val ∧ s.drewLast t drawn) ∨
        (t.result = 2 ∧ t.f5.cwlen.toNat < n ∧ drawn = s.usableLeft ∧ t.f5.pos = s.f5.permN))

/-- Matrix code correctness (R414): an MSTEP that returns 0 with EMB_SHRINK unchanged has changed at most one coefficient; in any case
every changed coefficient but one is now 0; and CURSET to the starting position and MXTR read val back. -/
def Obligations.MatrixCodeIsCorrect : Prop :=
  ∀ (val : Nat) (s t : State), s.Inv → s.PermInv → exec (.mstep val) s = .next t → t.agent = .idle → t.result = 0 →
    (t.f5.embShrink = s.f5.embShrink → ∃ a, ∀ x, x ≠ a → t.coefAt x = s.coefAt x) ∧
    (∃ a, ∀ x, x ≠ a → t.coefAt x = s.coefAt x ∨ t.coefAt x = 0) ∧
    ∃ v u, exec (.curset s.f5.pos.toNat) t = .next v ∧ exec .mxtr v = .next u ∧ u.result = BitVec.ofNat 32 val ∧ u.agent = .idle

/-- MXTR (R413): the syndrome of the next `2^K − 1` usable coefficients, with the cursor right after the last (R195), or all ones with
the cursor exhausted. -/
def Obligations.MxtrReadsTheSyndrome : Prop :=
  ∀ s : State, s.permReady = true → s.f5.pos.toNat ≤ s.f5.permN.toNat → 1 ≤ s.f5.k.toNat →
    let n := 2 ^ s.f5.k.toNat - 1
    (n ≤ s.usableLeft.length →
      ∃ t, exec .mxtr s = .next t ∧
        t = retire { s with
          f5.pos := t.f5.pos
          result := BitVec.ofNat 32 (syndromeOf (s.carried (s.usableLeft.take n))) } ∧
        t.usableLeft = s.usableLeft.drop n ∧ s.drewLast t (s.usableLeft.take n)) ∧
    (s.usableLeft.length < n →
      exec .mxtr s = .next (retire { s with f5.pos := s.f5.permN, result := 0xFFFFFFFF }))

/-- EMBHDR (R407, R409) with four whitening bytes at hand: it pops them, records the header word, and draws the coefficients `drawn`, the
next usable ones: with HDRCAP and TRUNC when it has exhausted the cursor, else with the cursor right after the last. It never
warns when HDR_LOSSY and 32 usable coefficients are left, and always when fewer are. No coefficient but the drawn ones
changes, each of those keeps its value or is one step nearer to 0, and the counters, cleared first, count the changed ones
and the zeros. -/
def Obligations.EmbhdrEmbedsTheHeader : Prop :=
  ∀ (b0 b1 b2 b3 : Byte) (rest : List Byte) (s : State), s.Inv → s.PermInv → s.permReady = true →
    s.f5.k.toNat ≤ s.cfg.kMaxEmb → s.fifo.rng = b0 :: b1 :: b2 :: b3 :: rest →
    ∃ (t : State) (d : Nat),
      let drawn := s.usableLeft.take d
      exec .embhdr s = .next t ∧
      t = retire { s with
        ram.coef := t.ram.coef
        fifo.rng := rest
        f5.pos := t.f5.pos
        f5.hdrword := BitVec.ofNat 32 (min s.f5.paylen.toNat 0x7FFFFF + s.f5.k.toNat * 2 ^ 24)
        f5.embBits := 0
        f5.embBytes := 0
        f5.embChanged := BitVec.ofNat 32 (s.changedAmong t drawn)
        f5.embShrink := BitVec.ofNat 32 (t.zerosAmong drawn)
        warn := t.warn } ∧
      s.toggledOnly t drawn ∧ t.usableLeft = s.usableLeft.drop d ∧
      ((t.warn = s.warn ∧ 32 ≤ drawn.length ∧ s.drewLast t drawn) ∨
        (t.warn = s.warn ||| 0x0003 ∧ drawn = s.usableLeft ∧ t.f5.pos = s.f5.permN)) ∧
      (32 ≤ s.usableLeft.length → s.ctrl.hdrLossy = true → t.warn = s.warn ∧ drawn.length = 32) ∧
      (s.usableLeft.length < 32 → t.warn = s.warn ||| 0x0003)

/-- EMBPAY (R408, 41_permutation.md R198) with the payload and its whitening bytes at hand, of any length: it pops all L payload bytes, and
as many generator bytes; or, the cursor exhausted, fewer generator bytes, and TRUNC. EMB_BYTES is EMB_BITS div 8. Every
payload byte whose eight bits are counted stands whitened in the carried bits from the starting position on, in groups of
`2^K − 1` coefficients (R409, R416). It draws the coefficients `drawn`, the next usable ones; no other coefficient changes, a DC entry
and one before the starting position among them, each drawn one keeps its value or is one step nearer to 0, and the
counters count the changed ones and the zeros. -/
def Obligations.EmbpayEmbedsThePayload : Prop :=
  ∀ s : State, s.cfg.wf → s.f5.pos.toNat ≤ s.f5.permN.toNat → s.f5.permN.toNat ≤ s.cfg.coefDepth → s.PermInv →
    s.permReady = true → s.f5.k.toNat ≤ s.cfg.kMaxEmb →
    let len := min s.f5.paylen.toNat 0x7FFFFF
    len ≤ s.fifo.payin.length → len ≤ s.fifo.rng.length →
    ∃ (t : State) (taken d : Nat),
      let drawn := s.usableLeft.take d
      exec .embpay s = .next t ∧ taken ≤ len ∧
      t = retire { s with
        ram.coef := t.ram.coef
        ram.cw := t.ram.cw
        fifo.rng := s.fifo.rng.drop taken
        fifo.payin := s.fifo.payin.drop len
        f5.pos := t.f5.pos
        f5.cwlen := t.f5.cwlen
        f5.embBits := t.f5.embBits
        f5.embBytes := t.f5.embBytes
        f5.embChanged := s.f5.embChanged + BitVec.ofNat 32 (s.changedAmong t drawn)
        f5.embShrink := s.f5.embShrink + BitVec.ofNat 32 (t.zerosAmong drawn)
        warn := t.warn } ∧
      s.toggledOnly t drawn ∧ t.usableLeft = s.usableLeft.drop d ∧
      (∀ i, 2 ^ s.f5.k.toNat - 1 ≤ i → t.cwAt i = s.cwAt i) ∧
      (s.f5.k.toNat ≤ 1 → t.ram.cw = s.ram.cw ∧ t.f5.cwlen = s.f5.cwlen) ∧
      ((t.warn = s.warn ∧ taken = len ∧ t.f5.embBits = s.f5.embBits + BitVec.ofNat 32 (8 * len) ∧ s.drewLast t drawn) ∨
        (t.warn = s.warn ||| 0x0001 ∧ drawn = s.usableLeft ∧ t.f5.pos = s.f5.permN ∧ 0 < taken)) ∧
      (t.f5.embBytes = t.f5.embBits >>> 3 ∨ (t.f5.embBits = s.f5.embBits ∧ t.f5.embBytes = s.f5.embBytes)) ∧
      let bits := payloadBits s.f5.k.toNat (t.carried { t with f5.pos := s.f5.pos }.usableLeft)
      ∀ j, 8 * (j + 1) ≤ (t.f5.embBits - s.f5.embBits).toNat →
        byteOfBits bits j = s.fifo.payin.getD j 0 ^^^ s.fifo.rng.getD j 0

/-- EXTHDR (R415): 32 carried bits, least-significant first, un-whitened by four generator bytes, with the
cursor right after the last (R195); with fewer usable coefficients it pops
none, clears EXT_LEN and EXT_K and warns INCOMPLETE. -/
def Obligations.ExthdrReadsTheHeader : Prop :=
  ∀ (b0 b1 b2 b3 : Byte) (rest : List Byte) (s : State), s.permReady = true → s.f5.pos.toNat ≤ s.f5.permN.toNat →
    (32 ≤ s.usableLeft.length → s.fifo.rng = b0 :: b1 :: b2 :: b3 :: rest →
      let word := BitVec.ofNat 32 (valueOf (s.carried (s.usableLeft.take 32))) ^^^ rngWordXor s.ctrl.rngSigned b0 b1 b2 b3
      ∃ t, exec .exthdr s = .next t ∧
        t = retire { s with
          fifo.rng := rest
          f5.pos := t.f5.pos
          f5.hdrword := word
          f5.extLen := word.extractLsb' 0 23
          f5.extK := word.extractLsb' 24 5
          f5.extBytes := 0 } ∧
        t.usableLeft = s.usableLeft.drop 32 ∧ s.drewLast t (s.usableLeft.take 32)) ∧
    (s.usableLeft.length < 32 →
      exec .exthdr s = .next (retire { s with
        f5.pos := s.f5.permN, f5.extLen := 0, f5.extK := 0, f5.extBytes := 0, warn := s.warn ||| 0x0004 }))

/-- EXTPAY (R416) with enough generator bytes and room: it pushes the bytes the carried bits hold, whitened, up to EXT_LEN, and the cursor
stands right after the last coefficient of the last group they need; fewer come with INCOMPLETE and the cursor at the end. -/
def Obligations.ExtpayPushesThePayload : Prop :=
  ∀ s : State, s.permReady = true → s.f5.pos.toNat ≤ s.f5.permN.toNat →
    s.f5.extLen.toNat ≤ s.fifo.rng.length → s.fifo.payout.length + s.f5.extLen.toNat ≤ s.cfg.payoutqDepth →
    let bits := payloadBits s.f5.extK.toNat (s.carried s.usableLeft)
    let n := min s.f5.extLen.toNat (bits.length / 8)
    let k := s.f5.extK.toNat
    let draws := if k = 0 then 8 * n else (8 * n + k - 1) / k * (2 ^ k - 1)
    ∃ t, exec .extpay s = .next t ∧
      t = retire { s with
        fifo.rng := s.fifo.rng.drop n
        fifo.payout := s.fifo.payout ++ (List.range n).map (fun j => byteOfBits bits j ^^^ s.fifo.rng.getD j 0)
        f5.pos := t.f5.pos
        f5.extBytes := BitVec.ofNat 32 n
        warn := t.warn } ∧
      (n = s.f5.extLen.toNat → t.warn = s.warn ∧ s.drewLast t (s.usableLeft.take draws) ∧
        t.usableLeft = s.usableLeft.drop draws) ∧
      (n < s.f5.extLen.toNat → t.warn = s.warn ||| 0x0004 ∧ t.f5.pos = s.f5.permN)

/-- The header comes back (R407, R415, R417): where EMBHDR did not run out of coefficients and HDR_LOSSY is 0, EXTHDR on the embedded
array, from the same position and with the same whitening bytes, reads the header word EMBHDR recorded. (A state in which
HDRCAP is set already is left out: there the warning does not tell whether EMBHDR ran out.) -/
def Obligations.HeaderRoundTrip : Prop :=
  ∀ (b0 b1 b2 b3 : Byte) (rest rest' : List Byte) (s t : State), s.Inv → s.PermInv → s.permReady = true →
    s.f5.k.toNat ≤ s.cfg.kMaxEmb → s.ctrl.hdrLossy = false → s.fifo.rng = b0 :: b1 :: b2 :: b3 :: rest →
    exec .embhdr s = .next t → t.warn.getLsbD 1 = false →
    ∃ u, exec .exthdr { t with f5.pos := s.f5.pos, fifo.rng := b0 :: b1 :: b2 :: b3 :: rest' } = .next u ∧
      u.f5.hdrword = t.f5.hdrword ∧ u.f5.extLen.toNat = min s.f5.paylen.toNat 0x7FFFFF ∧ u.f5.extK = s.f5.k ∧
      u.f5.pos = t.f5.pos
end

