-- ==== Sys2Proof/Laws/State.lean ====
section
/-! SUPPORT. What each named update does to each field of State, by rfl, so that no proof unfolds a record update. -/

namespace Sys2Proof.Machine

@[simp] theorem retire_cfg (s : State) : (retire s).cfg = s.cfg := rfl
@[simp] theorem retire_ctrl (s : State) : (retire s).ctrl = s.ctrl := rfl
@[simp] theorem retire_warn (s : State) : (retire s).warn = s.warn := rfl
@[simp] theorem retire_irqen (s : State) : (retire s).irqen = s.irqen := rfl
@[simp] theorem retire_fcmd (s : State) : (retire s).fcmd = s.fcmd := rfl
@[simp] theorem retire_fpc (s : State) : (retire s).fpc = s.fpc := rfl
@[simp] theorem retire_cmdcnt (s : State) : (retire s).cmdcnt = s.cmdcnt + 1 := rfl
@[simp] theorem retire_mark (s : State) : (retire s).mark = s.mark := rfl
@[simp] theorem retire_result (s : State) : (retire s).result = s.result := rfl
@[simp] theorem retire_geo (s : State) : (retire s).geo = s.geo := rfl
@[simp] theorem retire_coder (s : State) : (retire s).coder = s.coder := rfl
@[simp] theorem retire_seen (s : State) : (retire s).seen = s.seen := rfl
@[simp] theorem retire_reader (s : State) : (retire s).reader = s.reader := rfl
@[simp] theorem retire_f5 (s : State) : (retire s).f5 = s.f5 := rfl
@[simp] theorem retire_valid (s : State) : (retire s).valid = s.valid := rfl
@[simp] theorem retire_fifo (s : State) : (retire s).fifo = s.fifo := rfl
@[simp] theorem retire_ram (s : State) : (retire s).ram = s.ram := rfl
@[simp] theorem retire_agent (s : State) : (retire s).agent = .idle := rfl
@[simp] theorem retire_cur (s : State) : (retire s).cur = s.cur := rfl
@[simp] theorem retire_host (s : State) : (retire s).host = s.host := rfl
@[simp] theorem retire_busData (s : State) : (retire s).busData = s.busData := rfl
@[simp] theorem retire_freeCount (s : State) : (retire s).freeCount = s.freeCount := rfl
@[simp] theorem retire_powerCycles (s : State) : (retire s).powerCycles = s.powerCycles := rfl

@[simp] theorem faultEntry_cfg (c : FaultCode) (s : State) : (faultEntry c s).cfg = s.cfg := rfl
@[simp] theorem faultEntry_ctrl (c : FaultCode) (s : State) : (faultEntry c s).ctrl = s.ctrl := rfl
@[simp] theorem faultEntry_warn (c : FaultCode) (s : State) : (faultEntry c s).warn = s.warn := rfl
@[simp] theorem faultEntry_irqen (c : FaultCode) (s : State) : (faultEntry c s).irqen = s.irqen := rfl
@[simp] theorem faultEntry_fcmd (c : FaultCode) (s : State) : (faultEntry c s).fcmd = s.cur := rfl
@[simp] theorem faultEntry_fpc (c : FaultCode) (s : State) : (faultEntry c s).fpc = s.cmdcnt := rfl
@[simp] theorem faultEntry_cmdcnt (c : FaultCode) (s : State) : (faultEntry c s).cmdcnt = s.cmdcnt := rfl
@[simp] theorem faultEntry_mark (c : FaultCode) (s : State) : (faultEntry c s).mark = s.mark := rfl
@[simp] theorem faultEntry_result (c : FaultCode) (s : State) : (faultEntry c s).result = s.result := rfl
@[simp] theorem faultEntry_geo (c : FaultCode) (s : State) : (faultEntry c s).geo = s.geo := rfl
@[simp] theorem faultEntry_coder (c : FaultCode) (s : State) : (faultEntry c s).coder = s.coder := rfl
@[simp] theorem faultEntry_seen (c : FaultCode) (s : State) : (faultEntry c s).seen = s.seen := rfl
@[simp] theorem faultEntry_reader (c : FaultCode) (s : State) : (faultEntry c s).reader = s.reader := rfl
@[simp] theorem faultEntry_f5 (c : FaultCode) (s : State) : (faultEntry c s).f5 = s.f5 := rfl
@[simp] theorem faultEntry_valid (c : FaultCode) (s : State) : (faultEntry c s).valid = s.valid := rfl
@[simp] theorem faultEntry_fifo (c : FaultCode) (s : State) : (faultEntry c s).fifo = { s.fifo with cmd := [] } := rfl
@[simp] theorem faultEntry_ram (c : FaultCode) (s : State) : (faultEntry c s).ram = s.ram := rfl
@[simp] theorem faultEntry_agent (c : FaultCode) (s : State) : (faultEntry c s).agent = .halted c := rfl
@[simp] theorem faultEntry_cur (c : FaultCode) (s : State) : (faultEntry c s).cur = s.cur := rfl
@[simp] theorem faultEntry_host (c : FaultCode) (s : State) : (faultEntry c s).host = s.host := rfl
@[simp] theorem faultEntry_busData (c : FaultCode) (s : State) : (faultEntry c s).busData = s.busData := rfl
@[simp] theorem faultEntry_freeCount (c : FaultCode) (s : State) : (faultEntry c s).freeCount = s.freeCount := rfl
@[simp] theorem faultEntry_powerCycles (c : FaultCode) (s : State) : (faultEntry c s).powerCycles = s.powerCycles := rfl

@[simp] theorem warns_cfg (s : State) (w : Warning) : (s.warns w).cfg = s.cfg := rfl
@[simp] theorem warns_ctrl (s : State) (w : Warning) : (s.warns w).ctrl = s.ctrl := rfl
@[simp] theorem warns_warn (s : State) (w : Warning) : (s.warns w).warn = s.warn ||| BitVec.ofNat 16 (2 ^ w.bit) := rfl
@[simp] theorem warns_irqen (s : State) (w : Warning) : (s.warns w).irqen = s.irqen := rfl
@[simp] theorem warns_fcmd (s : State) (w : Warning) : (s.warns w).fcmd = s.fcmd := rfl
@[simp] theorem warns_fpc (s : State) (w : Warning) : (s.warns w).fpc = s.fpc := rfl
@[simp] theorem warns_cmdcnt (s : State) (w : Warning) : (s.warns w).cmdcnt = s.cmdcnt := rfl
@[simp] theorem warns_mark (s : State) (w : Warning) : (s.warns w).mark = s.mark := rfl
@[simp] theorem warns_result (s : State) (w : Warning) : (s.warns w).result = s.result := rfl
@[simp] theorem warns_geo (s : State) (w : Warning) : (s.warns w).geo = s.geo := rfl
@[simp] theorem warns_coder (s : State) (w : Warning) : (s.warns w).coder = s.coder := rfl
@[simp] theorem warns_seen (s : State) (w : Warning) : (s.warns w).seen = s.seen := rfl
@[simp] theorem warns_reader (s : State) (w : Warning) : (s.warns w).reader = s.reader := rfl
@[simp] theorem warns_f5 (s : State) (w : Warning) : (s.warns w).f5 = s.f5 := rfl
@[simp] theorem warns_valid (s : State) (w : Warning) : (s.warns w).valid = s.valid := rfl
@[simp] theorem warns_fifo (s : State) (w : Warning) : (s.warns w).fifo = s.fifo := rfl
@[simp] theorem warns_ram (s : State) (w : Warning) : (s.warns w).ram = s.ram := rfl
@[simp] theorem warns_agent (s : State) (w : Warning) : (s.warns w).agent = s.agent := rfl
@[simp] theorem warns_cur (s : State) (w : Warning) : (s.warns w).cur = s.cur := rfl
@[simp] theorem warns_host (s : State) (w : Warning) : (s.warns w).host = s.host := rfl
@[simp] theorem warns_busData (s : State) (w : Warning) : (s.warns w).busData = s.busData := rfl
@[simp] theorem warns_freeCount (s : State) (w : Warning) : (s.warns w).freeCount = s.freeCount := rfl
@[simp] theorem warns_powerCycles (s : State) (w : Warning) : (s.warns w).powerCycles = s.powerCycles := rfl

@[simp] theorem setCoef_cfg (s : State) (i : Nat) (v : Int) : (s.setCoef i v).cfg = s.cfg := rfl
@[simp] theorem setCoef_ctrl (s : State) (i : Nat) (v : Int) : (s.setCoef i v).ctrl = s.ctrl := rfl
@[simp] theorem setCoef_warn (s : State) (i : Nat) (v : Int) : (s.setCoef i v).warn = s.warn := rfl
@[simp] theorem setCoef_irqen (s : State) (i : Nat) (v : Int) : (s.setCoef i v).irqen = s.irqen := rfl
@[simp] theorem setCoef_fcmd (s : State) (i : Nat) (v : Int) : (s.setCoef i v).fcmd = s.fcmd := rfl
@[simp] theorem setCoef_fpc (s : State) (i : Nat) (v : Int) : (s.setCoef i v).fpc = s.fpc := rfl
@[simp] theorem setCoef_cmdcnt (s : State) (i : Nat) (v : Int) : (s.setCoef i v).cmdcnt = s.cmdcnt := rfl
@[simp] theorem setCoef_mark (s : State) (i : Nat) (v : Int) : (s.setCoef i v).mark = s.mark := rfl
@[simp] theorem setCoef_result (s : State) (i : Nat) (v : Int) : (s.setCoef i v).result = s.result := rfl
@[simp] theorem setCoef_geo (s : State) (i : Nat) (v : Int) : (s.setCoef i v).geo = s.geo := rfl
@[simp] theorem setCoef_coder (s : State) (i : Nat) (v : Int) : (s.setCoef i v).coder = s.coder := rfl
@[simp] theorem setCoef_seen (s : State) (i : Nat) (v : Int) : (s.setCoef i v).seen = s.seen := rfl
@[simp] theorem setCoef_reader (s : State) (i : Nat) (v : Int) : (s.setCoef i v).reader = s.reader := rfl
@[simp] theorem setCoef_f5 (s : State) (i : Nat) (v : Int) : (s.setCoef i v).f5 = s.f5 := rfl
@[simp] theorem setCoef_valid (s : State) (i : Nat) (v : Int) : (s.setCoef i v).valid = s.valid := rfl
@[simp] theorem setCoef_fifo (s : State) (i : Nat) (v : Int) : (s.setCoef i v).fifo = s.fifo := rfl
@[simp] theorem setCoef_ram (s : State) (i : Nat) (v : Int) : (s.setCoef i v).ram = { s.ram with coef := Memory.write s.ram.coef i (BitVec.ofInt 16 v) } := rfl
@[simp] theorem setCoef_agent (s : State) (i : Nat) (v : Int) : (s.setCoef i v).agent = s.agent := rfl
@[simp] theorem setCoef_cur (s : State) (i : Nat) (v : Int) : (s.setCoef i v).cur = s.cur := rfl
@[simp] theorem setCoef_host (s : State) (i : Nat) (v : Int) : (s.setCoef i v).host = s.host := rfl
@[simp] theorem setCoef_busData (s : State) (i : Nat) (v : Int) : (s.setCoef i v).busData = s.busData := rfl
@[simp] theorem setCoef_freeCount (s : State) (i : Nat) (v : Int) : (s.setCoef i v).freeCount = s.freeCount := rfl
@[simp] theorem setCoef_powerCycles (s : State) (i : Nat) (v : Int) : (s.setCoef i v).powerCycles = s.powerCycles := rfl

@[simp] theorem setCoefs_cfg (s : State) (base : Nat) (vs : List (BitVec 16)) : (s.setCoefs base vs).cfg = s.cfg := rfl
@[simp] theorem setCoefs_ctrl (s : State) (base : Nat) (vs : List (BitVec 16)) : (s.setCoefs base vs).ctrl = s.ctrl := rfl
@[simp] theorem setCoefs_warn (s : State) (base : Nat) (vs : List (BitVec 16)) : (s.setCoefs base vs).warn = s.warn := rfl
@[simp] theorem setCoefs_irqen (s : State) (base : Nat) (vs : List (BitVec 16)) : (s.setCoefs base vs).irqen = s.irqen := rfl
@[simp] theorem setCoefs_fcmd (s : State) (base : Nat) (vs : List (BitVec 16)) : (s.setCoefs base vs).fcmd = s.fcmd := rfl
@[simp] theorem setCoefs_fpc (s : State) (base : Nat) (vs : List (BitVec 16)) : (s.setCoefs base vs).fpc = s.fpc := rfl
@[simp] theorem setCoefs_cmdcnt (s : State) (base : Nat) (vs : List (BitVec 16)) : (s.setCoefs base vs).cmdcnt = s.cmdcnt := rfl
@[simp] theorem setCoefs_mark (s : State) (base : Nat) (vs : List (BitVec 16)) : (s.setCoefs base vs).mark = s.mark := rfl
@[simp] theorem setCoefs_result (s : State) (base : Nat) (vs : List (BitVec 16)) : (s.setCoefs base vs).result = s.result := rfl
@[simp] theorem setCoefs_geo (s : State) (base : Nat) (vs : List (BitVec 16)) : (s.setCoefs base vs).geo = s.geo := rfl
@[simp] theorem setCoefs_coder (s : State) (base : Nat) (vs : List (BitVec 16)) : (s.setCoefs base vs).coder = s.coder := rfl
@[simp] theorem setCoefs_seen (s : State) (base : Nat) (vs : List (BitVec 16)) : (s.setCoefs base vs).seen = s.seen := rfl
@[simp] theorem setCoefs_reader (s : State) (base : Nat) (vs : List (BitVec 16)) : (s.setCoefs base vs).reader = s.reader := rfl
@[simp] theorem setCoefs_f5 (s : State) (base : Nat) (vs : List (BitVec 16)) : (s.setCoefs base vs).f5 = s.f5 := rfl
@[simp] theorem setCoefs_valid (s : State) (base : Nat) (vs : List (BitVec 16)) : (s.setCoefs base vs).valid = s.valid := rfl
@[simp] theorem setCoefs_fifo (s : State) (base : Nat) (vs : List (BitVec 16)) : (s.setCoefs base vs).fifo = s.fifo := rfl
@[simp] theorem setCoefs_ram (s : State) (base : Nat) (vs : List (BitVec 16)) : (s.setCoefs base vs).ram = { s.ram with coef := Memory.writeBlock s.ram.coef base vs } := rfl
@[simp] theorem setCoefs_agent (s : State) (base : Nat) (vs : List (BitVec 16)) : (s.setCoefs base vs).agent = s.agent := rfl
@[simp] theorem setCoefs_cur (s : State) (base : Nat) (vs : List (BitVec 16)) : (s.setCoefs base vs).cur = s.cur := rfl
@[simp] theorem setCoefs_host (s : State) (base : Nat) (vs : List (BitVec 16)) : (s.setCoefs base vs).host = s.host := rfl
@[simp] theorem setCoefs_busData (s : State) (base : Nat) (vs : List (BitVec 16)) : (s.setCoefs base vs).busData = s.busData := rfl
@[simp] theorem setCoefs_freeCount (s : State) (base : Nat) (vs : List (BitVec 16)) : (s.setCoefs base vs).freeCount = s.freeCount := rfl
@[simp] theorem setCoefs_powerCycles (s : State) (base : Nat) (vs : List (BitVec 16)) : (s.setCoefs base vs).powerCycles = s.powerCycles := rfl

@[simp] theorem setPred_cfg (s : State) (n : Nat) (v : BitVec 16) : (s.setPred n v).cfg = s.cfg := rfl
@[simp] theorem setPred_ctrl (s : State) (n : Nat) (v : BitVec 16) : (s.setPred n v).ctrl = s.ctrl := rfl
@[simp] theorem setPred_warn (s : State) (n : Nat) (v : BitVec 16) : (s.setPred n v).warn = s.warn := rfl
@[simp] theorem setPred_irqen (s : State) (n : Nat) (v : BitVec 16) : (s.setPred n v).irqen = s.irqen := rfl
@[simp] theorem setPred_fcmd (s : State) (n : Nat) (v : BitVec 16) : (s.setPred n v).fcmd = s.fcmd := rfl
@[simp] theorem setPred_fpc (s : State) (n : Nat) (v : BitVec 16) : (s.setPred n v).fpc = s.fpc := rfl
@[simp] theorem setPred_cmdcnt (s : State) (n : Nat) (v : BitVec 16) : (s.setPred n v).cmdcnt = s.cmdcnt := rfl
@[simp] theorem setPred_mark (s : State) (n : Nat) (v : BitVec 16) : (s.setPred n v).mark = s.mark := rfl
@[simp] theorem setPred_result (s : State) (n : Nat) (v : BitVec 16) : (s.setPred n v).result = s.result := rfl
@[simp] theorem setPred_geo (s : State) (n : Nat) (v : BitVec 16) : (s.setPred n v).geo = s.geo := rfl
@[simp] theorem setPred_coder (s : State) (n : Nat) (v : BitVec 16) : (s.setPred n v).coder = { s.coder with pred := s.coder.pred.set n v } := rfl
@[simp] theorem setPred_seen (s : State) (n : Nat) (v : BitVec 16) : (s.setPred n v).seen = s.seen := rfl
@[simp] theorem setPred_reader (s : State) (n : Nat) (v : BitVec 16) : (s.setPred n v).reader = s.reader := rfl
@[simp] theorem setPred_f5 (s : State) (n : Nat) (v : BitVec 16) : (s.setPred n v).f5 = s.f5 := rfl
@[simp] theorem setPred_valid (s : State) (n : Nat) (v : BitVec 16) : (s.setPred n v).valid = s.valid := rfl
@[simp] theorem setPred_fifo (s : State) (n : Nat) (v : BitVec 16) : (s.setPred n v).fifo = s.fifo := rfl
@[simp] theorem setPred_ram (s : State) (n : Nat) (v : BitVec 16) : (s.setPred n v).ram = s.ram := rfl
@[simp] theorem setPred_agent (s : State) (n : Nat) (v : BitVec 16) : (s.setPred n v).agent = s.agent := rfl
@[simp] theorem setPred_cur (s : State) (n : Nat) (v : BitVec 16) : (s.setPred n v).cur = s.cur := rfl
@[simp] theorem setPred_host (s : State) (n : Nat) (v : BitVec 16) : (s.setPred n v).host = s.host := rfl
@[simp] theorem setPred_busData (s : State) (n : Nat) (v : BitVec 16) : (s.setPred n v).busData = s.busData := rfl
@[simp] theorem setPred_freeCount (s : State) (n : Nat) (v : BitVec 16) : (s.setPred n v).freeCount = s.freeCount := rfl
@[simp] theorem setPred_powerCycles (s : State) (n : Nat) (v : BitVec 16) : (s.setPred n v).powerCycles = s.powerCycles := rfl

@[simp] theorem setPacker_cfg (s : State) (p : Packer) : (s.setPacker p).cfg = s.cfg := rfl
@[simp] theorem setPacker_ctrl (s : State) (p : Packer) : (s.setPacker p).ctrl = s.ctrl := rfl
@[simp] theorem setPacker_warn (s : State) (p : Packer) : (s.setPacker p).warn = s.warn := rfl
@[simp] theorem setPacker_irqen (s : State) (p : Packer) : (s.setPacker p).irqen = s.irqen := rfl
@[simp] theorem setPacker_fcmd (s : State) (p : Packer) : (s.setPacker p).fcmd = s.fcmd := rfl
@[simp] theorem setPacker_fpc (s : State) (p : Packer) : (s.setPacker p).fpc = s.fpc := rfl
@[simp] theorem setPacker_cmdcnt (s : State) (p : Packer) : (s.setPacker p).cmdcnt = s.cmdcnt := rfl
@[simp] theorem setPacker_mark (s : State) (p : Packer) : (s.setPacker p).mark = s.mark := rfl
@[simp] theorem setPacker_result (s : State) (p : Packer) : (s.setPacker p).result = s.result := rfl
@[simp] theorem setPacker_geo (s : State) (p : Packer) : (s.setPacker p).geo = s.geo := rfl
@[simp] theorem setPacker_coder (s : State) (p : Packer) : (s.setPacker p).coder = { s.coder with putbuf := BitVec.ofNat 24 p.buf, putbits := BitVec.ofNat 5 p.bits } := rfl
@[simp] theorem setPacker_seen (s : State) (p : Packer) : (s.setPacker p).seen = s.seen := rfl
@[simp] theorem setPacker_reader (s : State) (p : Packer) : (s.setPacker p).reader = s.reader := rfl
@[simp] theorem setPacker_f5 (s : State) (p : Packer) : (s.setPacker p).f5 = s.f5 := rfl
@[simp] theorem setPacker_valid (s : State) (p : Packer) : (s.setPacker p).valid = s.valid := rfl
@[simp] theorem setPacker_fifo (s : State) (p : Packer) : (s.setPacker p).fifo = s.fifo := rfl
@[simp] theorem setPacker_ram (s : State) (p : Packer) : (s.setPacker p).ram = s.ram := rfl
@[simp] theorem setPacker_agent (s : State) (p : Packer) : (s.setPacker p).agent = s.agent := rfl
@[simp] theorem setPacker_cur (s : State) (p : Packer) : (s.setPacker p).cur = s.cur := rfl
@[simp] theorem setPacker_host (s : State) (p : Packer) : (s.setPacker p).host = s.host := rfl
@[simp] theorem setPacker_busData (s : State) (p : Packer) : (s.setPacker p).busData = s.busData := rfl
@[simp] theorem setPacker_freeCount (s : State) (p : Packer) : (s.setPacker p).freeCount = s.freeCount := rfl
@[simp] theorem setPacker_powerCycles (s : State) (p : Packer) : (s.setPacker p).powerCycles = s.powerCycles := rfl

@[simp] theorem setLatch_cfg (s : State) (l : Latch) : (s.setLatch l).cfg = s.cfg := rfl
@[simp] theorem setLatch_ctrl (s : State) (l : Latch) : (s.setLatch l).ctrl = s.ctrl := rfl
@[simp] theorem setLatch_warn (s : State) (l : Latch) : (s.setLatch l).warn = s.warn := rfl
@[simp] theorem setLatch_irqen (s : State) (l : Latch) : (s.setLatch l).irqen = s.irqen := rfl
@[simp] theorem setLatch_fcmd (s : State) (l : Latch) : (s.setLatch l).fcmd = s.fcmd := rfl
@[simp] theorem setLatch_fpc (s : State) (l : Latch) : (s.setLatch l).fpc = s.fpc := rfl
@[simp] theorem setLatch_cmdcnt (s : State) (l : Latch) : (s.setLatch l).cmdcnt = s.cmdcnt := rfl
@[simp] theorem setLatch_mark (s : State) (l : Latch) : (s.setLatch l).mark = s.mark := rfl
@[simp] theorem setLatch_result (s : State) (l : Latch) : (s.setLatch l).result = s.result := rfl
@[simp] theorem setLatch_geo (s : State) (l : Latch) : (s.setLatch l).geo = s.geo := rfl
@[simp] theorem setLatch_coder (s : State) (l : Latch) : (s.setLatch l).coder = s.coder := rfl
@[simp] theorem setLatch_seen (s : State) (l : Latch) : (s.setLatch l).seen = s.seen := rfl
@[simp] theorem setLatch_reader (s : State) (l : Latch) : (s.setLatch l).reader = { s.reader with latch := l } := rfl
@[simp] theorem setLatch_f5 (s : State) (l : Latch) : (s.setLatch l).f5 = s.f5 := rfl
@[simp] theorem setLatch_valid (s : State) (l : Latch) : (s.setLatch l).valid = s.valid := rfl
@[simp] theorem setLatch_fifo (s : State) (l : Latch) : (s.setLatch l).fifo = s.fifo := rfl
@[simp] theorem setLatch_ram (s : State) (l : Latch) : (s.setLatch l).ram = s.ram := rfl
@[simp] theorem setLatch_agent (s : State) (l : Latch) : (s.setLatch l).agent = s.agent := rfl
@[simp] theorem setLatch_cur (s : State) (l : Latch) : (s.setLatch l).cur = s.cur := rfl
@[simp] theorem setLatch_host (s : State) (l : Latch) : (s.setLatch l).host = s.host := rfl
@[simp] theorem setLatch_busData (s : State) (l : Latch) : (s.setLatch l).busData = s.busData := rfl
@[simp] theorem setLatch_freeCount (s : State) (l : Latch) : (s.setLatch l).freeCount = s.freeCount := rfl
@[simp] theorem setLatch_powerCycles (s : State) (l : Latch) : (s.setLatch l).powerCycles = s.powerCycles := rfl

@[simp] theorem setGeometry_cfg (s : State) (g : GeomResult) : (s.setGeometry g).cfg = s.cfg := rfl
@[simp] theorem setGeometry_ctrl (s : State) (g : GeomResult) : (s.setGeometry g).ctrl = s.ctrl := rfl
@[simp] theorem setGeometry_warn (s : State) (g : GeomResult) : (s.setGeometry g).warn = s.warn := rfl
@[simp] theorem setGeometry_irqen (s : State) (g : GeomResult) : (s.setGeometry g).irqen = s.irqen := rfl
@[simp] theorem setGeometry_fcmd (s : State) (g : GeomResult) : (s.setGeometry g).fcmd = s.fcmd := rfl
@[simp] theorem setGeometry_fpc (s : State) (g : GeomResult) : (s.setGeometry g).fpc = s.fpc := rfl
@[simp] theorem setGeometry_cmdcnt (s : State) (g : GeomResult) : (s.setGeometry g).cmdcnt = s.cmdcnt := rfl
@[simp] theorem setGeometry_mark (s : State) (g : GeomResult) : (s.setGeometry g).mark = s.mark := rfl
@[simp] theorem setGeometry_result (s : State) (g : GeomResult) : (s.setGeometry g).result = s.result := rfl
@[simp] theorem setGeometry_geo (s : State) (g : GeomResult) : (s.setGeometry g).geo = { s.geo with mcux := BitVec.ofNat 16 g.mx, mcuy := BitVec.ofNat 16 g.my, ncoef := BitVec.ofNat 32 g.n } := rfl
@[simp] theorem setGeometry_coder (s : State) (g : GeomResult) : (s.setGeometry g).coder = s.coder := rfl
@[simp] theorem setGeometry_seen (s : State) (g : GeomResult) : (s.setGeometry g).seen = s.seen := rfl
@[simp] theorem setGeometry_reader (s : State) (g : GeomResult) : (s.setGeometry g).reader = s.reader := rfl
@[simp] theorem setGeometry_f5 (s : State) (g : GeomResult) : (s.setGeometry g).f5 = s.f5 := rfl
@[simp] theorem setGeometry_valid (s : State) (g : GeomResult) : (s.setGeometry g).valid = s.valid := rfl
@[simp] theorem setGeometry_fifo (s : State) (g : GeomResult) : (s.setGeometry g).fifo = s.fifo := rfl
@[simp] theorem setGeometry_ram (s : State) (g : GeomResult) : (s.setGeometry g).ram = s.ram := rfl
@[simp] theorem setGeometry_agent (s : State) (g : GeomResult) : (s.setGeometry g).agent = s.agent := rfl
@[simp] theorem setGeometry_cur (s : State) (g : GeomResult) : (s.setGeometry g).cur = s.cur := rfl
@[simp] theorem setGeometry_host (s : State) (g : GeomResult) : (s.setGeometry g).host = s.host := rfl
@[simp] theorem setGeometry_busData (s : State) (g : GeomResult) : (s.setGeometry g).busData = s.busData := rfl
@[simp] theorem setGeometry_freeCount (s : State) (g : GeomResult) : (s.setGeometry g).freeCount = s.freeCount := rfl
@[simp] theorem setGeometry_powerCycles (s : State) (g : GeomResult) : (s.setGeometry g).powerCycles = s.powerCycles := rfl

end Sys2Proof.Machine
end

