-- ==== Sys2Proof/Laws/Memory.lean ====
section
/-! SUPPORT. The laws of RAM contents: a read after a write, what a write leaves alone, and the canonical form. -/

namespace Sys2Proof.Machine

namespace Memory

variable {w : Nat}

@[simp] theorem entry?_nil (i : Nat) : entry? ([] : Memory w) i = none := rfl

theorem entry?_cons (a : Nat) (v : BitVec w) (m : Memory w) (i : Nat) :
    entry? ((a, v) :: m) i = if a = i then some v else entry? m i := rfl

/-- A read after a write to the same entry gives the value written. -/
@[simp] theorem entry?_write_self (m : Memory w) (i : Nat) (v : BitVec w) :
    entry? (write m i v) i = some v := by
  induction m with
  | nil => simp [write, entry?_cons]
  | cons e m ih =>
    obtain ⟨a, u⟩ := e
    simp only [write]
    split
    · simp [entry?_cons]
    · split
      · simp [entry?_cons]
      · have : a ≠ i := by omega
        simp [entry?_cons, this, ih]

/-- A write leaves every other entry alone. -/
theorem entry?_write_ne (m : Memory w) {i j : Nat} (v : BitVec w) (h : j ≠ i) :
    entry? (write m i v) j = entry? m j := by
  induction m with
  | nil => simp [write, entry?_cons, h.symm]
  | cons e m ih =>
    obtain ⟨a, u⟩ := e
    simp only [write]
    split
    · simp [entry?_cons, h.symm]
    · split
      · subst_vars; simp [entry?_cons, h.symm]
      · simp [entry?_cons, ih]

theorem entry?_append (m n : Memory w) (i : Nat) :
    entry? (m ++ n) i = (entry? m i).or (entry? n i) := by
  induction m with
  | nil => simp
  | cons e m ih =>
    obtain ⟨a, u⟩ := e
    simp only [List.cons_append, entry?_cons]
    split <;> simp [ih]

theorem entry?_filter (p : Nat → Bool) (m : Memory w) (i : Nat) :
    entry? (m.filter (fun e => p e.1)) i = if p i then entry? m i else none := by
  induction m with
  | nil => simp
  | cons e m ih =>
    obtain ⟨a, u⟩ := e
    by_cases hp : p a = true
    · rw [List.filter_cons_of_pos (by simpa using hp), entry?_cons, entry?_cons, ih]
      by_cases ha : a = i
      · subst ha; simp [hp]
      · simp [ha]
    · rw [List.filter_cons_of_neg (by simpa using hp), entry?_cons, ih]
      by_cases ha : a = i
      · subst ha; simp [hp]
      · simp [ha]

theorem entry?_numbered (base : Nat) (vs : List (BitVec w)) (i : Nat) :
    entry? (numbered base vs) i = if base ≤ i then vs[i - base]? else none := by
  induction vs generalizing base with
  | nil => simp [numbered]
  | cons v vs ih =>
    simp only [numbered, entry?_cons, ih]
    by_cases h : base = i
    · subst h; simp
    · by_cases hb : base ≤ i
      · have h1 : i - base = (i - (base + 1)) + 1 := by omega
        rw [h1]; simp [h, hb, show base + 1 ≤ i by omega]
      · simp [h, hb, show ¬ base + 1 ≤ i by omega]

/-- What a block write leaves: its values inside the block, the old entries elsewhere. -/
theorem entry?_writeBlock (m : Memory w) (base : Nat) (vs : List (BitVec w)) (i : Nat) :
    entry? (writeBlock m base vs) i =
      if base ≤ i ∧ i < base + vs.length then vs[i - base]? else entry? m i := by
  have below : entry? (m.filter (fun e => decide (e.1 < base))) i = if decide (i < base) then entry? m i else none :=
    entry?_filter (fun a => decide (a < base)) m i
  have above : entry? (m.filter (fun e => decide (base + vs.length ≤ e.1))) i =
      if decide (base + vs.length ≤ i) then entry? m i else none :=
    entry?_filter (fun a => decide (base + vs.length ≤ a)) m i
  rw [writeBlock, entry?_append, entry?_append, entry?_numbered, below, above]
  by_cases h1 : i < base
  · have h2 : ¬ base ≤ i := by omega
    have h3 : ¬ base + vs.length ≤ i := by omega
    simp [h1, h2, h3]
  · by_cases h3 : base + vs.length ≤ i
    · have : vs[i - base]? = none := by rw [List.getElem?_eq_none_iff]; omega
      simp [h1, h3, this, show ¬ i < base + vs.length by omega]
    · have h2 : base ≤ i := by omega
      simp [h1, h2, h3, show i < base + vs.length by omega]

theorem entry?_writeBlock_in (m : Memory w) (base : Nat) (vs : List (BitVec w)) (k : Nat) (h : k < vs.length) :
    entry? (writeBlock m base vs) (base + k) = some (vs[k]) := by
  rw [entry?_writeBlock]; simp [h]

theorem entry?_writeBlock_out (m : Memory w) (base : Nat) (vs : List (BitVec w)) (i : Nat)
    (h : i < base ∨ base + vs.length ≤ i) : entry? (writeBlock m base vs) i = entry? m i := by
  rw [entry?_writeBlock, if_neg (by omega)]

/-! ### The canonical form -/

theorem wf_nil : wf ([] : Memory w) := List.Pairwise.nil

theorem mem_write {m : Memory w} {i : Nat} {v : BitVec w} {e : Nat × BitVec w} (h : e ∈ write m i v) :
    e = (i, v) ∨ e ∈ m := by
  induction m with
  | nil => simpa [write] using h
  | cons a m ih =>
    obtain ⟨a, u⟩ := a
    simp only [write] at h
    split at h
    · simpa using h
    · split at h
      · rcases List.mem_cons.1 h with h | h
        · exact .inl h
        · exact .inr (List.mem_cons_of_mem _ h)
      · rcases List.mem_cons.1 h with h | h
        · exact .inr (by simp [h])
        · rcases ih h with h | h
          · exact .inl h
          · exact .inr (List.mem_cons_of_mem _ h)

/-- A write keeps the canonical form. -/
theorem wf_write {m : Memory w} (h : wf m) (i : Nat) (v : BitVec w) : wf (write m i v) := by
  induction m with
  | nil => simp [write, wf]
  | cons e m ih =>
    obtain ⟨a, u⟩ := e
    obtain ⟨h1, h2⟩ := List.pairwise_cons.1 h
    simp only [write]
    split
    · rename_i hia
      refine List.pairwise_cons.2 ⟨?_, h⟩
      intro e he
      rcases List.mem_cons.1 he with rfl | he
      · exact hia
      · exact lt_trans hia (h1 e he)
    · split
      · rename_i hia; subst hia
        exact List.pairwise_cons.2 ⟨h1, h2⟩
      · rename_i h3 h4
        refine List.pairwise_cons.2 ⟨?_, ih h2⟩
        intro e he
        rcases mem_write he with rfl | he
        · show a < i; omega
        · exact h1 e he

theorem mem_numbered {base : Nat} {vs : List (BitVec w)} {e : Nat × BitVec w} (h : e ∈ numbered base vs) :
    base ≤ e.1 ∧ e.1 < base + vs.length := by
  induction vs generalizing base with
  | nil => simp [numbered] at h
  | cons v vs ih =>
    rcases List.mem_cons.1 h with rfl | h
    · simp
    · have := ih h
      simp only [List.length_cons]
      omega

theorem wf_numbered (base : Nat) (vs : List (BitVec w)) : wf (numbered base vs) := by
  induction vs generalizing base with
  | nil => exact List.Pairwise.nil
  | cons v vs ih =>
    refine List.pairwise_cons.2 ⟨?_, ih _⟩
    intro e he
    have := mem_numbered he
    show base < e.1
    omega

/-- A block write keeps the canonical form. -/
theorem wf_writeBlock {m : Memory w} (h : wf m) (base : Nat) (vs : List (BitVec w)) :
    wf (writeBlock m base vs) := by
  unfold writeBlock
  refine List.pairwise_append.2 ⟨List.pairwise_append.2 ⟨h.filter _, wf_numbered _ _, ?_⟩, h.filter _, ?_⟩
  · intro x hx y hy
    have h1 := (List.mem_filter.1 hx).2
    have h2 := mem_numbered hy
    simp only [decide_eq_true_eq] at h1
    omega
  · intro x hx y hy
    have h3 := (List.mem_filter.1 hy).2
    simp only [decide_eq_true_eq] at h3
    rcases List.mem_append.1 hx with hx | hx
    · have h1 := (List.mem_filter.1 hx).2
      simp only [decide_eq_true_eq] at h1
      omega
    · have h2 := mem_numbered hx
      omega

end Memory

/-! ### Reads of the RAMs -/

theorem readRam_congr {s t : State} (name : RamName) {w : Nat} {m n : Memory w} {i j : Nat}
    (hp : t.powerCycles = s.powerCycles) (h : Memory.entry? n j = Memory.entry? m i) (hij : j = i) :
    t.readRam name n j = s.readRam name m i := by
  subst hij
  simp [State.readRam, h, hp]

theorem readRam_some {s : State} (name : RamName) {w : Nat} {m : Memory w} {i : Nat} {v : BitVec w}
    (h : Memory.entry? m i = some v) : s.readRam name m i = v := by
  simp [State.readRam, h]

/-- A coefficient reads the value last written, truncated to 16 bits. -/
@[simp] theorem coefAt_setCoef_self (s : State) (i : Nat) (v : Int) :
    (s.setCoef i v).coefAt i = BitVec.ofInt 16 v := by
  simp [State.coefAt, State.readRam]

/-- Writing a coefficient leaves the others alone. -/
theorem coefAt_setCoef_ne (s : State) {i j : Nat} (v : Int) (h : j ≠ i) :
    (s.setCoef i v).coefAt j = s.coefAt j := by
  simp [State.coefAt, State.readRam, Memory.entry?_write_ne _ _ h]

/-- Writing a block of coefficients. -/
theorem coefAt_setCoefs_in (s : State) (base : Nat) (vs : List (BitVec 16)) (k : Nat) (h : k < vs.length) :
    (s.setCoefs base vs).coefAt (base + k) = vs[k] := by
  simp [State.coefAt, State.readRam, Memory.entry?_writeBlock_in _ _ _ _ h]

/-- Writing a block of coefficients leaves the others alone. -/
theorem coefAt_setCoefs_out (s : State) (base : Nat) (vs : List (BitVec 16)) (i : Nat)
    (h : i < base ∨ base + vs.length ≤ i) : (s.setCoefs base vs).coefAt i = s.coefAt i := by
  simp [State.coefAt, State.readRam, Memory.entry?_writeBlock_out _ _ _ _ h]

/-- The coefficients depend on the COEF RAM and the power-on contents only. -/
theorem coefAt_congr {s t : State} (hr : t.ram.coef = s.ram.coef) (hp : t.powerCycles = s.powerCycles) (i : Nat) :
    t.coefAt i = s.coefAt i := by
  simp [State.coefAt, State.readRam, hr, hp]

/-- The permutation entries depend on the PERM RAM and the power-on contents only. -/
theorem permAt_congr {s t : State} (hr : t.ram.perm = s.ram.perm) (hp : t.powerCycles = s.powerCycles) (i : Nat) :
    t.permAt i = s.permAt i := by
  simp [State.permAt, State.readRam, hr, hp]

end Sys2Proof.Machine
end

