-- ==== Sys2Proof/Laws/Move.lean ====
section
/-! SUPPORT. `Move s t`: everything a piece of a command's body can do to the state, said once. A body moves only forward: it
pops input bytes, pushes output bytes, sets warnings, and leaves the control registers, the host and the agent alone; and
it keeps what the invariant says of the registers and the RAMs. -/

namespace Sys2Proof.Machine

/-- The part of the invariant a body keeps by itself. -/
structure State.Good (s : State) : Prop where
  params : s.cfg.wf
  rams : s.ram.Canonical
  fifos : s.fifo.Fits s.cfg
  array : s.geo.ncoef.toNat % 64 = 0 ∧ s.geo.ncoef.toNat ≤ s.cfg.coefDepth
  components : 1 ≤ s.geo.ncomp.toNat ∧ s.geo.ncomp.toNat ≤ 4
  packer : s.coder.Aligned
  reader : s.reader.bitcnt ≤ 8
  cursor : s.f5.pos.toNat ≤ s.f5.permN.toNat ∧ s.f5.permN.toNat ≤ s.cfg.coefDepth
  codeWord : s.f5.cwlen.toNat ≤ s.cfg.cwMax

theorem State.Inv.good {s : State} (h : s.Inv) : s.Good :=
  ⟨h.params, h.rams, h.fifos, h.array, h.components, h.packer, h.reader, h.cursor, h.codeWord⟩

/-- What any piece of a body keeps, and how the FIFOs and warnings move. -/
structure Frame (s t : State) : Prop where
  cfg : t.cfg = s.cfg
  ctrl : t.ctrl = s.ctrl
  irqen : t.irqen = s.irqen
  fcmd : t.fcmd = s.fcmd
  fpc : t.fpc = s.fpc
  cmdcnt : t.cmdcnt = s.cmdcnt
  agent : t.agent = s.agent
  cur : t.cur = s.cur
  host : t.host = s.host
  busData : t.busData = s.busData
  freeCount : t.freeCount = s.freeCount
  powerCycles : t.powerCycles = s.powerCycles
  cmd : t.fifo.cmd = s.fifo.cmd
  inEos : t.fifo.inEos = s.fifo.inEos
  k : t.f5.k = s.f5.k
  paylen : t.f5.paylen = s.f5.paylen
  pix : t.ram.pix = s.ram.pix
  warn : ∀ i, s.warn.getLsbD i = true → t.warn.getLsbD i = true
  rng : t.fifo.rng <:+ s.fifo.rng
  inp : t.fifo.inp <:+ s.fifo.inp
  payin : t.fifo.payin <:+ s.fifo.payin
  out : s.fifo.out <+: t.fifo.out
  payout : s.fifo.payout <+: t.fifo.payout

/-- A frame that also keeps the invariant's registers and RAMs. -/
structure Move (s t : State) : Prop extends Frame s t where
  good : s.Good → t.Good

theorem Frame.refl (s : State) : Frame s s :=
  ⟨rfl, rfl, rfl, rfl, rfl, rfl, rfl, rfl, rfl, rfl, rfl, rfl, rfl, rfl, rfl, rfl, rfl, fun _ h => h,
    List.suffix_rfl, List.suffix_rfl, List.suffix_rfl, List.prefix_rfl, List.prefix_rfl⟩

theorem Move.refl (s : State) : Move s s := { Frame.refl s with good := id }

theorem Frame.trans {s t u : State} (a : Frame s t) (b : Frame t u) : Frame s u where
  cfg := b.cfg.trans a.cfg
  ctrl := b.ctrl.trans a.ctrl
  irqen := b.irqen.trans a.irqen
  fcmd := b.fcmd.trans a.fcmd
  fpc := b.fpc.trans a.fpc
  cmdcnt := b.cmdcnt.trans a.cmdcnt
  agent := b.agent.trans a.agent
  cur := b.cur.trans a.cur
  host := b.host.trans a.host
  busData := b.busData.trans a.busData
  freeCount := b.freeCount.trans a.freeCount
  powerCycles := b.powerCycles.trans a.powerCycles
  cmd := b.cmd.trans a.cmd
  inEos := b.inEos.trans a.inEos
  k := b.k.trans a.k
  paylen := b.paylen.trans a.paylen
  pix := b.pix.trans a.pix
  warn := fun i h => b.warn i (a.warn i h)
  rng := b.rng.trans a.rng
  inp := b.inp.trans a.inp
  payin := b.payin.trans a.payin
  out := a.out.trans b.out
  payout := a.payout.trans b.payout

theorem Move.trans {s t u : State} (a : Move s t) (b : Move t u) : Move s u :=
  { a.toFrame.trans b.toFrame with good := fun h => b.good (a.good h) }

/-! ### Moves of one component -/

theorem Move.ofRam (s : State) (r : Rams) (hp : r.pix = s.ram.pix) (h : s.Good → r.Canonical) :
    Move s { s with ram := r } :=
  { Move.refl s with
    pix := hp
    good := fun g => { g with rams := h g } }

theorem Move.ofF5 (s : State) (f : F5Regs) (hk : f.k = s.f5.k) (hp : f.paylen = s.f5.paylen)
    (h : s.Good → f.pos.toNat ≤ f.permN.toNat ∧ f.permN.toNat ≤ s.cfg.coefDepth ∧ f.cwlen.toNat ≤ s.cfg.cwMax) :
    Move s { s with f5 := f } :=
  { Move.refl s with
    k := hk
    paylen := hp
    good := fun g => { g with cursor := ⟨(h g).1, (h g).2.1⟩, codeWord := (h g).2.2 } }

theorem Move.ofGeo (s : State) (g : Geo)
    (h : s.Good → (g.ncoef.toNat % 64 = 0 ∧ g.ncoef.toNat ≤ s.cfg.coefDepth) ∧ 1 ≤ g.ncomp.toNat ∧ g.ncomp.toNat ≤ 4) :
    Move s { s with geo := g } :=
  { Move.refl s with good := fun k => { k with array := (h k).1, components := (h k).2 } }

theorem Move.ofCoder (s : State) (c : Coder) (h : s.Good → c.Aligned) : Move s { s with coder := c } :=
  { Move.refl s with good := fun k => { k with packer := h k } }

theorem Move.ofSeen (s : State) (x : Seen) : Move s { s with seen := x } :=
  { Move.refl s with good := fun k => { k with } }

theorem Move.ofReader (s : State) (r : BitReader) (h : s.Good → r.bitcnt ≤ 8) : Move s { s with reader := r } :=
  { Move.refl s with good := fun k => { k with reader := h k } }

theorem Move.ofValid (s : State) (v : Valid) : Move s { s with valid := v } :=
  { Move.refl s with good := fun k => { k with } }

theorem Move.ofResult (s : State) (v : Word) : Move s { s with result := v } :=
  { Move.refl s with good := fun k => { k with } }

theorem Move.ofMark (s : State) (v : BitVec 24) : Move s { s with mark := v } :=
  { Move.refl s with good := fun k => { k with } }

theorem Move.warns (s : State) (w : Warning) : Move s (s.warns w) :=
  { Move.refl s with
    warn := fun i h => by simp [h]
    good := fun k => { k with } }

/-! ### The RAMs' canonical form, one RAM written -/

theorem Rams.Canonical.setCoef {r : Rams} (h : r.Canonical) {m : Memory 16} (hm : Memory.wf m) :
    Rams.Canonical { r with coef := m } := { h with coef := hm }

theorem Move.setCoef (s : State) (i : Nat) (v : Int) : Move s (s.setCoef i v) :=
  Move.ofRam s _ rfl (fun g => { g.rams with coef := Memory.wf_write g.rams.coef _ _ })

theorem Move.setCoefs (s : State) (b : Nat) (vs : List (BitVec 16)) : Move s (s.setCoefs b vs) :=
  Move.ofRam s _ rfl (fun g => { g.rams with coef := Memory.wf_writeBlock g.rams.coef _ _ })

theorem Move.setPred (s : State) (c : Nat) (v : BitVec 16) : Move s (s.setPred c v) :=
  Move.ofCoder s _ (fun g => g.packer)

theorem Move.clearPreds (s : State) : Move s s.clearPreds :=
  Move.ofCoder s _ (fun g => g.packer)

theorem Move.setLatch (s : State) (l : Latch) : Move s (s.setLatch l) :=
  Move.ofReader s _ (fun g => g.reader)

theorem Move.alignBits (s : State) : Move s s.alignBits :=
  Move.ofReader s _ (fun _ => Nat.zero_le _)

theorem Move.loadByte (s : State) (b : Byte) : Move s (s.loadByte b) :=
  Move.ofReader s _ (fun _ => Nat.le_refl _)

/-! ### Pops and pushes -/

theorem Move.popRng {s t : State} {b : Byte} (h : popRng s = some (b, t)) : Move s t := by
  unfold Machine.popRng at h
  split at h
  · simp at h
  · rename_i c q hq
    simp only [Option.some.injEq, Prod.mk.injEq] at h
    obtain ⟨rfl, rfl⟩ := h
    refine { Move.refl s with rng := by simp [hq], good := fun g => { g with fifos := { g.fifos with rng := ?_ } } }
    have := g.fifos.rng
    simp only [hq, List.length_cons] at this
    show q.length ≤ s.cfg.rngqDepth
    omega

theorem Move.popPayin {s t : State} {b : Byte} (h : popPayin s = some (b, t)) : Move s t := by
  unfold Machine.popPayin at h
  split at h
  · simp at h
  · rename_i c q hq
    simp only [Option.some.injEq, Prod.mk.injEq] at h
    obtain ⟨rfl, rfl⟩ := h
    refine { Move.refl s with payin := by simp [hq], good := fun g => { g with fifos := { g.fifos with payin := ?_ } } }
    have := g.fifos.payin
    simp only [hq, List.length_cons] at this
    show q.length ≤ s.cfg.payinqDepth
    omega

theorem Move.readIn {s t : State} {b : Byte} (h : readIn s = .byte b t) : Move s t := by
  unfold Machine.readIn at h
  split at h
  · rename_i c q hq
    simp only [InByte.byte.injEq] at h
    obtain ⟨rfl, rfl⟩ := h
    refine { Move.refl s with inp := by simp [hq], good := fun g => { g with fifos := { g.fifos with inp := ?_ }, packer := g.packer } }
    have := g.fifos.inp
    simp only [hq, List.length_cons] at this
    show q.length ≤ s.cfg.inqDepth
    omega
  · split at h <;> simp at h

theorem Move.pushOut {s t : State} {b : Byte} (h : pushOut b s = some t) : Move s t := by
  unfold Machine.pushOut at h
  split at h
  · rename_i hl
    simp only [Option.some.injEq] at h
    subst h
    refine { Move.refl s with out := by simp, good := fun g => { g with fifos := { g.fifos with out := ?_ }, packer := g.packer } }
    show (s.fifo.out ++ [b]).length ≤ _
    simp only [List.length_append, List.length_cons, List.length_nil]
    omega
  · simp at h

theorem Move.pushPayout {s t : State} {b : Byte} (h : pushPayout b s = some t) : Move s t := by
  unfold Machine.pushPayout at h
  split at h
  · rename_i hl
    simp only [Option.some.injEq] at h
    subst h
    refine { Move.refl s with payout := by simp, good := fun g => { g with fifos := { g.fifos with payout := ?_ } } }
    show (s.fifo.payout ++ [b]).length ≤ _
    simp only [List.length_append, List.length_cons, List.length_nil]
    omega
  · simp at h

end Sys2Proof.Machine
end

