-- ==== Sys2Proof/Laws/Cursor.lean ====
section
/-! SUPPORT. The filtered cursor (41_permutation.md R195): what one draw finds, and where it leaves the position. -/

namespace Sys2Proof.Machine

theorem usableFrom_zero (s : State) (a : Nat) : s.usableFrom a 0 = [] := rfl

theorem usableFrom_succ (s : State) (a n : Nat) :
    s.usableFrom a (n + 1) =
      (if s.usable (s.permAt a).toNat then [(s.permAt a).toNat] else []) ++ s.usableFrom (a + 1) n := by
  unfold State.usableFrom
  rw [List.range_succ_eq_map]
  simp only [List.map_cons, List.map_map, Nat.add_zero]
  have : ((fun i => (s.permAt (a + i)).toNat) ∘ Nat.succ) = fun i => (s.permAt (a + 1 + i)).toNat := by
    funext i
    simp [Nat.add_assoc, Nat.add_comm 1]
  rw [this]
  by_cases h : s.usable (s.permAt a).toNat = true
  · rw [List.filter_cons_of_pos h]; simp [h]
  · rw [List.filter_cons_of_neg h]; simp [h]

/-- The scan stays inside the entries it may look at. -/
theorem scanUsable_bounds (s : State) (n pos : Nat) :
    pos ≤ (scanUsable s n pos).2 ∧ (scanUsable s n pos).2 ≤ pos + n := by
  induction n generalizing pos with
  | zero => simp [scanUsable]
  | succ n ih =>
    simp only [scanUsable]
    split
    · simp
    · have := ih (pos + 1); omega

/-- A scan that finds nothing has looked at every entry, and none was usable. -/
theorem scanUsable_none {s : State} {n pos e : Nat} (h : scanUsable s n pos = (none, e)) :
    e = pos + n ∧ s.usableFrom pos n = [] := by
  induction n generalizing pos with
  | zero =>
    simp only [scanUsable, Prod.mk.injEq, true_and] at h
    exact ⟨by omega, rfl⟩
  | succ n ih =>
    simp only [scanUsable] at h
    split at h
    · simp at h
    · rename_i hu
      obtain ⟨h1, h2⟩ := ih h
      refine ⟨by omega, ?_⟩
      rw [usableFrom_succ, h2]
      simp [hu]

/-- A scan that finds an index: it is usable, it is the entry before the new position, and it is the first usable one. -/
theorem scanUsable_some {s : State} {n pos p e : Nat} (h : scanUsable s n pos = (some p, e)) :
    pos < e ∧ e ≤ pos + n ∧ s.usable p = true ∧ (s.permAt (e - 1)).toNat = p ∧
      s.usableFrom pos n = p :: s.usableFrom e (pos + n - e) := by
  induction n generalizing pos with
  | zero => simp [scanUsable] at h
  | succ n ih =>
    simp only [scanUsable] at h
    split at h
    · rename_i hu
      simp only [Prod.mk.injEq, Option.some.injEq] at h
      obtain ⟨rfl, rfl⟩ := h
      refine ⟨by omega, by omega, hu, by simp, ?_⟩
      rw [usableFrom_succ, show pos + (n + 1) - (pos + 1) = n by omega]
      simp [hu]
    · rename_i hu
      obtain ⟨h1, h2, h3, h4, h5⟩ := ih h
      refine ⟨by omega, by omega, h3, h4, ?_⟩
      rw [usableFrom_succ, h5, show pos + 1 + n - e = pos + (n + 1) - e by omega]
      simp [hu]

/-- A draw changes the position only. -/
theorem nextUsable_state (s : State) :
    (nextUsable s).2 = { s with f5.pos := (nextUsable s).2.f5.pos } := rfl

/-- The position after a draw, inside the permutation. -/
theorem nextUsable_pos {s : State} (h : s.f5.pos.toNat ≤ s.f5.permN.toNat) :
    (nextUsable s).2.f5.pos.toNat = (scanUsable s s.entriesLeft s.f5.pos.toNat).2 := by
  have hb := scanUsable_bounds s (s.f5.permN.toNat - s.f5.pos.toNat) s.f5.pos.toNat
  have hn := s.f5.permN.isLt
  simp only [nextUsable, State.entriesLeft, BitVec.toNat_ofNat]
  exact Nat.mod_eq_of_lt (by omega)

/-- A draw that finds nothing leaves the cursor at the end: no usable coefficient was left. -/
theorem nextUsable_none {s t : State} (hp : s.f5.pos.toNat ≤ s.f5.permN.toNat) (h : nextUsable s = (none, t)) :
    t = { s with f5.pos := s.f5.permN } ∧ s.usableLeft = [] := by
  have h2 : (nextUsable s).2 = t := by rw [h]
  have hpos := nextUsable_pos hp
  rw [h2] at hpos
  have h1 : (scanUsable s s.entriesLeft s.f5.pos.toNat).1 = none := by
    have : (nextUsable s).1 = none := by rw [h]
    exact this
  obtain ⟨he, hu⟩ := scanUsable_none (s := s) (n := s.entriesLeft) (pos := s.f5.pos.toNat)
    (e := (scanUsable s s.entriesLeft s.f5.pos.toNat).2) (Prod.ext h1 rfl)
  refine ⟨?_, hu⟩
  have hs := nextUsable_state s
  rw [h2] at hs
  have : t.f5.pos = s.f5.permN := by
    apply BitVec.eq_of_toNat_eq
    rw [hpos, he, State.entriesLeft]
    omega
  rw [← this]
  exact hs

/-- A draw that finds an index takes the first usable coefficient left. -/
theorem nextUsable_some {s t : State} {p : Nat} (hp : s.f5.pos.toNat ≤ s.f5.permN.toNat)
    (h : nextUsable s = (some p, t)) :
    t = { s with f5.pos := t.f5.pos } ∧ s.f5.pos.toNat < t.f5.pos.toNat ∧ t.f5.pos.toNat ≤ s.f5.permN.toNat ∧
      s.usable p = true ∧ (s.permAt (t.f5.pos.toNat - 1)).toNat = p ∧ s.usableLeft = p :: t.usableLeft := by
  have h2 : (nextUsable s).2 = t := by rw [h]
  have hpos := nextUsable_pos hp
  rw [h2] at hpos
  have h1 : (scanUsable s s.entriesLeft s.f5.pos.toNat).1 = some p := by
    have : (nextUsable s).1 = some p := by rw [h]
    exact this
  obtain ⟨a1, a2, a3, a4, a5⟩ := scanUsable_some (s := s) (n := s.entriesLeft) (pos := s.f5.pos.toNat)
    (e := (scanUsable s s.entriesLeft s.f5.pos.toNat).2) (Prod.ext h1 rfl)
  have hs := nextUsable_state s
  rw [h2] at hs
  rw [← hpos] at a1 a2 a4 a5
  have hE : s.entriesLeft = s.f5.permN.toNat - s.f5.pos.toNat := rfl
  refine ⟨hs, a1, by omega, a3, a4, ?_⟩
  have hl : t.usableLeft = s.usableFrom t.f5.pos.toNat t.entriesLeft := by
    rw [hs]; rfl
  have ht : t.entriesLeft = s.f5.permN.toNat - t.f5.pos.toNat := by
    rw [hs]; rfl
  rw [hl, State.usableLeft, a5, ht, hE]
  congr 2
  omega

theorem Move.nextUsable (s : State) : Move s (nextUsable s).2 := by
  refine Move.ofF5 s _ rfl rfl (fun g => ?_)
  have hpos := nextUsable_pos g.cursor.1
  have hb := scanUsable_bounds s s.entriesLeft s.f5.pos.toNat
  have hc := g.cursor
  refine ⟨?_, hc.2, g.codeWord⟩
  show (Machine.nextUsable s).2.f5.pos.toNat ≤ s.f5.permN.toNat
  rw [hpos]
  have hE : s.entriesLeft = s.f5.permN.toNat - s.f5.pos.toNat := rfl
  omega

theorem Move.nextUsable_eq {s t : State} {o : Option Nat} (h : Machine.nextUsable s = (o, t)) : Move s t := by
  have := Move.nextUsable s
  rw [h] at this
  exact this

end Sys2Proof.Machine
end

