-- ==== Sys2Proof/Laws/Packer.lean ====
section
/-! SUPPORT. The bit packer (44_entropy_encoder.md R291 to R293): its invariant, and the stream of bits it keeps. -/

namespace Sys2Proof.Machine

/-- At most 7 bits pend, and the accumulator holds nothing below them. -/
def Packer.Aligned (p : Packer) : Prop := p.bits ≤ 7 ∧ p.buf < 2 ^ 24 ∧ p.buf % 2 ^ (24 - p.bits) = 0

theorem Coder.Aligned.packer {s : State} (h : s.coder.Aligned) : s.packer.Aligned :=
  ⟨h.1, s.coder.putbuf.isLt, h.2⟩

theorem setPacker_aligned {s : State} {p : Packer} (h : p.Aligned) : (s.setPacker p).coder.Aligned := by
  obtain ⟨h1, h2, h3⟩ := h
  have hb : p.bits % 2 ^ 5 = p.bits := Nat.mod_eq_of_lt (by omega)
  have hf : p.buf % 2 ^ 24 = p.buf := Nat.mod_eq_of_lt h2
  unfold Coder.Aligned
  simp only [setPacker_coder, BitVec.toNat_ofNat, hb, hf]
  exact ⟨h1, h3⟩

theorem packer_setPacker {s : State} {p : Packer} (h : p.Aligned) : (s.setPacker p).packer = p := by
  obtain ⟨h1, h2, h3⟩ := h
  have hb : p.bits % 2 ^ 5 = p.bits := Nat.mod_eq_of_lt (by omega)
  have hf : p.buf % 2 ^ 24 = p.buf := Nat.mod_eq_of_lt h2
  simp only [State.packer, setPacker_coder, BitVec.toNat_ofNat, hb, hf]

/-- What is left of an accumulator after its top bytes are taken. -/
theorem takeBytes_rest (n acc : Nat) (h : acc < 2 ^ 24) : (takeBytes n acc).2 = acc * 2 ^ (8 * n) % 2 ^ 24 := by
  induction n generalizing acc with
  | zero => simpa [takeBytes] using (Nat.mod_eq_of_lt h).symm
  | succ n ih =>
    simp only [takeBytes]
    rw [ih _ (Nat.mod_lt _ (by decide))]
    rw [Nat.mod_mul_mod, Nat.mul_assoc, ← Nat.pow_add]
    congr 3
    omega

/-- The accumulator with the new bits in place: the pending bits above, the new ones below. -/
theorem bufBits_acc {p : Packer} (h : p.Aligned) (code size : Nat) (hs : size ≤ 16) :
    (code % 2 ^ size * 2 ^ (24 - (p.bits + size)) ||| p.buf) % 2 ^ 24 =
      p.buf + code % 2 ^ size * 2 ^ (24 - (p.bits + size)) := by
  obtain ⟨h1, h2, h3⟩ := h
  have hv : code % 2 ^ size < 2 ^ size := Nat.mod_lt _ (by positivity)
  generalize hV : code % 2 ^ size = v at hv
  have hlt : v * 2 ^ (24 - (p.bits + size)) < 2 ^ (24 - p.bits) := by
    calc v * 2 ^ (24 - (p.bits + size)) < 2 ^ size * 2 ^ (24 - (p.bits + size)) :=
          Nat.mul_lt_mul_of_pos_right hv (by positivity)
      _ = 2 ^ (24 - p.bits) := by rw [← Nat.pow_add]; congr 1; omega
  obtain ⟨q, hq⟩ : 2 ^ (24 - p.bits) ∣ p.buf := Nat.dvd_of_mod_eq_zero h3
  have hor : v * 2 ^ (24 - (p.bits + size)) ||| p.buf = p.buf + v * 2 ^ (24 - (p.bits + size)) := by
    rw [Nat.or_comm, hq, Nat.two_pow_add_eq_or_of_lt hlt]
  rw [hor]
  apply Nat.mod_eq_of_lt
  have hq2 : q < 2 ^ p.bits := by
    have : 2 ^ (24 - p.bits) * q < 2 ^ (24 - p.bits) * 2 ^ p.bits := by
      rw [← hq, ← Nat.pow_add]
      calc p.buf < 2 ^ 24 := h2
        _ = 2 ^ (24 - p.bits + p.bits) := by congr 1; omega
    exact Nat.lt_of_mul_lt_mul_left this
  calc p.buf + v * 2 ^ (24 - (p.bits + size)) < 2 ^ (24 - p.bits) * q + 2 ^ (24 - p.bits) := by omega
    _ = 2 ^ (24 - p.bits) * (q + 1) := by ring
    _ ≤ 2 ^ (24 - p.bits) * 2 ^ p.bits := Nat.mul_le_mul_left _ hq2
    _ = 2 ^ 24 := by rw [← Nat.pow_add]; congr 1; omega

/-- BufBits keeps the packer's invariant. -/
theorem bufBits_aligned {p : Packer} (h : p.Aligned) (code size : Nat) (hs : size ≤ 16) :
    (bufBits code size p).2.Aligned := by
  have hacc := bufBits_acc h code size hs
  obtain ⟨h1, h2, h3⟩ := h
  refine ⟨?_, ?_, ?_⟩
  · show (p.bits + size) % 8 ≤ 7
    omega
  · show (takeBytes _ _).2 < 2 ^ 24
    rw [takeBytes_rest _ _ (Nat.mod_lt _ (by decide))]
    exact Nat.mod_lt _ (by decide)
  · show (takeBytes ((p.bits + size) / 8) _).2 % 2 ^ (24 - (p.bits + size) % 8) = 0
    rw [takeBytes_rest _ _ (Nat.mod_lt _ (by decide)), hacc]
    obtain ⟨q, hq⟩ : 2 ^ (24 - p.bits) ∣ p.buf := Nat.dvd_of_mod_eq_zero h3
    have hd : 2 ^ (24 - (p.bits + size)) ∣ p.buf + code % 2 ^ size * 2 ^ (24 - (p.bits + size)) := by
      refine dvd_add ?_ (Dvd.intro_left _ rfl)
      exact dvd_trans (pow_dvd_pow 2 (by omega)) ⟨q, hq⟩
    obtain ⟨r, hr⟩ := hd
    rw [hr]
    have hd2 : 2 ^ (24 - (p.bits + size) % 8) ∣ 2 ^ (24 - (p.bits + size)) * r * 2 ^ (8 * ((p.bits + size) / 8)) := by
      rw [Nat.mul_right_comm, ← Nat.pow_add]
      exact dvd_mul_of_dvd_left (pow_dvd_pow 2 (by omega)) _
    have hd3 : 2 ^ (24 - (p.bits + size) % 8) ∣ 2 ^ 24 := pow_dvd_pow 2 (by omega)
    exact Nat.mod_eq_zero_of_dvd ((Nat.dvd_mod_iff hd3).2 hd2)

theorem stuffed_length (c : Byte) : (stuffed c).length ≤ 2 := by unfold stuffed; split <;> simp

theorem takeBytes_length (n acc : Nat) : (takeBytes n acc).1.length ≤ 2 * n := by
  induction n generalizing acc with
  | zero => exact Nat.le_refl _
  | succ n ih =>
    have h1 := stuffed_length (BitVec.ofNat 8 (acc / 2 ^ 16))
    have h2 := ih (acc * 2 ^ 8 % 2 ^ 24)
    simp only [takeBytes, List.length_append]
    omega

/-- BufBits pushes at most ten bytes, whatever the packer holds. -/
theorem bufBits_length (s : State) (code size : Nat) (hs : size ≤ 16) : (bufBits code size s.packer).1.length ≤ 10 := by
  have hb : s.packer.bits < 32 := s.coder.putbits.isLt
  have h := takeBytes_length ((s.packer.bits + size) / 8)
    ((code % 2 ^ size * 2 ^ (24 - (s.packer.bits + size)) ||| s.packer.buf) % 2 ^ 24)
  refine le_trans h ?_
  omega

theorem flushBytes_length (padbit : Bool) (p : Packer) : (flushBytes padbit p).length ≤ 2 := by
  unfold flushBytes
  split
  · simp
  · exact stuffed_length _

theorem empty_aligned : Packer.Aligned { buf := 0, bits := 0 } := ⟨by decide, by decide, by decide⟩

theorem Move.setPacker (s : State) (p : Packer) (h : s.Good → p.Aligned) : Move s (s.setPacker p) :=
  Move.ofCoder s _ (fun g => setPacker_aligned (h g))

end Sys2Proof.Machine
end

