-- ==== Sys2Proof/Laws/Run.lean ====
section
/-! SUPPORT. Running a body (`drive`): how it can end, and when it ends for certain. -/

namespace Sys2Proof.Machine

/-- Every way one move of a body leaves the state, related to the state before it. -/
def BodyStep.Leaves {π : Type} (R : State → Prop) : BodyStep π → Prop
  | .go _ t => R t
  | .wait _ _ t => R t
  | .done t => R t
  | .raise _ t => R t

/-- How a body's last state `b` becomes the machine's next state. -/
inductive Ended (b : State) : State → Prop
  | retired : Ended b (retire b)
  | faulted (c : FaultCode) : Ended b (faultEntry c b)
  | waits (src : StallSrc) (p : Progress) : Ended b { b with agent := .stall src p }
  | pauses (p : Progress) : Ended b { b with agent := .exec p }

/-- What `drive` answers, for any invariant of the body's moves: the body is complete, has faulted, waits, or has moves left. -/
theorem drive_cases {π : Type} (emb : π → Progress) (adv : π → State → BodyStep π)
    (P : π → State → Prop) (D : State → Prop) (F : FaultCode → State → Prop)
    (hgo : ∀ p s p' s', P p s → adv p s = .go p' s' → P p' s')
    (hwait : ∀ p s src p' s', P p s → adv p s = .wait src p' s' → P p' s')
    (hdone : ∀ p s s', P p s → adv p s = .done s' → D s')
    (hraise : ∀ p s c s', P p s → adv p s = .raise c s' → F c s') (n : Nat) (p : π) (s : State) (h : P p s) :
    (∃ b, D b ∧ drive emb adv n p s = retire b) ∨
    (∃ c b, F c b ∧ drive emb adv n p s = faultEntry c b) ∨
    (∃ src p' b, P p' b ∧ drive emb adv n p s = { b with agent := .stall src (emb p') }) ∨
    (∃ p' b, P p' b ∧ drive emb adv n p s = { b with agent := .exec (emb p') }) := by
  induction n generalizing p s with
  | zero => exact .inr (.inr (.inr ⟨p, s, h, rfl⟩))
  | succ n ih =>
    simp only [drive]
    cases hs : adv p s with
    | go p' s' => exact ih p' s' (hgo _ _ _ _ h hs)
    | wait src p' s' => exact .inr (.inr (.inl ⟨src, p', s', hwait _ _ _ _ _ h hs, rfl⟩))
    | done s' => exact .inl ⟨s', hdone _ _ _ h hs, rfl⟩
    | raise c s' => exact .inr (.inl ⟨c, s', hraise _ _ _ _ h hs, rfl⟩)

/-- A body whose moves decrease a measure ends within that many moves: it does not pause. -/
theorem drive_ends {π : Type} (emb : π → Progress) (adv : π → State → BodyStep π)
    (P : π → State → Prop) (D : State → Prop) (F : FaultCode → State → Prop) (W : StallSrc → π → State → Prop)
    (μ : π → State → Nat)
    (hgo : ∀ p s p' s', P p s → adv p s = .go p' s' → P p' s' ∧ μ p' s' < μ p s)
    (hwait : ∀ p s src p' s', P p s → adv p s = .wait src p' s' → W src p' s')
    (hdone : ∀ p s s', P p s → adv p s = .done s' → D s')
    (hraise : ∀ p s c s', P p s → adv p s = .raise c s' → F c s') (n : Nat) (p : π) (s : State) (h : P p s)
    (hn : μ p s < n) :
    (∃ b, D b ∧ drive emb adv n p s = retire b) ∨
    (∃ c b, F c b ∧ drive emb adv n p s = faultEntry c b) ∨
    (∃ src p' b, W src p' b ∧ drive emb adv n p s = { b with agent := .stall src (emb p') }) := by
  induction n generalizing p s with
  | zero => omega
  | succ n ih =>
    simp only [drive]
    cases hs : adv p s with
    | go p' s' =>
      obtain ⟨h1, h2⟩ := hgo _ _ _ _ h hs
      exact ih p' s' h1 (by omega)
    | wait src p' s' => exact .inr (.inr ⟨src, p', s', hwait _ _ _ _ _ h hs, rfl⟩)
    | done s' => exact .inl ⟨s', hdone _ _ _ h hs, rfl⟩
    | raise c s' => exact .inr (.inl ⟨c, s', hraise _ _ _ _ h hs, rfl⟩)

/-- A body all of whose moves are `Move`s moves the state and ends in one of the four ways. `H` is a premise that moves keep. -/
theorem drive_moves {π : Type} (emb : π → Progress) (adv : π → State → BodyStep π) (H : State → Prop)
    (hH : ∀ s t, Move s t → H s → H t) (h : ∀ p s, H s → (adv p s).Leaves (Move s)) (n : Nat) (p : π) (s : State)
    (hs : H s) : ∃ b, Move s b ∧ Ended b (drive emb adv n p s) := by
  induction n generalizing p s with
  | zero => exact ⟨s, Move.refl s, Ended.pauses _⟩
  | succ n ih =>
    have hp := h p s hs
    simp only [drive]
    cases hr : adv p s with
    | go p' s' =>
      rw [hr] at hp
      obtain ⟨b, h1, h2⟩ := ih p' s' (hH _ _ hp hs)
      exact ⟨b, Move.trans hp h1, h2⟩
    | wait src p' s' => rw [hr] at hp; exact ⟨s', hp, Ended.waits _ _⟩
    | done s' => rw [hr] at hp; exact ⟨s', hp, Ended.retired⟩
    | raise c s' => rw [hr] at hp; exact ⟨s', hp, Ended.faulted _⟩

/-- The agent a run leaves: the body's own progress, or none. -/
theorem drive_agent {π : Type} (emb : π → Progress) (adv : π → State → BodyStep π) (n : Nat) (p : π) (s : State) :
    (drive emb adv n p s).agent = .idle ∨ (∃ c, (drive emb adv n p s).agent = .halted c) ∨
    (∃ src p', (drive emb adv n p s).agent = .stall src (emb p')) ∨ (∃ p', (drive emb adv n p s).agent = .exec (emb p')) := by
  induction n generalizing p s with
  | zero => exact .inr (.inr (.inr ⟨p, rfl⟩))
  | succ n ih =>
    simp only [drive]
    split
    · exact ih _ _
    · exact .inr (.inr (.inl ⟨_, _, rfl⟩))
    · exact .inl rfl
    · exact .inr (.inl ⟨_, rfl⟩)

end Sys2Proof.Machine
end

