-- ==== Sys2Proof/Laws/Bodies.lean ====
section
/-! SUPPORT. Every piece of every command's body is a `Move`. -/

namespace Sys2Proof.Machine

/-! ### Permutation -/

theorem Move.permInit (s : State) : Move s (permInit s) :=
  { Move.refl s with
    good := fun g => { g with rams := { g.rams with perm := Memory.wf_writeBlock g.rams.perm _ _ } } }

theorem Move.swapPerm (s : State) (a b : Nat) : Move s (swapPerm s a b) :=
  Move.ofRam s _ rfl (fun g => { g.rams with perm := Memory.wf_write (Memory.wf_write g.rams.perm _ _) _ _ })

theorem Move.permDraw (i : Nat) (b0 b1 b2 b3 : Byte) (s : State) : Move s (permDraw i b0 b1 b2 b3 s) :=
  Move.swapPerm s _ _

theorem Move.permFinish (s : State) : Move s (permFinish s) :=
  { Move.refl s with
    good := fun g => { g with
      cursor := ⟨Nat.zero_le _, by
        show (s.geo.ncoef.setWidth 25).toNat ≤ s.cfg.coefDepth
        simp only [BitVec.toNat_setWidth]
        exact le_trans (Nat.mod_le _ _) g.array.2⟩ } }

theorem Move.permgenStep (p : Nat × List Byte) (s : State) : (permgenStep p s).Leaves (Move s) := by
  obtain ⟨i, got⟩ := p
  simp only [Machine.permgenStep]
  split
  · exact Move.permFinish s
  · split
    · exact Move.refl s
    · rename_i b t h
      split
      · exact (Move.popRng h).trans (Move.permDraw _ _ _ _ _ _)
      · exact Move.popRng h

theorem Frame.appendCw (p : Nat) (s : State) : Frame s (appendCw p s) := { Frame.refl s with }

/-- Appending to the code word, where it has room, keeps the invariant. -/
theorem Good.appendCw {s : State} (g : s.Good) (p : Nat) (h : s.f5.cwlen.toNat + 1 ≤ s.cfg.cwMax) :
    (appendCw p s).Good :=
  { g with
    rams := { g.rams with cw := Memory.wf_write g.rams.cw _ _ }
    codeWord := by
      refine le_trans ?_ h
      show (s.f5.cwlen + 1).toNat ≤ _
      rw [BitVec.toNat_add]
      exact Nat.mod_le _ _ }

theorem appendCw_cwlen {p : Nat} {s : State} (h : s.f5.cwlen.toNat < 255) :
    (appendCw p s).f5.cwlen.toNat = s.f5.cwlen.toNat + 1 := by
  show (s.f5.cwlen + 1).toNat = _
  rw [BitVec.toNat_add]
  exact Nat.mod_eq_of_lt (by simpa using (by omega : s.f5.cwlen.toNat + 1 < 256))

theorem cwMax_le {c : Params} (h : c.wf) : c.cwMax ≤ 255 := by
  have : 2 ^ c.kMaxEmb ≤ 2 ^ 8 := Nat.pow_le_pow_right (by decide) h.2.2.2.2.2.1
  unfold Params.cwMax
  omega

theorem nextUsable_cwlen {s t : State} {o : Option Nat} (h : nextUsable s = (o, t)) : t.f5.cwlen = s.f5.cwlen := by
  have hs := nextUsable_state s
  rw [h] at hs
  exact congrArg (fun x => x.f5.cwlen) hs

theorem Frame.drawCw (n : Nat) (s : State) : Frame s (drawCw n s).2 := by
  induction n generalizing s with
  | zero => exact Frame.refl s
  | succ n ih =>
    simp only [Machine.drawCw]
    split
    · rename_i t h; exact (Move.nextUsable_eq h).toFrame
    · rename_i p t h
      exact ((Move.nextUsable_eq h).toFrame.trans (Frame.appendCw p t)).trans (ih _)

/-- Drawing a code word keeps the invariant, and the code word has as many members as were drawn. -/
theorem Good.drawCw {s : State} (g : s.Good) (n : Nat) (h : s.f5.cwlen.toNat + n ≤ s.cfg.cwMax) :
    (drawCw n s).2.Good ∧ ((drawCw n s).1 = true → (drawCw n s).2.f5.cwlen.toNat = s.f5.cwlen.toNat + n) := by
  induction n generalizing s with
  | zero => exact ⟨g, fun _ => rfl⟩
  | succ n ih =>
    simp only [Machine.drawCw]
    split
    · rename_i t h1; exact ⟨(Move.nextUsable_eq h1).good g, fun h => by simp at h⟩
    · rename_i p t h1
      have hm := Move.nextUsable_eq h1
      have hc := nextUsable_cwlen h1
      have hmax := cwMax_le g.params
      have ga := Good.appendCw (hm.good g) p (by rw [hc, hm.cfg]; omega)
      have hl : (Machine.appendCw p t).f5.cwlen.toNat = s.f5.cwlen.toNat + 1 := by
        rw [appendCw_cwlen (by rw [hc]; omega), hc]
      obtain ⟨a, b⟩ := ih ga (by rw [hl, (Frame.appendCw p t).cfg, hm.cfg]; omega)
      exact ⟨a, fun hd => by rw [b hd, hl]; omega⟩

/-- Emptying the code word. -/
theorem Move.clearCw (s : State) : Move s { s with f5.cwlen := 0 } :=
  Move.ofF5 s _ rfl rfl (fun g => ⟨g.cursor.1, g.cursor.2, Nat.zero_le _⟩)

/-! ### Transform -/

theorem Move.scaleTables (s : State) (m : List (BitVec 16)) :
    Move s { s with ram.qt := Memory.writeBlock s.ram.qt 0 m } :=
  Move.ofRam s _ rfl (fun g => { g.rams with qt := Memory.wf_writeBlock g.rams.qt _ _ })

theorem Move.computeDivisors (s : State) : Move s (computeDivisors s) :=
  { Move.refl s with
    good := fun g => { g with rams := { g.rams with div := Memory.wf_writeBlock g.rams.div _ _ } } }

theorem Move.writeDct (s : State) (m : List F64) :
    Move s { s with ram.dct := Memory.writeBlock s.ram.dct 0 m } :=
  Move.ofRam s _ rfl (fun g => { g.rams with dct := Memory.wf_writeBlock g.rams.dct _ _ })

/-! ### Coefficient array -/

/-- What `Geometry()` returns is a whole number of blocks. -/
theorem geometry_blocks {s : State} {r : GeomResult} (h : s.geometry = some r) : r.n % 64 = 0 := by
  unfold State.geometry at h
  simp only at h
  split at h
  · simp at h
  · split at h
    · simp at h
    · split at h
      · simp only [Option.some.injEq] at h; subst h
        show 64 * _ * _ * _ % 64 = 0
        rw [Nat.mul_assoc, Nat.mul_assoc]; exact Nat.mul_mod_right _ _
      · split at h
        · simp at h
        · simp only [Option.some.injEq] at h; subst h
          show 64 * _ * _ * _ % 64 = 0
          rw [Nat.mul_assoc, Nat.mul_assoc]; exact Nat.mul_mod_right _ _

/-- Writing a geometry that fits. -/
theorem Move.setGeometry {s : State} {r : GeomResult} (h : r.n % 64 = 0) (hfit : r.n ≤ s.cfg.coefDepth) :
    Move s (s.setGeometry r) :=
  Move.ofGeo s _ (fun g => by
    have hd := g.params.2.2.2.1
    have hn : r.n < 2 ^ 32 := by omega
    refine ⟨?_, g.components⟩
    show (BitVec.ofNat 32 r.n).toNat % 64 = 0 ∧ (BitVec.ofNat 32 r.n).toNat ≤ _
    rw [BitVec.toNat_ofNat, Nat.mod_eq_of_lt hn]
    exact ⟨h, hfit⟩)

theorem Move.clearArray (s : State) : Move s s.clearArray := Move.setCoefs s _ _

end Sys2Proof.Machine
end

