-- ==== Sys2Proof/Laws/Decoder.lean ====
section
/-! SUPPORT. The decoder's pieces are moves (45_entropy_decoder.md). -/

namespace Sys2Proof.Machine

/-! ### Segment parsers -/

theorem Move.loadLengths (j l code p : Nat) (bits : List Nat) (s : State) : Move s (loadLengths j l code p bits s) := by
  induction bits generalizing l code p s with
  | nil => exact Move.refl s
  | cons n bits ih =>
    simp only [Machine.loadLengths]
    split
    · refine Move.trans ?_ (ih _ _ _ _)
      exact Move.ofRam s _ rfl (fun g => { g.rams with dhMax := Memory.wf_write g.rams.dhMax _ _ })
    · refine Move.trans ?_ (ih _ _ _ _)
      refine Move.ofRam s _ rfl (fun g => ?_)
      exact { g.rams with
        dhPtr := Memory.wf_write g.rams.dhPtr _ _
        dhMin := Memory.wf_write g.rams.dhMin _ _
        dhMax := Memory.wf_write g.rams.dhMax _ _ }

theorem Move.setDhtValid (s : State) (j : Nat) (v : Bool) : Move s (s.setDhtValid j v) := Move.ofValid _ _

theorem Move.loadTable (j : Nat) (bits : List Nat) (vals : List Byte) (s : State) : Move s (loadTable j bits vals s) := by
  refine (Move.loadLengths j 1 0 0 bits s).trans (Move.trans ?_ (Move.setDhtValid _ _ _))
  exact Move.ofRam _ _ rfl (fun g => { g.rams with dhVal := Memory.wf_writeBlock g.rams.dhVal _ _ })

theorem Move.parseDht (fuel : Nat) (p : List Byte) (s : State) : Move s (parseDht fuel p s) := by
  induction fuel generalizing p s with
  | zero => exact Move.refl s
  | succ fuel ih =>
    cases p with
    | nil => exact Move.refl s
    | cons t rest =>
      simp only [Machine.parseDht]
      split
      · exact Move.warns _ _
      · split
        · exact Move.warns _ _
        · refine Move.trans ?_ (ih _ _)
          split
          · exact (Move.warns _ _).trans (Move.setDhtValid _ _ _)
          · exact Move.loadTable _ _ _ _

theorem Move.parseDqt (fuel : Nat) (p : List Byte) (s : State) : Move s (parseDqt fuel p s) := by
  induction fuel generalizing p s with
  | zero => exact Move.refl s
  | succ fuel ih =>
    cases p with
    | nil => exact Move.refl s
    | cons t rest =>
      simp only [Machine.parseDqt]
      split
      · exact Move.warns _ _
      · refine Move.trans ?_ (ih _ _)
        exact Move.ofRam s _ rfl (fun g => { g.rams with qt := Memory.wf_writeBlock g.rams.qt _ _ })

theorem Move.parseSof0 (p : List Byte) (s : State) : Move s (parseSof0 p s) := by
  unfold Machine.parseSof0
  split
  · exact Move.warns _ _
  · simp only
    split
    · exact Move.warns _ _
    · rename_i h
      have h1 : 1 ≤ byteAt p 5 ∧ byteAt p 5 ≤ 4 := by
        constructor <;> (by_contra hc; exact h (by omega))
      have hn : 1 ≤ (BitVec.ofNat 3 (byteAt p 5)).toNat ∧ (BitVec.ofNat 3 (byteAt p 5)).toNat ≤ 4 := by
        rw [BitVec.toNat_ofNat, Nat.mod_eq_of_lt (by omega)]
        exact h1
      exact { Move.refl s with good := fun g => { g with components := hn } }

theorem Move.parseDri (p : List Byte) (s : State) : Move s (parseDri p s) := by
  unfold Machine.parseDri
  split
  · exact Move.ofGeo s _ (fun g => ⟨g.array, g.components⟩)
  · exact Move.warns _ _

theorem Move.parseSos (p : List Byte) (s : State) : (parseSos p s).Leaves (Move s) := by
  simp only [Machine.parseSos]
  split
  · exact Move.warns _ _
  · split
    · exact Move.warns _ _
    · split
      · exact Move.warns _ _
      · split
        · exact Move.warns _ _
        · split
          · exact Move.warns _ _
          · have hc : Move s { s with geo.comp := sosTables p (byteAt p 0) s.geo.comp } :=
              Move.ofGeo s _ (fun g => ⟨g.array, g.components⟩)
            split
            · exact hc
            · rename_i r hr
              split
              · exact hc
              · rename_i hfit
                exact (hc.trans (Move.setGeometry (geometry_blocks hr) (Nat.le_of_not_lt hfit))).trans (Move.ofSeen _ _)

theorem Move.parseSegment (m : Byte) (p : List Byte) (s : State) : (parseSegment m p s).Leaves (Move s) := by
  unfold Machine.parseSegment
  split
  · exact Move.parseDqt _ _ _
  · split
    · exact Move.parseDht _ _ _
    · split
      · exact Move.parseSof0 _ _
      · split
        · exact Move.parseDri _ _
        · split
          · exact Move.parseSos _ _
          · split
            · exact Move.refl s
            · exact Move.warns _ _

theorem Leaves.trans {π : Type} {s t : State} {r : BodyStep π} (h : Move s t) (hr : r.Leaves (Move t)) : r.Leaves (Move s) := by
  cases r <;> exact h.trans hr

theorem Move.hdrByte (b : Byte) (p : HdrPhase) (s : State) : (hdrByte b p s).Leaves (Move s) := by
  cases p with
  | search => simp only [Machine.hdrByte]; split; exacts [Move.refl s, Move.warns _ _]
  | marker =>
    simp only [Machine.hdrByte]
    split
    · exact Move.refl s
    · split
      · exact Move.warns _ _
      · split
        · exact Move.ofSeen _ _
        · split
          · exact (Move.ofSeen _ _).trans (Move.warns _ _)
          · exact Move.refl s
  | lenHi m => exact Move.refl s
  | lenLo m hi =>
    simp only [Machine.hdrByte]
    split
    · exact Move.warns _ _
    · split
      · exact Move.parseSegment _ _ _
      · exact Move.refl s
  | payload m left got =>
    simp only [Machine.hdrByte]
    split
    · exact Move.parseSegment _ _ _
    · exact Move.refl s

theorem Move.hdrStep (p : HdrPhase) (s : State) : (hdrStep p s).Leaves (Move s) := by
  unfold Machine.hdrStep
  split
  · exact Move.refl s
  · exact Move.warns _ _
  · rename_i b t h; exact Leaves.trans (Move.readIn h) (Move.hdrByte _ _ _)

theorem Move.hdrInit (s : State) : Move s (hdrInit s) :=
  { Move.refl s with
    good := fun g => { g with reader := Nat.zero_le _ } }

/-! ### The bit reader and DecodeBlock -/

/-- Every state a move of NEXTBIT leaves. -/
def BitStep.Leaves (R : State → Prop) : BitStep → Prop
  | .bit _ t => R t
  | .none t => R t
  | .more _ t => R t
  | .wait => True

theorem Move.bitStep (ff : Bool) (s : State) : (bitStep ff s).Leaves (Move s) := by
  unfold Machine.bitStep
  split
  · exact Move.ofReader s _ (fun g => by have := g.reader; show s.reader.bitcnt - 1 ≤ 8; omega)
  · split
    · exact Move.refl s
    · exact Move.refl s
    · split
      · trivial
      · exact Move.setLatch _ _
      · rename_i b t h
        have hm := Move.readIn h
        split
        · exact hm
        · split
          · exact hm.trans (Move.loadByte _ _)
          · split
            · exact hm.trans (Move.loadByte _ _)
            · exact hm.trans (Move.setLatch _ _)

/-- Every state a move of DecodeBlock leaves. -/
def BlkStep.Leaves (R : State → Prop) : BlkStep → Prop
  | .go _ _ t => R t
  | .wait => True
  | .ended _ t => R t

theorem BlkStep.Leaves.after {s t : State} {r : BlkStep} (h : Move s t) (hr : r.Leaves (Move t)) : r.Leaves (Move s) := by
  cases r with
  | wait => trivial
  | go => exact h.trans hr
  | ended => exact h.trans hr

theorem Move.nextAc (k : Nat) (s : State) : (nextAc k s).Leaves (Move s) := by
  unfold Machine.nextAc; split <;> exact Move.refl s

theorem Move.dcDone (c : BlkCtx) (d : Int) (s : State) : (dcDone c d s).Leaves (Move s) := by
  unfold Machine.dcDone
  exact BlkStep.Leaves.after ((Move.setPred s _ _).trans (Move.setCoef _ _ _)) (Move.nextAc _ _)

theorem Move.dcSymbol (c : BlkCtx) (t : Nat) (s : State) : (dcSymbol c t s).Leaves (Move s) := by
  unfold Machine.dcSymbol
  split
  · exact Move.refl s
  · split
    · exact Move.dcDone _ _ _
    · exact Move.refl s

theorem Move.acSymbol (k rs : Nat) (s : State) : (acSymbol k rs s).Leaves (Move s) := by
  simp only [Machine.acSymbol]
  split
  · split
    · exact Move.nextAc _ _
    · exact Move.refl s
  · split <;> exact Move.refl s

theorem Move.blkBit (c : BlkCtx) (b : Bool) (p : BlkPhase) (s : State) : (blkBit c b p s).Leaves (Move s) := by
  cases p with
  | dcCode code len =>
    simp only [Machine.blkBit]
    split
    · exact Move.refl s
    · exact Move.refl s
    · exact Move.dcSymbol _ _ _
  | dcBits size value left =>
    simp only [Machine.blkBit]
    split
    · exact Move.dcDone _ _ _
    · exact Move.refl s
  | acCode k code len =>
    simp only [Machine.blkBit]
    split
    · exact Move.refl s
    · exact Move.refl s
    · exact Move.acSymbol _ _ _
  | acBits k size value left =>
    simp only [Machine.blkBit]
    split
    · exact BlkStep.Leaves.after (Move.setCoef _ _ _) (Move.nextAc _ _)
    · exact Move.refl s

theorem Move.blkStep (c : BlkCtx) (ff : Bool) (p : BlkPhase) (s : State) : (blkStep c ff p s).Leaves (Move s) := by
  have h := Move.bitStep ff s
  unfold Machine.blkStep
  split <;> rename_i hb <;> rw [hb] at h
  · trivial
  · exact h
  · exact h
  · exact BlkStep.Leaves.after h (Move.blkBit _ _ _ _)

theorem Move.beginBlock (blk : Nat) (s : State) : Move s (beginBlock blk s) := Move.setCoefs _ _ _

/-! ### DECBLK and DECSCAN -/

theorem Move.decblkEnd (e : BlkEnd) (s : State) : Move s (decblkEnd e s) := by
  cases e with
  | ok => exact Move.ofResult _ _
  | short => exact (Move.warns _ _).trans (Move.ofResult _ _)
  | bad => exact (Move.warns _ _).trans (Move.ofResult _ _)

theorem Move.decblkStep (p : DecblkAt) (s : State) : (decblkStep p s).Leaves (Move s) := by
  have h := Move.blkStep p.ctx p.ff p.phase s
  unfold Machine.decblkStep
  split <;> rename_i hb <;> rw [hb] at h
  · exact h
  · exact Move.refl s
  · exact Move.trans h (Move.decblkEnd _ _)

/-- Every state a move of FindMarker leaves. -/
def MarkStep.Leaves (R : State → Prop) : MarkStep → Prop
  | .go _ t => R t
  | .wait => True
  | .found _ t => R t

theorem Move.markStep (ff : Bool) (s : State) : (markStep ff s).Leaves (Move s) := by
  unfold Machine.markStep
  split
  · exact Move.refl s
  · exact Move.refl s
  · split
    · trivial
    · exact Move.setLatch _ _
    · rename_i b t h
      have hm := Move.readIn h
      split
      · exact hm
      · split
        · exact hm
        · split
          · exact hm
          · exact hm.trans (Move.setLatch _ _)

theorem Move.restartFound (l : Latch) (s : State) : Move s (restartFound l s) := by
  unfold Machine.restartFound
  split
  · exact (Move.setLatch _ _).trans (Move.clearPreds _)
  · exact (Move.warns _ _).trans (Move.clearPreds _)

theorem Move.tailFound (l : Latch) (s : State) : Move s (tailFound l s) := by
  unfold Machine.tailFound
  split
  · exact (Move.ofSeen _ _).trans (Move.setLatch _ _)
  · exact Move.warns _ _

theorem Move.scanStep (p : ScanPhase) (s : State) : (scanStep p s).Leaves (Move s) := by
  cases p with
  | mcu m =>
    simp only [Machine.scanStep]
    split
    · exact Move.alignBits s
    · split
      · exact Move.alignBits s
      · exact Move.refl s
  | restart m ff =>
    have h := Move.markStep ff s
    simp only [Machine.scanStep]
    split <;> rename_i hb <;> rw [hb] at h
    · exact h
    · exact Move.refl s
    · exact Move.trans h (Move.restartFound _ _)
  | block m j =>
    simp only [Machine.scanStep]
    split
    · exact Move.refl s
    · exact Move.beginBlock _ _
  | bits m j ff p =>
    have h := Move.blkStep (scanBlock s m j) ff p s
    simp only [Machine.scanStep]
    split <;> rename_i hb <;> rw [hb] at h
    · exact h
    · exact Move.refl s
    · exact h
    · exact (Move.trans h (Move.warns _ _)).trans (Move.alignBits _)
    · exact Move.trans h (Move.warns _ _)
  | tail ff =>
    have h := Move.markStep ff s
    simp only [Machine.scanStep]
    split <;> rename_i hb <;> rw [hb] at h
    · exact h
    · exact Move.refl s
    · exact Move.trans h (Move.tailFound _ _)

theorem Move.scanInit (s : State) : Move s (scanInit s) :=
  ((Move.clearArray s).trans (Move.clearPreds _)).trans (Move.ofReader _ _ (fun _ => Nat.zero_le _))

end Sys2Proof.Machine
end

