-- ==== Sys2Proof/Laws/Encoder.lean ====
section
/-! SUPPORT. The encoder's moves: every code it appends has at most 16 bits (44_entropy_encoder.md R291, R295, R299), each move keeps
the invariant, and a run ends. -/

namespace Sys2Proof.Machine

theorem codesOfLength_size (l n code : Nat) (syms : List Nat) (e : Nat × HuffCode) (h : e ∈ codesOfLength l n code syms) :
    e.2.size = l := by
  induction n generalizing code syms with
  | zero => simp [codesOfLength] at h
  | succ n ih =>
    cases syms with
    | nil => simp [codesOfLength] at h
    | cons a syms =>
      rcases List.mem_cons.1 h with rfl | h
      · rfl
      · exact ih _ _ h

theorem canonicalFrom_size (l code : Nat) (bits syms : List Nat) (e : Nat × HuffCode)
    (h : e ∈ canonicalFrom l code bits syms) : e.2.size < l + bits.length := by
  induction bits generalizing l code syms with
  | nil => simp [canonicalFrom] at h
  | cons n bits ih =>
    rcases List.mem_append.1 h with h | h
    · have := codesOfLength_size _ _ _ _ _ h
      simp only [List.length_cons]; omega
    · have := ih _ _ _ h
      simp only [List.length_cons]; omega

theorem lookup_mem {α β : Type} [BEq α] [LawfulBEq α] {l : List (α × β)} {a : α} {b : β} (h : l.lookup a = some b) : (a, b) ∈ l := by
  induction l with
  | nil => simp at h
  | cons e l ih =>
    obtain ⟨x, y⟩ := e
    rw [List.lookup_cons] at h
    split at h
    · rename_i hx
      simp only [Option.some.injEq] at h
      rw [h, eq_of_beq hx]; simp
    · exact List.mem_cons_of_mem _ (ih h)

/-- A code of a 16-length table has at most 16 bits. -/
theorem codeOf_size {t : HuffSpec} (ht : t.bits.length = 16) (sym : Nat) : (codeOf t sym).2 ≤ 16 := by
  unfold codeOf
  split
  · rename_i c h
    have := canonicalFrom_size _ _ _ _ _ (lookup_mem h)
    rw [ht] at this
    show c.size ≤ 16
    change c.size < 1 + 16 at this
    omega
  · exact Nat.zero_le _

theorem huffDc_bits (d : Fin 2) : (huffDc d).bits.length = 16 := by
  unfold huffDc; split <;> rfl

theorem huffAc_bits (a : Fin 2) : (huffAc a).bits.length = 16 := by
  unfold huffAc; split <;> rfl

theorem category_le {v : Int} {n : Nat} (h : v.natAbs < 2 ^ n) : category v ≤ n := by
  unfold category bitlen
  split
  · exact Nat.zero_le _
  · rename_i h0
    have := (Nat.log2_lt h0).2 h
    omega

theorem coefInt_bounds (s : State) (i : Nat) : -32768 ≤ s.coefInt i ∧ s.coefInt i ≤ 32767 := by
  have h1 := BitVec.le_toInt (s.coefAt i)
  have h2 := BitVec.toInt_lt (x := s.coefAt i)
  constructor
  · exact h1
  · exact Int.lt_add_one_iff.1 h2

theorem acCodes_size {t : HuffSpec} (ht : t.bits.length = 16) (r : Nat) (vs : List Int)
    (hv : ∀ v ∈ vs, category v ≤ 16) : ∀ c ∈ acCodes t r vs, c.2 ≤ 16 := by
  induction vs generalizing r with
  | nil =>
    intro c hc
    simp only [acCodes] at hc
    split at hc
    · simp only [List.mem_singleton] at hc; subst hc; exact codeOf_size ht _
    · simp at hc
  | cons v vs ih =>
    intro c hc
    simp only [acCodes] at hc
    split at hc
    · exact ih _ (fun v h => hv v (by simp [h])) c hc
    · rcases List.mem_append.1 hc with hc | hc
      · rw [(List.mem_replicate.1 hc).2]; exact codeOf_size ht _
      · rcases List.mem_cons.1 hc with rfl | hc
        · exact codeOf_size ht _
        · rcases List.mem_cons.1 hc with rfl | hc
          · exact hv v (by simp)
          · exact ih _ (fun v h => hv v (by simp [h])) c hc

theorem acValues_category (blk : Nat) (s : State) : ∀ v ∈ acValues blk s, category v ≤ 16 := by
  intro v hv
  obtain ⟨k, _, rfl⟩ := List.mem_map.1 hv
  have := coefInt_bounds s (64 * blk + zz (k + 1))
  exact category_le (by omega)

theorem dcDiff_category (comp blk : Nat) (s : State) : category (dcDiff comp blk s) ≤ 16 := by
  have h1 := coefInt_bounds s (64 * blk)
  have h2 := BitVec.le_toInt (s.coder.pred.get comp)
  have h3 := BitVec.toInt_lt (x := s.coder.pred.get comp)
  unfold dcDiff
  exact category_le (by norm_num at h2 h3 ⊢; omega)

theorem dcCodes_size {t : HuffSpec} (ht : t.bits.length = 16) (d : Int) (hd : category d ≤ 16) : ∀ c ∈ dcCodes t d, c.2 ≤ 16 := by
  intro c hc
  rcases List.mem_cons.1 hc with rfl | hc
  · exact codeOf_size ht _
  · split at hc
    · simp at hc
    · simp only [List.mem_singleton] at hc; subst hc; exact hd

/-- Every code of a block has at most 16 bits. -/
theorem blockCodes_size (comp : Nat) (dt ac : Fin 2) (blk : Nat) (s : State) : ∀ c ∈ blockCodes comp dt ac blk s, c.2 ≤ 16 := by
  intro c hc
  rcases List.mem_append.1 hc with hc | hc
  · exact dcCodes_size (huffDc_bits dt) _ (dcDiff_category _ _ _) c hc
  · exact acCodes_size (huffAc_bits ac) _ _ (acValues_category _ _) c hc

theorem acCodes_length (t : HuffSpec) (r : Nat) (vs : List Int) : (acCodes t r vs).length ≤ r / 16 + 3 * vs.length + 1 := by
  induction vs generalizing r with
  | nil => unfold acCodes; split <;> simp
  | cons v vs ih =>
    unfold acCodes
    split
    · have := ih (r + 1)
      simp only [List.length_cons]
      omega
    · have := ih 0
      simp only [List.length_append, List.length_replicate, List.length_cons]
      omega

/-- A block has at most 318 codes. -/
theorem blockCodes_length (comp : Nat) (dt ac : Fin 2) (blk : Nat) (s : State) : (blockCodes comp dt ac blk s).length ≤ 318 := by
  have h1 : (dcCodes (huffDc dt) (dcDiff comp blk s)).length ≤ 2 := by unfold dcCodes; split <;> simp
  have h2 := acCodes_length (huffAc ac) 0 (acValues blk s)
  have h3 : (acValues blk s).length = 63 := by simp [acValues]
  simp only [blockCodes, List.length_append]
  omega

theorem blockCodes_fits (comp : Nat) (dt ac : Fin 2) (blk : Nat) (s : State) (scan : Option Nat) :
    (Ending.codes (blockCodes comp dt ac blk s) scan).fits = true := by
  simpa [Ending.fits, List.all_eq_true] using fun a b h => blockCodes_size comp dt ac blk s (a, b) h

/-! ### The moves -/

/-- What a run needs of its progress. -/
def EmitAt (p : List Byte × Ending) : Prop := p.2.fits = true

theorem Move.emitStep (p : List Byte × Ending) (s : State) (hp : EmitAt p) : (emitStep p s).Leaves (Move s) := by
  obtain ⟨bs, e⟩ := p
  cases bs with
  | cons b bs =>
    simp only [Machine.emitStep]
    split
    · exact Move.refl s
    · rename_i t h; exact Move.pushOut h
  | nil =>
    cases e with
    | retire => exact Move.refl s
    | flushed => exact Move.setPacker _ _ (fun _ => empty_aligned)
    | buffered code size rest scan =>
      have hs : size ≤ 16 := by
        have : (decide (size ≤ 16) && rest.all (fun c => decide (c.2 ≤ 16))) = true := hp
        simp only [Bool.and_eq_true, decide_eq_true_eq] at this; exact this.1
      exact Move.setPacker _ _ (fun g => bufBits_aligned (Coder.Aligned.packer (s := s) g.packer) _ _ hs)
    | codes rest scan =>
      match rest, scan with
      | (code, size) :: rest, scan => exact Move.refl s
      | [], none => exact Move.refl s
      | [], some b =>
        simp only [Machine.emitStep, emitNext, scanNext]
        split
        · exact Move.refl s
        · split
          · exact Move.refl s
          · exact Move.setPred s _ _

/-- How many moves an ending takes by itself, at most. -/
def Ending.rank : Ending → Nat
  | .retire => 0
  | .flushed => 0
  | .buffered _ _ _ _ => 4
  | .codes _ _ => 3

theorem Ending.rank_lt (e : Ending) : e.rank < 8 := by cases e <;> simp [rank]

/-- A bound of the moves a run has left. -/
def emitLeft (p : List Byte × Ending) (s : State) : Nat :=
  p.1.length + 12 * p.2.pairs.length + 4096 * p.2.blocksLeft s + p.2.rank

theorem Ending.blocksLeft_geo {s t : State} (e : Ending) (h : t.geo = s.geo) : e.blocksLeft t = e.blocksLeft s := by
  unfold Ending.blocksLeft; rw [h]

theorem emitStep_wait {p p' : List Byte × Ending} {src : StallSrc} {s s' : State} (h : emitStep p s = .wait src p' s') :
    src = .out ∧ p' = p := by
  obtain ⟨bs, e⟩ := p
  cases bs with
  | cons b bs =>
    simp only [emitStep] at h
    split at h
    · cases h; exact ⟨rfl, rfl⟩
    · cases h
  | nil =>
    cases e with
    | codes rest scan =>
      match rest, scan with
      | (code, size) :: rest, scan => cases h
      | [], none => cases h
      | [], some b =>
        simp only [emitStep, emitNext, scanNext] at h
        split at h
        · cases h
        · split at h <;> cases h
    | _ => cases h

theorem emitStep_raise {p : List Byte × Ending} {c : FaultCode} {s s' : State} (h : emitStep p s = .raise c s') : c = .nocode := by
  obtain ⟨bs, e⟩ := p
  cases bs with
  | cons b bs =>
    simp only [emitStep] at h
    split at h <;> cases h
  | nil =>
    cases e with
    | codes rest scan =>
      match rest, scan with
      | (code, size) :: rest, scan => cases h
      | [], none => cases h
      | [], some b =>
        simp only [emitStep, emitNext, scanNext] at h
        split at h
        · cases h
        · split at h
          · cases h; rfl
          · cases h
    | _ => cases h

/-- A move keeps the codes within BufBits, and takes the run nearer to its end. -/
theorem emitStep_go {p p' : List Byte × Ending} {s s' : State} (hp : EmitAt p) (h : emitStep p s = .go p' s') :
    EmitAt p' ∧ emitLeft p' s' < emitLeft p s := by
  obtain ⟨bs, e⟩ := p
  cases bs with
  | cons b bs =>
    simp only [emitStep] at h
    split at h
    · cases h
    · rename_i t ht
      cases h
      refine ⟨hp, ?_⟩
      have hg : s'.geo = s.geo := by
        unfold pushOut at ht; split at ht
        · simp only [Option.some.injEq] at ht; rw [← ht]
        · cases ht
      simp only [emitLeft, List.length_cons, Ending.blocksLeft_geo e hg]
      omega
  | nil =>
    cases e with
    | retire => cases h
    | flushed => cases h
    | buffered code size rest scan =>
      cases h
      simp only [EmitAt, Ending.fits, Bool.and_eq_true] at hp ⊢
      refine ⟨hp.2, ?_⟩
      cases scan <;> simp [emitLeft, Ending.pairs, Ending.blocksLeft, Ending.nextBlock, Ending.rank]
    | codes rest scan =>
      match rest, scan with
      | (code, size) :: rest, scan =>
        cases h
        simp only [EmitAt, Ending.fits, List.all_cons, Bool.and_eq_true] at hp ⊢
        refine ⟨hp, ?_⟩
        have := bufBits_length s code size (by simpa using hp.1)
        cases scan <;> simp only [emitLeft, Ending.pairs, Ending.blocksLeft, Ending.nextBlock, Ending.rank, List.length_cons, List.length_nil] <;> omega
      | [], none => cases h
      | [], some b =>
        simp only [emitStep, emitNext, scanNext] at h
        split at h
        · cases h
          refine ⟨rfl, ?_⟩
          have := flushBytes_length s.ctrl.padbit s.packer
          simp only [emitLeft, Ending.pairs, Ending.blocksLeft, Ending.nextBlock, Ending.rank, List.length_nil]
          omega
        · rename_i hb
          split at h
          · cases h
          · cases h
            refine ⟨blockCodes_fits _ _ _ _ _ _, ?_⟩
            have := blockCodes_length (s.componentOf (b % s.bpm)) (s.geo.comp.get (s.componentOf (b % s.bpm))).td
              (s.geo.comp.get (s.componentOf (b % s.bpm))).ta b s
            simp only [emitLeft, Ending.pairs, Ending.blocksLeft, Ending.nextBlock, Ending.rank, List.length_nil, setPred_geo]
            omega

/-- How a run of an encoder command ends: it retires, faults with NOCODE, or waits on OUT, after moves of the state; it never
pauses. -/
theorem runEmit_ends (p : List Byte × Ending) (s : State) (hp : EmitAt p) :
    ∃ b, Move s b ∧ (runEmit p s = retire b ∨ runEmit p s = faultEntry .nocode b ∨
      ∃ p', EmitAt p' ∧ runEmit p s = { b with agent := .stall .out (.emit p'.1 p'.2) }) := by
  have hmove := fun (q : List Byte × Ending) (u : State) (hq : EmitAt q) => Move.emitStep q u hq
  have h := drive_ends (fun p => Progress.emit p.1 p.2) emitStep (fun q u => EmitAt q ∧ Move s u) (fun b => Move s b)
    (fun c b => c = .nocode ∧ Move s b) (fun src q b => src = .out ∧ EmitAt q ∧ Move s b) emitLeft
    (fun q u q' u' hq hs => by
      have hm := hmove q u hq.1
      rw [hs] at hm
      exact ⟨⟨(emitStep_go hq.1 hs).1, hq.2.trans hm⟩, (emitStep_go hq.1 hs).2⟩)
    (fun q u src q' u' hq hs => by
      have hm := hmove q u hq.1
      rw [hs] at hm
      obtain ⟨h1, h2⟩ := emitStep_wait hs
      exact ⟨h1, h2 ▸ hq.1, hq.2.trans hm⟩)
    (fun q u u' hq hs => by
      have hm := hmove q u hq.1
      rw [hs] at hm
      exact hq.2.trans hm)
    (fun q u c u' hq hs => by
      have hm := hmove q u hq.1
      rw [hs] at hm
      exact ⟨emitStep_raise hs, hq.2.trans hm⟩)
    (p.1.length + 12 * p.2.pairs.length + 4096 * p.2.blocksLeft s + 8) p s ⟨hp, Move.refl s⟩
    (by unfold emitLeft; have := Ending.rank_lt p.2; omega)
  rcases h with ⟨b, hb, h⟩ | ⟨c, b, ⟨rfl, hb⟩, h⟩ | ⟨src, q, b, ⟨rfl, hq, hb⟩, h⟩
  · exact ⟨b, hb, .inl h⟩
  · exact ⟨b, hb, .inr (.inl h)⟩
  · exact ⟨b, hb, .inr (.inr ⟨q, hq, h⟩)⟩

/-- The progress an encoder command leaves fits BufBits. -/
theorem runEmit_fits (p : List Byte × Ending) (s : State) (hp : EmitAt p) : (runEmit p s).agent.codesFit = true := by
  obtain ⟨b, _, h | h | ⟨q, hq, h⟩⟩ := runEmit_ends p s hp <;> rw [h]
  · rfl
  · rfl
  · exact hq

end Sys2Proof.Machine
end

