-- ==== Sys2Proof/Laws/F5.lean ====
section
/-! SUPPORT. The F5 procedures are moves (46_f5_matrix.md). -/

namespace Sys2Proof.Machine

theorem Move.toggle (p : Nat) (s : State) : Move s (toggle p s) :=
  (Move.setCoef s p _).trans (Move.ofF5 _ _ rfl rfl (fun g => ⟨g.cursor.1, g.cursor.2, g.codeWord⟩))

theorem Move.countShrink (s : State) : Move s (countShrink s) :=
  Move.ofF5 _ _ rfl rfl (fun g => ⟨g.cursor.1, g.cursor.2, g.codeWord⟩)

theorem Move.countEmbedded (m : Nat) (s : State) : Move s (countEmbedded m s) :=
  Move.ofF5 _ _ rfl rfl (fun g => ⟨g.cursor.1, g.cursor.2, g.codeWord⟩)

theorem Move.embHdrInit (s : State) : Move s (embHdrInit s) :=
  Move.ofF5 _ _ rfl rfl (fun g => ⟨g.cursor.1, g.cursor.2, g.codeWord⟩)

theorem Move.setHeader (h : Word) (s : State) : Move s (setHeader h s) :=
  Move.ofF5 _ _ rfl rfl (fun g => ⟨g.cursor.1, g.cursor.2, g.codeWord⟩)

theorem Move.lsbEmbedLoop (b retry : Bool) (n : Nat) (s : State) : Move s (lsbEmbedLoop b retry n s).2 := by
  induction n generalizing s with
  | zero => exact Move.refl s
  | succ n ih =>
    simp only [Machine.lsbEmbedLoop]
    split
    · rename_i t h; exact Move.nextUsable_eq h
    · rename_i p t h
      have hm := Move.nextUsable_eq h
      split
      · exact hm
      · split
        · exact hm.trans (Move.toggle p t)
        · split
          · exact (hm.trans (Move.toggle p t)).trans (Move.countShrink _)
          · exact ((hm.trans (Move.toggle p t)).trans (Move.countShrink _)).trans (ih _)

theorem Move.lsbEmbed (b retry : Bool) (s : State) : Move s (lsbEmbed b retry s).2 := Move.lsbEmbedLoop _ _ _ _

theorem Frame.discardCw (idx n : Nat) (s : State) : Frame s (discardCw idx n s) := { Frame.refl s with }

/-- Discarding a member keeps the invariant and leaves room for one more. -/
theorem Good.discardCw {s : State} (g : s.Good) (idx n : Nat) (hn : n ≤ s.cfg.cwMax) :
    (discardCw idx n s).Good ∧ (discardCw idx n s).f5.cwlen.toNat = n - 1 := by
  have hmax := cwMax_le g.params
  have hl : (Machine.discardCw idx n s).f5.cwlen.toNat = n - 1 := by
    show (BitVec.ofNat 8 (n - 1)).toNat = n - 1
    rw [BitVec.toNat_ofNat]
    exact Nat.mod_eq_of_lt (by omega)
  refine ⟨{ g with
    rams := { g.rams with cw := Memory.wf_writeBlock g.rams.cw _ _ }
    codeWord := ?_ }, hl⟩
  rw [hl]
  show n - 1 ≤ s.cfg.cwMax
  omega

theorem Frame.matrixLoop (val n fuel : Nat) (s : State) : Frame s (matrixLoop val n fuel s).2 := by
  induction fuel generalizing s with
  | zero => exact Frame.refl s
  | succ fuel ih =>
    simp only [Machine.matrixLoop]
    split
    · exact Frame.refl s
    · have ht := (Move.toggle (s.cwAt ((syndrome s n ^^^ val) - 1)).toNat s).toFrame
      split
      · exact ht
      · have hd := (ht.trans (Move.countShrink _).toFrame).trans (Frame.discardCw ((syndrome s n ^^^ val) - 1) n _)
        split
        · rename_i t h; exact hd.trans (Move.nextUsable_eq h).toFrame
        · rename_i p t h
          exact ((hd.trans (Move.nextUsable_eq h).toFrame).trans (Frame.appendCw p t)).trans (ih _)

theorem Good.matrixLoop {s : State} (g : s.Good) (val n fuel : Nat) (h1 : 1 ≤ n) (hn : n ≤ s.cfg.cwMax) :
    (matrixLoop val n fuel s).2.Good := by
  induction fuel generalizing s with
  | zero => exact g
  | succ fuel ih =>
    simp only [Machine.matrixLoop]
    split
    · exact g
    · have hm := Move.toggle (s.cwAt ((syndrome s n ^^^ val) - 1)).toNat s
      split
      · exact hm.good g
      · have hs := hm.trans (Move.countShrink _)
        obtain ⟨gd, hl⟩ := Good.discardCw (hs.good g) ((syndrome s n ^^^ val) - 1) n (by rw [hs.cfg]; exact hn)
        have hc := hs.toFrame.trans (Frame.discardCw ((syndrome s n ^^^ val) - 1) n _)
        split
        · rename_i t h; exact (Move.nextUsable_eq h).good gd
        · rename_i p t h
          have hn2 := Move.nextUsable_eq h
          have hcw := nextUsable_cwlen h
          refine ih (Good.appendCw (hn2.good gd) p ?_) ?_
          · rw [hcw, hl, hn2.cfg, hc.cfg]; omega
          · rw [(Frame.appendCw p t).cfg, hn2.cfg, hc.cfg]; exact hn

theorem Frame.matrixEmbed (val k : Nat) (s : State) : Frame s (matrixEmbed val k s).2 := by
  have hc := (Move.clearCw s).toFrame
  have hd := Frame.drawCw (2 ^ k - 1) { s with f5.cwlen := 0 }
  simp only [Machine.matrixEmbed]
  split
  · rename_i t h; rw [h] at hd; exact hc.trans hd
  · rename_i t h; rw [h] at hd; exact (hc.trans hd).trans (Frame.matrixLoop _ _ _ _)

/-- A code word of the largest legal parameter fits the buffer. -/
theorem codeWord_fits {c : Params} {k : Nat} (h : k ≤ c.kMaxEmb) : 2 ^ k - 1 ≤ c.cwMax := by
  have : 2 ^ k ≤ 2 ^ c.kMaxEmb := Nat.pow_le_pow_right (by decide) h
  unfold Params.cwMax
  omega

theorem Good.matrixEmbed {s : State} (g : s.Good) (val k : Nat) (h1 : 1 ≤ k) (hk : k ≤ s.cfg.kMaxEmb) :
    (matrixEmbed val k s).2.Good := by
  have hf := codeWord_fits hk
  have hc := Move.clearCw s
  have hd := Good.drawCw (hc.good g) (2 ^ k - 1) (by show 0 + _ ≤ s.cfg.cwMax; omega)
  have hfr := Frame.drawCw (2 ^ k - 1) { s with f5.cwlen := 0 }
  have h2 : 2 ^ 1 ≤ 2 ^ k := Nat.pow_le_pow_right (by decide) h1
  simp only [Machine.matrixEmbed]
  split
  · rename_i t h; rw [h] at hd; exact hd.1
  · rename_i t h
    rw [h] at hd hfr
    exact Good.matrixLoop hd.1 _ _ _ (by omega) (by rw [hfr.cfg]; exact hf)

theorem Move.matrixEmbed {s : State} (val k : Nat) (h1 : 1 ≤ k) (hk : k ≤ s.cfg.kMaxEmb) :
    Move s (matrixEmbed val k s).2 :=
  { Frame.matrixEmbed val k s with good := fun g => Good.matrixEmbed g val k h1 hk }

theorem Move.drawSyndrome (n i h : Nat) (s : State) : Move s (drawSyndrome n i h s).2 := by
  induction n generalizing i h s with
  | zero => exact Move.refl s
  | succ n ih =>
    simp only [Machine.drawSyndrome]
    split
    · rename_i t h; exact Move.nextUsable_eq h
    · rename_i p t h; exact (Move.nextUsable_eq h).trans (ih _ _ _)

theorem Move.readHeader (n i h : Nat) (s : State) : Move s (readHeader n i h s).2 := by
  induction n generalizing i h s with
  | zero => exact Move.refl s
  | succ n ih =>
    simp only [Machine.readHeader]
    split
    · rename_i t h; exact Move.nextUsable_eq h
    · rename_i p t h; exact (Move.nextUsable_eq h).trans (ih _ _ _)

theorem Move.embedHeader (hw : Word) (n i : Nat) (s : State) : Move s (embedHeader hw n i s) := by
  induction n generalizing i s with
  | zero => exact Move.refl s
  | succ n ih =>
    have hm := Move.lsbEmbed (hw.getLsbD i) (!s.ctrl.hdrLossy) s
    simp only [Machine.embedHeader]
    split <;> rename_i t h <;> rw [h] at hm
    · exact (hm.trans (Move.warns _ _)).trans (Move.warns _ _)
    · exact hm.trans (ih _ _)
    · exact hm.trans (ih _ _)

theorem Move.embHdrStep (got : List Byte) (s : State) : (embHdrStep got s).Leaves (Move s) := by
  simp only [Machine.embHdrStep]
  split
  · exact Move.refl s
  · rename_i b t h
    split
    · exact (Move.popRng h).trans (Move.embedHeader _ _ _ _)
    · exact Move.popRng h

/-- Embedding a group, with a legal K. -/
theorem Move.embedGroup {s : State} (val : Nat) (hk : s.f5.k.toNat ≤ s.cfg.kMaxEmb) : Move s (embedGroup val s).2 := by
  unfold Machine.embedGroup
  split
  · exact Move.lsbEmbed _ _ _
  · exact Move.matrixEmbed _ _ (by omega) hk

theorem Move.embpayStep (p : EmbpayAt) (s : State) (hk : s.f5.k.toNat ≤ s.cfg.kMaxEmb) : (embpayStep p s).Leaves (Move s) := by
  cases p with
  | embed c =>
    simp only [Machine.embpayStep]
    split
    · have hm := Move.embedGroup c.val hk
      split <;> rename_i t h <;> rw [h] at hm
      · exact hm.trans (Move.warns _ _)
      · exact hm.trans (Move.countEmbedded _ _)
      · exact hm.trans (Move.countEmbedded _ _)
    · split
      · exact Move.refl s
      · split
        · split
          · exact Move.refl s
          · rename_i b t h; exact Move.popRng h
        · split
          · exact Move.refl s
          · split
            · exact Move.refl s
            · rename_i b t h; exact Move.popPayin h
  | drain popped =>
    simp only [Machine.embpayStep]
    split
    · exact Move.refl s
    · split
      · exact Move.refl s
      · rename_i b t h; exact Move.popPayin h

theorem Move.extHdrStep (p : Word × List Byte) (s : State) : (extHdrStep p s).Leaves (Move s) := by
  obtain ⟨h, got⟩ := p
  simp only [Machine.extHdrStep]
  split
  · exact Move.refl s
  · rename_i b t h
    split
    · exact (Move.popRng h).trans (Move.setHeader _ _)
    · exact Move.popRng h

theorem Move.countExtracted (s : State) (v : Word) : Move s { s with f5.extBytes := v } :=
  Move.ofF5 _ _ rfl rfl (fun g => ⟨g.cursor.1, g.cursor.2, g.codeWord⟩)

theorem Move.extpayStep (c : ExtCtx) (s : State) : (extpayStep c s).Leaves (Move s) := by
  simp only [Machine.extpayStep]
  split
  · split
    · exact Move.refl s
    · rename_i t h
      have hm := (Move.pushPayout h).trans (Move.countExtracted t (t.f5.extBytes + 1))
      split <;> exact hm
  · split
    · split
      · exact Move.refl s
      · rename_i b t h; exact Move.popRng h
    · split
      · exact Move.refl s
      · have hm : Move s (drawGroup s).2 := Move.drawSyndrome _ 0 0 s
        split <;> rename_i t h <;> rw [h] at hm
        · exact hm.trans (Move.warns _ _)
        · exact hm

end Sys2Proof.Machine
end

