-- ==== Sys2Proof/Laws/Exec.lean ====
section
/-! SUPPORT. What executing any instruction can do, said once: the body moves the state, and the last state becomes the next one by
retirement, fault entry, a wait or a pause. -/

namespace Sys2Proof.Machine

/-- `t` is how some move of `s` ended. -/
def Outcome (s t : State) : Prop := ∃ b, Move s b ∧ Ended b t

theorem Outcome.retire {s b : State} (h : Move s b) : Outcome s (retire b) := ⟨b, h, Ended.retired⟩

theorem Outcome.fault {s b : State} (h : Move s b) (c : FaultCode) : Outcome s (faultEntry c b) := ⟨b, h, Ended.faulted c⟩

theorem Outcome.after {s b t : State} (h : Move s b) (o : Outcome b t) : Outcome s t := by
  obtain ⟨c, hm, he⟩ := o
  exact ⟨c, h.trans hm, he⟩

/-! ### Runs -/

theorem runPermgen_outcome (p : Nat × List Byte) (s : State) : Outcome s (runPermgen p s) :=
  drive_moves _ _ (fun _ => True) (fun _ _ _ h => h) (fun p s _ => Move.permgenStep p s) _ _ _ trivial

theorem runEmit_outcome (p : List Byte × Ending) (s : State) (hp : EmitAt p) : Outcome s (runEmit p s) := by
  obtain ⟨b, hb, h | h | ⟨q, _, h⟩⟩ := runEmit_ends p s hp <;> rw [h]
  · exact ⟨b, hb, Ended.retired⟩
  · exact ⟨b, hb, Ended.faulted _⟩
  · exact ⟨b, hb, Ended.waits _ _⟩

theorem runEmbhdr_outcome (got : List Byte) (s : State) : Outcome s (runEmbhdr got s) :=
  drive_moves _ _ (fun _ => True) (fun _ _ _ h => h) (fun p s _ => Move.embHdrStep p s) _ _ _ trivial

/-- EMBPAY runs with a legal K. -/
theorem runEmbpay_outcome (p : EmbpayAt) (s : State) (hk : s.f5.k.toNat ≤ s.cfg.kMaxEmb) : Outcome s (runEmbpay p s) :=
  drive_moves _ _ (fun s => s.f5.k.toNat ≤ s.cfg.kMaxEmb) (fun s t h hs => by rw [h.k, h.cfg]; exact hs)
    (fun p s hs => Move.embpayStep p s hs) _ _ _ hk

theorem Move.drainStep (n : Nat) (s : State) : (Machine.embpayStep (.drain n) s).Leaves (Move s) := by
  simp only [Machine.embpayStep]
  split
  · exact Move.refl s
  · split
    · exact Move.refl s
    · rename_i b t h; exact Move.popPayin h

/-- EMBPAY draining PAYIN embeds nothing, whatever K is. -/
theorem runDrain_outcome (n : Nat) (s : State) : Outcome s (runEmbpay (.drain n) s) := by
  unfold runEmbpay
  generalize 18 * (s.fifo.payin.length + 2) = m
  induction m generalizing n s with
  | zero => exact ⟨s, Move.refl s, Ended.pauses _⟩
  | succ m ih =>
    have hm := Move.drainStep n s
    simp only [drive]
    cases hr : embpayStep (.drain n) s with
    | go p' s' =>
      rw [hr] at hm
      have hp : ∃ n', p' = .drain n' := by
        simp only [embpayStep] at hr
        split at hr
        · simp at hr
        · split at hr
          · simp at hr
          · simp only [BodyStep.go.injEq] at hr; exact ⟨_, hr.1.symm⟩
      obtain ⟨n', rfl⟩ := hp
      exact Outcome.after hm (ih n' s')
    | wait src p' s' => rw [hr] at hm; exact ⟨s', hm, Ended.waits _ _⟩
    | done s' => rw [hr] at hm; exact ⟨s', hm, Ended.retired⟩
    | raise c s' => rw [hr] at hm; exact ⟨s', hm, Ended.faulted _⟩

theorem runExthdr_outcome (p : Word × List Byte) (s : State) : Outcome s (runExthdr p s) :=
  drive_moves _ _ (fun _ => True) (fun _ _ _ h => h) (fun p s _ => Move.extHdrStep p s) _ _ _ trivial

theorem runExtpay_outcome (c : ExtCtx) (s : State) : Outcome s (runExtpay c s) :=
  drive_moves _ _ (fun _ => True) (fun _ _ _ h => h) (fun p s _ => Move.extpayStep p s) _ _ _ trivial

theorem runDechdr_outcome (p : HdrPhase) (s : State) : Outcome s (runDechdr p s) :=
  drive_moves _ _ (fun _ => True) (fun _ _ _ h => h) (fun p s _ => Move.hdrStep p s) _ _ _ trivial

theorem runDecblk_outcome (p : DecblkAt) (s : State) : Outcome s (runDecblk p s) :=
  drive_moves _ _ (fun _ => True) (fun _ _ _ h => h) (fun p s _ => Move.decblkStep p s) _ _ _ trivial

theorem runDecscan_outcome (p : ScanPhase) (s : State) : Outcome s (runDecscan p s) :=
  drive_moves _ _ (fun _ => True) (fun _ _ _ h => h) (fun p s _ => Move.scanStep p s) _ _ _ trivial

/-! ### Every instruction -/

theorem divCalc_outcome (s : State) : Outcome s (divCalc s) := by
  unfold divCalc
  split
  · exact Outcome.fault (Move.refl s) _
  · exact Outcome.retire (Move.computeDivisors s)

/-- Every instruction answers a next state: the end of some move. -/
theorem exec_outcome (i : Instr) (s : State) : ∃ t, exec i s = .next t ∧ Outcome s t := by
  cases i with
  | nop => exact ⟨_, rfl, Outcome.retire (Move.refl s)⟩
  | mark imm => exact ⟨_, rfl, Outcome.retire (Move.ofMark s _)⟩
  | qtscale q =>
    refine ⟨_, rfl, ?_⟩
    split
    · exact Outcome.fault (Move.refl s) _
    · exact Outcome.after (Move.scaleTables s _) (divCalc_outcome _)
  | divcalc => exact ⟨_, rfl, divCalc_outcome s⟩
  | fdct => exact ⟨_, rfl, Outcome.retire (Move.writeDct s _)⟩
  | quant t blk =>
    refine ⟨_, rfl, ?_⟩
    split
    · exact Outcome.fault (Move.refl s) _
    · split
      · exact Outcome.fault (Move.refl s) _
      · split
        · exact Outcome.fault (Move.refl s) _
        · exact Outcome.retire (Move.setCoefs _ _ _)
  | zzfwd blk =>
    refine ⟨_, rfl, ?_⟩
    split
    · exact Outcome.fault (Move.refl s) _
    · exact Outcome.retire (Move.setCoefs _ _ _)
  | zzinv blk =>
    refine ⟨_, rfl, ?_⟩
    split
    · exact Outcome.fault (Move.refl s) _
    · exact Outcome.retire (Move.setCoefs _ _ _)
  | geom =>
    refine ⟨_, rfl, ?_⟩
    split
    · exact Outcome.fault (Move.refl s) _
    · rename_i g hg
      split
      · exact Outcome.fault (Move.refl s) _
      · rename_i hfit
        exact Outcome.retire (Move.setGeometry (geometry_blocks hg) (Nat.le_of_not_lt hfit))
  | blkaddr comp unit mcu =>
    refine ⟨_, rfl, ?_⟩
    split
    · exact Outcome.fault (Move.refl s) _
    · exact Outcome.retire (Move.ofResult _ _)
  | coefclr => exact ⟨_, rfl, Outcome.retire (Move.clearArray s)⟩
  | putbits size code =>
    refine ⟨_, rfl, ?_⟩
    split
    · exact Outcome.fault (Move.refl s) _
    · exact runEmit_outcome _ _ (by simpa [EmitAt, Ending.fits] using Nat.le_of_not_lt ‹_›)
  | flush => exact ⟨_, rfl, runEmit_outcome _ _ rfl⟩
  | emitraw b =>
    refine ⟨_, rfl, ?_⟩
    split
    · exact Outcome.fault (Move.refl s) _
    · exact runEmit_outcome _ _ rfl
  | predclr => exact ⟨_, rfl, Outcome.retire (Move.clearPreds s)⟩
  | encblk comp dt ac blk =>
    refine ⟨_, rfl, ?_⟩
    split
    · exact Outcome.fault (Move.refl s) _
    · split
      · exact Outcome.fault (Move.refl s) _
      · exact Outcome.after (Move.setPred s _ _) (runEmit_outcome _ _ (blockCodes_fits _ _ _ _ _ _))
  | encscan =>
    refine ⟨_, rfl, ?_⟩
    split
    · exact Outcome.fault (Move.refl s) _
    · split
      · exact Outcome.fault (Move.refl s) _
      · exact Outcome.after (Move.clearPreds s) (runEmit_outcome _ _ rfl)
  | dechdr => exact ⟨_, rfl, Outcome.after (Move.hdrInit s) (runDechdr_outcome _ _)⟩
  | decblk comp dt ac blk =>
    refine ⟨_, rfl, ?_⟩
    split
    · exact Outcome.fault (Move.refl s) _
    · split
      · exact Outcome.retire ((Move.warns s _).trans (Move.ofResult _ _))
      · exact Outcome.after (Move.beginBlock _ _) (runDecblk_outcome _ _)
  | decscan =>
    refine ⟨_, rfl, ?_⟩
    split
    · exact Outcome.retire (Move.warns s _)
    · exact Outcome.after (Move.scanInit s) (runDecscan_outcome _ _)
  | permgen => exact ⟨_, rfl, Outcome.after (Move.permInit s) (runPermgen_outcome _ _)⟩
  | permrd i =>
    refine ⟨_, rfl, ?_⟩
    split
    · exact Outcome.fault (Move.refl s) _
    · split
      · exact Outcome.fault (Move.refl s) _
      · exact Outcome.retire (Move.ofResult _ _)
  | curset p =>
    refine ⟨_, rfl, ?_⟩
    split
    · exact Outcome.fault (Move.refl s) _
    · split
      · exact Outcome.fault (Move.refl s) _
      · rename_i hp
        refine Outcome.retire (Move.ofF5 s _ rfl rfl (fun g => ⟨?_, g.cursor.2, g.codeWord⟩))
        show (BitVec.ofNat 25 p).toNat ≤ s.f5.permN.toNat
        rw [BitVec.toNat_ofNat]
        exact le_trans (Nat.mod_le _ _) (Nat.le_of_not_lt hp)
  | offer count =>
    refine ⟨_, rfl, ?_⟩
    split
    · exact Outcome.fault (Move.refl s) _
    · rename_i hc
      split
      · exact Outcome.fault (Move.refl s) _
      · refine Outcome.retire (Move.trans ?_ (Move.ofResult _ _))
        exact { (Move.clearCw s).toFrame.trans (Frame.drawCw count _) with
          good := fun g => (Good.drawCw ((Move.clearCw s).good g) count (by
            have : (0 : BitVec 8).toNat = 0 := rfl
            show (0 : BitVec 8).toNat + count ≤ s.cfg.cwMax
            omega)).1 }
  | xbit a =>
    refine ⟨_, rfl, ?_⟩
    split
    · exact Outcome.fault (Move.refl s) _
    · exact Outcome.retire (Move.ofResult _ _)
  | capcnt => exact ⟨_, rfl, Outcome.retire (Move.ofF5 s _ rfl rfl (fun g => ⟨g.cursor.1, g.cursor.2, g.codeWord⟩))⟩
  | bstep imm =>
    refine ⟨_, rfl, ?_⟩
    split
    · exact Outcome.fault (Move.refl s) _
    · split
      · exact Outcome.fault (Move.refl s) _
      · exact Outcome.retire ((Move.lsbEmbed _ _ _).trans (Move.ofResult _ _))
  | mstep val =>
    refine ⟨_, rfl, ?_⟩
    split
    · exact Outcome.fault (Move.refl s) _
    · rename_i hk
      split
      · exact Outcome.fault (Move.refl s) _
      · exact Outcome.retire ((Move.matrixEmbed _ _ (by omega) (by omega)).trans (Move.ofResult _ _))
  | mxtr =>
    refine ⟨_, rfl, ?_⟩
    split
    · exact Outcome.fault (Move.refl s) _
    · split
      · exact Outcome.fault (Move.refl s) _
      · exact Outcome.retire ((Move.drawSyndrome _ _ _ _).trans (Move.ofResult _ _))
  | embhdr =>
    refine ⟨_, rfl, ?_⟩
    split
    · exact Outcome.fault (Move.refl s) _
    · split
      · exact Outcome.fault (Move.refl s) _
      · exact Outcome.after (Move.embHdrInit s) (runEmbhdr_outcome _ _)
  | embpay =>
    refine ⟨_, rfl, ?_⟩
    split
    · exact Outcome.fault (Move.refl s) _
    · rename_i hk
      split
      · exact Outcome.fault (Move.refl s) _
      · exact runEmbpay_outcome _ _ (Nat.le_of_not_lt hk)
  | exthdr =>
    refine ⟨_, rfl, ?_⟩
    have h0 := Move.countExtracted s 0
    have hm := Move.readHeader 32 0 0 { s with f5.extBytes := 0 }
    split
    · exact Outcome.fault (Move.refl s) _
    · split <;> rename_i t h <;> rw [h] at hm
      · exact Outcome.retire (((h0.trans hm).trans (Move.warns _ _)).trans
          (Move.ofF5 _ _ rfl rfl (fun g => ⟨g.cursor.1, g.cursor.2, g.codeWord⟩)))
      · exact Outcome.after (h0.trans hm) (runExthdr_outcome _ _)
  | extpay =>
    refine ⟨_, rfl, ?_⟩
    split
    · exact Outcome.fault (Move.refl s) _
    · split
      · exact Outcome.retire (Move.countExtracted _ _)
      · exact Outcome.after (Move.countExtracted s 0) (runExtpay_outcome _ _)

end Sys2Proof.Machine
end

