-- ==== Sys2Proof/Laws/PerInstr.lean ====
section
/-! SUPPORT. Per-instruction facts about encodings: the operands of a well-formed instruction fill bits 23:0 and its word is its
opcode above them (30_encoding.md R140). -/

namespace Sys2Proof.Laws.EncodingShape

/-- The word of a well-formed instruction is its opcode in bits 31:24 and its operands in bits 23:0. -/
def Statement (i : Instr) : Prop :=
  i.wellFormed = true → i.operandBits < 2 ^ 24 ∧ (encode i).toNat = i.op.code * 2 ^ 24 + i.operandBits

/-- Every opcode fits bits 31:24. -/
theorem code_lt (o : Op) : o.code < 2 ^ 8 := by cases o <;> decide

/-- Operands that fit bits 23:0 give the whole statement. -/
theorem of_operandBits_lt {i : Instr} (h : i.wellFormed = true → i.operandBits < 2 ^ 24) : Statement i := by
  intro hw
  refine ⟨h hw, ?_⟩
  have hc := code_lt i.op
  have hb := h hw
  simp only [encode, BitVec.toNat_ofNat]
  omega

theorem nop : Statement .nop :=
  of_operandBits_lt (fun _ => by decide)

theorem mark (imm : BitVec 24) : Statement (.mark imm) := by
  refine of_operandBits_lt (fun _ => ?_)
  have := imm.isLt
  simp only [Instr.operandBits]
  omega

theorem qtscale (q : Nat) : Statement (.qtscale q) := by
  refine of_operandBits_lt (fun h => ?_)
  simp only [Instr.wellFormed, fitsField, decide_eq_true_eq] at h
  simp only [Instr.operandBits]
  omega

theorem divcalc : Statement .divcalc :=
  of_operandBits_lt (fun _ => by decide)

theorem fdct : Statement .fdct :=
  of_operandBits_lt (fun _ => by decide)

theorem quant (t : Fin 2) (blk : Nat) : Statement (.quant t blk) := by
  refine of_operandBits_lt (fun h => ?_)
  have := t.isLt
  simp only [Instr.wellFormed, fitsField, decide_eq_true_eq] at h
  simp only [Instr.operandBits]
  omega

theorem zzfwd (blk : Nat) : Statement (.zzfwd blk) := by
  refine of_operandBits_lt (fun h => ?_)
  simp only [Instr.wellFormed, fitsField, decide_eq_true_eq] at h
  simp only [Instr.operandBits]
  omega

theorem zzinv (blk : Nat) : Statement (.zzinv blk) := by
  refine of_operandBits_lt (fun h => ?_)
  simp only [Instr.wellFormed, fitsField, decide_eq_true_eq] at h
  simp only [Instr.operandBits]
  omega

theorem geom : Statement .geom :=
  of_operandBits_lt (fun _ => by decide)

theorem blkaddr (comp : Fin 4) (unit : Nat) (mcu : Nat) : Statement (.blkaddr comp unit mcu) := by
  refine of_operandBits_lt (fun h => ?_)
  have := comp.isLt
  simp only [Instr.wellFormed, fitsField, Bool.and_eq_true, decide_eq_true_eq] at h
  simp only [Instr.operandBits]
  omega

theorem coefclr : Statement .coefclr :=
  of_operandBits_lt (fun _ => by decide)

theorem putbits (size : Nat) (code : BitVec 16) : Statement (.putbits size code) := by
  refine of_operandBits_lt (fun h => ?_)
  have := code.isLt
  simp only [Instr.wellFormed, fitsField, decide_eq_true_eq] at h
  simp only [Instr.operandBits]
  omega

theorem flush : Statement .flush :=
  of_operandBits_lt (fun _ => by decide)

theorem emitraw (b : Byte) : Statement (.emitraw b) := by
  refine of_operandBits_lt (fun _ => ?_)
  have := b.isLt
  simp only [Instr.operandBits]
  omega

theorem predclr : Statement .predclr :=
  of_operandBits_lt (fun _ => by decide)

theorem encblk (comp : Fin 4) (dt : Fin 2) (ac : Fin 2) (blk : Nat) : Statement (.encblk comp dt ac blk) := by
  refine of_operandBits_lt (fun h => ?_)
  have := comp.isLt
  have := dt.isLt
  have := ac.isLt
  simp only [Instr.wellFormed, fitsField, decide_eq_true_eq] at h
  simp only [Instr.operandBits]
  omega

theorem encscan : Statement .encscan :=
  of_operandBits_lt (fun _ => by decide)

theorem dechdr : Statement .dechdr :=
  of_operandBits_lt (fun _ => by decide)

theorem decblk (comp : Fin 4) (dt : Fin 2) (ac : Fin 2) (blk : Nat) : Statement (.decblk comp dt ac blk) := by
  refine of_operandBits_lt (fun h => ?_)
  have := comp.isLt
  have := dt.isLt
  have := ac.isLt
  simp only [Instr.wellFormed, fitsField, decide_eq_true_eq] at h
  simp only [Instr.operandBits]
  omega

theorem decscan : Statement .decscan :=
  of_operandBits_lt (fun _ => by decide)

theorem permgen : Statement .permgen :=
  of_operandBits_lt (fun _ => by decide)

theorem permrd (i : Nat) : Statement (.permrd i) := by
  refine of_operandBits_lt (fun h => ?_)
  simp only [Instr.wellFormed, fitsField, decide_eq_true_eq] at h
  simp only [Instr.operandBits]
  omega

theorem curset (p : Nat) : Statement (.curset p) := by
  refine of_operandBits_lt (fun h => ?_)
  simp only [Instr.wellFormed, fitsField, decide_eq_true_eq] at h
  simp only [Instr.operandBits]
  omega

theorem offer (count : Nat) : Statement (.offer count) := by
  refine of_operandBits_lt (fun h => ?_)
  simp only [Instr.wellFormed, fitsField, decide_eq_true_eq] at h
  simp only [Instr.operandBits]
  omega

theorem xbit (a : Nat) : Statement (.xbit a) := by
  refine of_operandBits_lt (fun h => ?_)
  simp only [Instr.wellFormed, fitsField, decide_eq_true_eq] at h
  simp only [Instr.operandBits]
  omega

theorem capcnt : Statement .capcnt :=
  of_operandBits_lt (fun _ => by decide)

theorem bstep (imm : BitVec 8) : Statement (.bstep imm) := by
  refine of_operandBits_lt (fun _ => ?_)
  have := imm.isLt
  simp only [Instr.operandBits]
  omega

theorem mstep (val : Nat) : Statement (.mstep val) := by
  refine of_operandBits_lt (fun h => ?_)
  simp only [Instr.wellFormed, fitsField, decide_eq_true_eq] at h
  simp only [Instr.operandBits]
  omega

theorem mxtr : Statement .mxtr :=
  of_operandBits_lt (fun _ => by decide)

theorem embhdr : Statement .embhdr :=
  of_operandBits_lt (fun _ => by decide)

theorem embpay : Statement .embpay :=
  of_operandBits_lt (fun _ => by decide)

theorem exthdr : Statement .exthdr :=
  of_operandBits_lt (fun _ => by decide)

theorem extpay : Statement .extpay :=
  of_operandBits_lt (fun _ => by decide)

end Sys2Proof.Laws.EncodingShape
end

