-- ==== Sys2Proof/Tests/Slice0.lean ====
section
/-! SUPPORT. Tests. Expected values come from the spec: the encodings of 30_encoding.md, the examples of each command's rule and the
vectors of 95_test_vectors.md. The witnesses show, for each obligation with hypotheses, states and operands that meet them. -/

namespace Sys2Proof.Tests

open Sys2Proof.Machine

set_option Elab.async false

/-! ### Helpers -/

/-- The state after the step that runs word `w`. -/
def ran (w : Nat) (s : State) : State :=
  match step (s.withFetchWord 32 w) with
  | .next t => t
  | .fault _ => s
  | .refused _ => s

/-- `COEF` holds a list of values from entry 0 on. -/
def withCoefs (coefs : List Int) (s : State) : State :=
  { s with ram.coef := Memory.numbered 0 (coefs.map (BitVec.ofInt 16)) }

/-- An array of 64 coefficients (the rest 0) with the identity permutation and K = 2. -/
def arrayOf (coefs : List Int) : State :=
  withCoefs (coefs ++ List.replicate (64 - coefs.length) 0)
    { State.reset with
      geo.ncoef := 64
      ram.perm := Memory.numbered 0 ((List.range 64).map (BitVec.ofNat 24))
      f5.permN := 64
      f5.k := 2
      valid.perm := true }

/-- The array `[0] + [2]·63` of 95_test_vectors.md §2.7. -/
def twos : State := arrayOf (0 :: List.replicate 63 2)

/-- A block whose entries are their own indices. -/
def indices : State := arrayOf ((List.range 64).map (fun i => (i : Int)))

/-- The quantisation tables hold one value. -/
def withQt (v : BitVec 16) (s : State) : State := { s with ram.qt := Memory.numbered 0 (List.replicate 256 v) }

/-- DCTBUF holds one value, and the divisors another. -/
def withDct (x d : F64) (s : State) : State :=
  { s with
    ram.dct := Memory.numbered 0 (List.replicate 64 x)
    ram.div := Memory.numbered 0 (List.replicate 128 d)
    valid.div := true }

/-! ### Well-formedness: an ill-formed term for each check -/

theorem test_wellFormed_refuses :
    (Instr.qtscale 256).wellFormed = false ∧ (Instr.quant 0 262144).wellFormed = false ∧
    (Instr.zzfwd 262144).wellFormed = false ∧ (Instr.zzinv 262144).wellFormed = false ∧
    (Instr.blkaddr 0 16 0).wellFormed = false ∧ (Instr.blkaddr 0 0 262144).wellFormed = false ∧
    (Instr.putbits 32 0).wellFormed = false ∧ (Instr.encblk 0 0 0 262144).wellFormed = false ∧
    (Instr.decblk 0 0 0 262144).wellFormed = false ∧ (Instr.permrd 16777216).wellFormed = false ∧
    (Instr.curset 16777216).wellFormed = false ∧ (Instr.offer 256).wellFormed = false ∧
    (Instr.xbit 16777216).wellFormed = false ∧ (Instr.mstep 16777216).wellFormed = false := by decide

theorem test_wellFormed_accepts_the_largest_operands :
    (Instr.qtscale 255).wellFormed = true ∧ (Instr.blkaddr 3 15 262143).wellFormed = true ∧
    (Instr.putbits 31 0xFFFF).wellFormed = true ∧ (Instr.encblk 3 1 1 262143).wellFormed = true ∧
    (Instr.mstep 16777215).wellFormed = true := by decide

/-! ### Decoding: one word per row, from the formats of 30_encoding.md R142 to R149 and the opcodes of R152 -/

theorem test_decode_control : decode 0x00000000 = .ok .nop ∧ decode 0x0100ABCD = .ok (.mark 0xABCD) := by decide

theorem test_decode_transform :
    decode 0x10000050 = .ok (.qtscale 80) ∧ decode 0x11000000 = .ok .divcalc ∧ decode 0x12000000 = .ok .fdct ∧
    decode 0x13200005 = .ok (.quant 1 5) := by decide

theorem test_decode_array :
    decode 0x18000007 = .ok (.zzfwd 7) ∧ decode 0x1903FFFF = .ok (.zzinv 262143) ∧ decode 0x1A000000 = .ok .geom ∧
    decode 0x1B800003 = .ok (.blkaddr 2 0 3) ∧ decode 0x1B100000 = .ok (.blkaddr 0 4 0) ∧ decode 0x1C000000 = .ok .coefclr := by decide

theorem test_decode_encoder :
    decode 0x200800FF = .ok (.putbits 8 0xFF) ∧ decode 0x21000000 = .ok .flush ∧ decode 0x220000D9 = .ok (.emitraw 0xD9) ∧
    decode 0x23000000 = .ok .predclr ∧ decode 0x24700004 = .ok (.encblk 1 1 1 4) ∧ decode 0x25000000 = .ok .encscan := by decide

theorem test_decode_decoder :
    decode 0x30000000 = .ok .dechdr ∧ decode 0x31900002 = .ok (.decblk 2 0 1 2) ∧ decode 0x32000000 = .ok .decscan := by decide

theorem test_decode_permutation :
    decode 0x40000000 = .ok .permgen ∧ decode 0x41000001 = .ok (.permrd 1) ∧ decode 0x42FFFFFF = .ok (.curset 16777215) ∧
    decode 0x43000003 = .ok (.offer 3) := by decide

theorem test_decode_f5 :
    decode 0x48000005 = .ok (.xbit 5) ∧ decode 0x49000000 = .ok .capcnt ∧ decode 0x4A000003 = .ok (.bstep 3) ∧
    decode 0x4B000002 = .ok (.mstep 2) ∧ decode 0x4C000000 = .ok .mxtr ∧ decode 0x4D000000 = .ok .embhdr ∧
    decode 0x4E000000 = .ok .embpay ∧ decode 0x4F000000 = .ok .exthdr ∧ decode 0x50000000 = .ok .extpay := by decide

/-- 95_test_vectors.md §2.1: reserved bits and unassigned opcodes. -/
theorem test_decode_rejects :
    decode 0x00000001 = .error .rsvd ∧ decode 0x05000000 = .error .illegal ∧ decode 0x13040000 = .error .rsvd ∧
    decode 0xFF000001 = .error .illegal := by decide

theorem test_table_word : decodeTableWord 32 0x13200005 = some (.quant 1 5) ∧ decodeTableWord 32 0x05000000 = none := by decide

/-! ### One step per instruction -/

/-- 40_control.md R180: CMDCNT 5 becomes 6. -/
theorem test_nop : (ran 0x00000000 { State.reset with cmdcnt := 5 }).cmdcnt = 6 := by decide +kernel

/-- 95_test_vectors.md §2.1. -/
theorem test_rsvd_fault :
    (ran 0x00000001 State.reset).statusWord = 0x202 ∧ (ran 0x00000001 State.reset).fcmd = 1 ∧
    (ran 0x00000001 State.reset).cmdcnt = 0 := by decide +kernel

/-- 40_control.md R181. -/
theorem test_mark : (ran 0x0100ABCD State.reset).mark = 0xABCD := by decide +kernel

/-- 95_test_vectors.md §2.3: the first entries of both tables at quality 80. -/
theorem test_qtscale :
    (List.range 8).map (fun i => ((ran 0x10000050 State.reset).qtAt 0 i).toNat) = [6, 4, 4, 6, 10, 16, 20, 24] ∧
    (List.range 8).map (fun i => ((ran 0x10000050 State.reset).qtAt 1 i).toNat) = [7, 7, 10, 19, 40, 40, 40, 40] := by decide +kernel

/-- 95_test_vectors.md §2.3: two divisors at quality 80. -/
theorem test_qtscale_divisors :
    (ran 0x10000050 State.reset).divAt 0 1 = 0x3F97121A553F020E ∧
    (ran 0x10000050 State.reset).divAt 1 63 = 0x3FA504F1C21DB59B := by decide +kernel

/-- 42_transform_quant.md R222: entry 6 of the quality-80 table gives 1/48. -/
theorem test_divcalc : (ran 0x11000000 (withQt 6 State.reset)).divAt 0 0 = 0x3F95555555555555 := by decide +kernel

/-- 42_transform_quant.md R225: all samples 129 give DCT[0] = 64.0 and zeros. -/
theorem test_fdct :
    (ran 0x12000000 { State.reset with ram.pix := Memory.numbered 0 (List.replicate 64 129) }).dctAt 0 = 0x4050000000000000 ∧
    (ran 0x12000000 { State.reset with ram.pix := Memory.numbered 0 (List.replicate 64 129) }).dctAt 9 = 0 := by decide +kernel

/-- 42_transform_quant.md R228: 64.0 · 0.0234375 is 1.5, which QROUND 0 rounds to 2. -/
theorem test_quant : (ran 0x13000000 (withDct 0x4050000000000000 0x3F98000000000000 twos)).coefInt 63 = 2 := by decide +kernel

/-- 95_test_vectors.md §2.3: NODIV, and the range check before it. -/
theorem test_quant_faults :
    (ran 0x13000000 twos).agent = .halted .nodiv ∧ (ran 0x13000001 twos).agent = .halted .coefrange := by decide +kernel

/-- 95_test_vectors.md §2.4. -/
theorem test_zzfwd :
    (List.range 8).map (fun i => (ran 0x18000000 indices).coefInt i) = [0, 1, 8, 16, 9, 2, 3, 10] := by decide +kernel

/-- 95_test_vectors.md §2.4. -/
theorem test_zzinv :
    (ran 0x19000000 indices).coefInt 2 = 5 ∧ (ran 0x19000000 indices).coefInt 8 = 2 ∧
    (ran 0x19000000 indices).coefInt 16 = 3 := by decide +kernel

/-- The 64×64 frame with the reset components. -/
def frame64 : State := { State.reset with geo.imgW := 64, geo.imgH := 64 }

/-- 95_test_vectors.md §2.4. -/
theorem test_geom :
    (ran 0x1A000000 frame64).geo.mcux = 4 ∧ (ran 0x1A000000 frame64).geo.ncoef = 6144 := by decide +kernel

/-- 95_test_vectors.md §2.4. -/
theorem test_geom_faults :
    (ran 0x1A000000 State.reset).agent = .halted .geom ∧
    (ran 0x1A000000 { frame64 with cfg.coefDepth := 4096 }).agent = .halted .coefovf := by decide +kernel

/-- 95_test_vectors.md §2.4: the block of (2, 0, 3), and unit 4 of a component with 4 units. -/
theorem test_blkaddr :
    (ran 0x1B800003 (ran 0x1A000000 frame64)).result = 23 ∧
    (ran 0x1B100000 (ran 0x1A000000 frame64)).agent = .halted .operand := by decide +kernel

/-- 43_zigzag_mux.md R268: entries at and above NCOEF stay. -/
theorem test_coefclr :
    (ran 0x1C000000 (withCoefs (List.replicate 65 7) twos)).coefInt 63 = 0 ∧
    (ran 0x1C000000 (withCoefs (List.replicate 65 7) twos)).coefInt 64 = 7 := by decide +kernel

/-- 95_test_vectors.md §2.5: stuffing, and the bits left over. -/
theorem test_putbits :
    (ran 0x200800FF State.reset).fifo.out = [0xFF, 0x00] ∧
    (ran 0x2004000A (ran 0x2010FFFF State.reset)).coder.putbuf = 0xA00000 := by decide +kernel

/-- 95_test_vectors.md §2.5: PADBIT 1 and 0. -/
theorem test_flush :
    (ran 0x21000000 (ran 0x20030005 State.reset)).fifo.out = [0xBF] ∧
    (ran 0x21000000 (ran 0x20030005 { State.reset with ctrl.padbit := false })).fifo.out = [0xA0] := by decide +kernel

/-- 95_test_vectors.md §2.5: not stuffed; UNALIGNED with a bit pending. -/
theorem test_emitraw :
    (ran 0x220000D9 (ran 0x220000FF State.reset)).fifo.out = [0xFF, 0xD9] ∧
    (ran 0x220000D9 (ran 0x20010001 State.reset)).agent = .halted .unaligned := by decide +kernel

/-- 44_entropy_encoder.md R298. -/
theorem test_predclr :
    (ran 0x23000000 { State.reset with coder.pred := { c0 := 0xFFFD, c1 := 1, c2 := 2, c3 := 3 } }).coder.pred =
      { c0 := 0, c1 := 0, c2 := 0, c3 := 0 } := by decide +kernel

/-- The block of 44_entropy_encoder.md R300's example: −3, 5 and −1 at ZZ[1] and ZZ[2], 1 at ZZ[20]. -/
def mixed : State := arrayOf ([-3, 5, 0, 0, 0, 0, 0, 0, -1] ++ List.replicate 31 0 ++ [1])

/-- 44_entropy_encoder.md R300: ENCBLK and FLUSH. -/
theorem test_encblk :
    (ran 0x21000000 (ran 0x24000000 mixed)).fifo.out = [0x64, 0xA3, 0xFC, 0xE6, 0xBF] ∧
    (ran 0x24000000 mixed).coder.pred.c0 = 0xFFFD := by decide +kernel

/-- 95_test_vectors.md §2.5: an AC value of category 11. -/
theorem test_encblk_nocode : (ran 0x24000000 (arrayOf [0, 1024])).agent = .halted .nocode := by decide +kernel

/-- An 8×8 frame of one component with an all-zero block. -/
def frame8 : State := ran 0x1A000000 { arrayOf [] with geo.ncomp := 1, geo.imgW := 8, geo.imgH := 8 }

/-- 44_entropy_encoder.md R301. -/
theorem test_encscan : (ran 0x25000000 frame8).fifo.out = [0x2B] := by decide +kernel

/-- 44_entropy_encoder.md R291 in its order: with OUT full, a PUTBITS that waits has not written the packer; with room it goes on. -/
theorem test_putbits_waits :
    (let t := ran 0x200800FF { State.reset with fifo.out := List.replicate 64 7 }
     (∃ p, t.agent = .stall .out p) ∧ t.coder.putbits = 0 ∧ t.coder.outcnt = 0) ∧
    (let t := ran 0x200800FF { State.reset with fifo.out := List.replicate 63 7 }
     (∃ p, t.agent = .stall .out p) ∧ t.coder.outcnt = 1) :=
  ⟨⟨⟨_, rfl⟩, by decide +kernel⟩, ⟨⟨_, rfl⟩, by decide +kernel⟩⟩

/-- A 16×8 frame of one component: a codable block, and one whose AC value of 1024 has no code. -/
def frame16 : State :=
  ran 0x1A000000 { withCoefs (7 :: List.replicate 64 0 ++ 1024 :: List.replicate 62 0) (arrayOf []) with
    geo.ncomp := 1, geo.imgW := 16, geo.imgH := 8 }

/-- 44_entropy_encoder.md R301: NOCODE leaves the block before coded, pushed (DC category 3 `100` and bits `111`, EOB `1010`: 10 bits, the
first byte `9E`) and its predictor written. -/
theorem test_encscan_nocode :
    (let t := ran 0x25000000 frame16
     t.agent = .halted .nocode ∧ t.fifo.out = [0x9E] ∧ t.coder.putbits = 2 ∧ t.coder.pred.c0 = 7) := by decide +kernel

/-- The header H8 of 95_test_vectors.md §2.6, followed by `data`. -/
def h8 (data : List Byte) : State :=
  { State.reset with
    fifo.inp := headerBytes 8 8 (List.replicate 64 1) ++ data
    fifo.inEos := true
    ram.coef := [] }

/-- 45_entropy_decoder.md R350. -/
theorem test_dechdr :
    (ran 0x30000000 (h8 [])).geo.ncoef = 64 ∧ (ran 0x30000000 (h8 [])).coder.incnt = 306 ∧
    (ran 0x30000000 (h8 [])).warn = 0 := by decide +kernel

/-- 45_entropy_decoder.md R366. -/
theorem test_decblk :
    (let t := ran 0x31000000 (ran 0x30000000 (h8 [0x64, 0xA3, 0xFC, 0xE6, 0xBF]))
     t.result = 0 ∧ t.reader.bitcnt = 6 ∧ t.coefInt 0 = -3 ∧ t.coefInt 40 = 1 ∧ t.coefInt 63 = 0) := by decide +kernel

/-- 95_test_vectors.md §2.6, the first row. -/
theorem test_decscan :
    (let t := ran 0x32000000 (ran 0x30000000 (h8 [0x64, 0xA3, 0xFC, 0xE6, 0xBF, 0xFF, 0xD9]))
     t.seen.eoi = true ∧ t.coder.incnt = 313 ∧ t.coefInt 8 = -1 ∧ t.warn = 0) := by decide +kernel

/-- 41_permutation.md R193, the algorithm of its example over 64 entries with zero bytes: every draw is 0, so entry 0 is 1. -/
theorem test_permgen :
    (let t := ran 0x40000000 { State.reset with geo.ncoef := 64, fifo.rng := List.replicate 256 0 }
     (t.permAt 0).toNat = 1 ∧ (t.permAt 63).toNat = 0 ∧ t.f5.permN = 64 ∧ t.valid.perm = true) := by decide +kernel

/-- 41_permutation.md R191's example. -/
theorem test_next_value :
    boundedValue (rngWordOr false 0x80 0x01 0x00 0x00) 1000 = 384 ∧
    boundedValue (rngWordOr true 0x80 0x01 0x00 0x00) 1000 = 872 := by decide +kernel

/-- 41_permutation.md R194: an entry, and the fault at PERM_N. -/
theorem test_permrd :
    (ran 0x4100003F twos).result = 63 ∧ (ran 0x41000040 twos).agent = .halted .coefrange := by decide +kernel

/-- 41_permutation.md R196: PERM_N is legal, and the first value after it is not. -/
theorem test_curset :
    (ran 0x42000040 twos).f5.pos = 64 ∧ (ran 0x42000041 twos).agent = .halted .operand := by decide +kernel

/-- 95_test_vectors.md §2.2. -/
theorem test_offer :
    (let t := ran 0x43000003 (arrayOf [0, 3, -2, 5])
     t.result = 3 ∧ t.f5.pos = 4 ∧ (t.cwAt 2).toNat = 3) ∧
    (ran 0x43000004 (arrayOf [0, 3, -2, 5])).f5.pos = 64 := by decide +kernel

/-- 46_f5_matrix.md R410. -/
theorem test_xbit :
    (ran 0x48000005 (arrayOf [0, 0, 0, 0, 0, -2])).result = 1 ∧
    (ran 0x48000005 (arrayOf [])).result = 0xFFFFFFFF := by decide +kernel

/-- 46_f5_matrix.md R402 on the non-DC values 1, −1, 5 and 60 zeros. -/
theorem test_capcnt :
    (let t := ran 0x49000000 (arrayOf [9, 1, -1, 5])
     t.f5.capOnes = 2 ∧ t.f5.capZeros = 60 ∧ t.f5.capNondc = 63 ∧ t.f5.capLarge = 1) := by decide +kernel

/-- 95_test_vectors.md §2.7: [1, 4] with bit 0, retried and lossy. -/
theorem test_bstep :
    (let t := ran 0x4A000000 (arrayOf [0, 1, 4])
     t.result = 0 ∧ t.coefInt 1 = 0 ∧ t.coefInt 2 = 4 ∧ t.f5.pos = 3) ∧
    (let t := ran 0x4A000002 (arrayOf [0, 1, 4])
     t.result = 1 ∧ t.f5.pos = 2) := by decide +kernel

/-- 95_test_vectors.md §2.7, MSTEP vector 3, the shrinkage case. -/
theorem test_mstep :
    (let t := ran 0x4B000000 (arrayOf [0, 1, 2, 4, 3])
     t.result = 0 ∧ (List.range 5).map (fun i => t.coefInt i) = [0, 0, 2, 4, 2] ∧ t.f5.pos = 5 ∧ t.f5.embShrink = 1) := by decide +kernel

/-- 95_test_vectors.md §2.7, MXTR rows 1 and 4. -/
theorem test_mxtr :
    (ran 0x4C000000 (arrayOf [0, 3, -1, 5])).result = 2 ∧
    (ran 0x4C000000 (arrayOf [0, 2])).result = 0xFFFFFFFF := by decide +kernel

/-- Case A of 95_test_vectors.md §2.7 before EMBHDR: payload 41 and zero whitening. -/
def caseA : State :=
  { twos with f5.k := 1, f5.paylen := 1, fifo.payin := [0x41], fifo.rng := List.replicate 5 0 }

/-- 46_f5_matrix.md R407. -/
theorem test_embhdr :
    (let t := ran 0x4D000000 caseA
     t.f5.hdrword = 0x01000001 ∧ t.coefInt 1 = 1 ∧ t.coefInt 25 = 1 ∧ t.f5.pos = 33 ∧ t.f5.embChanged = 2) := by decide +kernel

/-- 46_f5_matrix.md R408. -/
theorem test_embpay :
    (let t := ran 0x4E000000 (ran 0x4D000000 caseA)
     t.coefInt 33 = 1 ∧ t.coefInt 39 = 1 ∧ t.f5.pos = 41 ∧ t.f5.embBytes = 1 ∧ t.f5.embChanged = 4 ∧ t.warn = 0) := by decide +kernel

/-- The array of case A after embedding, with the extractor's generator bytes. -/
def extractA : State :=
  { ran 0x4E000000 (ran 0x4D000000 caseA) with f5.pos := 0, fifo.rng := List.replicate 5 0 }

/-- 46_f5_matrix.md R415. -/
theorem test_exthdr :
    (let t := ran 0x4F000000 extractA
     t.f5.extLen = 1 ∧ t.f5.extK = 1 ∧ t.f5.pos = 33) := by decide +kernel

/-- 46_f5_matrix.md R416. -/
theorem test_extpay :
    (let t := ran 0x50000000 (ran 0x4F000000 extractA)
     t.fifo.payout = [0x41] ∧ t.f5.extBytes = 1 ∧ t.f5.pos = 41) := by decide +kernel

/-! ### Witnesses: states and operands that meet an obligation's hypotheses -/

/-- The invariant from facts that can be decided. -/
theorem inv_intro {s : State}
    (params : s.cfg.wf)
    (rams : (Memory.wf s.ram.coef ∧ Memory.wf s.ram.perm ∧ Memory.wf s.ram.pix ∧ Memory.wf s.ram.qt) ∧
      (Memory.wf s.ram.dct ∧ Memory.wf s.ram.div ∧ Memory.wf s.ram.cw) ∧
      (Memory.wf s.ram.dhMax ∧ Memory.wf s.ram.dhMin ∧ Memory.wf s.ram.dhPtr ∧ Memory.wf s.ram.dhVal))
    (fifos : (s.fifo.cmd.length ≤ s.cfg.cmdqDepth ∧ s.fifo.rng.length ≤ s.cfg.rngqDepth ∧ s.fifo.inp.length ≤ s.cfg.inqDepth) ∧
      s.fifo.payin.length ≤ s.cfg.payinqDepth ∧ s.fifo.out.length ≤ s.cfg.outqDepth ∧
      s.fifo.payout.length ≤ s.cfg.payoutqDepth)
    (registers : (s.geo.ncoef.toNat % 64 = 0 ∧ s.geo.ncoef.toNat ≤ s.cfg.coefDepth) ∧
      (1 ≤ s.geo.ncomp.toNat ∧ s.geo.ncomp.toNat ≤ 4) ∧
      (s.coder.putbits.toNat ≤ 7 ∧ s.coder.putbuf.toNat % 2 ^ (24 - s.coder.putbits.toNat) = 0) ∧ s.reader.bitcnt ≤ 8 ∧
      (s.f5.pos.toNat ≤ s.f5.permN.toNat ∧ s.f5.permN.toNat ≤ s.cfg.coefDepth) ∧ s.f5.cwlen.toNat ≤ s.cfg.cwMax)
    (agent : (s.executing = false → s.fifo.cmd = []) ∧ (s.agent.embedding = true → s.f5.k.toNat ≤ s.cfg.kMaxEmb) ∧
      s.agent.codesFit = true) :
    s.Inv where
  params := params
  rams := {
    coef := rams.1.1
    perm := rams.1.2.1
    pix := rams.1.2.2.1
    qt := rams.1.2.2.2
    dct := rams.2.1.1
    div := rams.2.1.2.1
    cw := rams.2.1.2.2
    dhMax := rams.2.2.1
    dhMin := rams.2.2.2.1
    dhPtr := rams.2.2.2.2.1
    dhVal := rams.2.2.2.2.2 }
  fifos := {
    cmd := fifos.1.1
    rng := fifos.1.2.1
    inp := fifos.1.2.2
    payin := fifos.2.1
    out := fifos.2.2.1
    payout := fifos.2.2.2 }
  array := registers.1
  components := registers.2.1
  packer := registers.2.2.1
  reader := registers.2.2.2.1
  cursor := registers.2.2.2.2.1
  codeWord := registers.2.2.2.2.2
  queue := agent.1
  embedding := agent.2.1
  encoding := agent.2.2

/-- The permutation's invariant from facts that can be decided. -/
theorem permInv_intro {s : State} (complete : (s.permList s.f5.permN.toNat).Perm (List.range s.f5.permN.toNat))
    (idle : s.agent.shuffling = false) : s.PermInv where
  complete := fun _ => complete
  building := fun h => by simp [idle] at h

/-- Every FIFO of a state full or half full, an idle core. -/
def crowded : State :=
  { arrayOf [0, 3, -2, 5] with
    fifo.rng := List.replicate 64 1
    fifo.inp := List.replicate 64 1
    fifo.payin := List.replicate 64 1
    fifo.out := [7]
    fifo.payout := [8] }

/-- A stalled command with a full command FIFO behind it. -/
def waiting : State :=
  { arrayOf [0, 3, -2, 5] with agent := .stall .rng (.embHdr []), fifo.cmd := List.replicate 16 0 }

/-- An executing command with room in the command FIFO. -/
def running : State := { arrayOf [0, 3, -2, 5] with agent := .exec .start }

/-- A recorded fault. -/
def faulty : State := { crowded with agent := .halted .geom }

theorem inv_arrayOf_example : (arrayOf [0, 3, -2, 5]).Inv :=
  inv_intro (by decide) (by decide +kernel) (by decide) (by decide) (by decide)

theorem inv_twos : twos.Inv := inv_intro (by decide) (by decide +kernel) (by decide) (by decide) (by decide)

theorem inv_caseA : caseA.Inv := inv_intro (by decide) (by decide +kernel) (by decide) (by decide) (by decide)

theorem inv_crowded : crowded.Inv := inv_intro (by decide) (by decide +kernel) (by decide) (by decide) (by decide)

theorem inv_waiting : waiting.Inv := inv_intro (by decide) (by decide +kernel) (by decide) (by decide) (by decide)

theorem inv_running : running.Inv := inv_intro (by decide) (by decide +kernel) (by decide) (by decide) (by decide)

theorem inv_faulty : faulty.Inv := inv_intro (by decide) (by decide +kernel) (by decide) (by decide) (by decide)

theorem permInv_arrayOf_example : (arrayOf [0, 3, -2, 5]).PermInv := permInv_intro (by decide +kernel) (by decide)

theorem permInv_caseA : caseA.PermInv := permInv_intro (by decide +kernel) (by decide)

theorem witness_DecodeInvertsEncode :
    (Instr.blkaddr 3 15 262143).wellFormed = true ∧ (Instr.quant 1 0).wellFormed = true := by decide

theorem witness_EncodeInvertsDecode : decode 0x1BFFFFFF = .ok (.blkaddr 3 15 262143) := by decide

/-- An unassigned opcode, a reserved bit at each end of a reserved field, and a command. -/
theorem witness_WordsThatAreNoCommandFault :
    (∀ w : Word, ({ State.reset with agent := .exec .start, cur := w }).agent = .exec .start ∧
      ({ State.reset with agent := .exec .start, cur := w }).host = []) ∧
    (decode 0x02000000 = .error .illegal ∧ decode 0x51000000 = .error .illegal) ∧
    (decode 0x00000001 = .error .rsvd ∧ decode 0x10000100 = .error .rsvd ∧ decode 0x10800000 = .error .rsvd ∧
      decode 0x13800000 = .error .rsvd ∧ decode 0x18040000 = .error .rsvd ∧ decode 0x20800000 = .error .rsvd ∧
      decode 0x240C0000 = .error .rsvd) ∧ decode 0x10000064 = .ok (.qtscale 100) :=
  ⟨fun _ => ⟨rfl, rfl⟩, by decide, by decide, by decide⟩

theorem witness_StepRunsTheDecodedCommand :
    ∃ s : State, s.agent = .exec .start ∧ decode s.cur = .ok .nop ∧ s.host = [] ∧
      ∃ t : State, t.agent = .idle ∧ t.fifo.cmd = [0x01000005] :=
  ⟨{ State.reset with agent := .exec .start }, by decide, by decide, by decide,
    { State.reset with fifo.cmd := [0x01000005] }, by decide, by decide⟩

/-- The hypothesis of the statements about every command. -/
theorem witness_CommandsKeepControlStateAndFifoOrder : ∃ t, exec (.mark 5) State.reset = .next t ∧ t.mark = 5 :=
  ⟨_, rfl, by decide⟩

/-- A command outside every list of OnlyTheNamedCommandsUseEachFifoAndRam and OnlyTheNamedCommandsWriteEachRegister. -/
theorem witness_OnlyTheNamedCommands :
    (∃ t, exec .nop State.reset = .next t) ∧ Instr.nop.op ∉ [Op.permgen, .embhdr, .embpay, .exthdr, .extpay, .mark, .geom] :=
  ⟨⟨_, rfl⟩, by decide⟩

theorem witness_OnlyAResetLeavesHalted : faulty.cfg.wf ∧ faulty.agent = .halted .geom ∧ ∃ t, step faulty = .next t :=
  ⟨by decide, by decide, _, rfl⟩

theorem witness_StepKeepsTheInvariant : waiting.Inv ∧ ∃ t, step waiting = .next t := ⟨inv_waiting, _, rfl⟩

theorem witness_StepKeepsThePermutationABijection :
    (arrayOf [0, 3, -2, 5]).Inv ∧ (arrayOf [0, 3, -2, 5]).PermInv ∧ ∃ t, step (arrayOf [0, 3, -2, 5]) = .next t :=
  ⟨inv_arrayOf_example, permInv_arrayOf_example, _, rfl⟩

theorem witness_RegistersReadTheirResetValues : Params.default.wf ∧ ({ Params.default with coefDepth := 64, kMaxEmb := 1 }).wf := by
  decide

theorem witness_ResetsGiveTheResetState : waiting.cfg.wf ∧ (0x00000001 : Word).getLsbD 0 = true := by decide

theorem witness_windows_while_not_busy :
    crowded.cfg.wf ∧ crowded.busy = false ∧ faulty.busy = false ∧ 1048575 < crowded.cfg.coefDepth ∧
    126 < crowded.cfg.cwMax ∧ crowded.f5.cwlen.toNat ≤ 126 ∧ 2 < (ran 0x43000003 crowded).f5.cwlen.toNat := by decide +kernel

/-- The lowest and the highest refused offset, and the exceptions' neighbours. -/
theorem witness_BusyRefusesWindowsAndConfiguration :
    waiting.cfg.wf ∧ waiting.executing = true ∧
    (∀ off ∈ [0x1000, 0x2FFFFFFC, 0x000, 0x008, 0x018, 0x120], off % 4 = 0 ∧ off < 0x30000000) := by decide

theorem witness_OnlyAlignedMappedWordsAreAccesses : running.Inv ∧ AccessWidth.w8 ≠ .w32 ∧ (0x7 : BitVec 4) ≠ 0xF :=
  ⟨inv_running, by decide, by decide⟩

/-- Each gap of the map at its ends, with the default parameters. -/
theorem witness_unmapped_offsets :
    ∀ off ∈ [0x0C8, 0x0FC, 0x124, 0xFFC, 0x1040, 0x1FFC, 0x2400, 0x2FFC, 0x3200, 0x33FC, 0x39FC, 0x3BFC, 0x3D00, 0x0FFFFFFC,
        0x10400000, 0x1FFFFFFC, 0x20400000, 0x2FFFFFFC],
      (0x0C8 ≤ off ∧ off < 0x100) ∨ (0x124 ≤ off ∧ off < 0x1000) ∨ (0x1040 ≤ off ∧ off < 0x2000) ∨
        (0x2400 ≤ off ∧ off < 0x3000) ∨ (0x3200 ≤ off ∧ off < 0x3400) ∨
        (0x3800 + 4 * running.cfg.cwMax ≤ off ∧ off < 0x3C00) ∨ (0x3D00 ≤ off ∧ off < 0x10000000) ∨
        (0x10000000 + 4 * running.cfg.coefDepth ≤ off ∧ off < 0x20000000) ∨
        0x20000000 + 4 * running.cfg.coefDepth ≤ off := by decide +kernel

/-- Full and not full input FIFOs, and a closed input. -/
theorem witness_PushesFeedTheInputFifos :
    crowded.Inv ∧ crowded.cfg.rngqDepth ≤ crowded.fifo.rng.length ∧ faulty.Inv ∧ faulty.faulted = true ∧ waiting.Inv ∧
    waiting.fifo.rng.length < waiting.cfg.rngqDepth ∧ ({ State.reset with fifo.inEos := true }).Inv :=
  ⟨inv_crowded, by decide, inv_faulty, by decide, inv_waiting, by decide,
    inv_intro (by decide) (by decide) (by decide) (by decide) (by decide)⟩

theorem witness_ReadsPopTheOutputFifos : crowded.Inv ∧ crowded.fifo.out = [7] ∧ waiting.Inv ∧ waiting.fifo.out = [] :=
  ⟨inv_crowded, by decide, inv_waiting, by decide⟩

theorem witness_CommandWritesQueueOrStart :
    (crowded.Inv ∧ crowded.agent = .idle) ∧ (running.Inv ∧ running.executing = true ∧ running.fifo.cmd.length < running.cfg.cmdqDepth) ∧
    (waiting.Inv ∧ waiting.executing = true ∧ waiting.cfg.cmdqDepth ≤ waiting.fifo.cmd.length) ∧
    (faulty.Inv ∧ faulty.faulted = true) :=
  ⟨⟨inv_crowded, by decide⟩, ⟨inv_running, by decide, by decide⟩, ⟨inv_waiting, by decide, by decide⟩, inv_faulty, by decide⟩

theorem witness_StatusAndInterruptLineFollowTheState :
    waiting.Inv ∧ (∃ src p, waiting.agent = .stall src p) ∧ faulty.Inv ∧ ∃ c, faulty.agent = .halted c :=
  ⟨inv_waiting, ⟨_, _, rfl⟩, inv_faulty, _, rfl⟩

theorem witness_register_accesses : faulty.Inv ∧ faulty.busy = false ∧ running.Inv ∧ running.busy = true :=
  ⟨inv_faulty, by decide, inv_running, by decide⟩

/-- Tables without and with a zero entry. -/
theorem witness_QtscaleAndDivcalcBuildTheTables :
    (∀ i, i < 64 → (withQt 1 State.reset).qtAt 0 i ≠ 0 ∧ (withQt 1 State.reset).qtAt 1 i ≠ 0) ∧
    ∃ i, i < 64 ∧ ((withQt 0 State.reset).qtAt 0 i = 0 ∨ (withQt 0 State.reset).qtAt 1 i = 0) := by
  refine ⟨by decide +kernel, 0, by decide, by decide +kernel⟩

/-- A block past the array, no divisors, a value out of range (2^20 · 1.0), and values in range (1.0 · 1.0). -/
theorem witness_QuantRoundsIntoOneBlock :
    twos.geo.ncoef.toNat < 64 * 1 + 64 ∧ (64 * 0 + 64 ≤ twos.geo.ncoef.toNat ∧ twos.valid.div = false) ∧
    32767 < roundF64 .halfAway (fmul ((withDct 0x4130000000000000 f64One twos).dctAt 63)
      ((withDct 0x4130000000000000 f64One twos).divAt 1 63)) ∧
    ∀ i, i < 64 → -32768 ≤ roundF64 .halfAway (fmul ((withDct f64One f64One twos).dctAt i) ((withDct f64One f64One twos).divAt 1 i)) ∧
      roundF64 .halfAway (fmul ((withDct f64One f64One twos).dctAt i) ((withDct f64One f64One twos).divAt 1 i)) ≤ 32767 := by
  decide +kernel

/-- 2.5, whose exponent is negative and which ties, and 2^60. -/
theorem witness_RoundIsNearestWithTheTieRule :
    f64Value 0x4004000000000000 = .fin false 0x14000000000000 (-51) ∧
    f64Value 0x43B0000000000000 = .fin false 0x10000000000000 8 := by decide +kernel

/-- 1 and −1, whose sum is 0, and a nonzero divisor. -/
theorem witness_binary64_operations : f64Exact f64One = some 1 ∧ f64Exact 0xBFF0000000000000 = some (-1) ∧ (1 : ℚ) + -1 = 0 := by
  have h1 : f64Value f64One = .fin false (2 ^ 52) (-52) := by decide +kernel
  have h2 : f64Value 0xBFF0000000000000 = .fin true (2 ^ 52) (-52) := by decide +kernel
  refine ⟨?_, ?_, by norm_num⟩
  · simp only [f64Exact, h1, signedNat]; norm_num
  · simp only [f64Exact, h2, signedNat]; norm_num

theorem witness_ZigZagReordersOneBlockAndUndoes :
    twos.geo.ncoef.toNat < 64 * 1 + 64 ∧ 64 * 0 + 64 ≤ twos.geo.ncoef.toNat := by decide

/-- A frame of 64 coefficients that exactly fills the smallest array, one that does not fit it, and an illegal one. -/
theorem witness_GeomComputesTheFrame :
    (let s : State := { State.reset with cfg.coefDepth := 64, geo.ncomp := 1, geo.imgW := 8, geo.imgH := 8 }
     s.cfg.wf ∧ s.geometry = some { mx := 1, my := 1, n := 64 }) ∧
    (let s : State := { State.reset with cfg.coefDepth := 64, geo.ncomp := 1, geo.imgW := 9, geo.imgH := 8 }
     s.cfg.wf ∧ s.geometry = some { mx := 2, my := 1, n := 128 }) ∧ State.reset.cfg.wf ∧ State.reset.geo.imgW = 0 := by
  decide +kernel

/-- The last unit and MCU of the 64×64 frame, and the first of each past them. -/
theorem witness_BlkaddrAndCoefclr :
    (let s := ran 0x1A000000 frame64
     0 < s.geo.ncomp.toNat ∧ 3 < s.unitsOf 0 ∧ 15 < s.geo.mcux.toNat * s.geo.mcuy.toNat ∧ s.unitsOf 0 ≤ 4 ∧
     s.geo.mcux.toNat * s.geo.mcuy.toNat ≤ 16 ∧ s.geo.ncomp.toNat ≤ 3) := by decide +kernel

/-- Seven pending bits and 16 more give two bytes, which may take four places: exactly the room there is. -/
theorem witness_PutbitsAppendsItsBits :
    (let s : State := { State.reset with coder.putbits := 7, coder.putbuf := 0xFE0000, fifo.out := List.replicate 60 0 }
     s.coder.putbits.toNat ≤ 7 ∧ s.coder.putbuf.toNat % 2 ^ (24 - s.coder.putbits.toNat) = 0 ∧
     s.fifo.out.length + 2 * ((s.coder.putbits.toNat + 16) / 8) ≤ s.cfg.outqDepth) := by decide

theorem witness_FlushPadsThePendingBits :
    (let s : State := { State.reset with coder.putbits := 7, coder.putbuf := 0xFE0000, fifo.out := List.replicate 62 0 }
     s.coder.putbits.toNat ≤ 7 ∧ s.coder.putbuf.toNat % 2 ^ (24 - s.coder.putbits.toNat) = 0 ∧
     s.fifo.out.length + 2 ≤ s.cfg.outqDepth) := by decide

theorem witness_EmitrawAndPredclr :
    ({ State.reset with coder.putbits := 1 }).coder.putbits ≠ 0 ∧
    ({ State.reset with fifo.out := List.replicate 63 0 }).fifo.out.length < State.reset.cfg.outqDepth ∧
    State.reset.cfg.outqDepth ≤ ({ State.reset with fifo.out := List.replicate 64 0 }).fifo.out.length := by decide

/-- A codable block with room for its bytes, and one that has no code. -/
theorem witness_EncblkAppendsTheBlocksCodes :
    (64 * 0 + 64 ≤ mixed.geo.ncoef.toNat ∧ codable 0 0 mixed = true ∧ mixed.coder.putbits = 0 ∧ mixed.coder.putbuf = 0 ∧
      mixed.fifo.out.length + 2 * ((mixed.coder.putbits.toNat + (codeBits (blockCodes 0 0 0 0 mixed)).length) / 8)
        ≤ mixed.cfg.outqDepth) ∧
    codable 0 0 (arrayOf [0, 1024]) = false ∧ codable 0 0 (arrayOf [2048]) = false := by decide +kernel

theorem witness_EncscanAppendsEveryBlock :
    frame8.geometry = some { mx := frame8.geo.mcux.toNat, my := frame8.geo.mcuy.toNat, n := frame8.geo.ncoef.toNat } ∧
    scanCodable frame8 1 0 { c0 := 0, c1 := 0, c2 := 0, c3 := 0 } = true ∧ State.reset.geometry = none ∧
    scanCodable (withCoefs [2048] frame8) 1 0 { c0 := 0, c1 := 0, c2 := 0, c3 := 0 } = false ∧
    frame8.fifo.out.length + 2 * ((frame8.coder.putbits.toNat
      + (codeBits (scanCodes frame8 1 0 { c0 := 0, c1 := 0, c2 := 0, c3 := 0 })).length + 7) / 8) ≤ frame8.cfg.outqDepth := by
  decide +kernel

/-- One block that codes, and then one that does not. -/
theorem witness_EncscanAppendsEveryBlock_nocode :
    frame16.geometry = some { mx := frame16.geo.mcux.toNat, my := frame16.geo.mcuy.toNat, n := frame16.geo.ncoef.toNat } ∧
    1 < frame16.geo.ncoef.toNat / 64 ∧ scanCodable frame16 1 0 { c0 := 0, c1 := 0, c2 := 0, c3 := 0 } = true ∧
    scanCodable frame16 2 0 { c0 := 0, c1 := 0, c2 := 0, c3 := 0 } = false ∧
    frame16.fifo.out.length + 2 * ((frame16.coder.putbits.toNat
      + (codeBits (scanCodes frame16 1 0 { c0 := 0, c1 := 0, c2 := 0, c3 := 0 })).length) / 8) ≤ frame16.cfg.outqDepth := by
  decide +kernel

theorem witness_DechdrAcceptsABaselineHeader :
    (h8 [1, 2]).fifo.inp = headerBytes 8 8 (List.replicate 64 1) ++ [1, 2] ∧
    64 * ((8 + 7) / 8) * ((8 + 7) / 8) ≤ (h8 [1, 2]).cfg.coefDepth := by decide +kernel

/-- A DECHDR that waits, and an input that ends. -/
theorem witness_DechdrAcceptsABaselineHeader_waits :
    (∃ t, exec .dechdr { State.reset with fifo.inp := [0xFF, 0xC0, 0x00] } = .next t ∧
      t.agent = .stall .inp (.decHdr (.lenLo 0xC0 0x00))) ∧ (h8 []).fifo.inEos = true ∧
    [0xFF, 0xC0, 0x00] <+: segment 0 0xC0 [8] ∧ [0xFF, 0xC0, 0x00] ≠ segment 0 0xC0 [8] :=
  ⟨⟨_, rfl, by decide +kernel⟩, by decide, by decide, by decide⟩

/-- The payload of a SOF0 of two components (2×1 and 1×1) that is legal, and of the SOS that goes with it. -/
theorem witness_DechdrAcceptsABaselineHeader_frame :
    (let p : List Byte := [8, 0, 9, 0, 17, 2, 1, 0x21, 0, 2, 0x11, 3]
     6 + 3 * 2 ≤ p.length ∧ (p.getD 7 0).toNat / 16 * ((p.getD 7 0).toNat % 16) + (p.getD 10 0).toNat / 16 * ((p.getD 10 0).toNat % 16) ≤ 10) ∧
    (let u : State := { State.reset with seen.sof := true, geo.imgW := 17, geo.imgH := 9, geo.ncomp := 2, valid.dht := Quad.all true }
     let p : List Byte := [2, 1, 0x00, 2, 0x11, 0, 63, 0]
     p.length = 1 + 2 * 2 + 3 ∧ 2 = u.geo.ncomp.toNat ∧ p.getD 1 0 = (u.geo.comp.get 0).cid ∧ p.getD 3 0 = (u.geo.comp.get 1).cid ∧
     u.geometry = some { mx := 2, my := 1, n := 640 } ∧ u.cfg.coefDepth ≥ 640 ∧ ({ u with cfg.coefDepth := 64 }).cfg.wf) := by
  decide +kernel

/-- The DHT entries of DC0, which fits, and of one with three 1-bit codes, which overflows. -/
theorem witness_DechdrAcceptsABaselineHeader_tables :
    (huffDc0.bits.length = 16 ∧ huffDc0.bits.sum = 12 ∧ huffDc0.huffval.length = 12) ∧ 2 ^ 1 < 0 + 3 ∧
    (List.replicate 64 (1 : Byte)).length = 64 * (0 + 1) := by decide

/-- The state after H8, whose decoder tables 0 and 2 are DC0 and AC0. -/
def header8 (data : List Byte) : State := ran 0x30000000 (h8 data)

theorem witness_DecblkEndsWithItsResult :
    (let s := header8 [0x2B]
     64 * 0 + 64 ≤ s.geo.ncoef.toNat ∧ s.geo.ncoef.toNat < 64 * 1 + 64 ∧ s.valid.dht.get 0 = true ∧ s.valid.dht.get 2 = true ∧
     s.valid.dht.get 1 = false ∧ s.fifo.inEos = true) := by decide +kernel

theorem header8_holds_dc0 : (header8 [0x64, 0xA3, 0xFC, 0xE6, 0xBF]).holdsTable 0 huffDc0 := by
  have h : (∀ l ∈ List.range 16, huffDc0.bits.getD l 0 = 0 →
      (header8 [0x64, 0xA3, 0xFC, 0xE6, 0xBF]).maxcodeAt 0 (l + 1) = -1) := by decide +kernel
  refine ⟨fun l h1 h2 h3 => ?_, by decide +kernel⟩
  have := h (l - 1) (by simp; omega) h3
  rwa [Nat.sub_add_cancel h1] at this

theorem header8_holds_ac0 : (header8 [0x64, 0xA3, 0xFC, 0xE6, 0xBF]).holdsTable 2 huffAc0 := by
  have h : (∀ l ∈ List.range 16, huffAc0.bits.getD l 0 = 0 →
      (header8 [0x64, 0xA3, 0xFC, 0xE6, 0xBF]).maxcodeAt 2 (l + 1) = -1) := by decide +kernel
  refine ⟨fun l h1 h2 h3 => ?_, by decide +kernel⟩
  have := h (l - 1) (by simp; omega) h3
  rwa [Nat.sub_add_cancel h1] at this

/-- The mixed block's bytes, 44_entropy_encoder.md R300's example, after H8. -/
theorem witness_DecblkInvertsEncblk :
    (header8 [0x64, 0xA3, 0xFC, 0xE6, 0xBF]).holdsTable 0 (huffDc 0) ∧
    (header8 [0x64, 0xA3, 0xFC, 0xE6, 0xBF]).holdsTable 2 (huffAc 0) ∧
    (let s := header8 [0x64, 0xA3, 0xFC, 0xE6, 0xBF]
     64 * 0 + 64 ≤ s.geo.ncoef.toNat ∧ s.reader.latch = .empty ∧
     s.fifo.inp = stuff [0x64, 0xA3, 0xFC, 0xE6, 0xBF] ++ [] ∧ codable 0 0 mixed = true ∧
     mixed.coder.pred.get 0 = s.coder.pred.get 0 ∧
     s.readerBits ++ streamBits [0x64, 0xA3, 0xFC, 0xE6, 0xBF] = codeBits (blockCodes 0 0 0 0 mixed) ++ List.replicate 6 true) :=
  ⟨header8_holds_dc0, header8_holds_ac0, by decide +kernel⟩

/-- The same bits with the reader inside a byte: its low three bits `011` are the next ones, and one pad bit is left. -/
theorem witness_DecblkInvertsEncblk_inside_a_byte :
    (let s : State := { State.reset with reader.bitbuf := 0x53, reader.bitcnt := 3 }
     s.readerBits ++ streamBits [0x25, 0x1F, 0xE7, 0x35] = codeBits (blockCodes 0 0 0 0 mixed) ++ [true]) := by decide +kernel

/-- Two all-zero blocks of one component, one block to an MCU and one MCU to a restart interval, with the input `data`. -/
def scan2 (data : List Byte) : State :=
  { header8 [] with geo.ncoef := 128, geo.rstint := 1, fifo.inp := data, ram.coef := Memory.numbered 0 (List.replicate 128 0) }

theorem scan2_holds_dc0 : (scan2 []).holdsTable 0 (huffDc 0) := by
  have h : (∀ l ∈ List.range 16, huffDc0.bits.getD l 0 = 0 → (scan2 []).maxcodeAt 0 (l + 1) = -1) := by decide +kernel
  refine ⟨fun l h1 h2 h3 => ?_, by decide +kernel⟩
  have := h (l - 1) (by simp; omega) h3
  rwa [Nat.sub_add_cancel h1] at this

theorem scan2_holds_ac0 : (scan2 []).holdsTable 2 (huffAc 0) := by
  have h : (∀ l ∈ List.range 16, huffAc0.bits.getD l 0 = 0 → (scan2 []).maxcodeAt 2 (l + 1) = -1) := by decide +kernel
  refine ⟨fun l h1 h2 h3 => ?_, by decide +kernel⟩
  have := h (l - 1) (by simp; omega) h3
  rwa [Nat.sub_add_cancel h1] at this

theorem witness_DecscanAlwaysRetires :
    State.reset.seen.sos = false ∧ (header8 []).seen.sos = true ∧ (header8 []).fifo.inEos = true ∧ 0 < (header8 []).bpm := by
  decide +kernel

/-- 44_entropy_encoder.md R301's example byte `2B` for each all-zero block: both blocks with a restart between them; one block where
a restart is due; none; and sixteen 1-bits. -/
theorem witness_DecscanAlwaysRetires_decodes :
    ((scan2 []).holdsTable 0 (huffDc 0) ∧ (scan2 []).holdsTable 2 (huffAc 0)) ∧
    (let s := scan2 []
     let zero : Quad (BitVec 16) := { c0 := 0, c1 := 0, c2 := 0, c3 := 0 }
     s.seen.sos = true ∧ s.geo.ncomp = 1 ∧ s.geo.comp.c0.td = 0 ∧ s.geo.comp.c0.ta = 0 ∧ s.bpm = 1 ∧
     s.geo.ncoef.toNat % (64 * s.bpm) = 0 ∧ s.geo.rstint.toNat * s.bpm = 1 ∧ s.geo.ncoef.toNat / 64 = 2 ∧
     (scanCodable s 1 0 zero = true ∧ scanCodable s 1 1 zero = true ∧ scanCodable s 0 0 zero = true) ∧
     streamBits [0x2B] = codeBits (scanCodes s 1 0 zero) ++ [true, true] ∧
     streamBits [0x2B] = codeBits (scanCodes s 1 1 zero) ++ [true, true] ∧
     streamBits [] = codeBits (scanCodes s 0 0 zero) ∧
     streamBits [0xFF, 0xFF] = codeBits (scanCodes s 0 0 zero) ++ List.replicate 16 true ∧
     (scan2 [0x2B, 0xFF, 0xD0, 0x2B, 0xFF, 0xD9]).fifo.inp =
       (List.range 1).flatMap (fun _ => stuff [0x2B] ++ [0xFF, 0xD0]) ++ stuff [0x2B] ++ 0xFF :: 0xD9 :: [] ∧
     (scan2 [0x2B, 0xFF, 0xD9]).fifo.inp = stuff [0x2B] ++ 0xFF :: 0xD9 :: [] ∧ (scan2 []).fifo.inEos = true ∧
     (scan2 [0xFF, 0x00, 0xFF, 0x00]).fifo.inp = stuff [0xFF, 0xFF]) :=
  ⟨⟨scan2_holds_dc0, scan2_holds_ac0⟩, by decide +kernel⟩

/-- 45_entropy_decoder.md R367: the second block after a restart; and with an EOI where the marker is due, RSTMISS, SHORTTAIL and SEEN_EOI. -/
theorem test_decscan_restarts :
    (let t := ran 0x32000000 (scan2 [0x2B, 0xFF, 0xD0, 0x2B, 0xFF, 0xD9])
     t.warn = 0 ∧ t.seen.eoi = true ∧ t.fifo.inp = []) ∧
    (let t := ran 0x32000000 (scan2 [0x2B, 0xFF, 0xD9])
     t.warn = 0x1100 ∧ t.seen.eoi = true) := by decide +kernel

/-- Generator bytes for the 64 draws; the inputs of the second run may differ in everything else. -/
theorem witness_PermgenShufflesTheIndices :
    (let s : State := { twos with cfg.rngqDepth := 255, fifo.rng := List.replicate 256 3 }
     s.geo.ncoef.toNat ≤ 2 ^ 24 ∧ 4 * s.geo.ncoef.toNat ≤ s.fifo.rng.length) := by decide +kernel

theorem witness_PermgenIsDeterminedByItsInputs :
    (let s : State := { twos with fifo.rng := List.replicate 256 3 }
     let s' : State := { indices with fifo.rng := List.replicate 257 3 }
     s'.geo.ncoef = s.geo.ncoef ∧ s'.ctrl.rngSigned = s.ctrl.rngSigned ∧ 4 * s.geo.ncoef.toNat ≤ s'.fifo.rng.length ∧
     s'.fifo.rng.take (4 * s.geo.ncoef.toNat) = s.fifo.rng.take (4 * s.geo.ncoef.toNat)) := by decide +kernel

theorem witness_PermgenResumesWhereItWaited :
    ∃ t, exec .permgen { twos with fifo.rng := [1, 2, 3, 4, 5] } = .next t ∧ t.agent = .stall .rng (.permgen 1 [5]) :=
  ⟨_, rfl, by decide +kernel⟩

/-- A wait on each other FIFO: PAYIN, IN with blocks in the MCU, OUT and PAYOUT. -/
theorem witness_PermgenResumesWhereItWaited_other_commands :
    (∃ t p, exec .embpay { caseA with fifo.payin := [] } = .next t ∧ t.agent = .stall .payin p) ∧
    (∃ t p, exec .decscan { header8 [] with fifo.inEos := false } = .next t ∧ t.agent = .stall .inp p) ∧
    0 < ({ header8 [] with fifo.inEos := false }).bpm ∧
    (∃ t p, exec .flush { State.reset with coder.putbits := 1, fifo.out := List.replicate 64 0 } = .next t ∧
      t.agent = .stall .out p) ∧
    ∃ t p, exec .extpay { extractA with f5.extLen := 1, f5.pos := 33, fifo.payout := List.replicate 64 0 } = .next t ∧
      t.agent = .stall .payout p :=
  ⟨⟨_, .embPay { popped := 0, hold := none, cur := 0, avail := 0, val := 0, m := 0 }, rfl, by decide +kernel⟩,
    ⟨_, .decScan (.bits 0 0 false (.dcCode 0 0)), rfl, by decide +kernel⟩, by decide +kernel,
    ⟨_, .emit [0x7F] .flushed, rfl, by decide +kernel⟩,
    ⟨_, .extPay { acc := 0x41, na := 8, h := 0, left := 0, out := some 0x41 }, rfl, by decide +kernel⟩⟩

/-- No permutation; one of another size; and a complete one with operands at and past each bound. -/
theorem witness_PermutationCommandsFaultInOrder :
    State.reset.valid.perm = false ∧ ({ twos with geo.ncoef := 128 }).f5.permN.toNat ≠ ({ twos with geo.ncoef := 128 }).geo.ncoef.toNat ∧
    twos.permReady = true ∧ twos.f5.permN.toNat ≤ 64 ∧ twos.f5.permN.toNat < 65 ∧ twos.cfg.cwMax < 128 ∧
    twos.cfg.kMaxEmb < ({ twos with f5.k := 8 }).f5.k.toNat := by decide

theorem witness_PermrdAndCurset : twos.permReady = true ∧ 63 < twos.f5.permN.toNat ∧ 64 ≤ twos.f5.permN.toNat := by decide

theorem witness_OfferTakesTheNextUsable :
    twos.cfg.wf ∧ 127 ≤ twos.cfg.cwMax ∧ twos.permReady = true ∧ twos.f5.pos.toNat ≤ twos.f5.permN.toNat := by decide

theorem witness_XbitReadsTheCarriedBit : 63 < twos.geo.ncoef.toNat ∧ twos.geo.ncoef.toNat ≤ 64 := by decide

theorem witness_CapcntCountsTheCoefficients : twos.geo.ncoef.toNat % 64 = 0 := by decide

/-- [1, 4] with bit 0: the first shrinks, the second carries; nothing usable left; and lossy, the first alone. -/
theorem witness_BstepEmbedsOneBit :
    ((arrayOf [0, 1, 4]).usableLeft = [1] ++ 2 :: [] ∧ carriedBit ((arrayOf [0, 1, 4]).coefInt 1) ≠ some false ∧
      (arrayOf [0, 1, 4]).coefInt 1 = 1 ∧ (arrayOf [0, 1, 4]).coefInt 2 = 4 ∧ (arrayOf [0, 1, 4]).permReady = true) ∧
    (arrayOf []).usableLeft = [] ∧ (0 : BitVec 8).toNat = bitOf false + 2 * bitOf false ∧
    (2 : BitVec 8).toNat = bitOf false + 2 * bitOf true := by decide +kernel

theorem witness_MstepEmbedsOneValue :
    (arrayOf [0, 3, -2, 5]).Inv ∧ (arrayOf [0, 3, -2, 5]).PermInv ∧ (arrayOf [0, 3, -2, 5]).permReady = true ∧
    1 ≤ (arrayOf [0, 3, -2, 5]).f5.k.toNat ∧ 3 < 2 ^ (arrayOf [0, 3, -2, 5]).f5.k.toNat :=
  ⟨inv_arrayOf_example, permInv_arrayOf_example, by decide, by decide, by decide⟩

theorem witness_MatrixCodeIsCorrect :
    (arrayOf [0, 3, -2, 5]).Inv ∧ (arrayOf [0, 3, -2, 5]).PermInv ∧
    ∃ t, exec (.mstep 2) (arrayOf [0, 3, -2, 5]) = .next t ∧ t.agent = .idle ∧ t.result = 0 ∧
      t.f5.embShrink = (arrayOf [0, 3, -2, 5]).f5.embShrink :=
  ⟨inv_arrayOf_example, permInv_arrayOf_example, _, rfl, by decide +kernel, by decide +kernel, by decide +kernel⟩

/-- Exactly as many usable coefficients as the group needs, and one fewer. -/
theorem witness_MxtrReadsTheSyndrome :
    (arrayOf [0, 3, -1, 5]).permReady = true ∧ 2 ^ (arrayOf [0, 3, -1, 5]).f5.k.toNat - 1 ≤ (arrayOf [0, 3, -1, 5]).usableLeft.length ∧
    (arrayOf [0, 3, -1]).usableLeft.length < 2 ^ (arrayOf [0, 3, -1]).f5.k.toNat - 1 := by decide +kernel

theorem witness_EmbhdrEmbedsTheHeader :
    caseA.Inv ∧ caseA.PermInv ∧ caseA.permReady = true ∧ caseA.f5.k.toNat ≤ caseA.cfg.kMaxEmb ∧
    caseA.fifo.rng = 0 :: 0 :: 0 :: 0 :: [0] ∧ 32 ≤ caseA.usableLeft.length ∧ (arrayOf [0, 2]).usableLeft.length < 32 :=
  ⟨inv_caseA, permInv_caseA, by decide, by decide, by decide, by decide +kernel, by decide +kernel⟩

theorem witness_EmbpayEmbedsThePayload :
    caseA.Inv ∧ caseA.PermInv ∧ caseA.permReady = true ∧ min caseA.f5.paylen.toNat 0x7FFFFF ≤ caseA.fifo.payin.length ∧
    min caseA.f5.paylen.toNat 0x7FFFFF ≤ caseA.fifo.rng.length :=
  ⟨inv_caseA, permInv_caseA, by decide, by decide, by decide⟩

/-- A payload longer than the FIFO. -/
theorem witness_EmbpayEmbedsThePayload_long :
    (let s : State := { caseA with f5.paylen := 100, fifo.payin := List.replicate 100 1, fifo.rng := List.replicate 100 2 }
     s.cfg.wf ∧ s.f5.pos.toNat ≤ s.f5.permN.toNat ∧ s.f5.permN.toNat ≤ s.cfg.coefDepth ∧
     min s.f5.paylen.toNat 0x7FFFFF ≤ s.fifo.payin.length ∧ min s.f5.paylen.toNat 0x7FFFFF ≤ s.fifo.rng.length ∧
     s.cfg.payinqDepth < s.fifo.payin.length) := by decide

theorem witness_ExthdrReadsTheHeader :
    caseA.permReady = true ∧ caseA.f5.pos.toNat ≤ caseA.f5.permN.toNat ∧ 32 ≤ caseA.usableLeft.length ∧
    caseA.fifo.rng = 0 :: 0 :: 0 :: 0 :: [0] ∧ (arrayOf [0, 2]).usableLeft.length < 32 := by decide +kernel

theorem witness_ExtpayPushesThePayload :
    (let s : State := { caseA with f5.extLen := 5 }
     s.permReady = true ∧ s.f5.pos.toNat ≤ s.f5.permN.toNat ∧ s.f5.extLen.toNat ≤ s.fifo.rng.length ∧
     s.fifo.payout.length + s.f5.extLen.toNat ≤ s.cfg.payoutqDepth) := by decide

theorem witness_HeaderRoundTrip :
    caseA.Inv ∧ caseA.PermInv ∧ caseA.ctrl.hdrLossy = false ∧
    ∃ t, exec .embhdr caseA = .next t ∧ t.warn.getLsbD 1 = false :=
  ⟨inv_caseA, permInv_caseA, by decide, _, rfl, by decide +kernel⟩

end Sys2Proof.Tests
end

/-! SUPPORT. The invariant of the machine (Safety.lean) is kept by every step. A step is an agent's act followed by the dequeue of an
idle core. `State.PreDequeue` is what holds between the two: a body's moves, the ends of a body and the host's accesses keep
it, and `settle` makes the whole invariant of it. -/

namespace Sys2Proof.Machine

/-! ### Where a command stands -/

/-- The two clauses of the invariant about the progress of a command: EMBPAY has a legal K, and an encoder command's codes
fit BufBits. -/
structure State.ProgressLegal (s : State) : Prop where
  embedding : s.agent.embedding = true → s.f5.k.toNat ≤ s.cfg.kMaxEmb
  encoding : s.agent.codesFit = true

/-- A progress neither clause speaks of. -/
def Progress.unconstrained : Progress → Bool
  | .emit _ _ => false
  | .embPay _ => false
  | _ => true

@[simp] theorem embedding_stall (src : StallSrc) (p : Progress) :
    (Agent.stall src p).embedding = (Agent.exec p).embedding := by cases p <;> rfl

@[simp] theorem codesFit_stall (src : StallSrc) (p : Progress) :
    (Agent.stall src p).codesFit = (Agent.exec p).codesFit := by cases p <;> rfl

theorem Progress.unconstrained_agent {p : Progress} (h : p.unconstrained = true) :
    (Agent.exec p).embedding = false ∧ (Agent.exec p).codesFit = true := by
  cases p with
  | emit bytes e => cases h
  | embPay c => cases h
  | _ => exact ⟨rfl, rfl⟩

theorem State.ProgressLegal.exec {s : State} {p : Progress} (ha : s.agent = .exec p) (h : p.unconstrained = true) :
    s.ProgressLegal := by
  obtain ⟨he, hc⟩ := p.unconstrained_agent h
  exact ⟨by simp [ha, he], by rw [ha, hc]⟩

theorem State.ProgressLegal.stall {s : State} {src : StallSrc} {p : Progress} (ha : s.agent = .stall src p)
    (h : p.unconstrained = true) : s.ProgressLegal := by
  obtain ⟨he, hc⟩ := p.unconstrained_agent h
  exact ⟨by simp [ha, he], by simp [ha, hc]⟩

theorem State.ProgressLegal.idle {s : State} (ha : s.agent = .idle) : s.ProgressLegal :=
  ⟨by simp [ha, Agent.embedding], by rw [ha]; rfl⟩

theorem State.ProgressLegal.halted {s : State} {c : FaultCode} (ha : s.agent = .halted c) : s.ProgressLegal :=
  ⟨by simp [ha, Agent.embedding], by rw [ha]; rfl⟩

theorem State.ProgressLegal.retire (s : State) : (Machine.retire s).ProgressLegal := .idle rfl

theorem State.ProgressLegal.fault (c : FaultCode) (s : State) : (faultEntry c s).ProgressLegal := .halted rfl

theorem State.ProgressLegal.ite {c : Prop} [Decidable c] {a b : State} (ha : c → a.ProgressLegal) (hb : ¬ c → b.ProgressLegal) :
    (if c then a else b).ProgressLegal := by
  split
  · exact ha ‹_›
  · exact hb ‹_›

/-! ### Where a run leaves its command -/

theorem drive_progressLegal {π : Type} {emb : π → Progress} (h : ∀ p, (emb p).unconstrained = true)
    (adv : π → State → BodyStep π) (n : Nat) (p : π) (s : State) : (drive emb adv n p s).ProgressLegal := by
  obtain ha | ⟨c, ha⟩ | ⟨src, q, ha⟩ | ⟨q, ha⟩ := drive_agent emb adv n p s
  · exact .idle ha
  · exact .halted ha
  · exact .stall ha (h q)
  · exact .exec ha (h q)

theorem runEmit_progressLegal (p : List Byte × Ending) (s : State) (hp : EmitAt p) : (runEmit p s).ProgressLegal := by
  refine ⟨?_, runEmit_fits p s hp⟩
  obtain ⟨b, _, h | h | ⟨q, _, h⟩⟩ := runEmit_ends p s hp <;> rw [h] <;> exact nofun

theorem runPermgen_progressLegal (p : Nat × List Byte) (s : State) : (runPermgen p s).ProgressLegal :=
  drive_progressLegal (fun _ => rfl) _ _ _ _

theorem runEmbhdr_progressLegal (got : List Byte) (s : State) : (runEmbhdr got s).ProgressLegal :=
  drive_progressLegal (fun _ => rfl) _ _ _ _

theorem runExthdr_progressLegal (p : Word × List Byte) (s : State) : (runExthdr p s).ProgressLegal :=
  drive_progressLegal (fun _ => rfl) _ _ _ _

theorem runExtpay_progressLegal (c : ExtCtx) (s : State) : (runExtpay c s).ProgressLegal :=
  drive_progressLegal (fun _ => rfl) _ _ _ _

theorem runDechdr_progressLegal (p : HdrPhase) (s : State) : (runDechdr p s).ProgressLegal :=
  drive_progressLegal (fun _ => rfl) _ _ _ _

theorem runDecblk_progressLegal (p : DecblkAt) (s : State) : (runDecblk p s).ProgressLegal :=
  drive_progressLegal (fun _ => rfl) _ _ _ _

theorem runDecscan_progressLegal (p : ScanPhase) (s : State) : (runDecscan p s).ProgressLegal :=
  drive_progressLegal (fun _ => rfl) _ _ _ _

/-- EMBPAY's progress is never an encoder command's. -/
theorem EmbpayAt.codesFit (p : EmbpayAt) : (Agent.exec p.progress).codesFit = true := by cases p <;> rfl

/-- EMBPAY that began with a legal K keeps it (46_f5_matrix.md R408). -/
theorem runEmbpay_progressLegal (p : EmbpayAt) (s : State) (hk : s.f5.k.toNat ≤ s.cfg.kMaxEmb) :
    (runEmbpay p s).ProgressLegal := by
  have hcodes : (runEmbpay p s).agent.codesFit = true := by
    obtain ha | ⟨c, ha⟩ | ⟨src, q, ha⟩ | ⟨q, ha⟩ :=
      drive_agent EmbpayAt.progress embpayStep (18 * (s.fifo.payin.length + 2)) p s <;> rw [runEmbpay, ha]
    · rfl
    · rfl
    · rw [codesFit_stall]; exact q.codesFit
    · exact q.codesFit
  obtain ⟨b, hm, he⟩ := runEmbpay_outcome p s hk
  have hb : b.f5.k.toNat ≤ b.cfg.kMaxEmb := by rw [hm.k, hm.cfg]; exact hk
  refine ⟨fun _ => ?_, hcodes⟩
  generalize runEmbpay p s = t at he
  cases he <;> exact hb

/-- EMBPAY, once it drains PAYIN, goes on draining (46_f5_matrix.md R408). -/
theorem embpayStep_drain (n : Nat) (s : State) :
    embpayStep (.drain n) s = .done s ∨ embpayStep (.drain n) s = .wait .payin (.drain n) s ∨
    ∃ t, embpayStep (.drain n) s = .go (.drain (n + 1)) t := by
  simp only [embpayStep]
  split
  · exact .inl rfl
  · split
    · exact .inr (.inl rfl)
    · exact .inr (.inr ⟨_, rfl⟩)

/-- Draining PAYIN leaves a legal place whatever K is: it embeds nothing. -/
theorem drive_drain_progressLegal (m n : Nat) (s : State) :
    (drive EmbpayAt.progress embpayStep m (.drain n) s).ProgressLegal := by
  induction m generalizing n s with
  | zero => exact .exec rfl rfl
  | succ m ih =>
    obtain h | h | ⟨t, h⟩ := embpayStep_drain n s <;> simp only [drive, h]
    · exact .retire s
    · exact .stall rfl rfl
    · exact ih _ _

/-! ### Every command, begun or gone on with -/

/-- An operand check before the rest of a command. -/
theorem State.ProgressLegal.check {c : Prop} [Decidable c] {f : FaultCode} {s t : State} (h : ¬ c → t.ProgressLegal) :
    (if c then faultEntry f s else t).ProgressLegal :=
  .ite (fun _ => .fault _ _) h

theorem divCalc_progressLegal (s : State) : (divCalc s).ProgressLegal := .check fun _ => .retire _

theorem exec_progressLegal (i : Instr) (s : State) : ∃ t, exec i s = .next t ∧ t.ProgressLegal := by
  cases i with
  | nop => exact ⟨_, rfl, .retire _⟩
  | mark imm => exact ⟨_, rfl, .retire _⟩
  | qtscale q => exact ⟨_, rfl, .check fun _ => divCalc_progressLegal _⟩
  | divcalc => exact ⟨_, rfl, divCalc_progressLegal _⟩
  | fdct => exact ⟨_, rfl, .retire _⟩
  | quant t blk => exact ⟨_, rfl, .check fun _ => .check fun _ => .check fun _ => .retire _⟩
  | zzfwd blk => exact ⟨_, rfl, .check fun _ => .retire _⟩
  | zzinv blk => exact ⟨_, rfl, .check fun _ => .retire _⟩
  | geom =>
    refine ⟨_, rfl, ?_⟩
    split
    · exact .fault _ _
    · exact .check fun _ => .retire _
  | blkaddr comp unit mcu => exact ⟨_, rfl, .check fun _ => .retire _⟩
  | coefclr => exact ⟨_, rfl, .retire _⟩
  | putbits size code =>
    refine ⟨_, rfl, .check fun h => runEmit_progressLegal _ _ ?_⟩
    simpa [EmitAt, Ending.fits] using h
  | flush => exact ⟨_, rfl, runEmit_progressLegal _ _ rfl⟩
  | emitraw b => exact ⟨_, rfl, .check fun _ => runEmit_progressLegal _ _ rfl⟩
  | predclr => exact ⟨_, rfl, .retire _⟩
  | encblk comp dt ac blk =>
    exact ⟨_, rfl, .check fun _ => .check fun _ => runEmit_progressLegal _ _ (blockCodes_fits _ _ _ _ _ _)⟩
  | encscan =>
    refine ⟨_, rfl, ?_⟩
    split
    · exact .fault _ _
    · exact .check fun _ => runEmit_progressLegal _ _ rfl
  | dechdr => exact ⟨_, rfl, runDechdr_progressLegal _ _⟩
  | decblk comp dt ac blk =>
    exact ⟨_, rfl, .check fun _ => .ite (fun _ => .retire _) fun _ => runDecblk_progressLegal _ _⟩
  | decscan => exact ⟨_, rfl, .ite (fun _ => .retire _) fun _ => runDecscan_progressLegal _ _⟩
  | permgen => exact ⟨_, rfl, runPermgen_progressLegal _ _⟩
  | permrd i => exact ⟨_, rfl, .check fun _ => .check fun _ => .retire _⟩
  | curset p => exact ⟨_, rfl, .check fun _ => .check fun _ => .retire _⟩
  | offer count => exact ⟨_, rfl, .check fun _ => .check fun _ => .retire _⟩
  | xbit a => exact ⟨_, rfl, .check fun _ => .retire _⟩
  | capcnt => exact ⟨_, rfl, .retire _⟩
  | bstep imm => exact ⟨_, rfl, .check fun _ => .check fun _ => .retire _⟩
  | mstep val => exact ⟨_, rfl, .check fun _ => .check fun _ => .retire _⟩
  | mxtr => exact ⟨_, rfl, .check fun _ => .check fun _ => .retire _⟩
  | embhdr => exact ⟨_, rfl, .check fun _ => .check fun _ => runEmbhdr_progressLegal _ _⟩
  | embpay => exact ⟨_, rfl, .check fun h => .check fun _ => runEmbpay_progressLegal _ _ (Nat.le_of_not_lt h)⟩
  | exthdr =>
    refine ⟨_, rfl, .check fun _ => ?_⟩
    split
    · exact .retire _
    · exact runExthdr_progressLegal _ _
  | extpay => exact ⟨_, rfl, .check fun _ => .ite (fun _ => .retire _) fun _ => runExtpay_progressLegal _ _⟩

/-- Going on with a command from a legal place: some move of the state ends, and leaves the command in a legal place. -/
theorem continueCommand_legal {s : State} {p : Progress} (hs : s.ProgressLegal) (ha : s.agent = .exec p) (hp : p ≠ .start) :
    Outcome s (continueCommand p s) ∧ (continueCommand p s).ProgressLegal := by
  cases p with
  | start => exact absurd rfl hp
  | emit bytes e =>
    have hf : EmitAt (bytes, e) := by have := hs.encoding; rwa [ha] at this
    exact ⟨runEmit_outcome _ _ hf, runEmit_progressLegal _ _ hf⟩
  | permgen i got => exact ⟨runPermgen_outcome _ _, runPermgen_progressLegal _ _⟩
  | embHdr got => exact ⟨runEmbhdr_outcome _ _, runEmbhdr_progressLegal _ _⟩
  | embPay c =>
    have hk := hs.embedding (by rw [ha]; rfl)
    exact ⟨runEmbpay_outcome _ _ hk, runEmbpay_progressLegal _ _ hk⟩
  | embDrain n => exact ⟨runDrain_outcome _ _, drive_drain_progressLegal _ _ _⟩
  | extHdr h got => exact ⟨runExthdr_outcome _ _, runExthdr_progressLegal _ _⟩
  | extPay c => exact ⟨runExtpay_outcome _ _, runExtpay_progressLegal _ _⟩
  | decHdr ph => exact ⟨runDechdr_outcome _ _, runDechdr_progressLegal _ _⟩
  | decBlk c ff ph => exact ⟨runDecblk_outcome _ _, runDecblk_progressLegal _ _⟩
  | decScan ph => exact ⟨runDecscan_outcome _ _, runDecscan_progressLegal _ _⟩

/-! ### FIFOs after a pop, a push and a clear -/

section
variable {α : Type} {l q : List α} {a : α} {n : Nat}

theorem length_pop_le (hl : l = a :: q) (h : l.length ≤ n) : q.length ≤ n := by
  rw [hl, List.length_cons] at h
  omega

theorem length_push_le (a : α) (h : ¬ n ≤ q.length) : (q ++ [a]).length ≤ n := by
  simp only [List.length_append, List.length_singleton]
  omega

theorem length_clear_le {c : Prop} [Decidable c] (h : q.length ≤ n) : (if c then [] else q).length ≤ n := by
  split
  · exact Nat.zero_le _
  · exact h

end

/-! ### Between an act and the dequeue -/

/-- The invariant between an agent's act and the dequeue that may follow it: the core may be idle with commands waiting. -/
structure State.PreDequeue (s : State) : Prop where
  good : s.Good
  progress : s.ProgressLegal
  halted : s.faulted = true → s.fifo.cmd = []

theorem not_executing_of_faulted {s : State} (h : s.faulted = true) : s.executing = false := by
  unfold State.faulted at h
  split at h
  · rename_i ha
    rw [State.executing, ha]
  · cases h

theorem State.Inv.preDequeue {s : State} (h : s.Inv) : s.PreDequeue where
  good := h.good
  progress := ⟨h.embedding, h.encoding⟩
  halted hf := h.queue (not_executing_of_faulted hf)

/-- The invariant from its parts. -/
theorem State.PreDequeue.inv {s : State} (h : s.PreDequeue) (hq : s.executing = false → s.fifo.cmd = []) : s.Inv where
  params := h.good.params
  rams := h.good.rams
  fifos := h.good.fifos
  array := h.good.array
  components := h.good.components
  packer := h.good.packer
  reader := h.good.reader
  cursor := h.good.cursor
  codeWord := h.good.codeWord
  queue := hq
  embedding := h.progress.embedding
  encoding := h.progress.encoding

/-- The dequeue completes the invariant (70_reset_and_hazards.md R510). -/
theorem State.PreDequeue.settle {s : State} (h : s.PreDequeue) : (Machine.settle s).Inv := by
  unfold Machine.settle
  split
  · rename_i w q _ hcmd
    have hgood : State.Good { s with fifo.cmd := q, cur := w, agent := .exec .start } :=
      { h.good with fifos := { h.good.fifos with cmd := length_pop_le hcmd h.good.fifos.cmd } }
    exact State.PreDequeue.inv ⟨hgood, .exec rfl rfl, nofun⟩ nofun
  · rename_i hnot
    refine h.inv fun hx => ?_
    cases ha : s.agent with
    | idle =>
      cases hcmd : s.fifo.cmd with
      | nil => rfl
      | cons w q => exact (hnot w q ha hcmd).elim
    | exec p => simp [State.executing, ha] at hx
    | stall src p => simp [State.executing, ha] at hx
    | halted c => exact h.halted (by simp [State.faulted, ha])

/-- Changes that leave the core's side of the invariant alone. -/
theorem State.PreDequeue.of_eq {s t : State} (h : s.PreDequeue) (good : t.Good) (agent : t.agent = s.agent := by rfl)
    (k : t.f5.k = s.f5.k := by rfl) (cfg : t.cfg = s.cfg := by rfl) (cmd : t.fifo.cmd = s.fifo.cmd := by rfl) :
    t.PreDequeue where
  good := good
  progress := ⟨by rw [agent, k, cfg]; exact h.progress.embedding, by rw [agent]; exact h.progress.encoding⟩
  halted := by unfold State.faulted; rw [agent, cmd]; exact h.halted

theorem State.PreDequeue.of_move {s t : State} (h : s.PreDequeue) (m : Move s t) : t.PreDequeue :=
  h.of_eq (m.good h.good) m.agent m.k m.cfg m.cmd

/-! ### The core -/

/-- Every end of a command's body. -/
theorem Outcome.preDequeue {s t : State} (o : Outcome s t) (g : s.Good) (hp : t.ProgressLegal) : t.PreDequeue := by
  obtain ⟨b, hm, he⟩ := o
  have gb := hm.good g
  cases he with
  | retired => exact ⟨{ gb with }, hp, nofun⟩
  | faulted c => exact ⟨{ gb with fifos := { gb.fifos with cmd := Nat.zero_le _ } }, hp, fun _ => rfl⟩
  | waits src p => exact ⟨{ gb with }, hp, nofun⟩
  | pauses p => exact ⟨{ gb with }, hp, nofun⟩

theorem beginCommand_preDequeue {s t : State} (g : s.Good) (h : beginCommand s = .next t) : t.PreDequeue := by
  have hfault (c : FaultCode) : (faultEntry c s).PreDequeue :=
    (Outcome.fault (Move.refl s) c).preDequeue g (.fault c s)
  unfold beginCommand at h
  split at h
  · cases h; exact hfault _
  · cases h; exact hfault _
  · rename_i i _
    obtain ⟨u, hu, ho⟩ := exec_outcome i s
    obtain ⟨v, hv, hp⟩ := exec_progressLegal i s
    cases hu.symm.trans h
    cases hv.symm.trans h
    exact ho.preDequeue g hp

theorem coreMove_preDequeue {s t : State} (hs : s.Inv) (h : coreMove s = .next t) : t.PreDequeue := by
  have hpre := hs.preDequeue
  unfold coreMove at h
  split at h
  · exact beginCommand_preDequeue hs.good h
  · rename_i p hp ha
    cases h
    obtain ⟨ho, hl⟩ := continueCommand_legal hpre.progress ha hp
    exact ho.preDequeue hs.good hl
  all_goals cases h; exact hpre

theorem coreStep_inv {s t : State} (hs : s.Inv) (h : coreStep s = .next t) : t.Inv := by
  unfold coreStep at h
  cases hm : coreMove s with
  | next u =>
    rw [hm] at h
    cases h
    exact (coreMove_preDequeue hs hm).settle
  | fault f => rw [hm] at h; cases h
  | refused r => rw [hm] at h; cases h

/-! ### Resets -/

/-- The reset registers are legal whatever the parameters (70_reset_and_hazards.md R501). -/
theorem softReset_preDequeue {s : State} (g : s.Good) : (softReset s).PreDequeue where
  good :=
    { g with
      fifos := ⟨Nat.zero_le _, Nat.zero_le _, Nat.zero_le _, Nat.zero_le _, Nat.zero_le _, Nat.zero_le _⟩
      array := ⟨rfl, Nat.zero_le _⟩
      components := ⟨Nat.le_of_ble_eq_true rfl, Nat.le_of_ble_eq_true rfl⟩
      packer := ⟨Nat.zero_le _, rfl⟩
      reader := Nat.zero_le _
      cursor := ⟨Nat.le_refl _, Nat.zero_le _⟩
      codeWord := Nat.zero_le _ }
  progress := .idle rfl
  halted := nofun

theorem unwritten_canonical : Rams.unwritten.Canonical :=
  ⟨Memory.wf_nil, Memory.wf_nil, Memory.wf_nil, Memory.wf_nil, Memory.wf_nil, Memory.wf_nil, Memory.wf_nil, Memory.wf_nil,
    Memory.wf_nil, Memory.wf_nil, Memory.wf_nil⟩

theorem pinReset_inv {s : State} (g : s.Good) : (pinReset s).Inv := by
  have h := softReset_preDequeue g
  have hgood : (pinReset s).Good := { h.good with rams := unwritten_canonical }
  exact (h.of_eq hgood).inv fun _ => rfl

/-! ### The host's reads -/

theorem State.PreDequeue.answer {s : State} (h : s.PreDequeue) (v : Word) : (Machine.answer v s).PreDequeue :=
  h.of_eq { h.good with }

theorem State.PreDequeue.refuseAccess {s : State} (h : s.PreDequeue) : (Machine.refuseAccess s).PreDequeue :=
  h.of_move (Move.warns s _)

theorem State.PreDequeue.refuseRead {s : State} (h : s.PreDequeue) : (Machine.refuseRead s).PreDequeue :=
  h.refuseAccess.answer 0

/-- Ending a wait leaves the command where it stood. -/
theorem State.PreDequeue.wake {s : State} (h : s.PreDequeue) (src : StallSrc) : (Machine.wake src s).PreDequeue := by
  unfold Machine.wake
  split
  · rename_i src' p ha
    have hemb := h.progress.embedding
    have henc := h.progress.encoding
    rw [ha, embedding_stall] at hemb
    rw [ha, codesFit_stall] at henc
    split
    · exact ⟨{ h.good with }, ⟨hemb, henc⟩, nofun⟩
    · exact h
  all_goals exact h

theorem readOutData_preDequeue {s : State} (h : s.PreDequeue) : (readOutData s).PreDequeue := by
  unfold readOutData
  split
  · exact h.answer 0
  · rename_i b q hq
    have hgood : State.Good { s with fifo.out := q } :=
      { h.good with fifos := { h.good.fifos with out := length_pop_le hq h.good.fifos.out } }
    exact ((h.of_eq hgood).answer _).wake .out

theorem readPayoutData_preDequeue {s : State} (h : s.PreDequeue) : (readPayoutData s).PreDequeue := by
  unfold readPayoutData
  split
  · exact h.answer 0
  · rename_i b q hq
    have hgood : State.Good { s with fifo.payout := q } :=
      { h.good with fifos := { h.good.fifos with payout := length_pop_le hq h.good.fifos.payout } }
    exact ((h.of_eq hgood).answer _).wake .payout

theorem readReg_preDequeue {s : State} (h : s.PreDequeue) (r : HostReg) : (readReg r s).PreDequeue := by
  unfold readReg
  split
  · exact h.of_eq { h.good with }
  · split
    · exact readOutData_preDequeue h
    · exact readPayoutData_preDequeue h
    · exact h.answer _

theorem busRead_preDequeue {s : State} (h : s.PreDequeue) (off : Nat) : (busRead off s).PreDequeue := by
  unfold busRead
  split
  · exact readReg_preDequeue h _
  · exact h.refuseRead
  · split
    · exact h.refuseRead
    · exact h.answer _

/-! ### The host's writes -/

/-- What an access that takes effect leaves. -/
def AccessResult.Leaves (R : State → Prop) : AccessResult → Prop
  | .done t => R t
  | .held => True
  | .outside => True

/-- An accepted command word may wait for an idle core's dequeue, never for a halted one (20_memory.md R120). -/
theorem writeCmd_preDequeue {s : State} (h : s.PreDequeue) (v : Word) : (writeCmd v s).Leaves State.PreDequeue := by
  unfold writeCmd
  split
  · exact h.refuseAccess
  · rename_i hf
    split
    · trivial
    · rename_i hroom
      exact
        { good := { h.good with fifos := { h.good.fifos with cmd := length_push_le v hroom } }
          progress := ⟨h.progress.embedding, h.progress.encoding⟩
          halted := fun hf' => absurd hf' hf }

theorem pushFull_preDequeue {s : State} (h : s.PreDequeue) : (pushFull s).Leaves State.PreDequeue := by
  unfold pushFull
  split
  · exact h.refuseAccess
  · trivial

theorem writeRngData_preDequeue {s : State} (h : s.PreDequeue) (v : Word) : (writeRngData v s).Leaves State.PreDequeue := by
  unfold writeRngData
  split
  · exact pushFull_preDequeue h
  · rename_i hroom
    have hgood : State.Good { s with fifo.rng := s.fifo.rng ++ [v.extractLsb' 0 8] } :=
      { h.good with fifos := { h.good.fifos with rng := length_push_le _ hroom } }
    exact (h.of_eq hgood).wake .rng

theorem writeInData_preDequeue {s : State} (h : s.PreDequeue) (v : Word) : (writeInData v s).Leaves State.PreDequeue := by
  unfold writeInData
  split
  · exact h.refuseAccess
  · split
    · exact pushFull_preDequeue h
    · rename_i hroom
      have hgood : State.Good { s with fifo.inp := s.fifo.inp ++ [v.extractLsb' 0 8] } :=
        { h.good with fifos := { h.good.fifos with inp := length_push_le _ hroom } }
      exact (h.of_eq hgood).wake .inp

theorem writePayinData_preDequeue {s : State} (h : s.PreDequeue) (v : Word) :
    (writePayinData v s).Leaves State.PreDequeue := by
  unfold writePayinData
  split
  · exact pushFull_preDequeue h
  · rename_i hroom
    have hgood : State.Good { s with fifo.payin := s.fifo.payin ++ [v.extractLsb' 0 8] } :=
      { h.good with fifos := { h.good.fifos with payin := length_push_le _ hroom } }
    exact (h.of_eq hgood).wake .payin

theorem State.PreDequeue.setEos {s : State} (h : s.PreDequeue) (e : Bool) : State.PreDequeue { s with fifo.inEos := e } :=
  h.of_eq { h.good with fifos := { h.good.fifos with } }

theorem writeInCtrl_preDequeue {s : State} (h : s.PreDequeue) (v : Word) : (writeInCtrl v s).PreDequeue := by
  have h1 : (if v.getLsbD 1 then { s with fifo.inEos := false } else s : State).PreDequeue := by
    split
    · exact h.setEos false
    · exact h
  simp only [writeInCtrl]
  split
  · exact (h1.setEos true).wake .inp
  · exact h1

theorem writeFifoclr_preDequeue {s : State} (h : s.PreDequeue) (v : Word) : (writeFifoclr v s).PreDequeue := by
  have hf := h.good.fifos
  have hgood : (writeFifoclr v s).Good :=
    { h.good with
      fifos :=
        { cmd := hf.cmd
          rng := length_clear_le hf.rng
          inp := length_clear_le hf.inp
          payin := length_clear_le hf.payin
          out := length_clear_le hf.out
          payout := length_clear_le hf.payout } }
  exact h.of_eq hgood

/-- A written NCOEF is a multiple of 64 and at most COEF_DEPTH (10_state.md R43). -/
theorem Move.writeNcoef (v : Word) (s : State) : Move s (writeNcoef v s) :=
  Move.ofGeo s _ fun g => by
    obtain ⟨-, hmod, -, hmax, -⟩ := g.params
    refine ⟨?_, g.components⟩
    show (BitVec.ofNat 32 (min (v.toNat - v.toNat % 64) s.cfg.coefDepth)).toNat % 64 = 0 ∧ _
    have hlt : min (v.toNat - v.toNat % 64) s.cfg.coefDepth < 2 ^ 32 := by omega
    rw [BitVec.toNat_ofNat, Nat.mod_eq_of_lt hlt]
    exact ⟨by omega, Nat.min_le_right _ _⟩

/-- A written NCOMP is 1 to 4 (10_state.md R45). -/
theorem Move.writeNcomp (v : Word) (s : State) : Move s (writeNcomp v s) := by
  simp only [Machine.writeNcomp]
  split
  · exact Move.ofGeo s _ fun g => ⟨g.array, ‹_›⟩
  · exact Move.refl s

theorem not_embedding_of_not_busy {s : State} (h : s.busy = false) : s.agent.embedding = false := by
  unfold State.busy at h
  split at h
  · rename_i ha; rw [ha]; rfl
  · cases h
  · cases h
  · rename_i ha; rw [ha]; rfl

/-- K changes only while no command runs (20_memory.md R106). -/
theorem State.PreDequeue.setK {s : State} (h : s.PreDequeue) (hb : s.busy = false) (k : BitVec 5) :
    State.PreDequeue { s with f5.k := k } where
  good := { h.good with }
  progress.embedding he := by
    have hne := not_embedding_of_not_busy hb
    cases hne.symm.trans he
  progress.encoding := h.progress.encoding
  halted := h.halted

theorem writeConfig_preDequeue {s t : State} (h : s.PreDequeue) (hb : s.busy = false) {r : HostReg} {v : Word}
    (hw : writeConfig r v s = some t) : t.PreDequeue := by
  cases r with
  | ctrl => cases hw; exact h.of_eq { h.good with }
  | ncoef => cases hw; exact h.of_move (Move.writeNcoef v s)
  | imgW => cases hw; exact h.of_eq { h.good with }
  | imgH => cases hw; exact h.of_eq { h.good with }
  | ncomp => cases hw; exact h.of_move (Move.writeNcomp v s)
  | compcfg c => cases hw; exact h.of_eq { h.good with }
  | rstint => cases hw; exact h.of_eq { h.good with }
  | pred c => cases hw; exact h.of_move (Move.setPred s _ _)
  | outcnt => cases hw; exact h.of_eq { h.good with }
  | incnt => cases hw; exact h.of_eq { h.good with }
  | k => cases hw; exact h.setK hb _
  | paylen => cases hw; exact h.of_eq { h.good with }
  | inCtrl => cases hw; exact writeInCtrl_preDequeue h v
  | fifoclr => cases hw; exact writeFifoclr_preDequeue h v
  | _ => cases hw

theorem writeReg_preDequeue {s : State} (h : s.PreDequeue) (r : HostReg) (v : Word) :
    (writeReg r v s).Leaves State.PreDequeue := by
  unfold writeReg
  split
  · exact writeCmd_preDequeue h v
  · exact writeRngData_preDequeue h v
  · exact writeInData_preDequeue h v
  · exact writePayinData_preDequeue h v
  · exact h.of_eq { h.good with }
  · exact h.of_eq { h.good with }
  · split
    · exact softReset_preDequeue h.good
    · split
      · exact writeInCtrl_preDequeue h v
      · split
        · exact h.refuseAccess
        · rename_i hb
          split
          · rename_i t ht
            exact writeConfig_preDequeue h (by simpa using hb) ht
          · exact h.refuseAccess

theorem writeWindow_preDequeue {s t : State} (h : s.PreDequeue) {w : Region} {v : Word} (hw : writeWindow w v s = some t) :
    t.PreDequeue := by
  have hr := h.good.rams
  unfold writeWindow at hw
  split at hw <;> cases hw
  · exact h.of_eq { h.good with rams := { hr with pix := Memory.wf_writeBlock hr.pix _ _ } }
  · exact h.of_eq { h.good with rams := { hr with qt := Memory.wf_write hr.qt _ _ } }
  · exact h.of_eq { h.good with rams := { hr with coef := Memory.wf_write hr.coef _ _ } }

theorem busWrite_preDequeue {s : State} (h : s.PreDequeue) (off : Nat) (v : Word) :
    (busWrite off v s).Leaves State.PreDequeue := by
  unfold busWrite
  split
  · exact writeReg_preDequeue h _ v
  · split
    · exact h.refuseAccess
    · split
      · rename_i t ht
        exact writeWindow_preDequeue h ht
      · exact h.refuseAccess

theorem busAccess_preDequeue {s : State} (h : s.PreDequeue) (a : BusAccess) :
    (busAccess a s).Leaves State.PreDequeue := by
  unfold busAccess
  split
  · split
    · trivial
    · split
      · exact busRead_preDequeue h _
      · exact h.refuseRead
  · split
    · trivial
    · split
      · exact busWrite_preDequeue h _ _
      · exact h.refuseAccess

/-! ### Every step -/

theorem State.Inv.withHost {s : State} (h : s.Inv) (q : List HostMove) : State.Inv { s with host := q } :=
  { h with }

end Sys2Proof.Machine

namespace Sys2Proof

open Machine

/-- Settles O12: the core's move keeps all of the invariant but the empty queue of an idle core, and so does a host access;
the dequeue that follows restores that clause. -/
theorem stepKeepsTheInvariant : Obligations.StepKeepsTheInvariant := by
  intro s t hs h
  unfold step agentStep at h
  split at h
  · exact coreStep_inv hs h
  · exact coreStep_inv (hs.withHost _) h
  · cases h
    exact pinReset_inv (hs.withHost _).good
  · rename_i a q _
    have ha := busAccess_preDequeue (hs.withHost q).preDequeue a
    split at h
    · rename_i u hu
      rw [hu] at ha
      cases h
      exact State.PreDequeue.settle ha
    · exact coreStep_inv hs h
    · cases h

end Sys2Proof

/-! SUPPORT. A host access, from the step down to the register its address names: what it reads, and what it stores. An access that
leaves no idle core a command to dequeue gives the next state itself (10_state.md R31 to R63). -/

namespace Sys2Proof.Machine

/-! ### The address -/

theorem offsetOfAddr_base_add {cfg : Params} (hcfg : cfg.wf) {off : Nat} (hoff : off ≤ 0x2FFFFFFF) :
    offsetOfAddr cfg (cfg.f5Base + BitVec.ofNat 32 off) = some off := by
  obtain ⟨hbase, -⟩ := hcfg
  have haddr : (cfg.f5Base + BitVec.ofNat 32 off).toNat = cfg.f5Base.toNat + off := by
    rw [BitVec.toNat_add, BitVec.toNat_ofNat]
    omega
  rw [offsetOfAddr, haddr, if_pos ⟨Nat.le_add_right _ _, Nat.add_le_add_left hoff _⟩, Nat.add_sub_cancel_left]

/-- Every register has an aligned offset below the windows, and no two share one. -/
theorem registerMap_entries :
    ∀ e ∈ registerMap, e.1 ≤ 0x120 ∧ e.1 % 4 = 0 ∧ registerMap.lookup e.1 = some e.2 := by decide

theorem regionOf_register {off : Nat} {r : HostReg} (hr : (off, r) ∈ registerMap) (cfg : Params) :
    regionOf cfg off = .reg r := by
  obtain ⟨-, -, hlookup⟩ := registerMap_entries _ hr
  rw [regionOf, hlookup]

/-! ### The step -/

theorem settle_eq_self {s : State} (hq : s.agent = .idle → s.fifo.cmd = []) : settle s = s := by
  unfold settle
  split
  · rename_i hidle hcmd
    cases (hq hidle).symm.trans hcmd
  · rfl

theorem State.Inv.idle_queue {s : State} (hs : s.Inv) (ha : s.agent = .idle) : s.fifo.cmd = [] :=
  hs.queue (by rw [State.executing, ha])

/-- An access that changes neither the agent nor the command FIFO is followed by no dequeue. -/
theorem State.Inv.settle_eq {s t : State} (hs : s.Inv) (agent : t.agent = s.agent := by rfl)
    (cmd : t.fifo.cmd = s.fifo.cmd := by rfl) : settle t = t :=
  settle_eq_self fun ha => cmd.trans (hs.idle_queue (agent.symm.trans ha))

section
variable {s : State} {off : Nat} (hcfg : s.cfg.wf) (hoff : off ≤ 0x2FFFFFFF) (halign : off % 4 = 0) (h : List HostMove)
include hcfg hoff halign

theorem step_readAt : step { s with host := readAt s.cfg off :: h } = .next (settle (busRead off { s with host := h })) := by
  simp only [step, agentStep, readAt, busAccess, offsetOfAddr_base_add hcfg hoff, halign, and_self, if_true]

theorem step_writeAt {v : Word} {t : State} (hw : busWrite off v { s with host := h } = .done t) :
    step { s with host := writeAt s.cfg off v :: h } = .next (settle t) := by
  simp only [step, agentStep, writeAt, busAccess, offsetOfAddr_base_add hcfg hoff, halign, and_self, if_true, hw]

end

section
variable {s : State} {off : Nat} {r : HostReg} (hs : s.Inv) (hr : (off, r) ∈ registerMap) (h : List HostMove)
include hs hr

theorem step_readReg : step { s with host := readAt s.cfg off :: h } = .next (settle (readReg r { s with host := h })) := by
  obtain ⟨hoff, halign, -⟩ := registerMap_entries _ hr
  rw [step_readAt hs.params (hoff.trans (by decide)) halign, busRead, regionOf_register hr]

theorem step_writeReg {v : Word} {t : State} (hw : writeReg r v { s with host := h } = .done t) :
    step { s with host := writeAt s.cfg off v :: h } = .next (settle t) := by
  obtain ⟨hoff, halign, -⟩ := registerMap_entries _ hr
  refine step_writeAt hs.params (hoff.trans (by decide)) halign h ?_
  rw [busWrite, regionOf_register hr]
  exact hw

end

/-! ### Reads -/

/-- A read of the register pops a byte of an output FIFO (20_memory.md R122). -/
def HostReg.pops : HostReg → Bool
  | .outData | .payoutData => true
  | _ => false

theorem HostReg.pops_of_not_exact {r : HostReg} (h : r.exact = false) : r.pops = false := by
  cases r with
  | outData => cases h
  | payoutData => cases h
  | _ => rfl

theorem readReg_regValue {r : HostReg} {s : State} (hpops : r.pops = false) (hexact : (s.busy && !r.exact) = false) :
    readReg r s = answer (s.regValue r) s := by
  unfold readReg
  rw [hexact]
  cases r with
  | outData => cases hpops
  | payoutData => cases hpops
  | _ => rfl

theorem readReg_busy {r : HostReg} {s : State} (hbusy : s.busy = true) (hexact : r.exact = false) :
    readReg r s = { answer (Config.busyRead s.freeCount) s with freeCount := s.freeCount + 1 } := by
  unfold readReg
  rw [hbusy, hexact]
  rfl

/-- A register with no read effect that is exact now reads its value (20_memory.md R132). -/
theorem step_read_regValue {s : State} (hs : s.Inv) {off : Nat} {r : HostReg} (hr : (off, r) ∈ registerMap)
    (hpops : r.pops = false) (hexact : (s.busy && !r.exact) = false) (h : List HostMove) :
    step { s with host := readAt s.cfg off :: h } = .next { s with host := h, busData := s.regValue r } := by
  have hread : readReg r { s with host := h } = { s with host := h, busData := s.regValue r } :=
    readReg_regValue hpops hexact
  rw [step_readReg hs hr, hread, hs.settle_eq]

/-- While BUSY a register that R132 does not list reads a free value (20_memory.md R132; log 7). -/
theorem step_read_busy {s : State} (hs : s.Inv) {off : Nat} {r : HostReg} (hr : (off, r) ∈ registerMap)
    (hbusy : s.busy = true) (hexact : r.exact = false) (h : List HostMove) :
    step { s with host := readAt s.cfg off :: h } =
      .next { s with host := h, busData := Config.busyRead s.freeCount, freeCount := s.freeCount + 1 } := by
  have hread : readReg r { s with host := h } =
      { s with host := h, busData := Config.busyRead s.freeCount, freeCount := s.freeCount + 1 } :=
    readReg_busy hbusy hexact
  rw [step_readReg hs hr, hread, hs.settle_eq]

theorem bitOf_le_one (b : Bool) : bitOf b ≤ 1 := by cases b <;> decide

theorem Ctrl.word_toNat (c : Ctrl) :
    c.word.toNat = 2 * bitOf c.padbit + 4 * bitOf c.hdrLossy + 8 * bitOf c.rngSigned
      + (match c.qround with
        | .halfAway => 0
        | .halfUp => 16
        | .halfEven => 32) := by
  have hp := bitOf_le_one c.padbit
  have hl := bitOf_le_one c.hdrLossy
  have hs := bitOf_le_one c.rngSigned
  rw [Ctrl.word, BitVec.toNat_ofNat]
  cases c.qround <;> simp only [] <;> omega

theorem State.validWord_toNat (s : State) :
    s.validWord.toNat = bitOf s.valid.div + 2 * bitOf s.valid.perm + 4 * bitOf s.valid.dht.c0 + 8 * bitOf s.valid.dht.c1
      + 16 * bitOf s.valid.dht.c2 + 32 * bitOf s.valid.dht.c3 := by
  have hd := bitOf_le_one s.valid.div
  have hp := bitOf_le_one s.valid.perm
  have h0 := bitOf_le_one s.valid.dht.c0
  have h1 := bitOf_le_one s.valid.dht.c1
  have h2 := bitOf_le_one s.valid.dht.c2
  have h3 := bitOf_le_one s.valid.dht.c3
  exact Nat.mod_eq_of_lt (by omega)

theorem State.decflagsWord_toNat (s : State) :
    s.decflagsWord.toNat = bitOf s.seen.soi + 2 * bitOf s.seen.sof + 4 * bitOf s.seen.sos + 8 * bitOf s.seen.eoi
      + (match s.reader.latch with
        | .empty => 0
        | .marker m => 16 + 2 ^ 8 * m.toNat
        | .eos => 16 + 32) := by
  have h0 := bitOf_le_one s.seen.soi
  have h1 := bitOf_le_one s.seen.sof
  have h2 := bitOf_le_one s.seen.sos
  have h3 := bitOf_le_one s.seen.eoi
  rw [State.decflagsWord]
  cases s.reader.latch with
  | empty => exact Nat.mod_eq_of_lt (by omega)
  | marker m =>
    have hm := m.isLt
    simp only [BitVec.toNat_ofNat]
    omega
  | eos => exact Nat.mod_eq_of_lt (by omega)

/-! ### STATUS (10_state.md R33) -/

theorem faulted_iff {s : State} : s.faulted = true ↔ ∃ c, s.agent = .halted c := by
  unfold State.faulted
  cases s.agent <;> simp

/-- An idle core of a state that meets the invariant has no command waiting, so BUSY is on exactly while a command executes. -/
theorem State.Inv.busy_eq_executing {s : State} (hs : s.Inv) : s.busy = s.executing := by
  unfold State.busy State.executing
  cases ha : s.agent with
  | idle => rw [hs.idle_queue ha]; rfl
  | _ => rfl

/-- The word of a fault: FAULT and FCODE. -/
theorem FaultCode.status_fields (c : FaultCode) :
    let v : Word := BitVec.ofNat 32 (2 + c.code * 2 ^ 8)
    v.toNat = 2 + 2 ^ 8 * c.code ∧ v.getLsbD 0 = false ∧ v.getLsbD 1 = true ∧ v.getLsbD 2 = false := by
  cases c <;> decide

/-- The word of a wait: BUSY, STALL and STALLSRC. -/
theorem StallSrc.status_fields (src : StallSrc) :
    let v : Word := BitVec.ofNat 32 (1 + 4 + src.code * 2 ^ 16)
    v.toNat = 1 + 4 + 2 ^ 16 * src.code ∧ v.getLsbD 0 = true ∧ v.getLsbD 1 = false ∧ v.getLsbD 2 = true := by
  cases src <;> decide

/-- STATUS bit 0 is BUSY, bit 1 FAULT and bit 2 STALL. -/
theorem statusWord_bits (s : State) :
    s.statusWord.getLsbD 0 = s.busy ∧ s.statusWord.getLsbD 1 = s.faulted ∧
      (s.statusWord.getLsbD 2 = true ↔ ∃ src p, s.agent = .stall src p) := by
  unfold State.statusWord State.faulted
  cases ha : s.agent with
  | idle => cases hb : s.busy <;> simp [bitOf]
  | exec p => simp [State.busy, ha]
  | stall src p =>
    obtain ⟨-, h0, h1, h2⟩ := src.status_fields
    exact ⟨h0.trans (by rw [State.busy, ha]), h1, by rw [h2]; simp⟩
  | halted c =>
    obtain ⟨-, h0, h1, h2⟩ := c.status_fields
    exact ⟨h0.trans (by rw [State.busy, ha]), h1, by rw [h2]; simp⟩

/-! ### Writes -/

/-- A register that refuses a write at any time (10_state.md R31 to R63). -/
def HostReg.readOnly : HostReg → Bool
  | .id | .status | .cmdlvl | .fcmd | .fpc | .cmdcnt | .mark | .result | .mcux | .mcuy | .decflags | .putbuf | .putbits
  | .permN | .pos | .embBits | .embBytes | .embChanged | .embShrink | .extLen | .extK | .extBytes | .hdrword
  | .capOnes | .capZeros | .capNondc | .capLarge | .cwlen | .valid | .outData | .payoutData | .lvl0 | .lvl1 => true
  | _ => false

/-- A register whose write has a rule of its own, BUSY or not (20_memory.md R120, R121, 10_state.md R34, R35). -/
def HostReg.ownWrite : HostReg → Bool
  | .cmd | .rngData | .inData | .payinData | .warn | .irqen => true
  | _ => false

/-- A write of any other register. -/
theorem writeReg_other {r : HostReg} (hr : r.ownWrite = false) (v : Word) (s : State) :
    writeReg r v s =
      if r = .ctrl ∧ v.getLsbD 0 = true then .done (softReset s)
      else if r = .inCtrl ∧ v.getLsbD 1 = false then .done (writeInCtrl v s)
      else if s.busy then .done (refuseAccess s)
      else ((writeConfig r v s).map AccessResult.done).getD (.done (refuseAccess s)) := by
  unfold writeReg
  split
  iterate 6 · cases hr
  · cases writeConfig r v s <;> rfl

theorem HostReg.readOnly_not_written {r : HostReg} (hr : r.readOnly = true) (v : Word) (s : State) :
    r.ownWrite = false ∧ r ≠ .ctrl ∧ r ≠ .inCtrl ∧ writeConfig r v s = none := by
  cases r <;> cases hr <;> exact ⟨rfl, nofun, nofun, rfl⟩

theorem writeReg_readOnly {r : HostReg} (hr : r.readOnly = true) (v : Word) (s : State) :
    writeReg r v s = .done (refuseAccess s) := by
  obtain ⟨hown, hctrl, hin, hc⟩ := HostReg.readOnly_not_written hr v s
  rw [writeReg_other hown, if_neg (hctrl ·.1), if_neg (hin ·.1), hc]
  exact ite_self _

/-- IN_CTRL without EOS_CLR is written at any time (10_state.md R63). -/
theorem writeReg_inCtrl {v : Word} (hclr : v.getLsbD 1 = false) (s : State) :
    writeReg .inCtrl v s = .done (writeInCtrl v s) := by
  rw [writeReg_other rfl, if_neg (fun h => nomatch h.1), if_pos ⟨rfl, hclr⟩]

theorem HostReg.ownWrite_of_config {r : HostReg} {v : Word} {s t : State} (hc : writeConfig r v s = some t) :
    r.ownWrite = false := by
  cases r <;> cases hc <;> rfl

/-- While not BUSY a configuration register takes the write, CTRL one without SRST (20_memory.md R106). -/
theorem writeReg_config {r : HostReg} {v : Word} {s t : State} (hb : s.busy = false) (hsrst : r = .ctrl → v.getLsbD 0 = false)
    (hc : writeConfig r v s = some t) : writeReg r v s = .done t := by
  have hreset : ¬ (r = .ctrl ∧ v.getLsbD 0 = true) := fun h => by rw [hsrst h.1] at h; cases h.2
  rw [writeReg_other (HostReg.ownWrite_of_config hc), if_neg hreset, hb, hc]
  split
  · rename_i hin
    rw [hin.1] at hc
    exact congrArg _ (Option.some.inj hc)
  · rfl

section
variable {s : State} (hs : s.Inv) {off : Nat} (v : Word) (h : List HostMove)
include hs

theorem step_write_readOnly (ho : (registerMap.lookup off).map HostReg.readOnly = some true) :
    step { s with host := writeAt s.cfg off v :: h } = .next { s with host := h, warn := warnHostErr s.warn } := by
  obtain ⟨r, hr, hro⟩ := Option.map_eq_some_iff.1 ho
  rw [step_writeReg hs (lookup_mem hr) h (writeReg_readOnly hro v _), hs.settle_eq]
  rfl

theorem step_write_config {r : HostReg} (hr : (off, r) ∈ registerMap) {t : State} (hb : s.busy = false)
    (hc : writeConfig r v { s with host := h } = some t) (hsrst : r = .ctrl → v.getLsbD 0 = false := by exact nofun)
    (agent : t.agent = s.agent := by rfl) (cmd : t.fifo.cmd = s.fifo.cmd := by rfl) :
    step { s with host := writeAt s.cfg off v :: h } = .next t := by
  rw [step_writeReg hs hr h (writeReg_config hb hsrst hc), hs.settle_eq agent cmd]

end

/-- A core that is not BUSY waits on no FIFO. -/
theorem wake_of_not_busy {s : State} (hb : s.busy = false) (src : StallSrc) : wake src s = s := by
  unfold wake
  split
  · rename_i ha
    rw [State.busy, ha] at hb
    cases hb
  all_goals rfl

theorem wake_cmd (src : StallSrc) (s : State) : (wake src s).fifo.cmd = s.fifo.cmd := by
  unfold wake
  split
  · split <;> rfl
  all_goals rfl

theorem agent_of_wake_idle {src : StallSrc} {s : State} (hw : (wake src s).agent = .idle) : s.agent = .idle := by
  unfold wake at hw
  split at hw
  · split at hw
    · cases hw
    · exact hw
  all_goals exact hw

/-- Ending a wait makes no core idle, so no dequeue follows. -/
theorem State.Inv.settle_wake {s t : State} (hs : s.Inv) (src : StallSrc) (agent : t.agent = s.agent := by rfl)
    (cmd : t.fifo.cmd = s.fifo.cmd := by rfl) : settle (wake src t) = wake src t :=
  settle_eq_self fun ha => by
    rw [wake_cmd, cmd]
    exact hs.idle_queue (agent ▸ agent_of_wake_idle ha)

/-- EOS ends a wait of the input reader, EOS_CLR left alone (10_state.md R63). -/
theorem writeInCtrl_keep {v : Word} (hclr : v.getLsbD 1 = false) (s : State) :
    writeInCtrl v s = if v.getLsbD 0 then wake .inp { s with fifo.inEos := true } else s := by
  unfold writeInCtrl
  rw [hclr]
  rfl

/-- EOS_CLR acts before EOS, and no command waits on IN (10_state.md R63). -/
theorem writeInCtrl_clear {v : Word} {s : State} (hb : s.busy = false) (hclr : v.getLsbD 1 = true) :
    writeInCtrl v s = { s with fifo.inEos := v.getLsbD 0 } := by
  unfold writeInCtrl
  rw [hclr]
  cases v.getLsbD 0 with
  | false => rfl
  | true => exact wake_of_not_busy (s := { s with fifo.inEos := true }) hb .inp

/-! ### The fields of a written word -/

/-- A written NCOMP, legal or not, as a value of bits 2:0 of the word (10_state.md R45). -/
theorem writeNcomp_eq (v : Word) (s : State) :
    writeNcomp v s = { s with
      geo.ncomp := if v.toNat % 8 = 0 ∨ 4 < v.toNat % 8 then s.geo.ncomp else v.extractLsb' 0 3 } := by
  have hn : (v.extractLsb' 0 3).toNat = v.toNat % 8 := by simp [BitVec.extractLsb'_toNat]
  simp only [writeNcomp, hn]
  split
  · rw [if_neg (by omega)]
  · rw [if_pos (by omega)]

theorem selBit_val (v : Word) (i : Nat) : (selBit v i).val = v.toNat / 2 ^ i % 2 := by
  obtain h | h := Nat.mod_two_eq_zero_or_one (v.toNat / 2 ^ i) <;>
    simp [selBit, BitVec.getLsbD, Nat.testBit_eq_decide_div_mod_eq, h]

/-- A written COMPCFG reads back its bits 19:0 (10_state.md R46). -/
theorem CompCfg.word_ofWord (v : Word) : (CompCfg.ofWord v).word = v &&& 0xFFFFF := by
  apply BitVec.eq_of_toNat_eq
  have hmask : (v &&& 0xFFFFF).toNat = v.toNat % 2 ^ 20 := Nat.and_two_pow_sub_one_eq_mod v.toNat 20
  simp only [hmask, CompCfg.word, CompCfg.ofWord, selBit_val, BitVec.toNat_ofNat, BitVec.extractLsb'_toNat,
    Nat.shiftRight_eq_div_pow]
  omega

/-- QROUND as the number in bits 5:4 of a write of CTRL (10_state.md R32). -/
theorem tieOfWord_eq (v : Word) (old : TieRule) :
    tieOfWord v old = (match v.toNat / 2 ^ 4 % 2 ^ 2 with
      | 0 => .halfAway
      | 1 => .halfUp
      | 2 => .halfEven
      | _ => old) := by
  have hlow : v.toNat / 2 ^ 4 % 2 = v.toNat / 2 ^ 4 % 2 ^ 2 % 2 := by omega
  have hhigh : v.toNat / 2 ^ 5 % 2 = v.toNat / 2 ^ 4 % 2 ^ 2 / 2 := by omega
  have hlt : v.toNat / 2 ^ 4 % 2 ^ 2 < 4 := by omega
  simp only [tieOfWord, BitVec.getLsbD, Nat.testBit_eq_decide_div_mod_eq, hlow, hhigh]
  generalize v.toNat / 2 ^ 4 % 2 ^ 2 = q at hlt
  interval_cases q <;> rfl

theorem Quad.get_set_self {α : Type} (q : Quad α) (c : Fin 4) (v : α) : (q.set c.val v).get c.val = v := by
  fin_cases c <;> rfl

theorem Quad.get_set_of_ne {α : Type} (q : Quad α) {c d : Fin 4} (h : d ≠ c) (v : α) :
    (q.set c.val v).get d.val = q.get d.val := by
  fin_cases c <;> fin_cases d <;> trivial

end Sys2Proof.Machine

namespace Sys2Proof

open Machine

/-- Settles O23: the bits of STATUS are BUSY, FAULT and STALL, and the interrupt line's terms are BUSY, FAULT and WARN. -/
theorem statusAndInterruptLineFollowTheState : Obligations.StatusAndInterruptLineFollowTheState := by
  intro s h hs
  obtain ⟨hbusy, hfault, hstall⟩ := statusWord_bits s
  refine ⟨s.statusWord, step_read_regValue (r := .status) hs (by decide) rfl (Bool.and_false _) h,
    ?_, ?_, hstall, ?_, ?_, ?_, ?_, ?_⟩
  · rw [hbusy, hs.busy_eq_executing]
  · rw [hfault, faulted_iff]
  · intro ha
    rw [State.statusWord, ha, hs.busy_eq_executing, State.executing, ha]
    rfl
  · intro p ha
    rw [State.statusWord, ha]
  · intro c ha
    rw [State.statusWord, ha]
    exact c.status_fields.1
  · intro src p ha
    rw [State.statusWord, ha]
    exact src.status_fields.1
  · rw [hbusy, hfault]
    simp [irq, and_assoc, or_assoc]

/-- Settles O25: the two lists of the statement are the entries of the register map without a read effect, those that R132 lists
(STATUS apart) and those that it does not. -/
theorem registerReadsReturnTheirRegister : Obligations.RegisterReadsReturnTheirRegister := by
  intro s h hs read exact others
  have hexact : exact = (registerMap.filter (fun e => e.2.exact && !e.2.pops && e.2 ≠ .status)).map
      (fun e => (e.1, s.regValue e.2)) := by
    simp only [exact, Nat.mul_comm (2 ^ 8), Nat.mul_comm (2 ^ 16)]
    rfl
  have hothers : others = (registerMap.filter (fun e => !e.2.exact)).map (fun e => (e.1, s.regValue e.2)) := rfl
  refine ⟨?_, ?_, ?_, s.ctrl.word_toNat, s.validWord_toNat, s.decflagsWord_toNat⟩
  · rw [hexact, List.forall_mem_map]
    intro e he
    simp only [List.mem_filter, Bool.and_eq_true, Bool.not_eq_true'] at he
    obtain ⟨hmem, ⟨hex, hpops⟩, -⟩ := he
    exact step_read_regValue hs hmem hpops (by rw [hex]; exact Bool.and_false _) h
  · intro hb
    rw [hothers, List.forall_mem_map]
    intro e he
    simp only [List.mem_filter, Bool.not_eq_true'] at he
    exact step_read_regValue hs he.1 (HostReg.pops_of_not_exact he.2) (by rw [hb]; rfl) h
  · intro hb
    rw [hothers, List.forall_mem_map]
    intro e he
    simp only [List.mem_filter, Bool.not_eq_true'] at he
    exact ⟨_, step_read_busy hs he.1 hb he.2 h⟩

/-- Settles O24: a register that can be written stores its fields, by the rule of its own or as a configuration register while not
BUSY; every other register refuses the write. -/
theorem registerWritesStoreTheirFields : Obligations.RegisterWritesStoreTheirFields := by
  intro s v h hs write u lo16
  refine ⟨?_, ?_, ?_, ?_, ?_, ?_, fun hb => ⟨?_, ?_, ?_, ?_, ?_, ?_, ?_, ?_, ?_, ?_, ?_, ?_, ?_, ?_⟩⟩
  · intro off ho
    exact step_write_readOnly hs v h (by revert off; decide)
  · intro n hn
    exact step_write_readOnly hs v h (by revert n; decide)
  · exact (step_writeReg hs (r := .warn) (by decide) h rfl).trans (by rw [hs.settle_eq])
  · exact (step_writeReg hs (r := .irqen) (by decide) h rfl).trans (by rw [hs.settle_eq])
  · intro hclr heos
    have hw : writeReg .inCtrl v u = .done (wake .inp { u with fifo.inEos := true }) := by
      rw [writeReg_inCtrl hclr, writeInCtrl_keep hclr, heos]
      rfl
    exact (step_writeReg hs (by decide) h hw).trans (by rw [hs.settle_wake])
  · intro hclr heos
    have hw : writeReg .inCtrl v u = .done u := by
      rw [writeReg_inCtrl hclr, writeInCtrl_keep hclr, heos]
      rfl
    exact (step_writeReg hs (by decide) h hw).trans (by rw [hs.settle_eq])
  · intro hsrst
    exact ⟨_, step_write_config hs v h (r := .ctrl) (by decide) hb rfl fun _ => hsrst, rfl, rfl, rfl, rfl, tieOfWord_eq _ _⟩
  · intro hclr
    exact step_write_config hs v h (r := .inCtrl) (by decide) hb (congrArg some (writeInCtrl_clear hb hclr))
  · exact step_write_config hs v h (r := .ncoef) (by decide) hb rfl
  · exact step_write_config hs v h (r := .imgW) (by decide) hb rfl
  · exact step_write_config hs v h (r := .imgH) (by decide) hb rfl
  · exact step_write_config hs v h (r := .ncomp) (by decide) hb (congrArg some (writeNcomp_eq v u))
  · intro c
    refine ⟨_, step_write_config hs v h (r := .compcfg c) (by decide +revert) hb rfl, rfl, ?_,
      fun d hd => Quad.get_set_of_ne _ hd _⟩
    exact (congrArg CompCfg.word (Quad.get_set_self _ c _)).trans (CompCfg.word_ofWord v)
  · exact step_write_config hs v h (r := .rstint) (by decide) hb rfl
  · intro c
    exact ⟨_, step_write_config hs v h (r := .pred c) (by decide +revert) hb rfl, rfl, Quad.get_set_self _ c _,
      fun d hd => Quad.get_set_of_ne _ hd _⟩
  · exact step_write_config hs v h (r := .outcnt) (by decide) hb rfl
  · exact step_write_config hs v h (r := .incnt) (by decide) hb rfl
  · exact step_write_config hs v h (r := .k) (by decide) hb rfl
  · exact step_write_config hs v h (r := .paylen) (by decide) hb rfl
  · exact step_write_config hs v h (r := .fifoclr) (by decide) hb rfl

end Sys2Proof

/-! SUPPORT. Which parts of the state each command can write, said once for all commands (the Writes lines of 40_control.md to
46_f5_matrix.md). `WritesOnly W s t` says that `t` agrees with `s` on every part that `W` does not list. The pieces of a command's
body write the parts they name, and `drive` carries that to the whole command. -/

namespace Sys2Proof.Machine

/-- The parts of the state a command can write: registers, RAMs and byte FIFOs, those that are written together as one. -/
inductive Part where
  | mark | result | geo | pred | packer | seen | reader | warn
  | divValid | permDone | dhtValid | pos | embChanges | embCounts | hdrword | extHeader | extBytes | caps
  | rng | inp | payin | out | payout
  | coef | perm | qt | dct | div | codeWord | dht
  deriving DecidableEq

def Part.all : List Part :=
  [.mark, .result, .geo, .pred, .packer, .seen, .reader, .warn, .divValid, .permDone, .dhtValid, .pos,
   .embChanges, .embCounts, .hdrword, .extHeader, .extBytes, .caps, .rng, .inp, .payin, .out,
   .payout, .coef, .perm, .qt, .dct, .div, .codeWord, .dht]

theorem Part.mem_all (p : Part) : p ∈ Part.all := by cases p <;> decide

/-- One part of a state, the others as after reset. -/
def State.only (s : State) : Part → State
  | .mark => { State.reset with mark := s.mark }
  | .result => { State.reset with result := s.result }
  | .geo => { State.reset with geo := s.geo }
  | .pred => { State.reset with coder.pred := s.coder.pred }
  | .packer => { State.reset with coder.putbuf := s.coder.putbuf, coder.putbits := s.coder.putbits }
  | .seen => { State.reset with seen := s.seen }
  | .reader => { State.reset with reader := s.reader }
  | .warn => { State.reset with warn := s.warn }
  | .divValid => { State.reset with valid.div := s.valid.div }
  | .permDone => { State.reset with valid.perm := s.valid.perm, f5.permN := s.f5.permN }
  | .dhtValid => { State.reset with valid.dht := s.valid.dht }
  | .pos => { State.reset with f5.pos := s.f5.pos }
  | .embChanges => { State.reset with f5.embChanged := s.f5.embChanged, f5.embShrink := s.f5.embShrink }
  | .embCounts => { State.reset with f5.embBits := s.f5.embBits, f5.embBytes := s.f5.embBytes }
  | .hdrword => { State.reset with f5.hdrword := s.f5.hdrword }
  | .extHeader => { State.reset with f5.extLen := s.f5.extLen, f5.extK := s.f5.extK }
  | .extBytes => { State.reset with f5.extBytes := s.f5.extBytes }
  | .caps => { State.reset with
    f5.capOnes := s.f5.capOnes
    f5.capZeros := s.f5.capZeros
    f5.capNondc := s.f5.capNondc
    f5.capLarge := s.f5.capLarge }
  | .rng => { State.reset with fifo.rng := s.fifo.rng }
  | .inp => { State.reset with fifo.inp := s.fifo.inp, coder.incnt := s.coder.incnt }
  | .payin => { State.reset with fifo.payin := s.fifo.payin }
  | .out => { State.reset with fifo.out := s.fifo.out, coder.outcnt := s.coder.outcnt }
  | .payout => { State.reset with fifo.payout := s.fifo.payout }
  | .coef => { State.reset with ram.coef := s.ram.coef }
  | .perm => { State.reset with ram.perm := s.ram.perm }
  | .qt => { State.reset with ram.qt := s.ram.qt }
  | .dct => { State.reset with ram.dct := s.ram.dct }
  | .div => { State.reset with ram.div := s.ram.div }
  | .codeWord => { State.reset with ram.cw := s.ram.cw, f5.cwlen := s.f5.cwlen }
  | .dht => { State.reset with
    ram.dhMax := s.ram.dhMax
    ram.dhMin := s.ram.dhMin
    ram.dhPtr := s.ram.dhPtr
    ram.dhVal := s.ram.dhVal }

/-- `t` agrees with `s` on every part outside `W`. -/
def WritesOnly (W : List Part) (s t : State) : Prop := ∀ p, p ∉ W → t.only p = s.only p

/-- The parts each command can write (the Writes lines of 40_control.md to 46_f5_matrix.md). -/
def writtenBy : Op → List Part
  | .nop => []
  | .mark => [.mark]
  | .qtscale => [.qt, .div, .divValid]
  | .divcalc => [.div, .divValid]
  | .fdct => [.dct]
  | .quant | .zzfwd | .zzinv | .coefclr => [.coef]
  | .geom => [.geo]
  | .blkaddr | .permrd | .xbit => [.result]
  | .putbits | .flush => [.packer, .out]
  | .emitraw => [.out]
  | .predclr => [.pred]
  | .encblk | .encscan => [.pred, .packer, .out]
  | .dechdr => [.geo, .seen, .reader, .dhtValid, .warn, .inp, .qt, .dht]
  | .decblk => [.result, .pred, .reader, .warn, .inp, .coef]
  | .decscan => [.pred, .seen, .reader, .warn, .inp, .coef]
  | .permgen => [.permDone, .pos, .rng, .perm]
  | .curset => [.pos]
  | .offer => [.result, .pos, .codeWord]
  | .capcnt => [.caps]
  | .bstep => [.result, .pos, .embChanges, .coef]
  | .mstep => [.result, .pos, .embChanges, .coef, .codeWord]
  | .mxtr => [.result, .pos]
  | .embhdr => [.pos, .embChanges, .embCounts, .hdrword, .warn, .rng, .coef]
  | .embpay => [.pos, .embChanges, .embCounts, .warn, .rng, .payin, .coef, .codeWord]
  | .exthdr => [.pos, .hdrword, .extHeader, .extBytes, .warn, .rng]
  | .extpay => [.pos, .extBytes, .warn, .rng, .payout]

/-! ### Composition -/

section
variable {V W : List Part} {s t u : State}

theorem WritesOnly.refl (W : List Part) (s : State) : WritesOnly W s s := fun _ _ => rfl

theorem WritesOnly.mono (a : WritesOnly V s t) (h : V ⊆ W) : WritesOnly W s t := fun p hp => a p (mt (@h p) hp)

/-- `mono` for lists that can be compared by evaluation. -/
theorem WritesOnly.widen (a : WritesOnly V s t) (h : V.all W.contains = true) : WritesOnly W s t :=
  a.mono fun p hp => by simpa using List.all_eq_true.1 h p hp

theorem WritesOnly.trans (a : WritesOnly V s t) (b : WritesOnly W t u) : WritesOnly (V ++ W) s u := fun p hp => by
  rw [List.mem_append, not_or] at hp
  exact (b p hp.2).trans (a p hp.1)

/-- Two pieces of one body. -/
theorem WritesOnly.seq (a : WritesOnly W s t) (b : WritesOnly W t u) : WritesOnly W s u :=
  (a.trans b).mono (by simp)

/-- An update of the parts `V`: the other parts are the same by definition. -/
theorem WritesOnly.update (V : List Part)
    (h : (Part.all.filter (!V.contains ·)).map t.only = (Part.all.filter (!V.contains ·)).map s.only) : WritesOnly V s t :=
  fun p hp => List.map_inj_left.1 h p (List.mem_filter.2 ⟨p.mem_all, by simpa using hp⟩)

theorem WritesOnly.retire (h : WritesOnly W s t) : WritesOnly W s (retire t) :=
  h.seq (WritesOnly.mono (.update [] rfl) (List.nil_subset _))

theorem WritesOnly.fault (h : WritesOnly W s t) (c : FaultCode) : WritesOnly W s (faultEntry c t) :=
  h.seq (WritesOnly.mono (.update [] rfl) (List.nil_subset _))

theorem WritesOnly.withAgent (h : WritesOnly W s t) (a : Agent) : WritesOnly W s { t with agent := a } :=
  h.seq (WritesOnly.mono (.update [] rfl) (List.nil_subset _))

/-- An operand check before the rest of a command. -/
theorem WritesOnly.check {c : Prop} [Decidable c] {f : FaultCode} (h : ¬ c → WritesOnly W s t) :
    WritesOnly W s (if c then faultEntry f s else t) := by
  split
  · exact (WritesOnly.refl W s).fault f
  · exact h ‹_›

end

section
variable {π : Type} {W : List Part} {s t : State}

theorem BodyStep.Leaves.imp {R S : State → Prop} {r : BodyStep π} (h : r.Leaves R) (hi : ∀ t, R t → S t) : r.Leaves S := by
  cases r <;> exact hi _ h

theorem WritesOnly.andThen {r : BodyStep π} (h : WritesOnly W s t) (hr : r.Leaves (WritesOnly W t)) :
    r.Leaves (WritesOnly W s) :=
  hr.imp fun _ => h.seq

/-- A run writes what its moves write, `P` being what every move keeps of the progress. -/
theorem drive_writes_of {emb : π → Progress} {adv : π → State → BodyStep π} (P : π → Prop)
    (h : ∀ p s, P p → (adv p s).Leaves (WritesOnly W s)) (hP : ∀ p s p' s', P p → adv p s = .go p' s' → P p')
    (n : Nat) (p : π) (s : State) (hp : P p) : WritesOnly W s (drive emb adv n p s) := by
  induction n generalizing p s with
  | zero => exact (WritesOnly.refl W s).withAgent _
  | succ n ih =>
    have hm := h p s hp
    simp only [drive]
    cases hr : adv p s with
    | go p' s' =>
      rw [hr] at hm
      exact WritesOnly.seq hm (ih _ _ (hP _ _ _ _ hp hr))
    | wait src p' s' =>
      rw [hr] at hm
      exact WritesOnly.withAgent hm _
    | done s' =>
      rw [hr] at hm
      exact WritesOnly.retire hm
    | raise c s' =>
      rw [hr] at hm
      exact WritesOnly.fault hm c

theorem drive_writes {emb : π → Progress} {adv : π → State → BodyStep π} (h : ∀ p s, (adv p s).Leaves (WritesOnly W s))
    (n : Nat) (p : π) (s : State) : WritesOnly W s (drive emb adv n p s) :=
  drive_writes_of (fun _ => True) (fun p s _ => h p s) (fun _ _ _ _ _ _ => trivial) n p s trivial

end

/-! ### Updates of one part -/

section
variable {s t : State} {b : Byte}

theorem writes_mark (a : BitVec 24) : WritesOnly [.mark] s { s with mark := a } := .update _ rfl

theorem writes_result (a : Word) : WritesOnly [.result] s { s with result := a } := .update _ rfl

theorem writes_geo (a : Geo) : WritesOnly [.geo] s { s with geo := a } := .update _ rfl

theorem writes_pred (a : Quad (BitVec 16)) : WritesOnly [.pred] s { s with coder.pred := a } := .update _ rfl

theorem writes_packer (a : BitVec 24) (b : BitVec 5) :
    WritesOnly [.packer] s { s with coder.putbuf := a, coder.putbits := b } :=
  .update _ rfl

theorem writes_seen (a : Seen) : WritesOnly [.seen] s { s with seen := a } := .update _ rfl

theorem writes_reader (a : BitReader) : WritesOnly [.reader] s { s with reader := a } := .update _ rfl

theorem writes_warn (a : BitVec 16) : WritesOnly [.warn] s { s with warn := a } := .update _ rfl

theorem writes_dhtValid (a : Quad Bool) : WritesOnly [.dhtValid] s { s with valid.dht := a } := .update _ rfl

theorem writes_pos (a : BitVec 25) : WritesOnly [.pos] s { s with f5.pos := a } := .update _ rfl

theorem writes_embChanges (a b : Word) :
    WritesOnly [.embChanges] s { s with f5.embChanged := a, f5.embShrink := b } :=
  .update _ rfl

theorem writes_embCounts (a b : Word) : WritesOnly [.embCounts] s { s with f5.embBits := a, f5.embBytes := b } := .update _ rfl

theorem writes_extHeader (a : BitVec 23) (b : BitVec 5) :
    WritesOnly [.extHeader] s { s with f5.extLen := a, f5.extK := b } :=
  .update _ rfl

theorem writes_extBytes (a : Word) : WritesOnly [.extBytes] s { s with f5.extBytes := a } := .update _ rfl

theorem writes_caps (a b c d : Word) :
    WritesOnly [.caps] s { s with f5.capOnes := a, f5.capZeros := b, f5.capNondc := c, f5.capLarge := d } :=
  .update _ rfl

theorem writes_rng (a : List Byte) : WritesOnly [.rng] s { s with fifo.rng := a } := .update _ rfl

theorem writes_inp (a : List Byte) (b : Word) : WritesOnly [.inp] s { s with fifo.inp := a, coder.incnt := b } := .update _ rfl

theorem writes_payin (a : List Byte) : WritesOnly [.payin] s { s with fifo.payin := a } := .update _ rfl

theorem writes_out (a : List Byte) (b : Word) : WritesOnly [.out] s { s with fifo.out := a, coder.outcnt := b } := .update _ rfl

theorem writes_payout (a : List Byte) : WritesOnly [.payout] s { s with fifo.payout := a } := .update _ rfl

theorem writes_coef (a : Memory 16) : WritesOnly [.coef] s { s with ram.coef := a } := .update _ rfl

theorem writes_perm (a : Memory 24) : WritesOnly [.perm] s { s with ram.perm := a } := .update _ rfl

theorem writes_qt (a : Memory 16) : WritesOnly [.qt] s { s with ram.qt := a } := .update _ rfl

theorem writes_dct (a : Memory 64) : WritesOnly [.dct] s { s with ram.dct := a } := .update _ rfl

theorem writes_codeWord (a : Memory 24) (b : BitVec 8) :
    WritesOnly [.codeWord] s { s with ram.cw := a, f5.cwlen := b } :=
  .update _ rfl

theorem writes_dht (a b c : Memory 32) (d : Memory 8) :
    WritesOnly [.dht] s { s with ram.dhMax := a, ram.dhMin := b, ram.dhPtr := c, ram.dhVal := d } :=
  .update _ rfl

/-! Updates of several parts at once. -/

theorem writes_geo_seen (a : Geo) (b : Seen) : WritesOnly [.geo, .seen] s { s with geo := a, seen := b } := .update _ rfl

theorem writes_permDone_pos (a : Bool) (b c : BitVec 25) :
    WritesOnly [.permDone, .pos] s { s with f5.permN := b, f5.pos := c, valid.perm := a } :=
  .update _ rfl

theorem writes_hdrword_extHeader (a : Word) (b : BitVec 23) (c : BitVec 5) :
    WritesOnly [.hdrword, .extHeader] s { s with f5.hdrword := a, f5.extLen := b, f5.extK := c } :=
  .update _ rfl

theorem writes_div_divValid (a : Memory 64) (b : Bool) :
    WritesOnly [.div, .divValid] s { s with ram.div := a, valid.div := b } :=
  .update _ rfl

theorem writes_hdrReset (a : Seen) (b : Quad Bool) (c : Geo) (d : BitReader) :
    WritesOnly [.seen, .dhtValid, .geo, .reader] s { s with seen := a, valid.dht := b, geo := c, reader := d } :=
  .update _ rfl

theorem writes_coef_pred_reader (a : Memory 16) (b : Quad (BitVec 16)) (c : BitReader) :
    WritesOnly [.coef, .pred, .reader] s { s with ram.coef := a, coder.pred := b, reader := c } :=
  .update _ rfl

theorem writes_permValid_perm (a : Bool) (b : Memory 24) :
    WritesOnly [.permDone, .perm] s { s with valid.perm := a, ram.perm := b } :=
  .update _ rfl

theorem writes_embStart (a b c d e : Word) :
    WritesOnly [.embCounts, .embChanges, .hdrword] s
      { s with f5.embBits := a, f5.embBytes := b, f5.embChanged := c, f5.embShrink := d, f5.hdrword := e } :=
  .update _ rfl

theorem warns_writes (w : Warning) : WritesOnly [.warn] s (s.warns w) := writes_warn _

theorem nextUsable_writes {o : Option Nat} (h : nextUsable s = (o, t)) : WritesOnly [.pos] s t := by
  obtain rfl : (nextUsable s).2 = t := congrArg Prod.snd h
  exact writes_pos _

theorem popRng_writes (h : popRng s = some (b, t)) : WritesOnly [.rng] s t := by
  unfold popRng at h
  split at h <;> cases h
  exact writes_rng _

theorem popPayin_writes (h : popPayin s = some (b, t)) : WritesOnly [.payin] s t := by
  unfold popPayin at h
  split at h <;> cases h
  exact writes_payin _

theorem readIn_writes (h : readIn s = .byte b t) : WritesOnly [.inp] s t := by
  unfold readIn at h
  split at h
  · cases h
    exact writes_inp _ _
  · split at h <;> cases h

theorem pushOut_writes (h : pushOut b s = some t) : WritesOnly [.out] s t := by
  unfold pushOut at h
  split at h <;> cases h
  exact writes_out _ _

theorem pushPayout_writes (h : pushPayout b s = some t) : WritesOnly [.payout] s t := by
  unfold pushPayout at h
  split at h <;> cases h
  exact writes_payout _

end

/-! ### Encoder (44_entropy_encoder.md) -/

/-- What an encoder command can still write. -/
def Ending.parts : Ending → List Part
  | .retire => [.out]
  | .flushed => [.packer, .out]
  | .buffered _ _ _ none | .codes _ none => [.packer, .out]
  | .buffered _ _ _ (some _) | .codes _ (some _) => [.pred, .packer, .out]

theorem Ending.out_mem_parts (e : Ending) : [.out] ⊆ e.parts := by
  cases e with
  | retire => simp [Ending.parts]
  | flushed => simp [Ending.parts]
  | buffered code size rest scan => cases scan <;> simp [Ending.parts]
  | codes rest scan => cases scan <;> simp [Ending.parts]

/-- A move writes no more than `W`, and goes on to an ending that writes no more. -/
def EmitWithin (W : List Part) (s : State) (r : BodyStep (List Byte × Ending)) : Prop :=
  r.Leaves (WritesOnly W s) ∧ ∀ p' s', r = .go p' s' → p'.2.parts ⊆ W

theorem EmitWithin.go {W : List Part} {s t : State} {p : List Byte × Ending} (h : WritesOnly W s t) (hp : p.2.parts ⊆ W) :
    EmitWithin W s (.go p t) :=
  ⟨h, fun _ _ hr => by cases hr; exact hp⟩

theorem EmitWithin.done {W : List Part} {s t : State} (h : WritesOnly W s t) : EmitWithin W s (.done t) :=
  ⟨h, fun _ _ hr => nomatch hr⟩

theorem scanNext_within (b : Nat) (s : State) : EmitWithin [.pred, .packer, .out] s (scanNext b s) := by
  simp only [scanNext]
  split
  · exact .go (.refl _ _) (List.subset_cons_self _ _)
  split
  · exact ⟨WritesOnly.refl _ _, fun _ _ hr => nomatch hr⟩
  · exact .go ((writes_pred _).widen rfl) (List.Subset.refl _)

theorem emitNext_within (e : Ending) (s : State) : EmitWithin e.parts s (emitNext e s) := by
  cases e with
  | retire => exact .done (.refl _ _)
  | flushed => exact .done ((writes_packer _ _).widen rfl)
  | buffered code size rest scan =>
    cases scan <;> exact .go ((writes_packer _ _).widen rfl) (List.Subset.refl _)
  | codes rest scan =>
    match rest, scan with
    | c :: rest, none => exact .go (.refl _ _) (List.Subset.refl _)
    | c :: rest, some b => exact .go (.refl _ _) (List.Subset.refl _)
    | [], none => exact .done (.refl _ _)
    | [], some b => exact scanNext_within b s

theorem emitStep_within (p : List Byte × Ending) (s : State) : EmitWithin p.2.parts s (emitStep p s) := by
  obtain ⟨bytes, e⟩ := p
  cases bytes with
  | nil => exact emitNext_within e s
  | cons b bs =>
    simp only [emitStep]
    split
    · exact ⟨WritesOnly.refl _ _, fun _ _ hr => nomatch hr⟩
    · rename_i t ht
      exact .go ((pushOut_writes ht).mono e.out_mem_parts) (List.Subset.refl _)

theorem runEmit_writes (p : List Byte × Ending) (s : State) : WritesOnly p.2.parts s (runEmit p s) :=
  drive_writes_of (fun q => q.2.parts ⊆ p.2.parts) (fun q s hq => (emitStep_within q s).1.imp fun _ h => h.mono hq)
    (fun q s q' s' hq h => List.Subset.trans ((emitStep_within q s).2 q' s' h) hq) _ p s (List.Subset.refl _)

/-! ### Decoder: the header (45_entropy_decoder.md R350 to R355) -/

theorem loadLengths_writes (j l code p : Nat) (bits : List Nat) (s : State) :
    WritesOnly [.dht] s (loadLengths j l code p bits s) := by
  induction bits generalizing l code p s with
  | nil => exact .refl _ _
  | cons n bits ih =>
    simp only [loadLengths]
    split
    · exact WritesOnly.seq (writes_dht _ _ _ _) (ih _ _ _ _)
    · exact WritesOnly.seq (writes_dht _ _ _ _) (ih _ _ _ _)

theorem loadTable_writes (j : Nat) (bits : List Nat) (vals : List Byte) (s : State) :
    WritesOnly [.dht, .dhtValid] s (loadTable j bits vals s) :=
  (((loadLengths_writes j 1 0 0 bits s).seq (writes_dht _ _ _ _)).trans (writes_dhtValid _)).widen rfl

theorem parseDht_writes (fuel : Nat) (p : List Byte) (s : State) :
    WritesOnly [.dht, .dhtValid, .warn] s (parseDht fuel p s) := by
  induction fuel generalizing p s with
  | zero => exact .refl _ _
  | succ fuel ih =>
    cases p with
    | nil => exact .refl _ _
    | cons t rest =>
      simp only [parseDht]
      split
      · exact (warns_writes _).widen rfl
      split
      · exact (warns_writes _).widen rfl
      · refine WritesOnly.seq ?_ (ih _ _)
        split
        · exact ((warns_writes _).trans (writes_dhtValid _)).widen rfl
        · exact (loadTable_writes _ _ _ _).widen rfl

theorem parseDqt_writes (fuel : Nat) (p : List Byte) (s : State) : WritesOnly [.qt, .warn] s (parseDqt fuel p s) := by
  induction fuel generalizing p s with
  | zero => exact .refl _ _
  | succ fuel ih =>
    cases p with
    | nil => exact .refl _ _
    | cons t rest =>
      simp only [parseDqt]
      split
      · exact (warns_writes _).widen rfl
      · exact ((writes_qt _).trans (ih _ _)).widen rfl

theorem parseSof0_writes (p : List Byte) (s : State) : WritesOnly [.geo, .seen, .warn] s (parseSof0 p s) := by
  simp only [parseSof0]
  split
  · exact (warns_writes _).widen rfl
  split
  · exact (warns_writes _).widen rfl
  · exact (writes_geo_seen _ _).widen rfl

theorem parseDri_writes (p : List Byte) (s : State) : WritesOnly [.geo, .warn] s (parseDri p s) := by
  unfold parseDri
  split
  · exact (writes_geo _).widen rfl
  · exact (warns_writes _).widen rfl

theorem parseSos_writes (p : List Byte) (s : State) : (parseSos p s).Leaves (WritesOnly [.geo, .seen, .warn] s) := by
  simp only [parseSos]
  iterate 5
    split
    · exact (warns_writes _).widen rfl
  split
  · exact (writes_geo _).widen rfl
  split
  · exact (writes_geo _).widen rfl
  · exact (((writes_geo _).seq (writes_geo _)).trans (writes_seen _)).widen rfl

theorem parseSegment_writes (m : Byte) (p : List Byte) (s : State) :
    (parseSegment m p s).Leaves (WritesOnly (writtenBy .dechdr) s) := by
  unfold parseSegment
  split
  · exact (parseDqt_writes _ _ _).widen rfl
  split
  · exact (parseDht_writes _ _ _).widen rfl
  split
  · exact (parseSof0_writes _ _).widen rfl
  split
  · exact (parseDri_writes _ _).widen rfl
  split
  · exact (parseSos_writes _ _).imp fun _ h => h.widen rfl
  split
  · exact WritesOnly.refl _ _
  · exact (warns_writes _).widen rfl

theorem hdrByte_writes (b : Byte) (p : HdrPhase) (s : State) : (hdrByte b p s).Leaves (WritesOnly (writtenBy .dechdr) s) := by
  cases p with
  | search =>
    simp only [hdrByte]
    split
    · exact WritesOnly.refl _ _
    · exact (warns_writes _).widen rfl
  | marker =>
    simp only [hdrByte]
    split
    · exact WritesOnly.refl _ _
    split
    · exact (warns_writes _).widen rfl
    split
    · exact (writes_seen _).widen rfl
    split
    · exact ((writes_seen _).trans (warns_writes _)).widen rfl
    · exact WritesOnly.refl _ _
  | lenHi m => exact WritesOnly.refl _ _
  | lenLo m hi =>
    simp only [hdrByte]
    split
    · exact (warns_writes _).widen rfl
    split
    · exact parseSegment_writes _ _ _
    · exact WritesOnly.refl _ _
  | payload m left got =>
    simp only [hdrByte]
    split
    · exact parseSegment_writes _ _ _
    · exact WritesOnly.refl _ _

theorem hdrStep_writes (p : HdrPhase) (s : State) : (hdrStep p s).Leaves (WritesOnly (writtenBy .dechdr) s) := by
  unfold hdrStep
  split
  · exact WritesOnly.refl _ _
  · exact (warns_writes _).widen rfl
  · rename_i b t ht
    exact ((readIn_writes ht).widen rfl).andThen (hdrByte_writes _ _ _)

/-! ### Decoder: blocks and the scan (45_entropy_decoder.md R360 to R368) -/

theorem bitStep_writes (ff : Bool) (s : State) : (bitStep ff s).Leaves (WritesOnly [.inp, .reader] s) := by
  unfold bitStep
  split
  · exact (writes_reader _).widen rfl
  split
  · exact WritesOnly.refl _ _
  · exact WritesOnly.refl _ _
  split
  · trivial
  · exact (writes_reader _).widen rfl
  · rename_i b t ht
    have hread := readIn_writes ht
    split
    · exact hread.widen rfl
    split
    · exact hread.trans (writes_reader _)
    split
    · exact hread.trans (writes_reader _)
    · exact hread.trans (writes_reader _)

theorem markStep_writes (ff : Bool) (s : State) : (markStep ff s).Leaves (WritesOnly [.inp, .reader] s) := by
  unfold markStep
  split
  · exact WritesOnly.refl _ _
  · exact WritesOnly.refl _ _
  split
  · trivial
  · exact (writes_reader _).widen rfl
  · rename_i b t ht
    have hread := readIn_writes ht
    split
    · exact hread.widen rfl
    split
    · exact hread.widen rfl
    split
    · exact hread.widen rfl
    · exact hread.trans (writes_reader _)

/-- What a block of the scan writes. -/
def blockParts : List Part := [.pred, .reader, .inp, .coef]

theorem nextAc_writes {s t : State} (k : Nat) (h : WritesOnly blockParts s t) :
    (nextAc k t).Leaves (WritesOnly blockParts s) := by
  unfold nextAc
  split <;> exact h

theorem dcDone_writes (c : BlkCtx) (d : Int) (s : State) : (dcDone c d s).Leaves (WritesOnly blockParts s) :=
  nextAc_writes 1 (((writes_pred _).trans (writes_coef _)).widen rfl)

theorem dcSymbol_writes (c : BlkCtx) (t : Nat) (s : State) : (dcSymbol c t s).Leaves (WritesOnly blockParts s) := by
  unfold dcSymbol
  split
  · exact WritesOnly.refl _ _
  split
  · exact dcDone_writes _ _ _
  · exact WritesOnly.refl _ _

theorem acSymbol_writes (k rs : Nat) (s : State) : (acSymbol k rs s).Leaves (WritesOnly blockParts s) := by
  simp only [acSymbol]
  split
  · split
    · exact nextAc_writes _ (.refl _ _)
    · exact WritesOnly.refl _ _
  · split <;> exact WritesOnly.refl _ _

theorem blkBit_writes (c : BlkCtx) (b : Bool) (p : BlkPhase) (s : State) : (blkBit c b p s).Leaves (WritesOnly blockParts s) := by
  cases p with
  | dcCode code len =>
    simp only [blkBit]
    split
    · exact WritesOnly.refl _ _
    · exact WritesOnly.refl _ _
    · exact dcSymbol_writes _ _ _
  | dcBits size value left =>
    simp only [blkBit]
    split
    · exact dcDone_writes _ _ _
    · exact WritesOnly.refl _ _
  | acCode k code len =>
    simp only [blkBit]
    split
    · exact WritesOnly.refl _ _
    · exact WritesOnly.refl _ _
    · exact acSymbol_writes _ _ _
  | acBits k size value left =>
    simp only [blkBit]
    split
    · exact nextAc_writes _ ((writes_coef _).widen rfl)
    · exact WritesOnly.refl _ _

theorem BlkStep.Leaves.imp {R S : State → Prop} {r : BlkStep} (h : r.Leaves R) (hi : ∀ t, R t → S t) : r.Leaves S := by
  cases r with
  | wait => trivial
  | go ff p t => exact hi _ h
  | ended e t => exact hi _ h

theorem blkStep_writes (c : BlkCtx) (ff : Bool) (p : BlkPhase) (s : State) :
    (blkStep c ff p s).Leaves (WritesOnly blockParts s) := by
  have h := bitStep_writes ff s
  unfold blkStep
  split <;> rename_i hb <;> rw [hb] at h
  · trivial
  · exact WritesOnly.widen h rfl
  · exact WritesOnly.widen h rfl
  · exact (blkBit_writes _ _ _ _).imp fun _ => (WritesOnly.widen h rfl).seq

theorem decblkEnd_writes (e : BlkEnd) (s : State) : WritesOnly [.warn, .result] s (decblkEnd e s) := by
  cases e with
  | ok => exact (writes_result _).widen rfl
  | short => exact (warns_writes _).trans (writes_result _)
  | bad => exact (warns_writes _).trans (writes_result _)

theorem decblkStep_writes (p : DecblkAt) (s : State) : (decblkStep p s).Leaves (WritesOnly (writtenBy .decblk) s) := by
  have h := blkStep_writes p.ctx p.ff p.phase s
  unfold decblkStep
  split <;> rename_i hb <;> rw [hb] at h
  · exact WritesOnly.widen h rfl
  · exact WritesOnly.refl _ _
  · exact (WritesOnly.trans h (decblkEnd_writes _ _)).widen rfl

theorem restartFound_writes (l : Latch) (s : State) : WritesOnly [.reader, .warn, .pred] s (restartFound l s) := by
  unfold restartFound
  split
  · exact ((writes_reader _).trans (writes_pred _)).widen rfl
  · exact ((warns_writes _).trans (writes_pred _)).widen rfl

theorem tailFound_writes (l : Latch) (s : State) : WritesOnly [.seen, .reader, .warn] s (tailFound l s) := by
  unfold tailFound
  split
  · exact ((writes_seen _).trans (writes_reader _)).widen rfl
  · exact (warns_writes _).widen rfl

theorem scanStep_writes (p : ScanPhase) (s : State) : (scanStep p s).Leaves (WritesOnly (writtenBy .decscan) s) := by
  cases p with
  | mcu m =>
    simp only [scanStep]
    split
    · exact (writes_reader _).widen rfl
    split
    · exact (writes_reader _).widen rfl
    · exact WritesOnly.refl _ _
  | restart m ff =>
    have h := markStep_writes ff s
    simp only [scanStep]
    split <;> rename_i hb <;> rw [hb] at h
    · exact WritesOnly.widen h rfl
    · exact WritesOnly.refl _ _
    · exact (WritesOnly.trans h (restartFound_writes _ _)).widen rfl
  | block m j =>
    simp only [scanStep]
    split
    · exact WritesOnly.refl _ _
    · exact (writes_coef _).widen rfl
  | bits m j ff p =>
    have h := blkStep_writes (scanBlock s m j) ff p s
    simp only [scanStep]
    split <;> rename_i hb <;> rw [hb] at h
    · exact WritesOnly.widen h rfl
    · exact WritesOnly.refl _ _
    · exact WritesOnly.widen h rfl
    · exact ((WritesOnly.trans h (warns_writes _)).trans (writes_reader _)).widen rfl
    · exact (WritesOnly.trans h (warns_writes _)).widen rfl
  | tail ff =>
    have h := markStep_writes ff s
    simp only [scanStep]
    split <;> rename_i hb <;> rw [hb] at h
    · exact WritesOnly.widen h rfl
    · exact WritesOnly.refl _ _
    · exact (WritesOnly.trans h (tailFound_writes _ _)).widen rfl

/-! ### Permutation (41_permutation.md) -/

theorem permgenStep_writes (p : Nat × List Byte) (s : State) : (permgenStep p s).Leaves (WritesOnly (writtenBy .permgen) s) := by
  simp only [permgenStep]
  split
  · exact (writes_permDone_pos _ _ _).widen rfl
  split
  · exact WritesOnly.refl _ _
  · rename_i b t ht
    split
    · exact ((popRng_writes ht).trans (writes_perm _)).widen rfl
    · exact (popRng_writes ht).widen rfl

theorem drawCw_writes (n : Nat) (s : State) : WritesOnly [.pos, .codeWord] s (drawCw n s).2 := by
  induction n generalizing s with
  | zero => exact .refl _ _
  | succ n ih =>
    simp only [drawCw]
    split
    · rename_i t ht
      exact (nextUsable_writes ht).widen rfl
    · rename_i p t ht
      exact ((nextUsable_writes ht).trans (writes_codeWord _ _)).seq (ih _)

/-! ### Embedding and extraction (46_f5_matrix.md) -/

theorem toggle_writes (p : Nat) (s : State) : WritesOnly [.coef, .embChanges] s (toggle p s) :=
  (writes_coef _).trans (writes_embChanges _ _)

theorem countShrink_writes (s : State) : WritesOnly [.embChanges] s (countShrink s) := writes_embChanges _ _

/-- What LsbEmbed writes. -/
def lsbParts : List Part := [.pos, .coef, .embChanges]

theorem lsbEmbedLoop_writes (b retry : Bool) (n : Nat) (s : State) : WritesOnly lsbParts s (lsbEmbedLoop b retry n s).2 := by
  induction n generalizing s with
  | zero => exact .refl _ _
  | succ n ih =>
    simp only [lsbEmbedLoop]
    split
    · rename_i t ht
      exact (nextUsable_writes ht).widen rfl
    · rename_i p t ht
      have htoggle : WritesOnly lsbParts s (toggle p t) := (nextUsable_writes ht).trans (toggle_writes p t)
      have hshrink : WritesOnly lsbParts s (countShrink (toggle p t)) :=
        htoggle.seq ((countShrink_writes _).widen rfl)
      split
      · exact (nextUsable_writes ht).widen rfl
      split
      · exact htoggle
      split
      · exact hshrink
      · exact hshrink.seq (ih _)

theorem lsbEmbed_writes (b retry : Bool) (s : State) : WritesOnly lsbParts s (lsbEmbed b retry s).2 :=
  lsbEmbedLoop_writes _ _ _ _

/-- What MatrixEmbed writes. -/
def matrixParts : List Part := [.coef, .embChanges, .codeWord, .pos]

theorem matrixLoop_writes (val n fuel : Nat) (s : State) : WritesOnly matrixParts s (matrixLoop val n fuel s).2 := by
  induction fuel generalizing s with
  | zero => exact .refl _ _
  | succ fuel ih =>
    simp only [matrixLoop]
    split
    · exact .refl _ _
    split
    · exact (toggle_writes _ _).widen rfl
    split
    · rename_i t ht
      exact ((((toggle_writes _ _).trans (countShrink_writes _)).trans (writes_codeWord _ _)).trans
        (nextUsable_writes ht)).widen rfl
    · rename_i p t ht
      have hdraw : WritesOnly matrixParts s t :=
        ((((toggle_writes _ _).trans (countShrink_writes _)).trans (writes_codeWord _ _)).trans (nextUsable_writes ht)).widen rfl
      exact (hdraw.seq ((writes_codeWord _ _).widen rfl)).seq (ih _)

theorem matrixEmbed_writes (val k : Nat) (s : State) : WritesOnly matrixParts s (matrixEmbed val k s).2 := by
  have h : WritesOnly matrixParts s (drawCw (2 ^ k - 1) { s with f5.cwlen := 0 }).2 :=
    ((writes_codeWord s.ram.cw 0).trans (drawCw_writes _ _)).widen rfl
  simp only [matrixEmbed]
  split <;> rename_i t ht <;> rw [ht] at h
  · exact h
  · exact h.seq (matrixLoop_writes _ _ _ _)

theorem drawSyndrome_writes (n i h : Nat) (s : State) : WritesOnly [.pos] s (drawSyndrome n i h s).2 := by
  induction n generalizing i h s with
  | zero => exact .refl _ _
  | succ n ih =>
    simp only [drawSyndrome]
    split
    · rename_i t ht
      exact nextUsable_writes ht
    · rename_i p t ht
      exact (nextUsable_writes ht).seq (ih _ _ _)

theorem readHeader_writes (n i h : Nat) (s : State) : WritesOnly [.pos] s (readHeader n i h s).2 := by
  induction n generalizing i h s with
  | zero => exact .refl _ _
  | succ n ih =>
    simp only [readHeader]
    split
    · rename_i t ht
      exact nextUsable_writes ht
    · rename_i p t ht
      exact (nextUsable_writes ht).seq (ih _ _ _)

theorem embedHeader_writes (hw : Word) (n i : Nat) (s : State) :
    WritesOnly (writtenBy .embhdr) s (embedHeader hw n i s) := by
  induction n generalizing i s with
  | zero => exact .refl _ _
  | succ n ih =>
    have h := lsbEmbed_writes (hw.getLsbD i) (!s.ctrl.hdrLossy) s
    simp only [embedHeader]
    split <;> rename_i t ht <;> rw [ht] at h
    · exact ((h.trans (warns_writes _)).trans (warns_writes _)).widen rfl
    · exact (h.widen rfl).seq (ih _ _)
    · exact (h.widen rfl).seq (ih _ _)

theorem embHdrStep_writes (got : List Byte) (s : State) : (embHdrStep got s).Leaves (WritesOnly (writtenBy .embhdr) s) := by
  simp only [embHdrStep]
  split
  · exact WritesOnly.refl _ _
  · rename_i b t ht
    split
    · exact ((popRng_writes ht).widen rfl).seq (embedHeader_writes _ _ _ _)
    · exact (popRng_writes ht).widen rfl

theorem embedGroup_writes (val : Nat) (s : State) : WritesOnly matrixParts s (embedGroup val s).2 := by
  unfold embedGroup
  split
  · exact (lsbEmbed_writes _ _ _).widen rfl
  · exact matrixEmbed_writes _ _ _

theorem embpayStep_writes (p : EmbpayAt) (s : State) : (embpayStep p s).Leaves (WritesOnly (writtenBy .embpay) s) := by
  cases p with
  | embed c =>
    simp only [embpayStep]
    split
    · have h := embedGroup_writes c.val s
      split <;> rename_i t ht <;> rw [ht] at h
      · exact (h.trans (warns_writes _)).widen rfl
      · exact (h.trans (writes_embCounts _ _)).widen rfl
      · exact (h.trans (writes_embCounts _ _)).widen rfl
    split
    · exact WritesOnly.refl _ _
    split
    · split
      · exact WritesOnly.refl _ _
      · exact (popRng_writes ‹_›).widen rfl
    split
    · exact WritesOnly.refl _ _
    split
    · exact WritesOnly.refl _ _
    · exact (popPayin_writes ‹_›).widen rfl
  | drain popped =>
    simp only [embpayStep]
    split
    · exact WritesOnly.refl _ _
    split
    · exact WritesOnly.refl _ _
    · exact (popPayin_writes ‹_›).widen rfl

theorem extHdrStep_writes (p : Word × List Byte) (s : State) : (extHdrStep p s).Leaves (WritesOnly (writtenBy .exthdr) s) := by
  simp only [extHdrStep]
  split
  · exact WritesOnly.refl _ _
  · rename_i b t ht
    split
    · exact ((popRng_writes ht).trans (writes_hdrword_extHeader _ _ _)).widen rfl
    · exact (popRng_writes ht).widen rfl

theorem extpayStep_writes (c : ExtCtx) (s : State) : (extpayStep c s).Leaves (WritesOnly (writtenBy .extpay) s) := by
  simp only [extpayStep]
  split
  · split
    · exact WritesOnly.refl _ _
    · rename_i t ht
      split <;> exact ((pushPayout_writes ht).trans (writes_extBytes _)).widen rfl
  split
  · split
    · exact WritesOnly.refl _ _
    · exact (popRng_writes ‹_›).widen rfl
  split
  · exact WritesOnly.refl _ _
  · have h : WritesOnly [.pos] s (drawGroup s).2 := drawSyndrome_writes _ 0 0 s
    split <;> rename_i t ht <;> rw [ht] at h
    · exact (h.trans (warns_writes _)).widen rfl
    · exact h.widen rfl

/-! ### Every command -/

theorem divCalc_writes (s : State) : WritesOnly [.div, .divValid] s (divCalc s) :=
  .check fun _ => .retire (writes_div_divValid _ _)

theorem hdrInit_writes (s : State) : WritesOnly (writtenBy .dechdr) s (hdrInit s) :=
  (writes_hdrReset _ _ _ _).widen rfl

theorem scanInit_writes (s : State) : WritesOnly (writtenBy .decscan) s (scanInit s) :=
  (writes_coef_pred_reader _ _ _).widen rfl

theorem permInit_writes (s : State) : WritesOnly (writtenBy .permgen) s (permInit s) :=
  (writes_permValid_perm _ _).widen rfl

theorem embHdrInit_writes (s : State) : WritesOnly (writtenBy .embhdr) s (embHdrInit s) :=
  (writes_embStart _ _ _ _ _).widen rfl

/-- Every command writes no part but those its rule names. -/
theorem exec_writes (i : Instr) (s : State) : ∃ t, exec i s = .next t ∧ WritesOnly (writtenBy i.op) s t := by
  cases i with
  | nop => exact ⟨_, rfl, .retire (.refl _ _)⟩
  | mark imm => exact ⟨_, rfl, .retire (writes_mark _)⟩
  | qtscale q => exact ⟨_, rfl, .check fun _ => (writes_qt _).trans (divCalc_writes _)⟩
  | divcalc => exact ⟨_, rfl, divCalc_writes s⟩
  | fdct => exact ⟨_, rfl, .retire (writes_dct _)⟩
  | quant t blk => exact ⟨_, rfl, .check fun _ => .check fun _ => .check fun _ => .retire (writes_coef _)⟩
  | zzfwd blk => exact ⟨_, rfl, .check fun _ => .retire (writes_coef _)⟩
  | zzinv blk => exact ⟨_, rfl, .check fun _ => .retire (writes_coef _)⟩
  | geom =>
    refine ⟨_, rfl, ?_⟩
    split
    · exact (WritesOnly.refl _ _).fault _
    · exact .check fun _ => .retire (writes_geo _)
  | blkaddr comp unit mcu => exact ⟨_, rfl, .check fun _ => .retire (writes_result _)⟩
  | coefclr => exact ⟨_, rfl, .retire (writes_coef _)⟩
  | putbits size code => exact ⟨_, rfl, .check fun _ => runEmit_writes ([], .codes [(code.toNat, size)] none) s⟩
  | flush => exact ⟨_, rfl, runEmit_writes (flushBytes s.ctrl.padbit s.packer, .flushed) s⟩
  | emitraw b => exact ⟨_, rfl, .check fun _ => runEmit_writes ([b], .retire) s⟩
  | predclr => exact ⟨_, rfl, .retire (writes_pred _)⟩
  | encblk comp dt ac blk =>
    refine ⟨_, rfl, .check fun _ => .check fun _ => ?_⟩
    exact (writes_pred _).trans (runEmit_writes ([], .codes (blockCodes comp.val dt ac blk s) none) _)
  | encscan =>
    refine ⟨_, rfl, ?_⟩
    split
    · exact (WritesOnly.refl _ _).fault _
    · exact .check fun _ => ((writes_pred _).trans (runEmit_writes ([], .codes [] (some 0)) _)).widen rfl
  | dechdr => exact ⟨_, rfl, (hdrInit_writes s).seq (drive_writes hdrStep_writes _ _ _)⟩
  | decblk comp dt ac blk =>
    refine ⟨_, rfl, .check fun _ => ?_⟩
    split
    · exact .retire (((warns_writes _).trans (writes_result _)).widen rfl)
    · exact ((writes_coef _).widen rfl).seq (drive_writes decblkStep_writes _ _ _)
  | decscan =>
    refine ⟨_, rfl, ?_⟩
    split
    · exact .retire ((warns_writes _).widen rfl)
    · exact (scanInit_writes s).seq (drive_writes scanStep_writes _ _ _)
  | permgen => exact ⟨_, rfl, (permInit_writes s).seq (drive_writes permgenStep_writes _ _ _)⟩
  | permrd i => exact ⟨_, rfl, .check fun _ => .check fun _ => .retire (writes_result _)⟩
  | curset p => exact ⟨_, rfl, .check fun _ => .check fun _ => .retire (writes_pos _)⟩
  | offer count =>
    refine ⟨_, rfl, .check fun _ => .check fun _ => .retire ?_⟩
    exact (((writes_codeWord _ _).trans (drawCw_writes _ _)).trans (writes_result _)).widen rfl
  | xbit a => exact ⟨_, rfl, .check fun _ => .retire (writes_result _)⟩
  | capcnt => exact ⟨_, rfl, .retire (writes_caps _ _ _ _)⟩
  | bstep imm =>
    exact ⟨_, rfl, .check fun _ => .check fun _ => .retire (((lsbEmbed_writes _ _ _).trans (writes_result _)).widen rfl)⟩
  | mstep val =>
    exact ⟨_, rfl, .check fun _ => .check fun _ => .retire (((matrixEmbed_writes _ _ _).trans (writes_result _)).widen rfl)⟩
  | mxtr =>
    exact ⟨_, rfl, .check fun _ => .check fun _ => .retire (((drawSyndrome_writes _ _ _ _).trans (writes_result _)).widen rfl)⟩
  | embhdr =>
    exact ⟨_, rfl, .check fun _ => .check fun _ => (embHdrInit_writes s).seq (drive_writes embHdrStep_writes _ _ _)⟩
  | embpay => exact ⟨_, rfl, .check fun _ => .check fun _ => drive_writes embpayStep_writes _ _ _⟩
  | exthdr =>
    refine ⟨_, rfl, .check fun _ => ?_⟩
    have h := (writes_extBytes 0 (s := s)).trans (readHeader_writes 32 0 0 _)
    split <;> rename_i t ht <;> rw [ht] at h
    · exact .retire (((h.trans (warns_writes _)).trans (writes_extHeader _ _)).widen rfl)
    · exact (h.widen rfl).seq (drive_writes extHdrStep_writes _ _ _)
  | extpay =>
    refine ⟨_, rfl, .check fun _ => ?_⟩
    split
    · exact .retire ((writes_extBytes _).widen rfl)
    · exact ((writes_extBytes _).widen rfl).seq (drive_writes extpayStep_writes _ _ _)

end Sys2Proof.Machine

namespace Sys2Proof

open Machine

theorem mem_allOps (o : Op) : o ∈ allOps := by cases o <;> decide

/-- A part keeps its value through every command but those in `ops`, where `ops` holds every command that can write it. -/
theorem Machine.WritesOnly.kept {o : Op} {s t : State} (hw : WritesOnly (writtenBy o) s t) (p : Part) {ops : List Op}
    (hops : allOps.all (fun o => !(writtenBy o).contains p || ops.contains o) = true) (ho : o ∉ ops) : t.only p = s.only p := by
  refine hw p fun hp => ho ?_
  simpa [hp] using List.all_eq_true.1 hops o (mem_allOps o)

/-- Settles O9: a command writes only the parts of the state in `writtenBy`, and each clause lists the commands whose parts
include its register. -/
theorem onlyTheNamedCommandsWriteEachRegister : Obligations.OnlyTheNamedCommandsWriteEachRegister := by
  intro i s t h
  obtain ⟨u, hu, hw⟩ := exec_writes i s
  cases hu.symm.trans h
  refine ⟨fun hi => ?_, fun hi => ?_, fun hi => ?_, fun hi => ?_, fun hi => ?_, fun hi => ?_, fun hi => ?_, fun hi => ?_,
    fun hi => ?_, fun hi => ?_, fun hi => ?_, fun hi => ?_, fun hi => ?_, fun hi => ?_, fun hi => ?_, fun hi => ?_,
    fun hi => ?_, fun hi => ?_⟩
  · exact congrArg (·.mark) (hw.kept .mark rfl hi)
  · exact congrArg (·.result) (hw.kept .result rfl hi)
  · exact congrArg (·.geo) (hw.kept .geo rfl hi)
  · exact congrArg (·.coder.pred) (hw.kept .pred rfl hi)
  · have hk := hw.kept .packer rfl hi
    exact ⟨congrArg (·.coder.putbuf) hk, congrArg (·.coder.putbits) hk⟩
  · exact congrArg (·.seen) (hw.kept .seen rfl hi)
  · exact congrArg (·.reader) (hw.kept .reader rfl hi)
  · exact congrArg (·.valid.div) (hw.kept .divValid rfl hi)
  · have hk := hw.kept .permDone rfl hi
    exact ⟨congrArg (·.valid.perm) hk, congrArg (·.f5.permN) hk⟩
  · exact congrArg (·.valid.dht) (hw.kept .dhtValid rfl hi)
  · exact congrArg (·.f5.pos) (hw.kept .pos rfl hi)
  · have hk := hw.kept .embChanges rfl hi
    exact ⟨congrArg (·.f5.embChanged) hk, congrArg (·.f5.embShrink) hk⟩
  · have hk := hw.kept .embCounts rfl hi
    exact ⟨congrArg (·.f5.embBits) hk, congrArg (·.f5.embBytes) hk⟩
  · exact congrArg (·.f5.hdrword) (hw.kept .hdrword rfl hi)
  · have hk := hw.kept .extHeader rfl hi
    exact ⟨congrArg (·.f5.extLen) hk, congrArg (·.f5.extK) hk⟩
  · exact congrArg (·.f5.extBytes) (hw.kept .extBytes rfl hi)
  · have hk := hw.kept .caps rfl hi
    exact ⟨congrArg (·.f5.capOnes) hk, congrArg (·.f5.capZeros) hk, congrArg (·.f5.capNondc) hk, congrArg (·.f5.capLarge) hk⟩
  · exact congrArg (·.warn) (hw.kept .warn rfl hi)

end Sys2Proof

/-! SUPPORT. The windows and FIFO ports of the host (20_memory.md R100 to R122): the word of a window an offset names, what an access
to it answers or writes, and what a write of a port or of `CMD` comes to. -/

namespace Sys2Proof.Machine

/-! ### The words of the windows -/

theorem lookup_registerMap_none {off : Nat} (hoff : ∀ e ∈ registerMap, e.1 ≠ off) : registerMap.lookup off = none :=
  List.lookup_eq_none_iff.2 fun e he => by simpa using (hoff e he).symm

theorem lookup_registerMap_above {off : Nat} (hoff : 0x120 < off) : registerMap.lookup off = none :=
  lookup_registerMap_none fun e he => by have := (registerMap_entries e he).1; omega

/-- The window word an offset that is no register's names (20_memory.md R101). -/
def windowOf (cfg : Params) (off : Nat) : Region :=
  if inWindow off 0x1000 16 then .pix ((off - 0x1000) / 4)
  else if inWindow off 0x2000 256 then .qt ((off - 0x2000) / 4)
  else if inWindow off 0x3000 128 then .dct ((off - 0x3000) / 4)
  else if inWindow off 0x3400 256 then .div ((off - 0x3400) / 4)
  else if inWindow off 0x3800 cfg.cwMax then .cw ((off - 0x3800) / 4)
  else if inWindow off 0x3C00 64 then .zz ((off - 0x3C00) / 4)
  else if inWindow off 0x10000000 cfg.coefDepth then .coef ((off - 0x10000000) / 4)
  else if inWindow off 0x20000000 cfg.coefDepth then .perm ((off - 0x20000000) / 4)
  else .unmapped

theorem regionOf_of_lookup_none {cfg : Params} {off : Nat} (h : registerMap.lookup off = none) :
    regionOf cfg off = windowOf cfg off := by
  rw [regionOf, h]
  rfl

theorem windowOf_ne_reg (cfg : Params) (off : Nat) (r : HostReg) : windowOf cfg off ≠ .reg r := by
  unfold windowOf
  iterate 8
    split
    · exact nofun
  exact nofun

theorem inWindow_word {base n j : Nat} (h : j < n) : inWindow (base + 4 * j) base n = true := by
  simp [inWindow, h]

theorem inWindow_outside {off base n : Nat} (h : off < base ∨ base + 4 * n ≤ off) : inWindow off base n = false := by
  simp only [inWindow, Bool.and_eq_false_iff, decide_eq_false_iff_not]
  omega

/-- The words of the windows and their offsets (20_memory.md R101). -/
inductive WordAt (cfg : Params) : Nat → Region → Prop
  | pix {j : Nat} : j < 16 → WordAt cfg (0x1000 + 4 * j) (.pix j)
  | qt {i : Nat} : i < 256 → WordAt cfg (0x2000 + 4 * i) (.qt i)
  | dct {j : Nat} : j < 128 → WordAt cfg (0x3000 + 4 * j) (.dct j)
  | div {j : Nat} : j < 256 → WordAt cfg (0x3400 + 4 * j) (.div j)
  | cw {j : Nat} : j < cfg.cwMax → WordAt cfg (0x3800 + 4 * j) (.cw j)
  | zz {k : Nat} : k < 64 → WordAt cfg (0x3C00 + 4 * k) (.zz k)
  | coef {i : Nat} : i < cfg.coefDepth → WordAt cfg (0x10000000 + 4 * i) (.coef i)
  | perm {i : Nat} : i < cfg.coefDepth → WordAt cfg (0x20000000 + 4 * i) (.perm i)

section
variable {cfg : Params} (hcfg : cfg.wf) {off : Nat} {w : Region} (hw : WordAt cfg off w)
include hcfg hw

theorem WordAt.offset : 0x120 < off ∧ off ≤ 0x2FFFFFFF ∧ off % 4 = 0 := by
  have hcw := cwMax_le hcfg
  obtain ⟨-, -, -, hdepth, -⟩ := hcfg
  cases hw <;> omega

theorem WordAt.regionOf_eq : regionOf cfg off = w := by
  rw [regionOf_of_lookup_none (lookup_registerMap_above (hw.offset hcfg).1)]
  have hcw := cwMax_le hcfg
  obtain ⟨-, -, -, hdepth, -⟩ := hcfg
  cases hw <;> simp (disch := omega) [windowOf, inWindow_word, inWindow_outside]

end

theorem regionOf_reg_mem {cfg : Params} {off : Nat} {r : HostReg} (h : regionOf cfg off = .reg r) : (off, r) ∈ registerMap := by
  cases hl : registerMap.lookup off with
  | some r' =>
    have hmem := lookup_mem hl
    cases (regionOf_register hmem cfg).symm.trans h
    exact hmem
  | none =>
    rw [regionOf_of_lookup_none hl] at h
    exact absurd h (windowOf_ne_reg cfg off r)

theorem regionOf_windows {cfg : Params} {off : Nat} (h : 0x1000 ≤ off) (r : HostReg) : regionOf cfg off ≠ .reg r := by
  rw [regionOf_of_lookup_none (lookup_registerMap_above (by omega))]
  exact windowOf_ne_reg cfg off r

/-- Where no register and no window is (20_memory.md R101, R109). -/
theorem regionOf_gap {cfg : Params} (hcfg : cfg.wf) {off : Nat}
    (hgap : (0x0C8 ≤ off ∧ off < 0x100) ∨ (0x124 ≤ off ∧ off < 0x1000) ∨ (0x1040 ≤ off ∧ off < 0x2000) ∨
      (0x2400 ≤ off ∧ off < 0x3000) ∨ (0x3200 ≤ off ∧ off < 0x3400) ∨ (0x3800 + 4 * cfg.cwMax ≤ off ∧ off < 0x3C00) ∨
      (0x3D00 ≤ off ∧ off < 0x10000000) ∨ (0x10000000 + 4 * cfg.coefDepth ≤ off ∧ off < 0x20000000) ∨
      0x20000000 + 4 * cfg.coefDepth ≤ off) : regionOf cfg off = .unmapped := by
  have hregs : ∀ e ∈ registerMap, e.1 < 0x0C8 ∨ (0x100 ≤ e.1 ∧ e.1 < 0x124) := by decide
  have hcw := cwMax_le hcfg
  obtain ⟨-, -, -, hdepth, -⟩ := hcfg
  rw [regionOf_of_lookup_none (lookup_registerMap_none fun e he => by have := hregs e he; omega)]
  simp (disch := omega) [windowOf, inWindow_outside]

/-! ### Accesses to the windows -/

/-- A core that is not BUSY has taken every command, so no dequeue follows an access. -/
theorem settle_of_not_busy {s t : State} (hb : s.busy = false) (agent : t.agent = s.agent := by rfl)
    (cmd : t.fifo.cmd = s.fifo.cmd := by rfl) : settle t = t :=
  settle_eq_self fun ha => by
    rw [State.busy, ← agent, ha] at hb
    simpa [cmd] using hb

theorem refuseAccess_eq (s : State) : refuseAccess s = { s with warn := warnHostErr s.warn } := rfl

theorem refuseRead_eq (s : State) : refuseRead s = { s with busData := 0, warn := warnHostErr s.warn } := rfl

section
variable {s : State} (hcfg : s.cfg.wf) (hb : s.busy = false) {off : Nat} {w : Region} (hw : WordAt s.cfg off w)
  (h : List HostMove)
include hcfg hb hw

theorem step_read_window :
    step { s with host := readAt s.cfg off :: h } = .next { s with host := h, busData := windowValue s w } := by
  obtain ⟨-, hoff, halign⟩ := hw.offset hcfg
  have hread : busRead off { s with host := h } = { s with host := h, busData := windowValue s w } := by
    have hregion := hw.regionOf_eq hcfg
    have hidle : State.busy { s with host := h } = false := hb
    rw [busRead, hregion]
    cases hw <;> simp only [hidle] <;> rfl
  rw [step_readAt hcfg hoff halign, hread, settle_of_not_busy hb]

theorem step_write_window {v : Word} {t : State} (ht : writeWindow w v { s with host := h } = some t)
    (agent : t.agent = s.agent := by rfl) (cmd : t.fifo.cmd = s.fifo.cmd := by rfl) :
    step { s with host := writeAt s.cfg off v :: h } = .next t := by
  obtain ⟨-, hoff, halign⟩ := hw.offset hcfg
  have hwrite : busWrite off v { s with host := h } = .done t := by
    have hregion := hw.regionOf_eq hcfg
    have hidle : State.busy { s with host := h } = false := hb
    rw [busWrite, hregion]
    cases hw <;> simp only [hidle, ht] <;> rfl
  rw [step_writeAt hcfg hoff halign h hwrite, settle_of_not_busy hb agent cmd]

theorem step_write_readOnly_window (v : Word) (hro : ∀ u, writeWindow w v u = none) :
    step { s with host := writeAt s.cfg off v :: h } = .next { s with host := h, warn := warnHostErr s.warn } := by
  obtain ⟨-, hoff, halign⟩ := hw.offset hcfg
  have hwrite : busWrite off v { s with host := h } = .done (refuseAccess { s with host := h }) := by
    have hregion := hw.regionOf_eq hcfg
    rw [busWrite, hregion]
    cases hw <;> simp only [hro, ite_self]
  rw [step_writeAt hcfg hoff halign h hwrite, refuseAccess_eq, settle_of_not_busy hb]

end

/-- The four samples of a word are its four bytes, the first lowest (20_memory.md R103). -/
theorem pixWord_eq (s : State) (j : Nat) :
    pixWord s j = BitVec.ofNat 32 ((s.pixAt (4 * j)).toNat + (s.pixAt (4 * j + 1)).toNat * 2 ^ 8
      + (s.pixAt (4 * j + 2)).toNat * 2 ^ 16 + (s.pixAt (4 * j + 3)).toNat * 2 ^ 24) := by
  have h0 := (s.pixAt (4 * j)).isLt
  have h1 := (s.pixAt (4 * j + 1)).isLt
  have h2 := (s.pixAt (4 * j + 2)).isLt
  have h3 := (s.pixAt (4 * j + 3)).isLt
  apply BitVec.eq_of_toNat_eq
  simp only [pixWord, BitVec.toNat_append, BitVec.toNat_ofNat]
  rw [← Nat.shiftLeft_add_eq_or_of_lt h2, ← Nat.shiftLeft_add_eq_or_of_lt h1, ← Nat.shiftLeft_add_eq_or_of_lt h0]
  simp only [Nat.shiftLeft_eq]
  omega

theorem qtAt_div_mod (s : State) (i : Nat) : s.qtAt (i / 64) (i % 64) = s.qtAt 0 i := by
  simp [State.qtAt, Nat.div_add_mod]

theorem divAt_div_mod (s : State) (i : Nat) : s.divAt (i / 64) (i % 64) = s.divAt 0 i := by
  simp [State.divAt, Nat.div_add_mod]

theorem halfWord_even (x : F64) (i : Nat) : halfWord x (2 * i) = x.extractLsb' 0 32 := if_pos (Nat.mul_mod_right 2 i)

theorem halfWord_odd (x : F64) (i : Nat) : halfWord x (2 * i + 1) = x.extractLsb' 32 32 := if_neg (by omega)

theorem half_odd (i : Nat) : (2 * i + 1) / 2 = i := by omega

theorem high_offset (base i : Nat) : base + 4 * (2 * i + 1) = base + 4 + 8 * i := by omega

theorem wordBytes_getElem (v : Word) {m : Nat} (h : m < (wordBytes v).length) : (wordBytes v)[m] = v.extractLsb' (8 * m) 8 := by
  have hm : m < 4 := h
  interval_cases m <;> rfl

/-! ### Accesses while a command executes (20_memory.md R106) -/

theorem busy_of_executing {s : State} (hx : s.executing = true) : s.busy = true := by
  unfold State.executing at hx
  unfold State.busy
  split at hx <;> rename_i ha
  · rw [ha]
  · rw [ha]
  all_goals cases hx

theorem settle_of_executing {s t : State} (hx : s.executing = true) (agent : t.agent = s.agent := by rfl) : settle t = t :=
  settle_eq_self fun ha => by
    rw [State.executing, ← agent, ha] at hx
    cases hx

theorem busRead_executing {s : State} (hx : s.executing = true) {off : Nat} (hwin : 0x1000 ≤ off) :
    busRead off s = refuseRead s := by
  unfold busRead
  split
  · rename_i r hr
    exact absurd hr (regionOf_windows hwin r)
  · rfl
  · exact if_pos (busy_of_executing hx)

/-- The offsets of the registers with a write rule of their own, of CTRL and of IN_CTRL. -/
theorem registerMap_written_while_busy :
    ∀ e ∈ registerMap, (e.2.ownWrite = true → e.1 ∈ [0x00C, 0x010, 0x014, 0x100, 0x104, 0x10C]) ∧
      (e.2 = .ctrl → e.1 = 0x004) ∧ (e.2 = .inCtrl → e.1 = 0x108) := by decide

theorem busWrite_executing {s : State} (hx : s.executing = true) {off : Nat} {v : Word}
    (hoffs : off ∉ [0x00C, 0x010, 0x014, 0x100, 0x104, 0x10C]) (hsrst : ¬ (off = 0x004 ∧ v.getLsbD 0 = true))
    (hclr : ¬ (off = 0x108 ∧ v.getLsbD 1 = false)) : busWrite off v s = .done (refuseAccess s) := by
  have hb := busy_of_executing hx
  unfold busWrite
  split
  · rename_i r hr
    obtain ⟨hown, hctrl, hin⟩ := registerMap_written_while_busy _ (regionOf_reg_mem hr)
    have hr' : r.ownWrite = false := Bool.eq_false_iff.2 fun h => hoffs (hown h)
    rw [writeReg_other hr', if_neg fun h => hsrst ⟨hctrl h.1, h.2⟩, if_neg fun h => hclr ⟨hin h.1, h.2⟩, if_pos hb]
  · exact if_pos hb

/-! ### Output ports and `CMD` (20_memory.md R120, R122) -/

section
variable {s : State} {b : Byte} {q : List Byte}

theorem readReg_outData (hq : s.fifo.out = b :: q) :
    readReg .outData s = wake .out (answer (poppedWord b) { s with fifo.out := q }) := by
  simp [readReg, HostReg.exact, readOutData, hq]

theorem readReg_outData_empty (hq : s.fifo.out = []) : readReg .outData s = answer 0 s := by
  simp [readReg, HostReg.exact, readOutData, hq]

theorem readReg_payoutData (hq : s.fifo.payout = b :: q) :
    readReg .payoutData s = wake .payout (answer (poppedWord b) { s with fifo.payout := q }) := by
  simp [readReg, HostReg.exact, readPayoutData, hq]

theorem readReg_payoutData_empty (hq : s.fifo.payout = []) : readReg .payoutData s = answer 0 s := by
  simp [readReg, HostReg.exact, readPayoutData, hq]

theorem not_faulted_of_idle (ha : s.agent = .idle) : s.faulted = false := by rw [State.faulted, ha]

theorem not_faulted_of_executing (hx : s.executing = true) : s.faulted = false :=
  Bool.eq_false_iff.2 fun hf => by
    rw [not_executing_of_faulted hf] at hx
    cases hx

theorem writeCmd_room {w : Word} (hf : s.faulted = false) (hroom : s.fifo.cmd.length < s.cfg.cmdqDepth) :
    writeCmd w s = .done { s with fifo.cmd := s.fifo.cmd ++ [w] } := by
  rw [writeCmd, hf, if_neg Bool.false_ne_true, if_neg (Nat.not_le.2 hroom)]

end

/-! ### Held writes (20_memory.md R120, R121) -/

section
variable {s : State} {off : Nat} {r : HostReg} (hs : s.Inv) (hr : (off, r) ∈ registerMap) (h : List HostMove) {v : Word}
include hs hr

/-- A held write lets the core move (20_memory.md R130). -/
theorem step_writeReg_held (hw : writeReg r v { s with host := h } = .held) :
    step { s with host := writeAt s.cfg off v :: h } = coreStep { s with host := writeAt s.cfg off v :: h } := by
  obtain ⟨hoff, halign, -⟩ := registerMap_entries _ hr
  have hle : off ≤ 0x2FFFFFFF := hoff.trans (by decide)
  have hbus : busWrite off v { s with host := h } = .held := by
    rw [busWrite, regionOf_register hr]
    exact hw
  simp only [step, agentStep, writeAt, busAccess, offsetOfAddr_base_add hs.params hle, halign, and_self, if_true, hbus]

/-- A push that meets a full FIFO. -/
theorem step_push_full (hw : writeReg r v { s with host := h } = pushFull { s with host := h }) :
    step { s with host := writeAt s.cfg off v :: h } =
      if s.faulted then .next { s with host := h, warn := warnHostErr s.warn }
      else coreStep { s with host := writeAt s.cfg off v :: h } := by
  split
  · rename_i hf
    rw [step_writeReg hs hr h (hw.trans (if_pos hf)), refuseAccess_eq, hs.settle_eq]
  · rename_i hf
    exact step_writeReg_held hs hr h (hw.trans (if_neg hf))

end

end Sys2Proof.Machine

namespace Sys2Proof

open Machine

/-- Settles O16: each of the three windows reads and writes the words that `WordAt` lists for it. -/
theorem writableWindowsReadAndWrite : Obligations.WritableWindowsReadAndWrite := by
  intro s v h hcfg hb
  refine ⟨fun i hi => ⟨step_read_window hcfg hb (.coef hi) h, ?_⟩, fun i hi => ⟨?_, ?_⟩, fun j hj => ⟨?_, ?_⟩⟩
  · exact ⟨_, step_write_window hcfg hb (.coef hi) h rfl, rfl, readRam_some _ (Memory.entry?_write_self _ _ _),
      fun a ha => readRam_congr _ rfl (Memory.entry?_write_ne _ _ ha) rfl⟩
  · rw [qtAt_div_mod]
    exact step_read_window hcfg hb (.qt hi) h
  · refine ⟨_, step_write_window hcfg hb (.qt hi) h rfl, rfl, ?_, fun a ha => ?_⟩
    · rw [qtAt_div_mod, State.qtAt, Nat.mul_zero, Nat.zero_add]
      exact readRam_some _ (Memory.entry?_write_self _ _ _)
    · exact readRam_congr _ rfl (Memory.entry?_write_ne _ _ (by omega)) rfl
  · rw [← pixWord_eq]
    exact step_read_window hcfg hb (.pix hj) h
  · refine ⟨_, step_write_window hcfg hb (.pix hj) h rfl, rfl, fun m hm => ?_, fun a ha => ?_⟩
    · rw [← wordBytes_getElem v hm]
      exact readRam_some _ (Memory.entry?_writeBlock_in _ _ _ _ hm)
    · exact readRam_congr _ rfl (Memory.entry?_writeBlock_out _ _ _ _ ha) rfl

/-- Settles O17: each word that `WordAt` lists for the five windows reads its half, entry or constant, and `writeWindow` has no
case for it. -/
theorem readOnlyWindowsReadAndRefuseWrites : Obligations.ReadOnlyWindowsReadAndRefuseWrites := by
  intro s v h hcfg hb reads
  have hreads {off : Nat} {w : Region} (hw : WordAt s.cfg off w) (hro : ∀ u, writeWindow w v u = none) :
      reads off (windowValue s w) :=
    ⟨step_read_window hcfg hb hw h, step_write_readOnly_window hcfg hb hw h v hro⟩
  refine ⟨fun i hi => ⟨?_, ?_⟩, fun i hi => ⟨?_, ?_⟩, fun j hj hlen => ?_,
    fun j hj hlen => ⟨Config.staleCw s.freeCount s.cmdcnt j, ?_⟩, fun k hk => hreads (.zz hk) fun _ => rfl,
    fun i hi => hreads (.perm hi) fun _ => rfl⟩
  · have hlow := hreads (.dct (j := 2 * i) (by omega)) fun _ => rfl
    rwa [windowValue, halfWord_even, Nat.mul_div_cancel_left i Nat.two_pos, ← Nat.mul_assoc] at hlow
  · have hhigh := hreads (.dct (j := 2 * i + 1) (by omega)) fun _ => rfl
    rwa [windowValue, halfWord_odd, half_odd, high_offset] at hhigh
  · have hlow := hreads (.div (j := 2 * i) (by omega)) fun _ => rfl
    rwa [windowValue, halfWord_even, Nat.mul_div_cancel_left i Nat.two_pos, ← Nat.mul_assoc, ← divAt_div_mod] at hlow
  · have hhigh := hreads (.div (j := 2 * i + 1) (by omega)) fun _ => rfl
    rwa [windowValue, halfWord_odd, half_odd, high_offset, ← divAt_div_mod] at hhigh
  · have hword := hreads (.cw hj) fun _ => rfl
    rwa [windowValue, if_pos hlen] at hword
  · have hword := hreads (.cw hj) fun _ => rfl
    rwa [windowValue, if_neg (by omega)] at hword

/-- Settles O18: a core that executes is BUSY; no window is accessed then, and a register is written only by a rule of its own, by
CTRL's SRST or by IN_CTRL without EOS_CLR. -/
theorem busyRefusesWindowsAndConfiguration : Obligations.BusyRefusesWindowsAndConfiguration := by
  intro s off v h hcfg hx halign hoff
  have hle : off ≤ 0x2FFFFFFF := by omega
  refine ⟨fun hwin => ?_, fun hoffs hsrst hclr => ?_⟩
  · rw [step_readAt hcfg hle halign, busRead_executing (s := { s with host := h }) hx hwin, refuseRead_eq, settle_of_executing hx]
  · have hw := busWrite_executing (s := { s with host := h }) hx hoffs hsrst hclr
    rw [step_writeAt hcfg hle halign h hw, refuseAccess_eq, settle_of_executing hx]

/-- Settles O19: the checks of width, lanes and alignment come first, and `regionOf` names nothing at the offsets listed. -/
theorem onlyAlignedMappedWordsAreAccesses : Obligations.OnlyAlignedMappedWordsAreAccesses := by
  intro s off width lanes v h hs hoff
  have hle : off ≤ 0x2FFFFFFF := by omega
  refine ⟨fun hbad => ?_, fun hbad => ?_, fun halign hgap => ⟨?_, ?_⟩⟩
  · have hno : ¬ (width = .w32 ∧ off % 4 = 0) := fun hok => hbad.elim (absurd hok.1) (absurd hok.2)
    simp only [step, agentStep, busAccess, offsetOfAddr_base_add hs.params hle, if_neg hno]
    rw [refuseRead_eq, hs.settle_eq]
  · have hno : ¬ (width = .w32 ∧ lanes = 0xF ∧ off % 4 = 0) := fun hok =>
      hbad.elim (absurd hok.1) fun hbad => hbad.elim (absurd hok.2.1) (absurd hok.2.2)
    simp only [step, agentStep, busAccess, offsetOfAddr_base_add hs.params hle, if_neg hno]
    rw [refuseAccess_eq, hs.settle_eq]
  · rw [step_readAt hs.params hle halign, busRead, regionOf_gap hs.params hgap]
    exact congrArg _ hs.settle_eq
  · have hw : busWrite off v { s with host := h } = .done (refuseAccess { s with host := h }) := by
      rw [busWrite, regionOf_gap hs.params hgap]
      exact ite_self _
    rw [step_writeAt hs.params hle halign h hw, refuseAccess_eq, hs.settle_eq]

/-- Settles O20: each port appends below its FIFO's depth; a full FIFO refuses or holds the push as a fault is recorded or not. -/
theorem pushesFeedTheInputFifos : Obligations.PushesFeedTheInputFifos := by
  intro s v h hs b rngPush inPush payPush refused
  have hrng : (0x100, HostReg.rngData) ∈ registerMap := by decide
  have hin : (0x104, HostReg.inData) ∈ registerMap := by decide
  have hpay : (0x10C, HostReg.payinData) ∈ registerMap := by decide
  refine ⟨fun hroom => ?_, fun hfull => ?_, fun heos => ?_, fun heos hroom => ?_, fun heos hfull => ?_,
    fun hroom => ?_, fun hfull => ?_, fun src p u ha => ?_, fun src u ha => ?_⟩
  · exact (step_writeReg hs hrng h (if_neg (Nat.not_le.2 hroom))).trans (by rw [hs.settle_wake])
  · exact step_push_full hs hrng h (if_pos hfull)
  · exact (step_writeReg hs hin h (if_pos heos)).trans (by rw [refuseAccess_eq, hs.settle_eq])
  · refine (step_writeReg hs hin h ((if_neg ?_).trans (if_neg (Nat.not_le.2 hroom)))).trans (by rw [hs.settle_wake])
    exact ne_true_of_eq_false heos
  · exact step_push_full hs hin h ((if_neg (ne_true_of_eq_false heos)).trans (if_pos hfull))
  · exact (step_writeReg hs hpay h (if_neg (Nat.not_le.2 hroom))).trans (by rw [hs.settle_wake])
  · exact step_push_full hs hpay h (if_pos hfull)
  · simp only [wake, ha, if_pos]
  · unfold wake
    split
    · rename_i src' p ha'
      exact if_neg fun hsrc : src' = src => ha p (hsrc ▸ ha')
    all_goals rfl

/-- Settles O21: the two output ports are the registers whose read pops. -/
theorem readsPopTheOutputFifos : Obligations.ReadsPopTheOutputFifos := by
  intro s b q h hs
  have hout : (0x110, HostReg.outData) ∈ registerMap := by decide
  have hpayout : (0x114, HostReg.payoutData) ∈ registerMap := by decide
  refine ⟨fun hq => ?_, fun hq => ?_, fun hq => ?_, fun hq => ?_⟩
  · rw [step_readReg hs hout, readReg_outData (s := { s with host := h }) hq, hs.settle_wake]
    rfl
  · rw [step_readReg hs hout, readReg_outData_empty (s := { s with host := h }) hq]
    exact congrArg _ hs.settle_eq
  · rw [step_readReg hs hpayout, readReg_payoutData (s := { s with host := h }) hq, hs.settle_wake]
    rfl
  · rw [step_readReg hs hpayout, readReg_payoutData_empty (s := { s with host := h }) hq]
    exact congrArg _ hs.settle_eq

/-- Settles O22: `writeCmd` looks at the fault and at the room in that order, and an idle core dequeues the word it appended. -/
theorem commandWritesQueueOrStart : Obligations.CommandWritesQueueOrStart := by
  intro s w h hs written
  have hcmd : (0x014, HostReg.cmd) ∈ registerMap := by decide
  refine ⟨fun hidle => ?_, fun hx hroom => ?_, fun hx hfull => ?_, fun hf => ?_⟩
  · have hempty := hs.idle_queue hidle
    have hroom : s.fifo.cmd.length < s.cfg.cmdqDepth := by
      obtain ⟨-, -, -, -, -, -, hdepth, -⟩ := hs.params
      rw [hempty]
      exact hdepth
    rw [step_writeReg hs hcmd h (writeCmd_room (s := { s with host := h }) (not_faulted_of_idle hidle) hroom)]
    simp only [settle, hidle, hempty, List.nil_append]
    rw [← hempty]
  · rw [step_writeReg hs hcmd h (writeCmd_room (s := { s with host := h }) (not_faulted_of_executing hx) hroom),
      settle_of_executing hx]
  · exact step_writeReg_held hs hcmd h ((if_neg (ne_true_of_eq_false (not_faulted_of_executing hx))).trans (if_pos hfull))
  · rw [step_writeReg hs hcmd h (if_pos hf), refuseAccess_eq, hs.settle_eq]

end Sys2Proof

/-! SUPPORT. What a command's body does not look at (20_memory.md R123). `State.around φ s` is `s` with what lies around a body, the
FIFOs, the depths of the output FIFOs and the agent, changed by `φ`. Every piece of a body but a pop, a push or a read of the input
answers the same around a changed state. -/

namespace Sys2Proof.Machine

/-- What lies around a command's body: the FIFOs, the depths of the output FIFOs, and the agent. -/
structure Surroundings where
  fifo : Fifos
  agent : Agent
  outqDepth : Nat
  payoutqDepth : Nat

def State.surroundings (s : State) : Surroundings where
  fifo := s.fifo
  agent := s.agent
  outqDepth := s.cfg.outqDepth
  payoutqDepth := s.cfg.payoutqDepth

/-- The state with its surroundings changed by `φ`. -/
def State.around (φ : Surroundings → Surroundings) (s : State) : State :=
  { s with
    fifo := (φ s.surroundings).fifo
    agent := (φ s.surroundings).agent
    cfg.outqDepth := (φ s.surroundings).outqDepth
    cfg.payoutqDepth := (φ s.surroundings).payoutqDepth }

/-! ### What is read -/

section
variable (φ : Surroundings → Surroundings) (s : State)

@[simp] theorem around_geo : (s.around φ).geo = s.geo := rfl
@[simp] theorem around_ctrl : (s.around φ).ctrl = s.ctrl := rfl
@[simp] theorem around_coder : (s.around φ).coder = s.coder := rfl
@[simp] theorem around_reader : (s.around φ).reader = s.reader := rfl
@[simp] theorem around_seen : (s.around φ).seen = s.seen := rfl
@[simp] theorem around_f5 : (s.around φ).f5 = s.f5 := rfl
@[simp] theorem around_valid : (s.around φ).valid = s.valid := rfl
@[simp] theorem around_coefDepth : (s.around φ).cfg.coefDepth = s.cfg.coefDepth := rfl
@[simp] theorem around_kMaxEmb : (s.around φ).cfg.kMaxEmb = s.cfg.kMaxEmb := rfl
@[simp] theorem around_coefAt (i : Nat) : (s.around φ).coefAt i = s.coefAt i := rfl
@[simp] theorem around_coefInt (i : Nat) : (s.around φ).coefInt i = s.coefInt i := rfl
@[simp] theorem around_permAt (i : Nat) : (s.around φ).permAt i = s.permAt i := rfl
@[simp] theorem around_cwAt (i : Nat) : (s.around φ).cwAt i = s.cwAt i := rfl
@[simp] theorem around_usable (p : Nat) : (s.around φ).usable p = s.usable p := rfl
@[simp] theorem around_packer : (s.around φ).packer = s.packer := rfl
@[simp] theorem around_blockInside (b : Nat) : (s.around φ).blockInside b = s.blockInside b := rfl
@[simp] theorem around_permReady : (s.around φ).permReady = s.permReady := rfl
@[simp] theorem around_payLength : (s.around φ).payLength = s.payLength := rfl
@[simp] theorem around_groupSize : (s.around φ).groupSize = s.groupSize := rfl
@[simp] theorem around_extGroupSize : (s.around φ).extGroupSize = s.extGroupSize := rfl
@[simp] theorem around_entriesLeft : (s.around φ).entriesLeft = s.entriesLeft := rfl
@[simp] theorem groupReady_around (c : EmbCtx) : groupReady c (s.around φ) = groupReady c s := rfl
@[simp] theorem codable_around (c b : Nat) : codable c b (s.around φ) = codable c b s := rfl
@[simp] theorem blockCodes_around (c : Nat) (dt ac : Fin 2) (b : Nat) : blockCodes c dt ac b (s.around φ) = blockCodes c dt ac b s := rfl
@[simp] theorem decodeBit_around (j code len : Nat) (b : Bool) : decodeBit (s.around φ) j code len b = decodeBit s j code len b := rfl
@[simp] theorem restartDue_around (m : Nat) : restartDue (s.around φ) m = restartDue s m := rfl
@[simp] theorem sosMatches_around (p : List Byte) (n : Nat) : sosMatches p (s.around φ) n = sosMatches p s n := rfl
@[simp] theorem sosTablesLoaded_around (p : List Byte) (n : Nat) : sosTablesLoaded p (s.around φ) n = sosTablesLoaded p s n := rfl

@[simp] theorem around_offsetOf (c : Nat) : (s.around φ).offsetOf c = s.offsetOf c := by
  induction c with
  | zero => rfl
  | succ c ih =>
    simp only [State.offsetOf, ih]
    rfl

@[simp] theorem around_bpm : (s.around φ).bpm = s.bpm := around_offsetOf φ s _

@[simp] theorem around_componentBelow (j n : Nat) : (s.around φ).componentBelow j n = s.componentBelow j n := by
  induction n with
  | zero => rfl
  | succ n ih => simp only [State.componentBelow, around_offsetOf, ih]

@[simp] theorem around_componentOf (j : Nat) : (s.around φ).componentOf j = s.componentOf j := around_componentBelow φ s j _

@[simp] theorem around_factorsLegal (n : Nat) : (s.around φ).factorsLegal n = s.factorsLegal n := by
  induction n with
  | zero => rfl
  | succ n ih =>
    simp only [State.factorsLegal, ih]
    rfl

@[simp] theorem around_hmax (n : Nat) : (s.around φ).hmax n = s.hmax n := by
  induction n with
  | zero => rfl
  | succ n ih => simp only [State.hmax, around_geo, ih]

@[simp] theorem around_vmax (n : Nat) : (s.around φ).vmax n = s.vmax n := by
  induction n with
  | zero => rfl
  | succ n ih => simp only [State.vmax, around_geo, ih]

@[simp] theorem around_geometry : (s.around φ).geometry = s.geometry := by
  simp only [State.geometry, around_geo, around_factorsLegal, around_bpm, around_hmax, around_vmax]

@[simp] theorem around_mcuCount : (s.around φ).mcuCount = s.mcuCount := by
  simp only [State.mcuCount, around_geo, around_bpm]

@[simp] theorem scanBlock_around (m j : Nat) : scanBlock (s.around φ) m j = scanBlock s m j := by
  simp only [scanBlock, around_geo, around_bpm, around_componentOf]

@[simp] theorem scanUsable_around (n pos : Nat) : scanUsable (s.around φ) n pos = scanUsable s n pos := by
  induction n generalizing pos with
  | zero => rfl
  | succ n ih => simp only [scanUsable, around_permAt, around_usable, ih]

@[simp] theorem syndromeFrom_around (i n : Nat) : syndromeFrom (s.around φ) i n = syndromeFrom s i n := by
  induction n generalizing i with
  | zero => rfl
  | succ n ih =>
    simp only [syndromeFrom, ih]
    rfl

@[simp] theorem syndrome_around (n : Nat) : syndrome (s.around φ) n = syndrome s n := syndromeFrom_around φ s 0 n

/-! ### Permutation and F5 -/

@[simp] theorem warns_around (w : Warning) : (s.around φ).warns w = (s.warns w).around φ := rfl
@[simp] theorem toggle_around (p : Nat) : toggle p (s.around φ) = (toggle p s).around φ := rfl
@[simp] theorem countShrink_around : countShrink (s.around φ) = (countShrink s).around φ := rfl
@[simp] theorem countEmbedded_around (m : Nat) : countEmbedded m (s.around φ) = (countEmbedded m s).around φ := rfl
@[simp] theorem appendCw_around (p : Nat) : appendCw p (s.around φ) = (appendCw p s).around φ := rfl
@[simp] theorem discardCw_around (i n : Nat) : discardCw i n (s.around φ) = (discardCw i n s).around φ := rfl
@[simp] theorem permInit_around : permInit (s.around φ) = (permInit s).around φ := rfl
@[simp] theorem permDraw_around (i : Nat) (b0 b1 b2 b3 : Byte) :
    permDraw i b0 b1 b2 b3 (s.around φ) = (permDraw i b0 b1 b2 b3 s).around φ := rfl
@[simp] theorem permFinish_around : permFinish (s.around φ) = (permFinish s).around φ := rfl
@[simp] theorem embHdrInit_around : embHdrInit (s.around φ) = (embHdrInit s).around φ := rfl
@[simp] theorem setHeader_around (h : Word) : setHeader h (s.around φ) = (setHeader h s).around φ := rfl

@[simp] theorem nextUsable_around : nextUsable (s.around φ) = ((nextUsable s).1, (nextUsable s).2.around φ) := by
  simp only [nextUsable, around_f5, scanUsable_around]
  rfl

@[simp] theorem lsbEmbedLoop_around (b retry : Bool) (n : Nat) :
    lsbEmbedLoop b retry n (s.around φ) = ((lsbEmbedLoop b retry n s).1, (lsbEmbedLoop b retry n s).2.around φ) := by
  induction n generalizing s with
  | zero => rfl
  | succ n ih =>
    simp only [lsbEmbedLoop, nextUsable_around]
    obtain ⟨o, t⟩ := nextUsable s
    cases o with
    | none => rfl
    | some p =>
      simp only [around_coefInt, toggle_around, countShrink_around, ih]
      split
      · rfl
      split
      · rfl
      split <;> rfl

@[simp] theorem lsbEmbed_around (b retry : Bool) :
    lsbEmbed b retry (s.around φ) = ((lsbEmbed b retry s).1, (lsbEmbed b retry s).2.around φ) :=
  lsbEmbedLoop_around φ s b retry _

@[simp] theorem drawCw_around (n : Nat) : drawCw n (s.around φ) = ((drawCw n s).1, (drawCw n s).2.around φ) := by
  induction n generalizing s with
  | zero => rfl
  | succ n ih =>
    simp only [drawCw, nextUsable_around]
    obtain ⟨o, t⟩ := nextUsable s
    cases o with
    | none => rfl
    | some p => simp only [appendCw_around, ih]

@[simp] theorem matrixLoop_around (val n fuel : Nat) :
    matrixLoop val n fuel (s.around φ) = ((matrixLoop val n fuel s).1, (matrixLoop val n fuel s).2.around φ) := by
  induction fuel generalizing s with
  | zero => rfl
  | succ fuel ih =>
    simp only [matrixLoop, syndrome_around, around_cwAt, toggle_around, around_coefInt, countShrink_around, discardCw_around,
      nextUsable_around]
    split
    · rfl
    split
    · rfl
    generalize nextUsable _ = r
    obtain ⟨o, t⟩ := r
    cases o with
    | none => rfl
    | some p => simp only [appendCw_around, ih]

@[simp] theorem matrixEmbed_around (val k : Nat) :
    matrixEmbed val k (s.around φ) = ((matrixEmbed val k s).1, (matrixEmbed val k s).2.around φ) := by
  have hdraw := drawCw_around φ { s with f5.cwlen := 0 } (2 ^ k - 1)
  simp only [matrixEmbed]
  rw [show { s.around φ with f5.cwlen := 0 } = State.around φ { s with f5.cwlen := 0 } from rfl, hdraw]
  obtain ⟨found, t⟩ := drawCw (2 ^ k - 1) { s with f5.cwlen := 0 }
  cases found with
  | false => rfl
  | true => simp only [around_entriesLeft, matrixLoop_around]

@[simp] theorem embedGroup_around (val : Nat) :
    embedGroup val (s.around φ) = ((embedGroup val s).1, (embedGroup val s).2.around φ) := by
  simp only [embedGroup, around_f5, lsbEmbed_around, matrixEmbed_around]
  split <;> rfl

@[simp] theorem embedHeader_around (hw : Word) (n i : Nat) :
    embedHeader hw n i (s.around φ) = (embedHeader hw n i s).around φ := by
  induction n generalizing i s with
  | zero => rfl
  | succ n ih =>
    simp only [embedHeader, around_ctrl, lsbEmbed_around]
    obtain ⟨e, t⟩ := lsbEmbed (hw.getLsbD i) (!s.ctrl.hdrLossy) s
    cases e with
    | exhausted => rfl
    | embedded => exact ih _ _
    | lost => exact ih _ _

@[simp] theorem drawSyndrome_around (n i h : Nat) :
    drawSyndrome n i h (s.around φ) = ((drawSyndrome n i h s).1, (drawSyndrome n i h s).2.around φ) := by
  induction n generalizing i h s with
  | zero => rfl
  | succ n ih =>
    simp only [drawSyndrome, nextUsable_around]
    obtain ⟨o, t⟩ := nextUsable s
    cases o with
    | none => rfl
    | some p => exact ih _ _ _

@[simp] theorem drawGroup_around : drawGroup (s.around φ) = ((drawGroup s).1, (drawGroup s).2.around φ) :=
  drawSyndrome_around φ s _ 0 0

@[simp] theorem readHeader_around (n i h : Nat) :
    readHeader n i h (s.around φ) = ((readHeader n i h s).1, (readHeader n i h s).2.around φ) := by
  induction n generalizing i h s with
  | zero => rfl
  | succ n ih =>
    simp only [readHeader, nextUsable_around]
    obtain ⟨o, t⟩ := nextUsable s
    cases o with
    | none => rfl
    | some p => exact ih _ _ _

/-! ### Decoder -/

@[simp] theorem setCoef_around (i : Nat) (v : Int) : (s.around φ).setCoef i v = (s.setCoef i v).around φ := rfl
@[simp] theorem setPred_around (c : Nat) (v : BitVec 16) : (s.around φ).setPred c v = (s.setPred c v).around φ := rfl
@[simp] theorem clearPreds_around : (s.around φ).clearPreds = s.clearPreds.around φ := rfl
@[simp] theorem setPacker_around (p : Packer) : (s.around φ).setPacker p = (s.setPacker p).around φ := rfl
@[simp] theorem setLatch_around (l : Latch) : (s.around φ).setLatch l = (s.setLatch l).around φ := rfl
@[simp] theorem loadByte_around (b : Byte) : (s.around φ).loadByte b = (s.loadByte b).around φ := rfl
@[simp] theorem alignBits_around : (s.around φ).alignBits = s.alignBits.around φ := rfl
@[simp] theorem setDhtValid_around (j : Nat) (v : Bool) : (s.around φ).setDhtValid j v = (s.setDhtValid j v).around φ := rfl
@[simp] theorem setGeometry_around (g : GeomResult) : (s.around φ).setGeometry g = (s.setGeometry g).around φ := rfl
@[simp] theorem beginBlock_around (b : Nat) : beginBlock b (s.around φ) = (beginBlock b s).around φ := rfl
@[simp] theorem hdrInit_around : hdrInit (s.around φ) = (hdrInit s).around φ := rfl
@[simp] theorem scanInit_around : scanInit (s.around φ) = (scanInit s).around φ := rfl

@[simp] theorem decblkEnd_around (e : BlkEnd) : decblkEnd e (s.around φ) = (decblkEnd e s).around φ := by cases e <;> rfl

@[simp] theorem restartFound_around (l : Latch) : restartFound l (s.around φ) = (restartFound l s).around φ := by
  unfold restartFound
  split <;> rfl

@[simp] theorem tailFound_around (l : Latch) : tailFound l (s.around φ) = (tailFound l s).around φ := by
  unfold tailFound
  split <;> rfl

@[simp] theorem loadLengths_around (j l code p : Nat) (bits : List Nat) :
    loadLengths j l code p bits (s.around φ) = (loadLengths j l code p bits s).around φ := by
  induction bits generalizing l code p s with
  | nil => rfl
  | cons n bits ih =>
    simp only [loadLengths]
    split
    · rw [← ih]
      rfl
    · rw [← ih]
      rfl

@[simp] theorem loadTable_around (j : Nat) (bits : List Nat) (vals : List Byte) :
    loadTable j bits vals (s.around φ) = (loadTable j bits vals s).around φ := by
  simp only [loadTable, loadLengths_around]
  rfl

@[simp] theorem parseDht_around (fuel : Nat) (p : List Byte) : parseDht fuel p (s.around φ) = (parseDht fuel p s).around φ := by
  induction fuel generalizing p s with
  | zero => rfl
  | succ fuel ih =>
    cases p with
    | nil => rfl
    | cons t rest =>
      simp only [parseDht]
      split
      · rfl
      split
      · rfl
      · rw [← ih]
        congr 1
        split
        · rfl
        · exact loadTable_around φ s _ _ _

@[simp] theorem parseDqt_around (fuel : Nat) (p : List Byte) : parseDqt fuel p (s.around φ) = (parseDqt fuel p s).around φ := by
  induction fuel generalizing p s with
  | zero => rfl
  | succ fuel ih =>
    cases p with
    | nil => rfl
    | cons t rest =>
      simp only [parseDqt]
      split
      · rfl
      · rw [← ih]
        rfl

@[simp] theorem parseSof0_around (p : List Byte) : parseSof0 p (s.around φ) = (parseSof0 p s).around φ := by
  simp only [parseSof0]
  split
  · rfl
  split <;> rfl

@[simp] theorem parseDri_around (p : List Byte) : parseDri p (s.around φ) = (parseDri p s).around φ := by
  unfold parseDri
  split <;> rfl

end

end Sys2Proof.Machine

/-! SUPPORT. What a body does look at: a pop, a push, a read of the input. `Carries` says that a change of the surroundings carries
these over, and every move of every body then follows (20_memory.md R123). -/

namespace Sys2Proof.Machine

/-- The change `φ` of the surroundings carries the operations of the named FIFOs over: one that succeeds at `s` does the same around
`φ`, and, where `waits` holds, one that has to wait at `s` has to wait around `φ`. -/
structure Carries (ports : List StallSrc) (waits : Prop) (φ : Surroundings → Surroundings) (s : State) : Prop where
  rng : .rng ∈ ports → (popRng s = none ∧ (waits → popRng (s.around φ) = none)) ∨
    ∃ b t, popRng s = some (b, t) ∧ popRng (s.around φ) = some (b, t.around φ)
  payin : .payin ∈ ports → (popPayin s = none ∧ (waits → popPayin (s.around φ) = none)) ∨
    ∃ b t, popPayin s = some (b, t) ∧ popPayin (s.around φ) = some (b, t.around φ)
  inp : .inp ∈ ports → (readIn s = .wait ∧ (waits → readIn (s.around φ) = .wait)) ∨
    (readIn s = .eos ∧ readIn (s.around φ) = .eos) ∨
    ∃ b t, readIn s = .byte b t ∧ readIn (s.around φ) = .byte b (t.around φ)
  out : .out ∈ ports → ∀ b, (pushOut b s = none ∧ (waits → pushOut b (s.around φ) = none)) ∨
    ∃ t, pushOut b s = some t ∧ pushOut b (s.around φ) = some (t.around φ)
  payout : .payout ∈ ports → ∀ b, (pushPayout b s = none ∧ (waits → pushPayout b (s.around φ) = none)) ∨
    ∃ t, pushPayout b s = some t ∧ pushPayout b (s.around φ) = some (t.around φ)

section
variable {π : Type} (waits : Prop) (φ : Surroundings → Surroundings)

/-- A move around `φ` follows the move it is compared with, where that one does not wait. -/
def BodyStep.Follows : BodyStep π → BodyStep π → Prop
  | .go p t, r => r = .go p (t.around φ)
  | .wait src p t, r => waits → r = .wait src p (t.around φ)
  | .done t, r => r = .done (t.around φ)
  | .raise c t, r => r = .raise c (t.around φ)

def BitStep.Follows : BitStep → BitStep → Prop
  | .bit b t, r => r = .bit b (t.around φ)
  | .none t, r => r = .none (t.around φ)
  | .more ff t, r => r = .more ff (t.around φ)
  | .wait, r => waits → r = .wait

def BlkStep.Follows : BlkStep → BlkStep → Prop
  | .go ff p t, r => r = .go ff p (t.around φ)
  | .wait, r => waits → r = .wait
  | .ended e t, r => r = .ended e (t.around φ)

def MarkStep.Follows : MarkStep → MarkStep → Prop
  | .go ff t, r => r = .go ff (t.around φ)
  | .wait, r => waits → r = .wait
  | .found l t, r => r = .found l (t.around φ)

end

section
variable {waits : Prop} {φ : Surroundings → Surroundings} {s : State}

/-- A condition that reads the same around `φ`. -/
theorem BodyStep.Follows.ite {π : Type} {c d : Prop} [Decidable c] [Decidable d] {a b a' b' : BodyStep π} (hd : d ↔ c)
    (ha : c → a.Follows waits φ a') (hb : ¬ c → b.Follows waits φ b') :
    (if c then a else b).Follows waits φ (if d then a' else b') := by
  by_cases hc : c
  · rw [if_pos hc, if_pos (hd.2 hc)]
    exact ha hc
  · rw [if_neg hc, if_neg (mt hd.1 hc)]
    exact hb hc

/-! ### Encoder -/

theorem emitNext_follows (e : Ending) (s : State) : (emitNext e s).Follows waits φ (emitNext e (s.around φ)) := by
  cases e with
  | retire => rfl
  | flushed => rfl
  | buffered code size rest scan => rfl
  | codes rest scan =>
    match rest, scan with
    | (code, size) :: rest, scan => rfl
    | [], none => rfl
    | [], some b =>
      simp only [emitNext, scanNext, around_bpm, around_componentOf]
      exact .ite Iff.rfl (fun _ => rfl) fun _ => .ite Iff.rfl (fun _ => rfl) fun _ => rfl

theorem emitStep_follows (h : Carries [.out] waits φ s) (p : List Byte × Ending) :
    (emitStep p s).Follows waits φ (emitStep p (s.around φ)) := by
  obtain ⟨bytes, e⟩ := p
  cases bytes with
  | nil => exact emitNext_follows e s
  | cons b bs =>
    obtain ⟨hn, hw⟩ | ⟨t, ht, hφ⟩ := h.out (by simp) b
    · simp only [emitStep, hn]
      intro w
      rw [hw w]
    · simp only [emitStep, ht, hφ]
      rfl

/-! ### Permutation and F5 -/

theorem permgenStep_follows (h : Carries [.rng] waits φ s) (p : Nat × List Byte) :
    (permgenStep p s).Follows waits φ (permgenStep p (s.around φ)) := by
  obtain ⟨i, got⟩ := p
  refine .ite Iff.rfl (fun _ => rfl) fun _ => ?_
  obtain ⟨hn, hw⟩ | ⟨b, t, ht, hφ⟩ := h.rng (by simp)
  · rw [hn]
    intro w
    rw [hw w]
  · rw [ht, hφ]
    dsimp only
    split <;> rfl

theorem embHdrStep_follows (h : Carries [.rng] waits φ s) (got : List Byte) :
    (embHdrStep got s).Follows waits φ (embHdrStep got (s.around φ)) := by
  simp only [embHdrStep]
  obtain ⟨hn, hw⟩ | ⟨b, t, ht, hφ⟩ := h.rng (by simp)
  · rw [hn]
    intro w
    rw [hw w]
  · rw [ht, hφ]
    dsimp only
    split
    · exact congrArg _ (embedHeader_around ..)
    · rfl

theorem extHdrStep_follows (h : Carries [.rng] waits φ s) (p : Word × List Byte) :
    (extHdrStep p s).Follows waits φ (extHdrStep p (s.around φ)) := by
  obtain ⟨w, got⟩ := p
  simp only [extHdrStep]
  obtain ⟨hn, hw⟩ | ⟨b, t, ht, hφ⟩ := h.rng (by simp)
  · rw [hn]
    intro w
    rw [hw w]
  · rw [ht, hφ]
    dsimp only
    split <;> rfl

theorem embpayStep_follows (h : Carries [.rng, .payin] waits φ s) (p : EmbpayAt) :
    (embpayStep p s).Follows waits φ (embpayStep p (s.around φ)) := by
  cases p with
  | embed c =>
    refine .ite Iff.rfl (fun _ => ?_) fun _ => .ite Iff.rfl (fun _ => rfl) fun _ => ?_
    · rw [embedGroup_around]
      obtain ⟨e, t⟩ := embedGroup c.val s
      cases e <;> rfl
    split
    · obtain ⟨hn, hw⟩ | ⟨b, t, ht, hφ⟩ := h.rng (by simp)
      · rw [hn]
        intro w
        rw [hw w]
      · rw [ht, hφ]
        rfl
    refine .ite Iff.rfl (fun _ => rfl) fun _ => ?_
    obtain ⟨hn, hw⟩ | ⟨b, t, ht, hφ⟩ := h.payin (by simp)
    · rw [hn]
      intro w
      rw [hw w]
    · rw [ht, hφ]
      rfl
  | drain popped =>
    refine .ite Iff.rfl (fun _ => rfl) fun _ => ?_
    obtain ⟨hn, hw⟩ | ⟨b, t, ht, hφ⟩ := h.payin (by simp)
    · rw [hn]
      intro w
      rw [hw w]
    · rw [ht, hφ]
      rfl

theorem extpayStep_follows (h : Carries [.rng, .payout] waits φ s) (c : ExtCtx) :
    (extpayStep c s).Follows waits φ (extpayStep c (s.around φ)) := by
  simp only [extpayStep, drawGroup_around]
  split
  · rename_i b _
    obtain ⟨hn, hw⟩ | ⟨t, ht, hφ⟩ := h.payout (by simp) b
    · rw [hn]
      intro w
      rw [hw w]
    · rw [ht, hφ]
      exact .ite Iff.rfl (fun _ => rfl) fun _ => rfl
  split
  · obtain ⟨hn, hw⟩ | ⟨b, t, ht, hφ⟩ := h.rng (by simp)
    · rw [hn]
      intro w
      rw [hw w]
    · rw [ht, hφ]
      rfl
  split
  · rfl
  · obtain ⟨o, t⟩ := drawGroup s
    cases o <;> rfl

/-! ### Decoder -/

/-- What `parseSos` does once it has written the tables of the components (45_entropy_decoder.md R350, R354). -/
def sosEnd (s : State) : BodyStep HdrPhase :=
  match s.geometry with
  | none => .raise .geom s
  | some g => if s.cfg.coefDepth < g.n then .raise .coefovf s else .done { s.setGeometry g with seen.sos := true }

theorem sosEnd_follows (s : State) : (sosEnd s).Follows waits φ (sosEnd (s.around φ)) := by
  unfold sosEnd
  rw [around_geometry]
  split
  · rfl
  · exact .ite Iff.rfl (fun _ => rfl) fun _ => rfl

theorem parseSos_follows (p : List Byte) (s : State) : (parseSos p s).Follows waits φ (parseSos p (s.around φ)) := by
  iterate 5 refine .ite Iff.rfl (fun _ => rfl) fun _ => ?_
  exact sosEnd_follows { s with geo.comp := sosTables p (byteAt p 0) s.geo.comp }

theorem parseSegment_follows (m : Byte) (p : List Byte) (s : State) :
    (parseSegment m p s).Follows waits φ (parseSegment m p (s.around φ)) := by
  unfold parseSegment
  split
  · exact congrArg _ (parseDqt_around φ s _ p)
  split
  · exact congrArg _ (parseDht_around φ s _ p)
  split
  · exact congrArg _ (parseSof0_around φ s p)
  split
  · exact congrArg _ (parseDri_around φ s p)
  split
  · exact parseSos_follows p s
  split <;> rfl

theorem hdrByte_follows (b : Byte) (p : HdrPhase) (s : State) :
    (hdrByte b p s).Follows waits φ (hdrByte b p (s.around φ)) := by
  cases p with
  | search =>
    simp only [hdrByte]
    split <;> rfl
  | marker =>
    simp only [hdrByte]
    iterate 4
      split
      · rfl
    rfl
  | lenHi m => rfl
  | lenLo m hi =>
    simp only [hdrByte]
    split
    · rfl
    split
    · exact parseSegment_follows _ _ _
    · rfl
  | payload m left got =>
    simp only [hdrByte]
    split
    · exact parseSegment_follows _ _ _
    · rfl

theorem hdrStep_follows (h : Carries [.inp] waits φ s) (p : HdrPhase) :
    (hdrStep p s).Follows waits φ (hdrStep p (s.around φ)) := by
  unfold hdrStep
  obtain ⟨hn, hw⟩ | ⟨he, hφ⟩ | ⟨b, t, ht, hφ⟩ := h.inp (by simp)
  · rw [hn]
    intro w
    rw [hw w]
  · rw [he, hφ]
    rfl
  · rw [ht, hφ]
    exact hdrByte_follows b p t

theorem bitStep_follows (h : Carries [.inp] waits φ s) (ff : Bool) :
    (bitStep ff s).Follows waits φ (bitStep ff (s.around φ)) := by
  unfold bitStep
  by_cases hbits : 0 < s.reader.bitcnt
  · rw [if_pos hbits, if_pos (by exact hbits)]
    rfl
  rw [if_neg hbits, if_neg (by exact hbits), around_reader]
  split
  · rfl
  · rfl
  obtain ⟨hn, hw⟩ | ⟨he, hφ⟩ | ⟨b, t, ht, hφ⟩ := h.inp (by simp)
  · rw [hn]
    intro w
    rw [hw w]
  · rw [he, hφ]
    rfl
  · rw [ht, hφ]
    dsimp only
    iterate 3
      split
      · rfl
    rfl

theorem markStep_follows (h : Carries [.inp] waits φ s) (ff : Bool) :
    (markStep ff s).Follows waits φ (markStep ff (s.around φ)) := by
  simp only [markStep, around_reader]
  split
  · rfl
  · rfl
  obtain ⟨hn, hw⟩ | ⟨he, hφ⟩ | ⟨b, t, ht, hφ⟩ := h.inp (by simp)
  · rw [hn]
    intro w
    rw [hw w]
  · rw [he, hφ]
    rfl
  · rw [ht, hφ]
    dsimp only
    iterate 3
      split
      · rfl
    rfl

theorem nextAc_follows (k : Nat) (s : State) : (nextAc k s).Follows waits φ (nextAc k (s.around φ)) := by
  unfold nextAc
  split <;> rfl

theorem dcSymbol_follows (c : BlkCtx) (t : Nat) (s : State) : (dcSymbol c t s).Follows waits φ (dcSymbol c t (s.around φ)) := by
  unfold dcSymbol
  split
  · rfl
  split
  · exact nextAc_follows _ _
  · rfl

theorem acSymbol_follows (k rs : Nat) (s : State) : (acSymbol k rs s).Follows waits φ (acSymbol k rs (s.around φ)) := by
  simp only [acSymbol]
  split
  · split
    · exact nextAc_follows _ _
    · rfl
  split <;> rfl

theorem blkBit_follows (c : BlkCtx) (b : Bool) (p : BlkPhase) (s : State) :
    (blkBit c b p s).Follows waits φ (blkBit c b p (s.around φ)) := by
  cases p with
  | dcCode code len =>
    simp only [blkBit, decodeBit_around]
    split
    · rfl
    · rfl
    · exact dcSymbol_follows _ _ _
  | dcBits size value left =>
    simp only [blkBit]
    split
    · exact nextAc_follows _ _
    · rfl
  | acCode k code len =>
    simp only [blkBit, decodeBit_around]
    split
    · rfl
    · rfl
    · exact acSymbol_follows _ _ _
  | acBits k size value left =>
    simp only [blkBit]
    split
    · exact nextAc_follows _ _
    · rfl

theorem blkStep_follows (h : Carries [.inp] waits φ s) (c : BlkCtx) (ff : Bool) (p : BlkPhase) :
    (blkStep c ff p s).Follows waits φ (blkStep c ff p (s.around φ)) := by
  have hb := bitStep_follows h ff
  unfold blkStep
  cases hs : bitStep ff s with
  | wait =>
    rw [hs] at hb
    intro w
    rw [hb w]
  | none t =>
    rw [hs] at hb
    rw [hb]
    rfl
  | more ff' t =>
    rw [hs] at hb
    rw [hb]
    rfl
  | bit b t =>
    rw [hs] at hb
    rw [hb]
    exact blkBit_follows c b p t

theorem decblkStep_follows (h : Carries [.inp] waits φ s) (p : DecblkAt) :
    (decblkStep p s).Follows waits φ (decblkStep p (s.around φ)) := by
  have hb := blkStep_follows h p.ctx p.ff p.phase
  unfold decblkStep
  cases hs : blkStep p.ctx p.ff p.phase s with
  | wait =>
    rw [hs] at hb
    intro w
    rw [hb w]
  | go ff ph t =>
    rw [hs] at hb
    rw [hb]
    rfl
  | ended e t =>
    rw [hs] at hb
    rw [hb]
    exact congrArg _ (decblkEnd_around φ t e)

theorem scanStep_follows (h : Carries [.inp] waits φ s) (p : ScanPhase) :
    (scanStep p s).Follows waits φ (scanStep p (s.around φ)) := by
  cases p with
  | mcu m =>
    refine .ite (by rw [around_mcuCount]) (fun _ => rfl) fun _ => ?_
    exact .ite Iff.rfl (fun _ => rfl) fun _ => rfl
  | restart m ff =>
    have hm := markStep_follows h ff
    simp only [scanStep]
    cases hs : markStep ff s with
    | wait =>
      rw [hs] at hm
      intro w
      rw [hm w]
    | go ff' t =>
      rw [hs] at hm
      rw [hm]
      rfl
    | found l t =>
      rw [hs] at hm
      rw [hm]
      exact congrArg _ (restartFound_around φ t l)
  | block m j =>
    refine .ite (by rw [around_bpm]) (fun _ => rfl) fun _ => ?_
    rw [scanBlock_around]
    rfl
  | bits m j ff p =>
    have hb := blkStep_follows h (scanBlock s m j) ff p
    simp only [scanStep, scanBlock_around]
    cases hs : blkStep (scanBlock s m j) ff p s with
    | wait =>
      rw [hs] at hb
      intro w
      rw [hb w]
    | go ff' p' t =>
      rw [hs] at hb
      rw [hb]
      rfl
    | ended e t =>
      rw [hs] at hb
      rw [hb]
      cases e <;> rfl
  | tail ff =>
    have hm := markStep_follows h ff
    simp only [scanStep]
    cases hs : markStep ff s with
    | wait =>
      rw [hs] at hm
      intro w
      rw [hm w]
    | go ff' t =>
      rw [hs] at hm
      rw [hm]
      rfl
    | found l t =>
      rw [hs] at hm
      rw [hm]
      exact congrArg _ (tailFound_around φ t l)

end

end Sys2Proof.Machine

/-! SUPPORT. A wait and what comes after it, said once for every body (20_memory.md R123). A body that follows its surroundings and comes
nearer to its end with every move goes on, from where it waited, as it would have gone on without the wait. -/

namespace Sys2Proof.Machine

/-- A command's body: where it stands as command-internal state, its moves, the bound the model runs it with, the FIFOs it uses, which
places are legal, and a measure of the moves it has left. -/
structure Body (π : Type) where
  place : π → Progress
  move : π → State → BodyStep π
  bound : π → State → Nat
  ports : List StallSrc
  legal : π → State → Prop
  left : π → State → Nat

def Body.run {π : Type} (B : Body π) (p : π) (s : State) : State := drive B.place B.move (B.bound p s) p s

/-- What makes a body resume where it waited. -/
structure Body.Resumes {π : Type} (B : Body π) : Prop where
  /-- Going on with the command is running the body. -/
  continues : ∀ p s, continueCommand (B.place p) s = B.run p s
  moves : ∀ {p s}, B.legal p s → (B.move p s).Leaves (Move s)
  /-- A wait leaves the body where it stands. -/
  waits : ∀ {p s src q t}, B.move p s = .wait src q t →
    q = p ∧ t = s ∧ (.inp ∈ B.ports → s.fifo.inEos = false)
  nearer : ∀ {p s q t}, B.legal p s → B.move p s = .go q t → B.legal q t ∧ B.left q t < B.left p s
  bounded : ∀ {p s}, B.legal p s → B.left p s < B.bound p s
  legal_around : ∀ {p s} (φ : Surroundings → Surroundings), B.legal p s → B.legal p (s.around φ)
  follows : ∀ {p s waits φ}, Carries B.ports waits φ s → (B.move p s).Follows waits φ (B.move p (s.around φ))

/-- The body comes from one place and state to another by moves that go on. -/
inductive Body.Reaches {π : Type} (B : Body π) : π → State → π → State → Prop
  | refl (p : π) (s : State) : B.Reaches p s p s
  | step {p q r : π} {s t u : State} : B.move p s = .go q t → B.Reaches q t r u → B.Reaches p s r u

/-- How the ends of a body turn out around `φ`: as `E` of what they are. -/
structure CarriesEnds (φ : Surroundings → Surroundings) (E : State → State) : Prop where
  retire : ∀ s, retire (s.around φ) = E (retire s)
  fault : ∀ c s, faultEntry c (s.around φ) = E (faultEntry c s)
  agent : ∀ a (s : State), { s.around φ with agent := a } = E { s with agent := a }

namespace Body.Resumes

variable {π : Type} {B : Body π} (hB : B.Resumes) {p q : π} {s t : State} {src : StallSrc} {φ : Surroundings → Surroundings}
include hB

/-- Any bound above the measure gives the same run. -/
theorem drive_eq {n m : Nat} (hl : B.legal p s) (hn : B.left p s < n) (hm : B.left p s < m) :
    drive B.place B.move n p s = drive B.place B.move m p s := by
  induction n generalizing m p s with
  | zero => omega
  | succ n ih =>
    cases m with
    | zero => omega
    | succ m =>
      simp only [drive]
      cases hs : B.move p s with
      | go q t =>
        obtain ⟨hl', hlt⟩ := hB.nearer hl hs
        exact ih hl' (by omega) (by omega)
      | wait src q t => rfl
      | done t => rfl
      | raise c t => rfl

theorem drive_eq_run {n : Nat} (hl : B.legal p s) (hn : B.left p s < n) : drive B.place B.move n p s = B.run p s :=
  hB.drive_eq hl hn (hB.bounded hl)

theorem run_go (hl : B.legal p s) (hs : B.move p s = .go q t) : B.run p s = B.run q t := by
  obtain ⟨hl', hlt⟩ := hB.nearer hl hs
  rw [← hB.drive_eq_run hl (Nat.lt_succ_self _), drive, hs]
  exact hB.drive_eq_run hl' hlt

theorem run_reaches (h : B.Reaches p s q t) (hl : B.legal p s) : B.legal q t ∧ Move s t ∧ B.run p s = B.run q t := by
  induction h with
  | refl p s => exact ⟨hl, Move.refl s, rfl⟩
  | step hs _ ih =>
    have hm := hB.moves hl
    rw [hs] at hm
    obtain ⟨hl', hm', hrun⟩ := ih (hB.nearer hl hs).1
    exact ⟨hl', Move.trans hm hm', (hB.run_go hl hs).trans hrun⟩

/-- Where `φ` carries what succeeds, the body around `φ` passes the same places. -/
theorem reaches_around (h : B.Reaches p s q t) (hl : B.legal p s)
    (hc : ∀ u, Move s u → Carries B.ports False φ u) : B.Reaches p (s.around φ) q (t.around φ) := by
  induction h with
  | refl p s => exact .refl _ _
  | @step p q r s t u hs _ ih =>
    have hm := hB.moves hl
    have hf := hB.follows (p := p) (hc s (Move.refl s))
    rw [hs] at hm hf
    exact .step hf (ih (hB.nearer hl hs).1 fun u hu => hc u (Move.trans hm hu))

/-- A run that stalls has reached a place from which the next move waits. -/
theorem drive_stall {n : Nat} {x : Progress} (ht : (drive B.place B.move n p s).agent = .stall src x) :
    ∃ q v, B.Reaches p s q v ∧ B.move q v = .wait src q v ∧ x = B.place q ∧
      drive B.place B.move n p s = { v with agent := .stall src (B.place q) } := by
  induction n generalizing p s with
  | zero => cases ht
  | succ n ih =>
    simp only [drive] at ht ⊢
    cases hs : B.move p s with
    | go q t =>
      rw [hs] at ht
      obtain ⟨r, v, hr, hv⟩ := ih ht
      exact ⟨r, v, .step hs hr, hv⟩
    | wait src' q t =>
      obtain ⟨rfl, rfl, -⟩ := hB.waits hs
      rw [hs] at ht
      cases ht
      exact ⟨q, t, .refl _ _, hs, rfl, rfl⟩
    | done t =>
      rw [hs] at ht
      cases ht
    | raise c t =>
      rw [hs] at ht
      cases ht

/-- Where `φ` carries waits too, the run around `φ` is the run. -/
theorem run_around {E : State → State} (I : State → Prop) (hI : ∀ {s t}, Move s t → I s → I t)
    (hc : ∀ {s}, I s → Carries B.ports True φ s) (hE : CarriesEnds φ E) (hs : I s) (hl : B.legal p s) :
    B.run p (s.around φ) = E (B.run p s) := by
  have hdrive (n : Nat) : drive B.place B.move n p (s.around φ) = E (drive B.place B.move n p s) := by
    induction n generalizing p s with
    | zero => exact hE.agent _ _
    | succ n ih =>
      have hf := hB.follows (p := p) (hc hs)
      have hm := hB.moves hl
      simp only [drive]
      cases hr : B.move p s with
      | go q t =>
        rw [hr] at hf hm
        rw [hf]
        exact ih (hI hm hs) (hB.nearer hl hr).1
      | wait src q t =>
        rw [hr] at hf
        rw [hf trivial]
        exact hE.agent _ _
      | done t =>
        rw [hr] at hf
        rw [hf]
        exact hE.retire _
      | raise c t =>
        rw [hr] at hf
        rw [hf]
        exact hE.fault _ _
  have hl' := hB.legal_around φ hl
  rw [← hB.drive_eq_run (n := max (B.bound p s) (B.bound p (s.around φ))) hl'
      (lt_of_lt_of_le (hB.bounded hl') (le_max_right _ _)),
    ← hB.drive_eq_run hl (lt_of_lt_of_le (hB.bounded hl) (le_max_left _ _))]
  exact hdrive _

end Body.Resumes

end Sys2Proof.Machine

/-! SUPPORT. Surroundings that change while a command waits, and what comes of a wait (20_memory.md R123): input FIFOs are fed,
output FIFOs are popped. -/

namespace Sys2Proof.Machine

/-- Bytes are appended to the input FIFOs, and the end of the input is as given. -/
def Surroundings.fed (rng inp payin : List Byte) (eos : Bool) (e : Surroundings) : Surroundings :=
  { e with
    fifo.rng := e.fifo.rng ++ rng
    fifo.inp := e.fifo.inp ++ inp
    fifo.payin := e.fifo.payin ++ payin
    fifo.inEos := eos }

/-- The output FIFOs lose their `n` and `m` oldest bytes, and their depths and the agent change. -/
def Surroundings.outside (n m : Nat) (f g : Nat → Nat) (a : Agent → Agent) (e : Surroundings) : Surroundings where
  fifo := { e.fifo with out := e.fifo.out.drop n, payout := e.fifo.payout.drop m }
  agent := a e.agent
  outqDepth := f e.outqDepth
  payoutqDepth := g e.payoutqDepth

section
variable {s : State} {b : Byte} {q : List Byte}

theorem popRng_nil (h : s.fifo.rng = []) : popRng s = none := by rw [popRng, h]

theorem popRng_cons (h : s.fifo.rng = b :: q) : popRng s = some (b, { s with fifo.rng := q }) := by rw [popRng, h]

theorem popPayin_nil (h : s.fifo.payin = []) : popPayin s = none := by rw [popPayin, h]

theorem popPayin_cons (h : s.fifo.payin = b :: q) : popPayin s = some (b, { s with fifo.payin := q }) := by
  rw [popPayin, h]

theorem readIn_nil (h : s.fifo.inp = []) : readIn s = if s.fifo.inEos then .eos else .wait := by rw [readIn, h]

theorem readIn_cons (h : s.fifo.inp = b :: q) :
    readIn s = .byte b { s with fifo.inp := q, coder.incnt := s.coder.incnt + 1 } := by
  rw [readIn, h]

end

section
variable {ports : List StallSrc} {s : State}

/-- Bytes appended to an input FIFO come after those a body pops. -/
theorem fed_carries (rng inp payin : List Byte) (eos : Bool) (heos : .inp ∈ ports → s.fifo.inEos = false) :
    Carries ports False (Surroundings.fed rng inp payin eos) s where
  rng _ := by
    cases h : s.fifo.rng with
    | nil => exact .inl ⟨popRng_nil h, False.elim⟩
    | cons b q => exact .inr ⟨b, _, popRng_cons h, popRng_cons (congrArg (· ++ rng) h)⟩
  payin _ := by
    cases h : s.fifo.payin with
    | nil => exact .inl ⟨popPayin_nil h, False.elim⟩
    | cons b q => exact .inr ⟨b, _, popPayin_cons h, popPayin_cons (congrArg (· ++ payin) h)⟩
  inp hin := by
    cases h : s.fifo.inp with
    | nil => exact .inl ⟨(readIn_nil h).trans (by rw [heos hin]; rfl), False.elim⟩
    | cons b q => exact .inr (.inr ⟨b, _, readIn_cons h, readIn_cons (congrArg (· ++ inp) h)⟩)
  out _ b := by
    unfold pushOut
    by_cases hroom : s.fifo.out.length < s.cfg.outqDepth
    · exact .inr ⟨_, if_pos hroom, if_pos hroom⟩
    · exact .inl ⟨if_neg hroom, False.elim⟩
  payout _ b := by
    unfold pushPayout
    by_cases hroom : s.fifo.payout.length < s.cfg.payoutqDepth
    · exact .inr ⟨_, if_pos hroom, if_pos hroom⟩
    · exact .inl ⟨if_neg hroom, False.elim⟩

/-- A push finds room behind the bytes that stay, where there was room before the change. -/
theorem outside_carries {waits : Prop} {n m : Nat} {f g : Nat → Nat} (a : Agent → Agent)
    (hout : .out ∈ ports → n ≤ s.fifo.out.length ∧
      (s.fifo.out.length < s.cfg.outqDepth → s.fifo.out.length - n < f s.cfg.outqDepth) ∧
      (waits → s.fifo.out.length - n < f s.cfg.outqDepth → s.fifo.out.length < s.cfg.outqDepth))
    (hpayout : .payout ∈ ports → m ≤ s.fifo.payout.length ∧
      (s.fifo.payout.length < s.cfg.payoutqDepth → s.fifo.payout.length - m < g s.cfg.payoutqDepth) ∧
      (waits → s.fifo.payout.length - m < g s.cfg.payoutqDepth → s.fifo.payout.length < s.cfg.payoutqDepth)) :
    Carries ports waits (Surroundings.outside n m f g a) s where
  rng _ := by
    cases h : s.fifo.rng with
    | nil => exact .inl ⟨popRng_nil h, fun _ => popRng_nil h⟩
    | cons b q => exact .inr ⟨b, _, popRng_cons h, popRng_cons h⟩
  payin _ := by
    cases h : s.fifo.payin with
    | nil => exact .inl ⟨popPayin_nil h, fun _ => popPayin_nil h⟩
    | cons b q => exact .inr ⟨b, _, popPayin_cons h, popPayin_cons h⟩
  inp _ := by
    cases h : s.fifo.inp with
    | nil =>
      have h' : readIn (s.around (.outside n m f g a)) = if s.fifo.inEos then .eos else .wait := readIn_nil h
      rw [readIn_nil h, h']
      cases s.fifo.inEos with
      | false => exact .inl ⟨rfl, fun _ => rfl⟩
      | true => exact .inr (.inl ⟨rfl, rfl⟩)
    | cons b q => exact .inr (.inr ⟨b, _, readIn_cons h, readIn_cons h⟩)
  out hp b := by
    obtain ⟨hn, hroom, hwait⟩ := hout hp
    have hlen : (s.around (.outside n m f g a)).fifo.out.length = s.fifo.out.length - n := List.length_drop
    have hdepth : (s.around (.outside n m f g a)).cfg.outqDepth = f s.cfg.outqDepth := rfl
    by_cases hlt : s.fifo.out.length < s.cfg.outqDepth
    · refine .inr ⟨_, if_pos hlt, (if_pos (by rw [hlen, hdepth]; exact hroom hlt)).trans ?_⟩
      simp only [State.around, State.surroundings, Surroundings.outside, List.drop_append_of_le_length hn]
    · exact .inl ⟨if_neg hlt, fun w => if_neg (by rw [hlen, hdepth]; exact mt (hwait w) hlt)⟩
  payout hp b := by
    obtain ⟨hm, hroom, hwait⟩ := hpayout hp
    have hlen : (s.around (.outside n m f g a)).fifo.payout.length = s.fifo.payout.length - m := List.length_drop
    have hdepth : (s.around (.outside n m f g a)).cfg.payoutqDepth = g s.cfg.payoutqDepth := rfl
    by_cases hlt : s.fifo.payout.length < s.cfg.payoutqDepth
    · refine .inr ⟨_, if_pos hlt, (if_pos (by rw [hlen, hdepth]; exact hroom hlt)).trans ?_⟩
      simp only [State.around, State.surroundings, Surroundings.outside, List.drop_append_of_le_length hm]
    · exact .inl ⟨if_neg hlt, fun w => if_neg (by rw [hlen, hdepth]; exact mt (hwait w) hlt)⟩

end

/-- Room is added to the output FIFOs. -/
def Surroundings.deeper (n m : Nat) : Surroundings → Surroundings := .outside 0 0 (· + n) (· + m) id

/-- Bytes leave the output FIFOs, and the room goes with them. -/
def Surroundings.drained (n m : Nat) : Surroundings → Surroundings := .outside n m (· - n) (· - m) id

def Surroundings.withAgent (a : Agent) : Surroundings → Surroundings := .outside 0 0 id id fun _ => a

section
variable {ports : List StallSrc} {s : State}

theorem deeper_carries (n m : Nat) : Carries ports False (Surroundings.deeper n m) s :=
  outside_carries id (fun _ => ⟨Nat.zero_le _, by omega, False.elim⟩) fun _ => ⟨Nat.zero_le _, by omega, False.elim⟩

theorem withAgent_carries (a : Agent) : Carries ports True (Surroundings.withAgent a) s :=
  outside_carries _ (fun _ => ⟨Nat.zero_le _, id, fun _ => id⟩) fun _ => ⟨Nat.zero_le _, id, fun _ => id⟩

theorem drained_carries {n m : Nat} (h : n ≤ s.fifo.out.length ∧ m ≤ s.fifo.payout.length) :
    Carries ports True (Surroundings.drained n m) s :=
  outside_carries id (fun _ => ⟨h.1, by omega, by omega⟩) fun _ => ⟨h.2, by omega, by omega⟩

end

theorem withAgent_ends (a : Agent) : CarriesEnds (Surroundings.withAgent a) id := ⟨fun _ => rfl, fun _ _ => rfl, fun _ _ => rfl⟩

theorem drained_ends (n m : Nat) : CarriesEnds (Surroundings.drained n m) (State.around (Surroundings.drained n m)) :=
  ⟨fun _ => rfl, fun _ _ => rfl, fun _ _ => rfl⟩

/-! ### A wait served -/

section
variable {π : Type} {B : Body π} (hB : B.Resumes) {p q : π} {s v : State} {src : StallSrc} {x : Progress}
include hB

/-- The agent has no part in a run. -/
theorem Body.Resumes.run_withAgent (hl : B.legal p s) (a : Agent) : B.run p { s with agent := a } = B.run p s :=
  hB.run_around (fun _ => True) (fun _ _ => trivial) (fun _ => withAgent_carries a) (withAgent_ends a) trivial hl

/-- Where a run stalls, and that a run around `φ` goes on from there. -/
theorem Body.Resumes.run_stall (hl : B.legal p s) (ht : (B.run p s).agent = .stall src x) :
    ∃ q v, x = B.place q ∧ B.run p s = { v with agent := .stall src x } ∧ Move s v ∧ B.legal q v ∧
      B.move q v = .wait src q v ∧
      ∀ φ, (∀ u, Move s u → Carries B.ports False φ u) → B.run p (s.around φ) = B.run q (v.around φ) := by
  obtain ⟨q, v, hr, hwait, rfl, hrun⟩ := hB.drive_stall ht
  obtain ⟨hl', hm, -⟩ := hB.run_reaches hr hl
  refine ⟨q, v, rfl, hrun, hm, hl', hwait, fun φ hc => ?_⟩
  exact (hB.run_reaches (hB.reaches_around hr hl hc) (hB.legal_around φ hl)).2.2

/-- After the input FIFOs are fed, a body goes on to where it would have come with all that there. -/
theorem Body.Resumes.run_fed (hl : B.legal p s) (ht : (B.run p s).agent = .stall src x) (rng inp payin : List Byte) (eos : Bool) :
    B.run p (s.feed rng inp payin eos) = continueCommand x ((B.run p s).feed rng inp payin eos) := by
  obtain ⟨q, v, rfl, hrun, hm, hl', hwait, hφ⟩ := hB.run_stall hl ht
  have heos (u : State) (hu : Move s u) (hin : .inp ∈ B.ports) : u.fifo.inEos = false := by
    obtain ⟨-, -, h⟩ := hB.waits hwait
    rw [hu.inEos, ← hm.inEos, h hin]
  rw [hrun, hB.continues]
  exact (hφ (.fed rng inp payin eos) fun u hu => fed_carries rng inp payin eos (heos u hu)).trans
    (hB.run_withAgent (hB.legal_around _ hl') _).symm

/-- After bytes are popped, a body goes on to where it would have come with that much more room. -/
theorem Body.Resumes.run_drained (hl : B.legal p s) (ht : (B.run p s).agent = .stall src x) {n m : Nat}
    (hn : n ≤ (B.run p s).fifo.out.length) (hm : m ≤ (B.run p s).fifo.payout.length) :
    continueCommand x ((B.run p s).popped n m) = (B.run p (s.deepened n m)).around (.drained n m) := by
  obtain ⟨q, v, rfl, hrun, -, hl', -, hφ⟩ := hB.run_stall hl ht
  have hdeeper : B.run p (s.deepened n m) = B.run q (v.deepened n m) := hφ (.deeper n m) fun u _ => deeper_carries n m
  have hdrain : B.run q ((v.deepened n m).around (.drained n m)) = (B.run q (v.deepened n m)).around (.drained n m) := by
    rw [hrun] at hn hm
    refine hB.run_around (fun u => n ≤ u.fifo.out.length ∧ m ≤ u.fifo.payout.length) (fun hu h => ?_) (fun h => drained_carries h)
      (drained_ends n m) ⟨hn, hm⟩ (hB.legal_around (.deeper n m) hl')
    exact ⟨h.1.trans hu.out.length_le, h.2.trans hu.payout.length_le⟩
  have hpopped : (v.deepened n m).around (.drained n m) = v.popped n m := by
    simp only [State.around, State.deepened, State.surroundings, Surroundings.drained, Surroundings.outside, Nat.add_sub_cancel]
    rfl
  rw [hdeeper, ← hdrain, hrun, hB.continues, hpopped]
  exact hB.run_withAgent (s := v.popped n m) (hpopped ▸ hB.legal_around (.drained n m) (hB.legal_around (.deeper n m) hl')) _

end

end Sys2Proof.Machine

/-! SUPPORT. The bodies that wait, and that each of them resumes where it waited: what a move takes from the FIFOs bounds the moves
left. -/

namespace Sys2Proof.Machine

/-! ### What a pop leaves -/

section
variable {s t : State} {b : Byte}

theorem popRng_length (h : popRng s = some (b, t)) : s.fifo.rng.length = t.fifo.rng.length + 1 := by
  unfold popRng at h
  split at h <;> cases h
  rename_i hq
  rw [hq, List.length_cons]

theorem popPayin_length (h : popPayin s = some (b, t)) : s.fifo.payin.length = t.fifo.payin.length + 1 := by
  unfold popPayin at h
  split at h <;> cases h
  rename_i hq
  rw [hq, List.length_cons]

theorem readIn_byte (h : readIn s = .byte b t) :
    s.fifo.inp.length = t.fifo.inp.length + 1 ∧ t.reader = s.reader ∧ t.geo = s.geo := by
  unfold readIn at h
  split at h
  · cases h
    rename_i hq
    exact ⟨by rw [hq, List.length_cons], rfl, rfl⟩
  · split at h <;> cases h

theorem readIn_wait (h : readIn s = .wait) : s.fifo.inEos = false := by
  unfold readIn at h
  split at h
  · cases h
  · split at h
    · cases h
    · rename_i heos
      exact Bool.eq_false_iff.2 heos

end

/-! ### Encoder -/

def emitBody : Body (List Byte × Ending) where
  place p := .emit p.1 p.2
  move := emitStep
  bound p s := p.1.length + 12 * p.2.pairs.length + 4096 * p.2.blocksLeft s + 8
  ports := [.out]
  legal p _ := EmitAt p
  left := emitLeft

theorem emitStep_wait_state {p q : List Byte × Ending} {src : StallSrc} {s t : State} (h : emitStep p s = .wait src q t) : t = s := by
  obtain ⟨bytes, e⟩ := p
  cases bytes with
  | nil =>
    match e with
    | .codes [] (some b) =>
      simp only [emitStep, emitNext, scanNext] at h
      split at h
      · cases h
      · split at h <;> cases h
    | .retire | .flushed | .buffered .. | .codes (_ :: _) _ | .codes [] none => cases h
  | cons b bs =>
    simp only [emitStep] at h
    split at h <;> cases h
    rfl

theorem emitBody_resumes : emitBody.Resumes where
  continues _ _ := rfl
  moves hl := Move.emitStep _ _ hl
  waits h := ⟨(emitStep_wait h).2, emitStep_wait_state h, nofun⟩
  nearer hl h := emitStep_go hl h
  bounded {p s} _ := by
    have := p.2.rank_lt
    simp only [emitBody, emitLeft]
    omega
  legal_around _ hl := hl
  follows h := emitStep_follows h _

/-! ### PERMGEN, EMBHDR and EXTHDR -/

def permgenBody : Body (Nat × List Byte) where
  place p := .permgen p.1 p.2
  move := permgenStep
  bound _ s := s.fifo.rng.length + 1
  ports := [.rng]
  legal _ _ := True
  left _ s := s.fifo.rng.length

/-- A wait of PERMGEN finds RNG empty. -/
theorem permgenStep_wait {p q : Nat × List Byte} {src : StallSrc} {s t : State} (h : permgenStep p s = .wait src q t) :
    q = p ∧ t = s ∧ popRng s = none := by
  obtain ⟨i, got⟩ := p
  simp only [permgenStep] at h
  split at h
  · cases h
  split at h
  · rename_i hpop
    cases h
    exact ⟨rfl, rfl, hpop⟩
  · split at h <;> cases h

theorem permgenStep_go {p q : Nat × List Byte} {s t : State} (h : permgenStep p s = .go q t) :
    t.fifo.rng.length < s.fifo.rng.length := by
  obtain ⟨i, got⟩ := p
  simp only [permgenStep] at h
  split at h
  · cases h
  split at h
  · cases h
  · rename_i hpop
    rw [popRng_length hpop]
    split at h <;> cases h <;> exact Nat.lt_succ_self _

theorem permgenBody_resumes : permgenBody.Resumes where
  continues _ _ := rfl
  moves _ := Move.permgenStep _ _
  waits h := by
    obtain ⟨hq, ht, -⟩ := permgenStep_wait h
    exact ⟨hq, ht, nofun⟩
  nearer _ h := ⟨trivial, permgenStep_go h⟩
  bounded _ := Nat.lt_succ_self _
  legal_around _ _ := trivial
  follows h := permgenStep_follows h _

def embhdrBody : Body (List Byte) where
  place got := .embHdr got
  move := embHdrStep
  bound _ s := s.fifo.rng.length + 1
  ports := [.rng]
  legal _ _ := True
  left _ s := s.fifo.rng.length

theorem embhdrBody_resumes : embhdrBody.Resumes where
  continues _ _ := rfl
  moves _ := Move.embHdrStep _ _
  waits {p s src q t} h := by
    simp only [embhdrBody, embHdrStep] at h
    split at h
    · cases h
      exact ⟨rfl, rfl, nofun⟩
    · split at h <;> cases h
  nearer {p s q t} _ h := by
    simp only [embhdrBody, embHdrStep] at h
    split at h
    · cases h
    · rename_i hpop
      refine ⟨trivial, ?_⟩
      show t.fifo.rng.length < s.fifo.rng.length
      rw [popRng_length hpop]
      split at h <;> cases h
      exact Nat.lt_succ_self _
  bounded _ := Nat.lt_succ_self _
  legal_around _ _ := trivial
  follows h := embHdrStep_follows h _

def exthdrBody : Body (Word × List Byte) where
  place p := .extHdr p.1 p.2
  move := extHdrStep
  bound _ s := s.fifo.rng.length + 1
  ports := [.rng]
  legal _ _ := True
  left _ s := s.fifo.rng.length

theorem exthdrBody_resumes : exthdrBody.Resumes where
  continues _ _ := rfl
  moves _ := Move.extHdrStep _ _
  waits {p s src q t} h := by
    obtain ⟨w, got⟩ := p
    simp only [exthdrBody, extHdrStep] at h
    split at h
    · cases h
      exact ⟨rfl, rfl, nofun⟩
    · split at h <;> cases h
  nearer {p s q t} _ h := by
    obtain ⟨w, got⟩ := p
    simp only [exthdrBody, extHdrStep] at h
    split at h
    · cases h
    · rename_i hpop
      refine ⟨trivial, ?_⟩
      show t.fifo.rng.length < s.fifo.rng.length
      rw [popRng_length hpop]
      split at h <;> cases h
      exact Nat.lt_succ_self _
  bounded _ := Nat.lt_succ_self _
  legal_around _ _ := trivial
  follows h := extHdrStep_follows h _

/-! ### EMBPAY -/

/-- EMBPAY has at most the eight bits of a byte at hand. -/
def EmbpayAt.fits : EmbpayAt → Prop
  | .embed c => c.avail ≤ 8
  | .drain _ => True

/-- The moves EMBPAY has left: 18 for a byte in PAYIN, 17 once it is taken, two for a bit at hand, one for a group begun. -/
def embpayLeft : EmbpayAt → State → Nat
  | .embed c, s => 18 * s.fifo.payin.length + (match c.hold with | some _ => 17 | none => 0) + 2 * c.avail
    + (if 0 < c.m then 1 else 0)
  | .drain _, s => s.fifo.payin.length

def embpayBody : Body EmbpayAt where
  place := EmbpayAt.progress
  move := embpayStep
  bound _ s := 18 * (s.fifo.payin.length + 2)
  ports := [.rng, .payin]
  legal p s := s.f5.k.toNat ≤ s.cfg.kMaxEmb ∧ p.fits
  left := embpayLeft

theorem embpayStep_wait {p q : EmbpayAt} {src : StallSrc} {s t : State} (h : embpayStep p s = .wait src q t) : q = p ∧ t = s := by
  cases p with
  | embed c =>
    simp only [embpayStep] at h
    split at h
    · split at h <;> cases h
    split at h
    · cases h
    split at h
    · split at h <;> cases h
      exact ⟨rfl, rfl⟩
    split at h
    · cases h
    split at h <;> cases h
    exact ⟨rfl, rfl⟩
  | drain n =>
    simp only [embpayStep] at h
    split at h
    · cases h
    split at h <;> cases h
    exact ⟨rfl, rfl⟩

theorem groupReady_pos {c : EmbCtx} {s : State} (h : groupReady c s = true) : 0 < c.m := by
  have hsize : 0 < s.groupSize := by
    unfold State.groupSize
    split <;> omega
  simp only [groupReady, Bool.or_eq_true, Bool.and_eq_true, decide_eq_true_eq] at h
  omega

theorem embedGroup_payin {val : Nat} {s t : State} {e : EmbedEnd} (h : embedGroup val s = (e, t)) :
    t.fifo.payin = s.fifo.payin := by
  have hw := embedGroup_writes val s
  rw [h] at hw
  exact congrArg (·.fifo.payin) (hw .payin (by decide))

theorem popRng_payin {s t : State} {b : Byte} (h : popRng s = some (b, t)) : t.fifo.payin = s.fifo.payin :=
  congrArg (·.fifo.payin) (popRng_writes h .payin (by decide))

theorem embpayStep_go {p q : EmbpayAt} {s t : State} (hp : p.fits) (h : embpayStep p s = .go q t) :
    q.fits ∧ embpayLeft q t < embpayLeft p s := by
  cases p with
  | embed c =>
    simp only [embpayStep] at h
    split at h
    · rename_i hready
      have hm := groupReady_pos hready
      split at h <;> rename_i u hu <;> have hpay := embedGroup_payin hu <;> cases h
      · refine ⟨trivial, ?_⟩
        simp only [embpayLeft, if_pos hm, warns_fifo, hpay]
        omega
      · exact ⟨hp, by simp [embpayLeft, countEmbedded, hm, hpay]⟩
      · exact ⟨hp, by simp [embpayLeft, countEmbedded, hm, hpay]⟩
    split at h
    · rename_i hbits
      cases h
      have hp : c.avail ≤ 8 := hp
      refine ⟨show c.avail - 1 ≤ 8 by omega, ?_⟩
      simp only [embpayLeft, if_pos (Nat.succ_pos c.m)]
      omega
    rename_i hbits
    split at h
    · rename_i b hhold
      split at h <;> cases h
      rename_i hpop
      refine ⟨Nat.le_refl 8, ?_⟩
      simp only [embpayLeft, popRng_payin hpop, hhold]
      omega
    rename_i hhold
    split at h
    · cases h
    split at h <;> cases h
    rename_i hpop
    refine ⟨hp, ?_⟩
    simp only [embpayLeft, popPayin_length hpop, hhold]
    omega
  | drain n =>
    simp only [embpayStep] at h
    split at h
    · cases h
    split at h <;> cases h
    rename_i hpop
    exact ⟨trivial, by simp only [embpayLeft, popPayin_length hpop]; omega⟩

theorem embpayBody_resumes : embpayBody.Resumes where
  continues p _ := by cases p <;> rfl
  moves hl := Move.embpayStep _ _ hl.1
  waits h := ⟨(embpayStep_wait h).1, (embpayStep_wait h).2, nofun⟩
  nearer {p s q t} hl h := by
    obtain ⟨hk, hp⟩ := hl
    obtain ⟨hq, hlt⟩ := embpayStep_go hp h
    have hm := Move.embpayStep p s hk
    rw [show embpayStep p s = .go q t from h] at hm
    exact ⟨⟨by rw [hm.k, hm.cfg]; exact hk, hq⟩, hlt⟩
  bounded {p s} hl := by
    obtain ⟨-, hp⟩ := hl
    cases p with
    | embed c =>
      have hp : c.avail ≤ 8 := hp
      simp only [embpayBody, embpayLeft]
      split <;> split <;> omega
    | drain n =>
      simp only [embpayBody, embpayLeft]
      omega
  legal_around _ hl := hl
  follows h := embpayStep_follows h _

/-! ### EXTPAY -/

/-- The moves EXTPAY has left: 18 for a byte in RNG, and, up to the next of them, one for a bit to put and one for each that has still to
be drawn. -/
def extpayLeft (c : ExtCtx) (s : State) : Nat :=
  18 * s.fifo.rng.length +
    match c.out with
    | some _ => 9 + (8 - c.left)
    | none => (8 - c.na) + (8 - c.na - c.left)

def extpayBody : Body ExtCtx where
  place c := .extPay c
  move := extpayStep
  bound _ s := 18 * (s.fifo.rng.length + 2)
  ports := [.rng, .payout]
  legal _ _ := True
  left := extpayLeft

theorem extpayStep_wait {c d : ExtCtx} {src : StallSrc} {s t : State} (h : extpayStep c s = .wait src d t) : d = c ∧ t = s := by
  simp only [extpayStep] at h
  split at h
  · split at h
    · cases h
      exact ⟨rfl, rfl⟩
    · split at h <;> cases h
  split at h
  · split at h <;> cases h
    exact ⟨rfl, rfl⟩
  split at h
  · cases h
  · split at h <;> cases h

theorem drawGroup_rng {s t : State} {o : Option Nat} (h : drawGroup s = (o, t)) :
    t.fifo.rng = s.fifo.rng := by
  have hw : WritesOnly [.pos] s (drawGroup s).2 := drawSyndrome_writes _ 0 0 s
  rw [h] at hw
  exact congrArg (·.fifo.rng) (hw .rng (by decide))

theorem pushPayout_rng {s t : State} {b : Byte} (h : pushPayout b s = some t) : t.fifo.rng = s.fifo.rng :=
  congrArg (·.fifo.rng) (pushPayout_writes h .rng (by decide))

theorem extGroupSize_pos (s : State) : 0 < s.extGroupSize := by
  unfold State.extGroupSize
  split
  · exact Nat.one_pos
  · rename_i hk
    exact Nat.pos_of_ne_zero fun h => hk (BitVec.eq_of_toNat_eq h)

theorem extpayStep_go {c d : ExtCtx} {s t : State} (h : extpayStep c s = .go d t) : extpayLeft d t < extpayLeft c s := by
  simp only [extpayStep] at h
  split at h
  · rename_i b hout
    split at h
    · cases h
    · rename_i hpush
      split at h <;> cases h
      simp only [extpayLeft, pushPayout_rng hpush, hout]
      omega
  rename_i hout
  split at h
  · split at h <;> cases h
    rename_i hpop
    simp only [extpayLeft, popRng_length hpop, hout]
    omega
  split at h
  · cases h
    simp only [extpayLeft, hout]
    omega
  · split at h <;> cases h
    rename_i hdraw
    have hpos := extGroupSize_pos t
    simp only [extpayLeft, drawGroup_rng hdraw, hout]
    omega

theorem extpayBody_resumes : extpayBody.Resumes where
  continues _ _ := rfl
  moves _ := Move.extpayStep _ _
  waits h := ⟨(extpayStep_wait h).1, (extpayStep_wait h).2, nofun⟩
  nearer _ h := ⟨trivial, extpayStep_go h⟩
  bounded {c s} _ := by
    simp only [extpayBody, extpayLeft]
    split <;> omega
  legal_around _ _ := trivial
  follows h := extpayStep_follows h _

/-! ### DECHDR -/

def dechdrBody : Body HdrPhase where
  place p := .decHdr p
  move := hdrStep
  bound _ s := s.fifo.inp.length + 1
  ports := [.inp]
  legal _ _ := True
  left _ s := s.fifo.inp.length

/-- A move that follows every change of the surroundings keeps them. -/
theorem BodyStep.Follows.keeps_fifo {π : Type} {s t : State} {r : BodyStep π} {q : π}
    (h : r.Follows False (fun _ => s.surroundings) r) (hr : r = .go q t) : t.fifo = s.fifo := by
  rw [hr] at h
  have ht : t = t.around fun _ => s.surroundings := (BodyStep.go.inj h).2
  exact congrArg (·.fifo) ht

def BodyStep.proceeds {π : Type} : BodyStep π → Prop
  | .wait _ _ _ => False
  | _ => True

theorem parseSos_proceeds (p : List Byte) (s : State) : (parseSos p s).proceeds := by
  simp only [parseSos]
  iterate 5
    split
    · trivial
  split
  · trivial
  split <;> trivial

theorem parseSegment_proceeds (m : Byte) (p : List Byte) (s : State) : (parseSegment m p s).proceeds := by
  unfold parseSegment
  iterate 4
    split
    · trivial
  split
  · exact parseSos_proceeds p s
  split <;> trivial

/-- Only the next byte is waited for, not what a byte of the header brings (45_entropy_decoder.md R340, R350). -/
theorem hdrByte_proceeds (b : Byte) (p : HdrPhase) (s : State) : (hdrByte b p s).proceeds := by
  cases p with
  | search =>
    simp only [hdrByte]
    split <;> trivial
  | marker =>
    simp only [hdrByte]
    iterate 4
      split
      · trivial
    trivial
  | lenHi m => trivial
  | lenLo m hi =>
    simp only [hdrByte]
    split
    · trivial
    split
    · exact parseSegment_proceeds _ _ _
    · trivial
  | payload m left got =>
    simp only [hdrByte]
    split
    · exact parseSegment_proceeds _ _ _
    · trivial

theorem hdrStep_wait {p q : HdrPhase} {src : StallSrc} {s t : State} (h : hdrStep p s = .wait src q t) :
    q = p ∧ t = s ∧ s.fifo.inEos = false := by
  unfold hdrStep at h
  split at h
  · rename_i hread
    cases h
    exact ⟨rfl, rfl, readIn_wait hread⟩
  · cases h
  · rename_i b u _
    have hgoes := hdrByte_proceeds b p u
    rw [h] at hgoes
    exact hgoes.elim

theorem hdrStep_go {p q : HdrPhase} {s t : State} (h : hdrStep p s = .go q t) : t.fifo.inp.length < s.fifo.inp.length := by
  unfold hdrStep at h
  split at h
  · cases h
  · cases h
  · rename_i b u hread
    have hfifo : t.fifo = u.fifo := (hdrByte_follows b p u).keeps_fifo h
    rw [hfifo, (readIn_byte hread).1]
    exact Nat.lt_succ_self _

theorem dechdrBody_resumes : dechdrBody.Resumes where
  continues _ _ := rfl
  moves _ := Move.hdrStep _ _
  waits h := by
    obtain ⟨hq, ht, heos⟩ := hdrStep_wait h
    exact ⟨hq, ht, fun _ => heos⟩
  nearer _ h := ⟨trivial, hdrStep_go h⟩
  bounded _ := Nat.lt_succ_self _
  legal_around _ _ := trivial
  follows h := hdrStep_follows h _

/-! ### DecodeBlock -/

/-- Which symbol a block is in: 0 for the DC symbol, 2 for an AC symbol. -/
def BlkPhase.rank : BlkPhase → Nat
  | .dcCode _ _ | .dcBits _ _ _ => 0
  | .acCode _ _ _ | .acBits _ _ _ _ => 2

/-- What DecodeBlock does with a bit of a phase of rank `r`: it reads nothing more, and it ends well in an AC symbol only. -/
def BlkStep.AfterBit (r : Nat) (s : State) : BlkStep → Prop
  | .wait => False
  | .go _ q t => t.fifo.inp = s.fifo.inp ∧ t.reader = s.reader ∧ q.rank ≤ r + 2
  | .ended e t => t.fifo.inp = s.fifo.inp ∧ t.reader = s.reader ∧ (e = .ok → r = 2)

theorem nextAc_afterBit (k : Nat) {s t : State} (hinp : t.fifo.inp = s.fifo.inp) (hreader : t.reader = s.reader) :
    (nextAc k t).AfterBit 2 s := by
  unfold nextAc
  split
  · exact ⟨hinp, hreader, Nat.le_add_right 2 2⟩
  · exact ⟨hinp, hreader, fun _ => rfl⟩

theorem dcSymbol_afterBit (c : BlkCtx) (v : Nat) (s : State) : (dcSymbol c v s).AfterBit 0 s := by
  unfold dcSymbol
  split
  · exact ⟨rfl, rfl, nofun⟩
  split
  · exact ⟨rfl, rfl, Nat.le_refl 2⟩
  · exact ⟨rfl, rfl, Nat.zero_le _⟩

theorem acSymbol_afterBit (k rs : Nat) (s : State) : (acSymbol k rs s).AfterBit 2 s := by
  simp only [acSymbol]
  split
  · split
    · exact nextAc_afterBit _ rfl rfl
    · exact ⟨rfl, rfl, fun _ => rfl⟩
  split
  · exact ⟨rfl, rfl, nofun⟩
  · exact ⟨rfl, rfl, Nat.le_add_right 2 2⟩

theorem blkBit_afterBit (c : BlkCtx) (b : Bool) (p : BlkPhase) (s : State) : (blkBit c b p s).AfterBit p.rank s := by
  cases p with
  | dcCode code len =>
    simp only [blkBit]
    split
    · exact ⟨rfl, rfl, Nat.zero_le _⟩
    · exact ⟨rfl, rfl, nofun⟩
    · exact dcSymbol_afterBit _ _ _
  | dcBits size value left =>
    simp only [blkBit]
    split
    · exact ⟨rfl, rfl, Nat.le_refl 2⟩
    · exact ⟨rfl, rfl, Nat.zero_le _⟩
  | acCode k code len =>
    simp only [blkBit]
    split
    · exact ⟨rfl, rfl, Nat.le_add_right 2 2⟩
    · exact ⟨rfl, rfl, nofun⟩
    · exact acSymbol_afterBit _ _ _
  | acBits k size value left =>
    simp only [blkBit]
    split
    · exact nextAc_afterBit _ rfl rfl
    · exact ⟨rfl, rfl, Nat.le_add_right 2 2⟩

/-- What NEXTBIT takes: a bit of the byte at hand, or, when there is none left, a byte of the input. -/
def BitStep.Takes (s : State) : BitStep → Prop
  | .bit _ t => t.fifo.inp = s.fifo.inp ∧ s.reader.bitcnt = t.reader.bitcnt + 1
  | .none t => t.fifo.inp.length ≤ s.fifo.inp.length ∧ t.reader.bitcnt = s.reader.bitcnt
  | .more _ t => s.fifo.inp.length = t.fifo.inp.length + 1 ∧ s.reader.bitcnt = 0 ∧ t.reader.bitcnt ≤ 8
  | .wait => s.fifo.inEos = false

theorem bitStep_takes (ff : Bool) (s : State) : (bitStep ff s).Takes s := by
  unfold bitStep
  split
  · rename_i hbits
    exact ⟨rfl, (Nat.sub_add_cancel hbits).symm⟩
  rename_i hbits
  have hzero : s.reader.bitcnt = 0 := by omega
  split
  · exact ⟨Nat.le_refl _, rfl⟩
  · exact ⟨Nat.le_refl _, rfl⟩
  split
  · rename_i hread
    exact readIn_wait hread
  · exact ⟨Nat.le_refl _, rfl⟩
  · rename_i b t hread
    obtain ⟨hlen, hreader, -⟩ := readIn_byte hread
    split
    · exact ⟨hlen, hzero, by rw [hreader, hzero]; exact Nat.zero_le 8⟩
    split
    · exact ⟨hlen, hzero, Nat.le_refl 8⟩
    split
    · exact ⟨hlen, hzero, Nat.le_refl 8⟩
    · exact ⟨by rw [setLatch_fifo, hlen]; exact Nat.le_succ _, by rw [setLatch_reader, hreader]⟩

/-- What a move of DecodeBlock takes, from phase `p`: a byte of the input, or a bit. -/
def BlkStep.Takes (p : BlkPhase) (s : State) : BlkStep → Prop
  | .wait => s.fifo.inEos = false
  | .go _ q t =>
    (s.fifo.inp.length = t.fifo.inp.length + 1 ∧ s.reader.bitcnt = 0 ∧ t.reader.bitcnt ≤ 8 ∧ q = p) ∨
      (t.fifo.inp = s.fifo.inp ∧ s.reader.bitcnt = t.reader.bitcnt + 1 ∧ q.rank ≤ p.rank + 2)
  | .ended .ok t => t.fifo.inp = s.fifo.inp ∧ s.reader.bitcnt = t.reader.bitcnt + 1 ∧ p.rank = 2
  | .ended _ t => t.fifo.inp.length ≤ s.fifo.inp.length ∧ t.reader.bitcnt ≤ s.reader.bitcnt

theorem blkStep_takes (c : BlkCtx) (ff : Bool) (p : BlkPhase) (s : State) : (blkStep c ff p s).Takes p s := by
  have ht := bitStep_takes ff s
  unfold blkStep
  split <;> rename_i hb <;> rw [hb] at ht
  · exact ht
  · exact ⟨ht.1, ht.2.le⟩
  · exact .inl ⟨ht.1, ht.2.1, ht.2.2, rfl⟩
  · rename_i b t
    obtain ⟨hinp, hbits⟩ := ht
    have ha := blkBit_afterBit c b p t
    generalize blkBit c b p t = r at ha
    cases r with
    | wait => exact ha.elim
    | go ff' q u =>
      obtain ⟨hi, hr, hrank⟩ := ha
      exact .inr ⟨hi.trans hinp, by rw [hr, hbits], hrank⟩
    | ended e u =>
      obtain ⟨hi, hr, hok⟩ := ha
      cases e with
      | ok => exact ⟨hi.trans hinp, by rw [hr, hbits], hok rfl⟩
      | short => exact ⟨by rw [hi, hinp], by rw [hr, hbits]; exact Nat.le_succ _⟩
      | bad => exact ⟨by rw [hi, hinp], by rw [hr, hbits]; exact Nat.le_succ _⟩

/-! ### DECBLK -/

def decblkBody : Body DecblkAt where
  place p := .decBlk p.ctx p.ff p.phase
  move := decblkStep
  bound _ s := 9 * s.fifo.inp.length + s.reader.bitcnt + 2
  ports := [.inp]
  legal _ _ := True
  left _ s := 9 * s.fifo.inp.length + s.reader.bitcnt

theorem decblkBody_resumes : decblkBody.Resumes where
  continues _ _ := rfl
  moves _ := Move.decblkStep _ _
  waits {p s src q t} h := by
    have ht := blkStep_takes p.ctx p.ff p.phase s
    simp only [decblkBody, decblkStep] at h
    split at h <;> rename_i hb <;> rw [hb] at ht <;> cases h
    exact ⟨rfl, rfl, fun _ => ht⟩
  nearer {p s q t} _ h := by
    have ht := blkStep_takes p.ctx p.ff p.phase s
    simp only [decblkBody, decblkStep] at h
    split at h <;> rename_i hb <;> rw [hb] at ht <;> cases h
    refine ⟨trivial, ?_⟩
    simp only [decblkBody]
    obtain ⟨hlen, hzero, hbits, -⟩ | ⟨hinp, hbits, -⟩ := ht
    · omega
    · rw [hinp]
      omega
  bounded _ := by
    simp only [decblkBody]
    omega
  legal_around _ _ := trivial
  follows h := decblkStep_follows h _

/-! ### DECSCAN -/

/-- The moves of DECSCAN that take nothing: a block that is complete may be followed by four of them before the next takes a bit. -/
def scanRank (s : State) : ScanPhase → Nat
  | .mcu _ => 4
  | .restart _ _ => 3
  | .block _ j => if s.bpm ≤ j then 5 else 2
  | .bits _ _ _ p => 1 + p.rank
  | .tail _ => 0

/-- A byte counts for its eight bits and more, and a bit for itself and two moves that take nothing: a block has two bits at least. -/
def scanLeft (p : ScanPhase) (s : State) : Nat := 32 * s.fifo.inp.length + 3 * s.reader.bitcnt + scanRank s p

def decscanBody : Body ScanPhase where
  place p := .decScan p
  move := scanStep
  bound _ s := 32 * (s.fifo.inp.length + s.reader.bitcnt + 4)
  ports := [.inp]
  legal _ s := 0 < s.bpm
  left := scanLeft

/-- What a move of FindMarker takes. -/
def MarkStep.Takes (s : State) : MarkStep → Prop
  | .wait => s.fifo.inEos = false
  | .go _ t => s.fifo.inp.length = t.fifo.inp.length + 1 ∧ t.reader.bitcnt = s.reader.bitcnt
  | .found _ t => t.fifo.inp.length ≤ s.fifo.inp.length ∧ t.reader.bitcnt = s.reader.bitcnt

theorem markStep_takes (ff : Bool) (s : State) : (markStep ff s).Takes s := by
  unfold markStep
  split
  · exact ⟨Nat.le_refl _, rfl⟩
  · exact ⟨Nat.le_refl _, rfl⟩
  split
  · rename_i hread
    exact readIn_wait hread
  · exact ⟨Nat.le_refl _, rfl⟩
  · rename_i b t hread
    obtain ⟨hlen, hreader, -⟩ := readIn_byte hread
    have hbits : t.reader.bitcnt = s.reader.bitcnt := by rw [hreader]
    split
    · exact ⟨hlen, hbits⟩
    split
    · exact ⟨hlen, hbits⟩
    split
    · exact ⟨hlen, hbits⟩
    · exact ⟨by rw [setLatch_fifo, hlen]; exact Nat.le_succ _, hbits⟩

theorem restartFound_keeps (l : Latch) (s : State) :
    (restartFound l s).fifo = s.fifo ∧ (restartFound l s).reader.bitcnt = s.reader.bitcnt := by
  unfold restartFound
  split <;> exact ⟨rfl, rfl⟩

theorem scanStep_wait {p q : ScanPhase} {src : StallSrc} {s t : State} (h : scanStep p s = .wait src q t) :
    q = p ∧ t = s ∧ s.fifo.inEos = false := by
  cases p with
  | mcu m =>
    simp only [scanStep] at h
    split at h
    · cases h
    split at h <;> cases h
  | restart m ff =>
    have hm := markStep_takes ff s
    simp only [scanStep] at h
    split at h <;> rename_i hb <;> rw [hb] at hm <;> cases h
    exact ⟨rfl, rfl, hm⟩
  | block m j =>
    simp only [scanStep] at h
    split at h <;> cases h
  | bits m j ff p =>
    have hb := blkStep_takes (scanBlock s m j) ff p s
    simp only [scanStep] at h
    split at h <;> rename_i hs <;> rw [hs] at hb <;> cases h
    exact ⟨rfl, rfl, hb⟩
  | tail ff =>
    have hm := markStep_takes ff s
    simp only [scanStep] at h
    split at h <;> rename_i hb <;> rw [hb] at hm <;> cases h
    exact ⟨rfl, rfl, hm⟩

theorem scanStep_geo {p q : ScanPhase} {s t : State} (h : scanStep p s = .go q t) : t.geo = s.geo := by
  have hw := scanStep_writes p s
  rw [h] at hw
  exact congrArg (·.geo) (hw .geo (by decide))

theorem bpm_congr {s t : State} (h : t.geo = s.geo) : t.bpm = s.bpm := by
  have hoff (n : Nat) : t.offsetOf n = s.offsetOf n := by
    induction n with
    | zero => rfl
    | succ n ih => rw [State.offsetOf, State.offsetOf, ih, State.unitsOf, State.unitsOf, h]
  rw [State.bpm, State.bpm, hoff, h]

theorem scanRank_le (s : State) (p : ScanPhase) : scanRank s p ≤ 5 := by
  cases p with
  | block m j =>
    simp only [scanRank]
    split <;> omega
  | bits m j ff p =>
    cases p <;> simp [scanRank, BlkPhase.rank]
  | mcu m => simp [scanRank]
  | restart m ff => simp [scanRank]
  | tail ff => simp [scanRank]

theorem scanStep_go {p q : ScanPhase} {s t : State} (hbpm : 0 < s.bpm) (h : scanStep p s = .go q t) : scanLeft q t < scanLeft p s := by
  have hgeo := bpm_congr (scanStep_geo h)
  have hfirst : ¬ t.bpm ≤ 0 := by omega
  cases p with
  | mcu m =>
    simp only [scanStep] at h
    split at h
    · cases h
      simp only [scanLeft, scanRank, State.alignBits]
      omega
    split at h <;> cases h
    · simp only [scanLeft, scanRank, State.alignBits]
      omega
    · simp only [scanLeft, scanRank, if_neg hfirst]
      omega
  | restart m ff =>
    have hm := markStep_takes ff s
    simp only [scanStep] at h
    split at h <;> rename_i hb <;> rw [hb] at hm <;> cases h <;> obtain ⟨hlen, hbits⟩ := hm
    · simp only [scanLeft, scanRank]
      omega
    · rename_i l u
      obtain ⟨hf, hr⟩ := restartFound_keeps l u
      simp only [scanLeft, scanRank, if_neg hfirst, hf, hr]
      omega
  | block m j =>
    simp only [scanStep] at h
    split at h <;> rename_i hj <;> cases h
    · simp only [scanLeft, scanRank, if_pos hj]
      omega
    · simp only [scanLeft, scanRank, if_neg hj, BlkPhase.rank, beginBlock, setCoefs_fifo, setCoefs_reader]
      omega
  | bits m j ff p =>
    have hb := blkStep_takes (scanBlock s m j) ff p s
    simp only [scanStep] at h
    split at h <;> rename_i hs <;> rw [hs] at hb <;> cases h
    · obtain ⟨hlen, hzero, hbits, rfl⟩ | ⟨hinp, hbits, hrank⟩ := hb
      · simp only [scanLeft, scanRank]
        omega
      · simp only [scanLeft, scanRank, hinp]
        omega
    · obtain ⟨hinp, hbits, hrank⟩ := hb
      have hle := scanRank_le t (.block m (j + 1))
      simp only [scanLeft, hinp]
      simp only [scanRank] at hle ⊢
      omega
    · obtain ⟨hlen, hbits⟩ := hb
      simp only [scanLeft, scanRank, State.alignBits, warns_fifo]
      omega
  | tail ff =>
    have hm := markStep_takes ff s
    simp only [scanStep] at h
    split at h <;> rename_i hb <;> rw [hb] at hm <;> cases h
    obtain ⟨hlen, hbits⟩ := hm
    simp only [scanLeft, scanRank]
    omega

theorem decscanBody_resumes : decscanBody.Resumes where
  continues _ _ := rfl
  moves _ := Move.scanStep _ _
  waits h := by
    obtain ⟨hq, ht, heos⟩ := scanStep_wait h
    exact ⟨hq, ht, fun _ => heos⟩
  nearer hl h := ⟨lt_of_lt_of_eq hl (bpm_congr (scanStep_geo h)).symm, scanStep_go hl h⟩
  bounded {p s} _ := by
    have := scanRank_le s p
    simp only [decscanBody, scanLeft]
    omega
  legal_around {p s} φ hl := by
    change 0 < (s.around φ).bpm
    rw [around_bpm]
    exact hl
  follows h := scanStep_follows h _

end Sys2Proof.Machine

/-! SUPPORT. Every command that stalls has begun a body that resumes, and begins the same body whatever surrounds it. -/

namespace Sys2Proof.Machine

/-- The core waits. -/
def State.stalled (s : State) : Bool :=
  match s.agent with
  | .stall _ _ => true
  | _ => false

/-- The command runs a body, from a legal place, and the same body whatever surrounds the state. -/
inductive Begins (i : Instr) (s : State) : Prop
  | body {π : Type} (B : Body π) (hB : B.Resumes) (p : π) (u : State) (legal : B.legal p u)
      (runs : ∀ φ, exec i (s.around φ) = .next (B.run p (u.around φ)))

theorem check_stalled {c : Prop} [Decidable c] {f : FaultCode} {s t : State} (h : ¬ c → t.stalled = false) :
    (if c then faultEntry f s else t).stalled = false := by
  split
  · rfl
  · exact h ‹_›

theorem check_retire_stalled {c : Prop} [Decidable c] {f : FaultCode} {s t : State} :
    (if c then faultEntry f s else retire t).stalled = false :=
  check_stalled fun _ => rfl

theorem divCalc_stalled (s : State) : (divCalc s).stalled = false := check_retire_stalled

theorem putbits_begins (size : Nat) (code : BitVec 16) (s : State) :
    (∃ t, exec (.putbits size code) s = .next t ∧ t.stalled = false) ∨ Begins (.putbits size code) s := by
  by_cases hsize : 16 < size
  · exact .inl ⟨_, congrArg Host.Outcome.next (if_pos hsize), rfl⟩
  · refine .inr (.body emitBody emitBody_resumes ([], .codes [(code.toNat, size)] none) s ?_
      fun φ => congrArg Host.Outcome.next (if_neg hsize))
    show EmitAt _
    simpa [EmitAt, Ending.fits] using hsize

theorem encblk_begins (comp : Fin 4) (dt ac : Fin 2) (blk : Nat) (s : State) :
    (∃ t, exec (.encblk comp dt ac blk) s = .next t ∧ t.stalled = false) ∨ Begins (.encblk comp dt ac blk) s := by
  by_cases hin : s.blockInside blk = false
  · exact .inl ⟨_, congrArg Host.Outcome.next (if_pos hin), rfl⟩
  by_cases hcode : codable comp.val blk s = false
  · exact .inl ⟨_, congrArg Host.Outcome.next ((if_neg hin).trans (if_pos hcode)), rfl⟩
  · exact .inr (.body emitBody emitBody_resumes ([], .codes (blockCodes comp.val dt ac blk s) none)
      (s.setPred comp.val (s.coefAt (64 * blk))) (blockCodes_fits _ _ _ _ _ _)
      fun φ => congrArg Host.Outcome.next ((if_neg hin).trans (if_neg hcode)))

theorem encscan_begins (s : State) : (∃ t, exec .encscan s = .next t ∧ t.stalled = false) ∨ Begins .encscan s := by
  cases hg : s.geometry with
  | none => exact .inl ⟨faultEntry .geom s, by simp only [exec, execEncscan, hg], rfl⟩
  | some g =>
    have hexec (φ : Surroundings → Surroundings) : exec .encscan (s.around φ) = .next
        (if g.mx ≠ s.geo.mcux.toNat ∨ g.my ≠ s.geo.mcuy.toNat ∨ g.n ≠ s.geo.ncoef.toNat then faultEntry .geom (s.around φ)
          else runEmit ([], .codes [] (some 0)) (s.clearPreds.around φ)) := by
      simp only [exec, execEncscan, around_geometry, hg]
      rfl
    by_cases hsame : g.mx ≠ s.geo.mcux.toNat ∨ g.my ≠ s.geo.mcuy.toNat ∨ g.n ≠ s.geo.ncoef.toNat
    · exact .inl ⟨_, (hexec id).trans (congrArg Host.Outcome.next (if_pos hsame)), rfl⟩
    · exact .inr (.body emitBody emitBody_resumes ([], .codes [] (some 0)) s.clearPreds rfl
        fun φ => (hexec φ).trans (congrArg Host.Outcome.next (if_neg hsame)))

theorem decblk_begins (comp : Fin 4) (dt ac : Fin 2) (blk : Nat) (s : State) :
    (∃ t, exec (.decblk comp dt ac blk) s = .next t ∧ t.stalled = false) ∨ Begins (.decblk comp dt ac blk) s := by
  by_cases hin : s.blockInside blk = false
  · exact .inl ⟨_, congrArg Host.Outcome.next (if_pos hin), rfl⟩
  by_cases htable : s.valid.dht.get dt.val = false ∨ s.valid.dht.get (2 + ac.val) = false
  · exact .inl ⟨_, congrArg Host.Outcome.next ((if_neg hin).trans (if_pos htable)), rfl⟩
  · exact .inr (.body decblkBody decblkBody_resumes
      { ctx := { blk := blk, comp := comp, dt := dt, ac := ac }, ff := false, phase := .dcCode 0 0 } (beginBlock blk s) trivial
      fun φ => congrArg Host.Outcome.next ((if_neg hin).trans (if_neg htable)))

theorem decscan_begins {s : State} (hbpm : 0 < s.bpm) :
    (∃ t, exec .decscan s = .next t ∧ t.stalled = false) ∨ Begins .decscan s := by
  by_cases hsos : s.seen.sos = false
  · exact .inl ⟨_, congrArg Host.Outcome.next (if_pos hsos), rfl⟩
  · exact .inr (.body decscanBody decscanBody_resumes (.mcu 0) (scanInit s)
      (lt_of_lt_of_eq hbpm (bpm_congr (s := scanInit s) (t := s) rfl)) fun φ => congrArg Host.Outcome.next (if_neg hsos))

theorem embhdr_begins (s : State) : (∃ t, exec .embhdr s = .next t ∧ t.stalled = false) ∨ Begins .embhdr s := by
  by_cases hk : s.cfg.kMaxEmb < s.f5.k.toNat
  · exact .inl ⟨_, congrArg Host.Outcome.next (if_pos hk), rfl⟩
  by_cases hperm : s.permReady = false
  · exact .inl ⟨_, congrArg Host.Outcome.next ((if_neg hk).trans (if_pos hperm)), rfl⟩
  · exact .inr (.body embhdrBody embhdrBody_resumes [] (embHdrInit s) trivial
      fun φ => congrArg Host.Outcome.next ((if_neg hk).trans (if_neg hperm)))

theorem embpay_begins (s : State) : (∃ t, exec .embpay s = .next t ∧ t.stalled = false) ∨ Begins .embpay s := by
  by_cases hk : s.cfg.kMaxEmb < s.f5.k.toNat
  · exact .inl ⟨_, congrArg Host.Outcome.next (if_pos hk), rfl⟩
  by_cases hperm : s.permReady = false
  · exact .inl ⟨_, congrArg Host.Outcome.next ((if_neg hk).trans (if_pos hperm)), rfl⟩
  · exact .inr (.body embpayBody embpayBody_resumes
      (.embed { popped := 0, hold := none, cur := 0, avail := 0, val := 0, m := 0 }) s ⟨Nat.le_of_not_lt hk, Nat.zero_le 8⟩
      fun φ => congrArg Host.Outcome.next ((if_neg hk).trans (if_neg hperm)))

theorem exthdr_begins (s : State) : (∃ t, exec .exthdr s = .next t ∧ t.stalled = false) ∨ Begins .exthdr s := by
  by_cases hperm : s.permReady = false
  · exact .inl ⟨_, congrArg Host.Outcome.next (if_pos hperm), rfl⟩
  cases hr : readHeader 32 0 0 { s with f5.extBytes := 0 } with | mk o t =>
  have hread (φ : Surroundings → Surroundings) :
      readHeader 32 0 0 { s.around φ with f5.extBytes := 0 } = (o, t.around φ) :=
    (readHeader_around φ { s with f5.extBytes := 0 } 32 0 0).trans (by rw [hr])
  cases o with
  | none =>
    refine .inl ⟨retire { t.warns .incomplete with f5.extLen := 0, f5.extK := 0 }, ?_, rfl⟩
    exact congrArg Host.Outcome.next ((if_neg hperm).trans (by rw [hr]))
  | some h =>
    refine .inr (.body exthdrBody exthdrBody_resumes (BitVec.ofNat 32 h, []) t trivial fun φ => ?_)
    refine congrArg Host.Outcome.next ((if_neg hperm).trans ?_)
    rw [hread]
    rfl

theorem extpay_begins (s : State) : (∃ t, exec .extpay s = .next t ∧ t.stalled = false) ∨ Begins .extpay s := by
  by_cases hperm : s.permReady = false
  · exact .inl ⟨_, congrArg Host.Outcome.next (if_pos hperm), rfl⟩
  by_cases hlen : s.f5.extLen = 0
  · exact .inl ⟨_, congrArg Host.Outcome.next ((if_neg hperm).trans (if_pos hlen)), rfl⟩
  · exact .inr (.body extpayBody extpayBody_resumes { acc := 0, na := 0, h := 0, left := 0, out := none }
      { s with f5.extBytes := 0 } trivial fun φ => congrArg Host.Outcome.next ((if_neg hperm).trans (if_neg hlen)))

/-- Every command begins a body, or ends in the step it begins in. -/
theorem exec_begins (i : Instr) (s : State) (hbpm : i = .decscan → 0 < s.bpm) :
    (∃ t, exec i s = .next t ∧ t.stalled = false) ∨ Begins i s := by
  cases i with
  | nop => exact .inl ⟨_, rfl, rfl⟩
  | mark imm => exact .inl ⟨_, rfl, rfl⟩
  | qtscale q => exact .inl ⟨_, rfl, check_stalled fun _ => divCalc_stalled _⟩
  | divcalc => exact .inl ⟨_, rfl, divCalc_stalled _⟩
  | fdct => exact .inl ⟨_, rfl, rfl⟩
  | quant t blk => exact .inl ⟨_, rfl, check_stalled fun _ => check_stalled fun _ => check_retire_stalled⟩
  | zzfwd blk => exact .inl ⟨_, rfl, check_retire_stalled⟩
  | zzinv blk => exact .inl ⟨_, rfl, check_retire_stalled⟩
  | geom =>
    refine .inl ⟨_, rfl, ?_⟩
    split
    · rfl
    · exact check_retire_stalled
  | blkaddr comp unit mcu => exact .inl ⟨_, rfl, check_retire_stalled⟩
  | coefclr => exact .inl ⟨_, rfl, rfl⟩
  | putbits size code => exact putbits_begins size code s
  | flush =>
    exact .inr (.body emitBody emitBody_resumes (flushBytes s.ctrl.padbit s.packer, .flushed) s rfl fun _ => rfl)
  | emitraw b =>
    by_cases hbits : s.coder.putbits ≠ 0
    · exact .inl ⟨_, congrArg Host.Outcome.next (if_pos hbits), rfl⟩
    · exact .inr (.body emitBody emitBody_resumes ([b], .retire) s rfl fun _ => congrArg Host.Outcome.next (if_neg hbits))
  | predclr => exact .inl ⟨_, rfl, rfl⟩
  | encblk comp dt ac blk => exact encblk_begins comp dt ac blk s
  | encscan => exact encscan_begins s
  | dechdr => exact .inr (.body dechdrBody dechdrBody_resumes .search (hdrInit s) trivial fun _ => rfl)
  | decblk comp dt ac blk => exact decblk_begins comp dt ac blk s
  | decscan => exact decscan_begins (hbpm rfl)
  | permgen => exact .inr (.body permgenBody permgenBody_resumes (0, []) (permInit s) trivial fun _ => rfl)
  | permrd i => exact .inl ⟨_, rfl, check_stalled fun _ => check_retire_stalled⟩
  | curset p => exact .inl ⟨_, rfl, check_stalled fun _ => check_retire_stalled⟩
  | offer count => exact .inl ⟨_, rfl, check_stalled fun _ => check_retire_stalled⟩
  | xbit a => exact .inl ⟨_, rfl, check_retire_stalled⟩
  | capcnt => exact .inl ⟨_, rfl, rfl⟩
  | bstep imm => exact .inl ⟨_, rfl, check_stalled fun _ => check_retire_stalled⟩
  | mstep val => exact .inl ⟨_, rfl, check_stalled fun _ => check_retire_stalled⟩
  | mxtr => exact .inl ⟨_, rfl, check_stalled fun _ => check_retire_stalled⟩
  | embhdr => exact embhdr_begins s
  | embpay => exact embpay_begins s
  | exthdr => exact exthdr_begins s
  | extpay => exact extpay_begins s

end Sys2Proof.Machine

/-! SUPPORT. Where a command that waited comes to, from the body it began (20_memory.md R123, R131). -/

namespace Sys2Proof.Machine

/-! ### Any command -/

/-- No command changes a parameter of the machine. -/
theorem exec_cfg {i : Instr} {s t : State} (h : exec i s = .next t) : t.cfg = s.cfg := by
  obtain ⟨t', h', b, hm, hend⟩ := exec_outcome i s
  cases h.symm.trans h'
  cases hend <;> exact hm.cfg

theorem around_drained {n m : Nat} {s u : State} (h : u.cfg = (s.deepened n m).cfg) :
    u.around (.drained n m) = { u.popped n m with cfg := s.cfg } := by
  simp only [State.around, State.surroundings, Surroundings.drained, Surroundings.outside, State.popped, h, State.deepened,
    Nat.add_sub_cancel, id]

section
variable {i : Instr} {s t : State} {src : StallSrc} {x : Progress}

/-- A command that waits has begun a body. -/
theorem begins_of_stall (hbpm : i = .decscan → 0 < s.bpm) (h : exec i s = .next t) (ht : t.agent = .stall src x) :
    Begins i s := by
  refine (exec_begins i s hbpm).resolve_left fun ⟨t', h', hst⟩ => ?_
  cases h.symm.trans h'
  rw [State.stalled, ht] at hst
  cases hst

theorem Begins.feed (hb : Begins i s) (h : exec i s = .next t) (ht : t.agent = .stall src x) (rng inp payin : List Byte)
    (eos : Bool) : exec i (s.feed rng inp payin eos) = .next (continueCommand x (t.feed rng inp payin eos)) := by
  obtain @⟨π, B, hB, p, u, hl, hruns⟩ := hb
  obtain rfl : t = B.run p u := Host.Outcome.next.inj (h.symm.trans (hruns id))
  exact (hruns (.fed rng inp payin eos)).trans (congrArg Host.Outcome.next (hB.run_fed hl ht rng inp payin eos))

theorem Begins.drain (hb : Begins i s) (h : exec i s = .next t) (ht : t.agent = .stall src x) {n m : Nat} {u : State}
    (hn : n ≤ t.fifo.out.length) (hm : m ≤ t.fifo.payout.length) (hu : exec i (s.deepened n m) = .next u) :
    continueCommand x (t.popped n m) = { u.popped n m with cfg := s.cfg } := by
  rw [← around_drained (exec_cfg hu)]
  obtain @⟨π, B, hB, p, v, hl, hruns⟩ := hb
  obtain rfl : t = B.run p v := Host.Outcome.next.inj (h.symm.trans (hruns id))
  obtain rfl : u = B.run p (v.deepened n m) := Host.Outcome.next.inj (hu.symm.trans (hruns (.deeper n m)))
  exact hB.run_drained hl ht hn hm

end

/-! ### PERMGEN -/

theorem feed_rng {s : State} {rng : List Byte} {eos : Bool} (h : eos = s.fifo.inEos) :
    s.feed rng [] [] eos = { s with fifo.rng := s.fifo.rng ++ rng } := by
  simp only [State.feed, List.append_nil, h]

/-- PERMGEN waits with RNG empty, and leaves the end of the input as it was. -/
theorem permgen_stall {s t : State} {src : StallSrc} {x : Progress} (h : exec .permgen s = .next t) (ht : t.agent = .stall src x) :
    t.fifo.rng = [] ∧ t.fifo.inEos = s.fifo.inEos := by
  obtain rfl : t = permgenBody.run (0, []) (permInit s) := (Host.Outcome.next.inj h).symm
  obtain ⟨q, v, -, hrun, hm, -, hwait, -⟩ := permgenBody_resumes.run_stall trivial ht
  obtain ⟨-, -, hpop⟩ := permgenStep_wait hwait
  rw [hrun]
  refine ⟨?_, hm.inEos⟩
  cases hq : v.fifo.rng with
  | nil => rfl
  | cons b bs => cases (popRng_cons hq).symm.trans hpop

/-- With the bytes `b` more, PERMGEN comes to where it comes from its wait with these bytes. -/
theorem permgen_goes_on {s t : State} {src : StallSrc} {x : Progress} (h : exec .permgen s = .next t)
    (ht : t.agent = .stall src x) (b : List Byte) :
    exec .permgen { s with fifo.rng := s.fifo.rng ++ b } = .next (continueCommand x { t with fifo.rng := b }) := by
  obtain ⟨hrng, heos⟩ := permgen_stall h ht
  have hfed := (begins_of_stall (i := .permgen) nofun h ht).feed h ht b [] [] s.fifo.inEos
  rw [feed_rng rfl, feed_rng heos.symm, hrng] at hfed
  exact hfed

/-! ### The packer, while PUTBITS or FLUSH waits -/

def SamePacker (s t : State) : Prop := t.coder.putbuf = s.coder.putbuf ∧ t.coder.putbits = s.coder.putbits

/-- Where PUTBITS and FLUSH stand: with bytes to push, the packer is still that of `s`. -/
def PackerKept (s : State) (p : List Byte × Ending) (t : State) : Prop :=
  match p.2 with
  | .flushed => SamePacker s t
  | .buffered _ _ [] none => SamePacker s t
  | .codes [_] none => p.1 = [] ∧ SamePacker s t
  | .codes [] none => p.1 = []
  | _ => False

theorem pushOut_samePacker {s t : State} {b : Byte} (h : pushOut b s = some t) : SamePacker s t := by
  unfold pushOut at h
  split at h <;> cases h
  exact ⟨rfl, rfl⟩

theorem SamePacker.trans {s t u : State} (h : SamePacker s t) (k : SamePacker t u) : SamePacker s u :=
  ⟨k.1.trans h.1, k.2.trans h.2⟩

/-- While bytes are to be pushed the packer is not yet written, and a byte pushed changes nothing in this. -/
theorem PackerKept.pushing {s t : State} {b : Byte} {bs : List Byte} {e : Ending} (h : PackerKept s (b :: bs, e) t) :
    SamePacker s t ∧ ∀ u, SamePacker s u → PackerKept s (bs, e) u := by
  match e, h with
  | .flushed, h => exact ⟨h, fun _ k => k⟩
  | .buffered _ _ [] none, h => exact ⟨h, fun _ k => k⟩
  | .codes [_] none, h => cases h.1
  | .codes [] none, h => cases h

theorem PackerKept.go {s t u : State} {p q : List Byte × Ending} (h : PackerKept s p t) (hgo : emitStep p t = .go q u) :
    PackerKept s q u := by
  obtain ⟨bytes, e⟩ := p
  cases bytes with
  | nil =>
    match e, h with
    | .flushed, _ => cases hgo
    | .buffered _ _ [] none, _ =>
      cases hgo
      exact rfl
    | .codes [_] none, h =>
      cases hgo
      exact h.2
    | .codes [] none, _ => cases hgo
  | cons b bs =>
    simp only [emitStep] at hgo
    split at hgo <;> cases hgo
    rename_i hpush
    exact h.pushing.2 _ (h.pushing.1.trans (pushOut_samePacker hpush))

theorem PackerKept.reaches {s t u : State} {p q : List Byte × Ending} (h : PackerKept s p t) (hr : emitBody.Reaches p t q u) :
    PackerKept s q u := by
  induction hr with
  | refl => exact h
  | step hgo _ ih => exact ih (h.go hgo)

theorem PackerKept.wait {s t : State} {p : List Byte × Ending} {src : StallSrc} (h : PackerKept s p t)
    (hw : emitStep p t = .wait src p t) : SamePacker s t := by
  obtain ⟨bytes, e⟩ := p
  cases bytes with
  | cons b bs => exact h.pushing.1
  | nil =>
    match e, h with
    | .flushed, h => exact h
    | .buffered _ _ [] none, h => exact h
    | .codes [_] none, h => exact h.2
    | .codes [] none, _ => cases hw

theorem runEmit_stall_samePacker {s : State} {p : List Byte × Ending} {src : StallSrc} {x : Progress} (h : PackerKept s p s)
    (ht : (runEmit p s).agent = .stall src x) : SamePacker s (runEmit p s) := by
  obtain ⟨q, v, hr, hwait, -, hrun⟩ := emitBody_resumes.drive_stall ht
  rw [show runEmit p s = _ from hrun]
  exact (h.reaches hr).wait hwait

theorem packer_of_stall {i : Instr} {s t : State} {src : StallSrc} {x : Progress} (hi : i.op ∈ [Op.putbits, .flush])
    (h : exec i s = .next t) (ht : t.agent = .stall src x) : SamePacker s t := by
  match i, hi with
  | .flush, _ =>
    obtain rfl : t = runEmit (flushBytes s.ctrl.padbit s.packer, .flushed) s := (Host.Outcome.next.inj h).symm
    exact runEmit_stall_samePacker (p := (_, .flushed)) ⟨rfl, rfl⟩ ht
  | .putbits size code, _ =>
    obtain rfl : t = _ := (Host.Outcome.next.inj h).symm
    split at ht
    · cases ht
    · rw [if_neg ‹_›]
      exact runEmit_stall_samePacker (p := ([], .codes [_] none)) ⟨rfl, rfl, rfl⟩ ht

end Sys2Proof.Machine

namespace Sys2Proof

open Machine

/-- Settles O46. A command that waits has begun a body (`Begins`), and the body begun is the same with other bytes in the FIFOs and with
deeper ones; every body, from where it waited, comes to where it would have come without the wait (`Body.Resumes`). -/
theorem permgenResumesWhereItWaited : Obligations.PermgenResumesWhereItWaited := by
  refine ⟨fun s t a b x h ht => ?_, fun i s t src x hbpm h ht => ?_⟩
  · exact ⟨(permgen_stall h ht).1, permgen_goes_on h ht b⟩
  · have hb := begins_of_stall hbpm h ht
    exact ⟨fun _ => hb.feed h ht, fun _ _ _ _ hn hm hu => hb.drain h ht hn hm hu, fun hi => packer_of_stall hi h ht⟩

end Sys2Proof

/-! SUPPORT. Command words (30_encoding.md R140 to R153). What `decode` answers is said once for each of its three outcomes, with the
reserved bits as fields of the word (`Format.RsvdSet`); the operands of a word and the word of the operands are inverse on
bits 23:0. -/

namespace Sys2Proof

/-! ### The opcode map (R152) -/

theorem opcodeOf_eq (w : Word) : opcodeOf w = w.toNat / 2 ^ 24 :=
  Nat.mod_eq_of_lt (Nat.div_lt_of_lt_mul w.isLt)

theorem opOfCode_code (o : Op) : opOfCode o.code = some o := by cases o <;> rfl

/-- The opcodes of the rows of one format. -/
def opcodesOf (f : Format) : List Nat := (allOps.filter (fun o => o.format = f)).map Op.code

theorem mem_opcodesOf {f : Format} {c : Nat} : c ∈ opcodesOf f ↔ ∃ o : Op, o.format = f ∧ o.code = c := by
  simp [opcodesOf, mem_allOps]

/-! ### Reserved bits (R142 to R149) -/

/-- A reserved field of the format is not 0, by the bit ranges of the format tables. -/
def Format.RsvdSet (w : Word) : Format → Prop
  | .f0 => fieldAt w 0 24 ≠ 0
  | .fi24 => False
  | .fi8 => fieldAt w 8 16 ≠ 0
  | .fq => fieldAt w 22 2 ≠ 0 ∨ fieldAt w 18 3 ≠ 0
  | .fblk => fieldAt w 18 6 ≠ 0
  | .fa => False
  | .fpb => fieldAt w 21 3 ≠ 0
  | .fh => fieldAt w 18 2 ≠ 0

/-- A mask of `n` ones from bit `lo` on tests the field of those bits. -/
theorem and_mask_eq_zero_iff (w : Word) (lo n : Nat) : w.toNat &&& (2 ^ n - 1) * 2 ^ lo = 0 ↔ fieldAt w lo n = 0 := by
  have hlow : (w.toNat &&& (2 ^ n - 1) * 2 ^ lo) % 2 ^ lo = 0 := by simp [Nat.and_mod_two_pow]
  have hhigh : (w.toNat &&& (2 ^ n - 1) * 2 ^ lo) / 2 ^ lo = fieldAt w lo n := by
    rw [Nat.and_div_two_pow, Nat.mul_div_cancel _ (Nat.two_pow_pos lo), Nat.and_two_pow_sub_one_eq_mod, fieldAt]
  rw [← hhigh]
  exact ⟨fun h => by rw [h, Nat.zero_div], fun h => by rw [← Nat.div_add_mod (_ &&& _) (2 ^ lo), h, hlow, Nat.mul_zero]⟩

theorem and_rsvdMask_ne_zero_iff (f : Format) (w : Word) : w.toNat &&& f.rsvdMask ≠ 0 ↔ f.RsvdSet w := by
  cases f with
  | fi24 | fa => simp [Format.rsvdMask, Format.RsvdSet]
  | f0 => exact not_congr (and_mask_eq_zero_iff w 0 24)
  | fi8 => exact not_congr (and_mask_eq_zero_iff w 8 16)
  | fblk => exact not_congr (and_mask_eq_zero_iff w 18 6)
  | fpb => exact not_congr (and_mask_eq_zero_iff w 21 3)
  | fh => exact not_congr (and_mask_eq_zero_iff w 18 2)
  | fq =>
    have hmask : Format.fq.rsvdMask = (2 ^ 2 - 1) * 2 ^ 22 ||| (2 ^ 3 - 1) * 2 ^ 18 := by decide
    rw [hmask, Nat.and_or_distrib_left, Ne, Nat.or_eq_zero_iff, and_mask_eq_zero_iff, and_mask_eq_zero_iff, not_and_or]
    rfl

theorem exists_format {p : Format → Prop} :
    (∃ f, p f) ↔ p .f0 ∨ p .fi24 ∨ p .fi8 ∨ p .fq ∨ p .fblk ∨ p .fa ∨ p .fpb ∨ p .fh := by
  constructor
  · rintro ⟨f, hf⟩
    cases f <;> simp only [hf, true_or, or_true]
  · rintro (h | h | h | h | h | h | h | h) <;> exact ⟨_, h⟩

theorem exists_row_rsvdSet_iff (w : Word) :
    (∃ o : Op, o.code = opcodeOf w ∧ o.format.RsvdSet w) ↔ ∃ f : Format, opcodeOf w ∈ opcodesOf f ∧ f.RsvdSet w := by
  constructor
  · rintro ⟨o, hc, hr⟩
    exact ⟨_, mem_opcodesOf.2 ⟨o, rfl, hc⟩, hr⟩
  · rintro ⟨f, hf, hr⟩
    obtain ⟨o, rfl, hc⟩ := mem_opcodesOf.1 hf
    exact ⟨o, hc, hr⟩

/-! ### The three outcomes of decoding (R141) -/

theorem decode_illegal {w : Word} (h : ∀ o : Op, o.code ≠ opcodeOf w) : decode w = .error .illegal := by
  have hnone : opOfCode (opcodeOf w) = none := List.find?_eq_none.2 fun o _ => by simpa using h o
  simp only [decode, hnone]

theorem decode_rsvd {w : Word} {o : Op} (hc : o.code = opcodeOf w) (hr : o.format.RsvdSet w) : decode w = .error .rsvd := by
  simp only [decode, ← hc, opOfCode_code, if_pos ((and_rsvdMask_ne_zero_iff _ _).2 hr)]

theorem decode_ok {w : Word} {o : Op} (hc : o.code = opcodeOf w) (hr : ¬o.format.RsvdSet w) :
    decode w = .ok (o.operands w) := by
  simp only [decode, ← hc, opOfCode_code, if_neg (mt (and_rsvdMask_ne_zero_iff _ _).1 hr)]

theorem row_of_decode {w : Word} {i : Instr} (h : decode w = .ok i) :
    ∃ o : Op, o.code = opcodeOf w ∧ ¬o.format.RsvdSet w ∧ o.operands w = i := by
  by_cases hmap : ∃ o : Op, o.code = opcodeOf w
  · obtain ⟨o, hc⟩ := hmap
    by_cases hr : o.format.RsvdSet w
    · simp [decode_rsvd hc hr] at h
    · exact ⟨o, hc, hr, by simpa [decode_ok hc hr] using h⟩
  · simp [decode_illegal (not_exists.1 hmap)] at h

/-! ### The operands of a word -/

theorem fitsField_fieldAt (w : Word) (lo n : Nat) : fitsField n (fieldAt w lo n) = true :=
  decide_eq_true (Nat.mod_lt _ (Nat.two_pow_pos n))

theorem op_operands (o : Op) (w : Word) : (o.operands w).op = o := by cases o <;> rfl

theorem operands_wellFormed (o : Op) (w : Word) : (o.operands w).wellFormed = true := by
  cases o <;> simp only [Op.operands, Instr.wellFormed, fitsField_fieldAt, Bool.and_self]

/-- No bit is dropped: where the reserved fields are 0, the operands hold bits 23:0 of the word. -/
theorem operandBits_operands {o : Op} {w : Word} (h : ¬o.format.RsvdSet w) : (o.operands w).operandBits = fieldAt w 0 24 := by
  cases o with
  | nop | divcalc | fdct | geom | coefclr | flush | predclr | encscan | dechdr | decscan
  | permgen | capcnt | mxtr | embhdr | embpay | exthdr | extpay => exact (not_not.1 h).symm
  | permrd | curset | xbit | mstep => rfl
  | mark => simp [Op.operands, Instr.operandBits, fieldAt]
  | qtscale | emitraw | offer | bstep | quant | zzfwd | zzinv | blkaddr | putbits | encblk | decblk =>
    simp only [Op.format, Format.RsvdSet, fieldAt] at h
    simp only [Op.operands, Instr.operandBits, fieldAt, selAt, compAt, BitVec.toNat_ofNat]
    omega

/-! ### The word of an instruction -/

open Laws.EncodingShape in
theorem encode_shape : (i : Instr) → Statement i
  | .nop => nop
  | .mark imm => mark imm
  | .qtscale q => qtscale q
  | .divcalc => divcalc
  | .fdct => fdct
  | .quant t blk => quant t blk
  | .zzfwd blk => zzfwd blk
  | .zzinv blk => zzinv blk
  | .geom => geom
  | .blkaddr comp unit mcu => blkaddr comp unit mcu
  | .coefclr => coefclr
  | .putbits size code => putbits size code
  | .flush => flush
  | .emitraw b => emitraw b
  | .predclr => predclr
  | .encblk comp dt ac blk => encblk comp dt ac blk
  | .encscan => encscan
  | .dechdr => dechdr
  | .decblk comp dt ac blk => decblk comp dt ac blk
  | .decscan => decscan
  | .permgen => permgen
  | .permrd n => permrd n
  | .curset p => curset p
  | .offer count => offer count
  | .xbit a => xbit a
  | .capcnt => capcnt
  | .bstep imm => bstep imm
  | .mstep val => mstep val
  | .mxtr => mxtr
  | .embhdr => embhdr
  | .embpay => embpay
  | .exthdr => exthdr
  | .extpay => extpay

theorem opcodeOf_encode {i : Instr} (h : i.wellFormed = true) : opcodeOf (encode i) = i.op.code := by
  obtain ⟨hbits, hword⟩ := encode_shape i h
  have hcode := Laws.EncodingShape.code_lt i.op
  rw [opcodeOf, fieldAt, hword]
  omega

/-- The opcode is above every operand field. -/
theorem fieldAt_encode {i : Instr} (h : i.wellFormed = true) {lo n : Nat} (hfit : lo + n ≤ 24) :
    fieldAt (encode i) lo n = i.operandBits / 2 ^ lo % 2 ^ n := by
  obtain ⟨k, hk⟩ := Nat.exists_eq_add_of_le hfit
  have hcode : i.op.code * 2 ^ 24 = 2 ^ lo * (2 ^ n * (2 ^ k * i.op.code)) := by rw [hk]; ring
  rw [fieldAt, (encode_shape i h).2, hcode, Nat.mul_add_div (Nat.two_pow_pos lo), Nat.mul_add_mod]

theorem not_rsvdSet_encode {i : Instr} (h : i.wellFormed = true) : ¬i.op.format.RsvdSet (encode i) := by
  have field {lo n : Nat} (hfit : lo + n ≤ 24) := fieldAt_encode h hfit
  cases i with
  | nop | divcalc | fdct | geom | coefclr | flush | predclr | encscan | dechdr | decscan
  | permgen | capcnt | mxtr | embhdr | embpay | exthdr | extpay => exact not_not.2 (field (by decide))
  | mark | permrd | curset | xbit | mstep | blkaddr => exact not_false
  | emitraw v | bstep v =>
    have hv := v.isLt
    simp (disch := decide) only [Instr.op, Op.format, Format.RsvdSet, field, Instr.operandBits]
    omega
  | putbits size code =>
    have hcode := code.isLt
    simp only [Instr.wellFormed, fitsField, decide_eq_true_eq] at h
    simp (disch := decide) only [Instr.op, Op.format, Format.RsvdSet, field, Instr.operandBits]
    omega
  | qtscale | offer | quant | zzfwd | zzinv | encblk | decblk =>
    simp only [Instr.wellFormed, fitsField, decide_eq_true_eq] at h
    simp (disch := decide) only [Instr.op, Op.format, Format.RsvdSet, field, Instr.operandBits]
    omega

theorem operands_encode {i : Instr} (h : i.wellFormed = true) : i.op.operands (encode i) = i := by
  have field {lo n : Nat} (hfit : lo + n ≤ 24) := fieldAt_encode h hfit
  cases i with
  | nop | divcalc | fdct | geom | coefclr | flush | predclr | encscan | dechdr | decscan
  | permgen | capcnt | mxtr | embhdr | embpay | exthdr | extpay => rfl
  | mark v | emitraw v | bstep v =>
    simp (disch := decide) only [Instr.op, Op.operands, field, Instr.operandBits, pow_zero, Nat.div_one,
      Nat.mod_eq_of_lt v.isLt, BitVec.ofNat_toNat, BitVec.setWidth_eq]
  | qtscale | permrd | curset | offer | xbit | mstep | zzfwd | zzinv =>
    simp only [Instr.wellFormed, fitsField, decide_eq_true_eq] at h
    simp (disch := decide) only [Instr.op, Op.operands, field, Instr.operandBits, pow_zero, Nat.div_one, Nat.mod_eq_of_lt h]
  | putbits size code =>
    have hcode := code.isLt
    simp only [Instr.wellFormed, fitsField, decide_eq_true_eq] at h
    simp (disch := decide) only [Instr.op, Op.operands, field, Instr.operandBits, Instr.putbits.injEq, ← BitVec.toNat_inj,
      BitVec.toNat_ofNat]
    omega
  | quant | blkaddr | encblk | decblk =>
    simp only [Instr.wellFormed, fitsField, Bool.and_eq_true, decide_eq_true_eq] at h
    simp (disch := decide) only [Instr.op, Op.operands, selAt, compAt, field, Instr.operandBits, Instr.quant.injEq,
      Instr.blkaddr.injEq, Instr.encblk.injEq, Instr.decblk.injEq, Fin.ext_iff]
    omega

theorem decode_encode {i : Instr} (h : i.wellFormed = true) : decode (encode i) = .ok i := by
  rw [decode_ok (opcodeOf_encode h).symm (not_rsvdSet_encode h), operands_encode h]

theorem encode_operands {o : Op} {w : Word} (hc : o.code = opcodeOf w) (hr : ¬o.format.RsvdSet w) :
    encode (o.operands w) = w := by
  refine BitVec.eq_of_toNat_eq ?_
  have hw := w.isLt
  rw [(encode_shape _ (operands_wellFormed o w)).2, op_operands, operandBits_operands hr, hc, opcodeOf, fieldAt, fieldAt]
  omega

end Sys2Proof

namespace Sys2Proof.Machine

/-! ### Steps that begin a command -/

theorem settle_faultEntry (c : FaultCode) (s : State) : settle (faultEntry c s) = faultEntry c s :=
  settle_eq_self nofun

section
variable {s : State} (ha : s.agent = .exec .start) (hh : s.host = [])
include ha hh

theorem step_eq_beginCommand : step s = settleOut (beginCommand s) := by
  simp only [step, agentStep, hh, coreStep, coreMove, ha]

theorem step_of_fault {c : FaultCode} (hb : beginCommand s = .next (faultEntry c s)) : step s = .next (faultEntry c s) := by
  rw [step_eq_beginCommand ha hh, hb]
  exact congrArg _ (settle_faultEntry c s)

theorem step_of_decode {i : Instr} (hd : decode s.cur = .ok i) : ∃ t, exec i s = .next t ∧ step s = .next (settle t) := by
  obtain ⟨t, ht, -⟩ := exec_outcome i s
  refine ⟨t, ht, ?_⟩
  rw [step_eq_beginCommand ha hh, beginCommand, hd]
  simp only [ht, settleOut]

end

end Sys2Proof.Machine

namespace Sys2Proof

open Machine

/-- Settles O1: each word has its row's opcode and no reserved bit; `decode` is evaluated on it. -/
theorem specExampleWordsDecode : Obligations.SpecExampleWordsDecode := by
  unfold Obligations.SpecExampleWordsDecode
  decide

/-- Settles O2: the opcode and the fields of an encoded instruction are its own, and its reserved fields are 0. -/
theorem decodeInvertsEncode : Obligations.DecodeInvertsEncode := fun _ => decode_encode

/-- Settles O3: the operands of a word fit their fields, and where no reserved bit is set they keep every bit of 23:0. -/
theorem encodeInvertsDecode : Obligations.EncodeInvertsDecode := by
  intro w i h
  obtain ⟨o, hc, hr, rfl⟩ := row_of_decode h
  exact ⟨operands_wellFormed o w, encode_operands hc hr⟩

/-- Settles O4: the lists of the statement are the opcodes of the map, by format, and its fields the reserved ones; `decode` answers
ILLEGAL, RSVD or a command accordingly, and no dequeue follows a fault. -/
theorem wordsThatAreNoCommandFault : Obligations.WordsThatAreNoCommandFault := by
  unfold Obligations.WordsThatAreNoCommandFault
  intro f0 fi24 fi8 others s ha hh w opc reserved
  have hopc : opcodeOf s.cur = opc := opcodeOf_eq s.cur
  have hmap : opc ∈ f0 ++ fi24 ++ fi8 ++ others ↔ ∃ o : Op, o.code = opcodeOf s.cur := by
    have hperm : (f0 ++ fi24 ++ fi8 ++ others).Perm (allOps.map Op.code) := by decide
    simp only [hperm.mem_iff, hopc, List.mem_map, mem_allOps, true_and]
  have hrsvd : reserved ↔ ∃ o : Op, o.code = opcodeOf s.cur ∧ o.format.RsvdSet s.cur := by
    have hf0 : opcodesOf .f0 = f0 := by decide
    have hfi8 : opcodesOf .fi8 = fi8 := by decide
    have hfq : opcodesOf .fq = [0x13] := by decide
    have hfblk : opcodesOf .fblk = [0x18, 0x19] := by decide
    have hfpb : opcodesOf .fpb = [0x20] := by decide
    have hfh : opcodesOf .fh = [0x24, 0x31] := by decide
    rw [exists_row_rsvdSet_iff, exists_format, hopc, hf0, hfi8, hfq, hfblk, hfpb, hfh]
    simp only [Format.RsvdSet, and_false, false_or, fieldAt, pow_zero, Nat.div_one, List.mem_cons, List.not_mem_nil, or_false]
    exact Iff.rfl
  refine ⟨fun hc => ?_, fun hr => ?_, fun hc hr => ?_⟩
  · have hd := decode_illegal (not_exists.1 (mt hmap.2 hc))
    exact step_of_fault ha hh (by rw [beginCommand, hd])
  · obtain ⟨o, ho, hset⟩ := hrsvd.1 hr
    exact step_of_fault ha hh (by rw [beginCommand, decode_rsvd ho hset])
  · obtain ⟨o, ho⟩ := hmap.1 hc
    have hd := decode_ok ho fun hset => hr (hrsvd.2 ⟨o, ho, hset⟩)
    obtain ⟨t, hstep⟩ := step_of_decode ha hh hd
    exact ⟨_, t, hd, hstep⟩

end Sys2Proof

/-! SUPPORT. A command waits exactly on a FIFO that cannot serve it (20_memory.md R123, R124): said of the FIFO accesses, of the moves of
each body, of a run, and of every command. -/

namespace Sys2Proof.Machine

/-- The FIFO of a wait cannot serve the core: an input FIFO is empty, with more input to come for IN, or an output FIFO is full. -/
def State.Blocks (s : State) : StallSrc → Prop
  | .rng => s.fifo.rng = []
  | .inp => s.fifo.inp = [] ∧ s.fifo.inEos = false
  | .payin => s.fifo.payin = []
  | .out => s.cfg.outqDepth ≤ s.fifo.out.length
  | .payout => s.cfg.payoutqDepth ≤ s.fifo.payout.length

/-- If the core waits, it waits on a FIFO that cannot serve it. -/
def State.WaitBlocked (s : State) : Prop := ∀ src p, s.agent = .stall src p → s.Blocks src

/-- If the move waits, it waits on a FIFO that cannot serve it. -/
def BodyStep.WaitBlocked {π : Type} : BodyStep π → Prop
  | .wait src _ t => t.Blocks src
  | _ => True

theorem BodyStep.proceeds.waitBlocked {π : Type} {r : BodyStep π} (h : r.proceeds) : r.WaitBlocked := by
  cases r with
  | wait src p t => exact h.elim
  | go p t => trivial
  | done t => trivial
  | raise c t => trivial

/-! ### The FIFO accesses -/

section
variable {s : State} {b : Byte}

theorem popRng_blocked (h : popRng s = none) : s.Blocks .rng := by
  cases hq : s.fifo.rng with
  | nil => exact hq
  | cons b q => cases (popRng_cons hq).symm.trans h

theorem popPayin_blocked (h : popPayin s = none) : s.Blocks .payin := by
  cases hq : s.fifo.payin with
  | nil => exact hq
  | cons b q => cases (popPayin_cons hq).symm.trans h

theorem readIn_blocked (h : readIn s = .wait) : s.Blocks .inp := by
  cases hq : s.fifo.inp with
  | nil => exact ⟨hq, readIn_wait h⟩
  | cons b q => cases (readIn_cons hq).symm.trans h

theorem pushOut_blocked (h : pushOut b s = none) : s.Blocks .out := by
  refine Nat.le_of_not_lt fun hroom => ?_
  rw [pushOut, if_pos hroom] at h
  cases h

theorem pushPayout_blocked (h : pushPayout b s = none) : s.Blocks .payout := by
  refine Nat.le_of_not_lt fun hroom => ?_
  rw [pushPayout, if_pos hroom] at h
  cases h

/-! ### The readers of the decoder -/

theorem bitStep_blocked {ff : Bool} (h : bitStep ff s = .wait) : s.Blocks .inp := by
  unfold bitStep at h
  split at h
  · cases h
  split at h
  · cases h
  · cases h
  split at h
  · rename_i hread
    exact readIn_blocked hread
  · cases h
  iterate 3
    split at h
    · cases h
  cases h

/-- DecodeBlock waits for a bit, and not for what the bit brings. -/
theorem blkStep_blocked {c : BlkCtx} {ff : Bool} {p : BlkPhase} (h : blkStep c ff p s = .wait) : s.Blocks .inp := by
  unfold blkStep at h
  split at h
  · rename_i hbit
    exact bitStep_blocked hbit
  · cases h
  · cases h
  · rename_i b t _
    have hafter := blkBit_afterBit c b p t
    rw [h] at hafter
    exact hafter.elim

theorem markStep_blocked {ff : Bool} (h : markStep ff s = .wait) : s.Blocks .inp := by
  unfold markStep at h
  split at h
  · cases h
  · cases h
  split at h
  · rename_i hread
    exact readIn_blocked hread
  · cases h
  iterate 3
    split at h
    · cases h
  cases h

end

/-! ### The moves of the bodies -/

theorem emitNext_proceeds (e : Ending) (s : State) : (emitNext e s).proceeds := by
  match e with
  | .codes [] (some b) =>
    simp only [emitNext, scanNext]
    split
    · trivial
    split <;> trivial
  | .retire | .flushed | .buffered .. | .codes (_ :: _) _ | .codes [] none => trivial

theorem emitStep_waitBlocked (p : List Byte × Ending) (s : State) : (emitStep p s).WaitBlocked := by
  obtain ⟨bytes, e⟩ := p
  cases bytes with
  | nil => exact (emitNext_proceeds e s).waitBlocked
  | cons b bs =>
    simp only [emitStep]
    split
    · rename_i hpush
      exact pushOut_blocked hpush
    · trivial

theorem permgenStep_waitBlocked (p : Nat × List Byte) (s : State) : (permgenStep p s).WaitBlocked := by
  simp only [permgenStep]
  split
  · trivial
  split
  · rename_i hpop
    exact popRng_blocked hpop
  · split <;> trivial

theorem embHdrStep_waitBlocked (got : List Byte) (s : State) : (embHdrStep got s).WaitBlocked := by
  unfold embHdrStep
  split
  · rename_i hpop
    exact popRng_blocked hpop
  · split <;> trivial

theorem extHdrStep_waitBlocked (p : Word × List Byte) (s : State) : (extHdrStep p s).WaitBlocked := by
  simp only [extHdrStep]
  split
  · rename_i hpop
    exact popRng_blocked hpop
  · split <;> trivial

theorem embpayStep_waitBlocked (p : EmbpayAt) (s : State) : (embpayStep p s).WaitBlocked := by
  cases p with
  | embed c =>
    simp only [embpayStep]
    split
    · split <;> trivial
    split
    · trivial
    split
    · split
      · rename_i hpop
        exact popRng_blocked hpop
      · trivial
    split
    · trivial
    split
    · rename_i hpop
      exact popPayin_blocked hpop
    · trivial
  | drain n =>
    simp only [embpayStep]
    split
    · trivial
    split
    · rename_i hpop
      exact popPayin_blocked hpop
    · trivial

theorem extpayStep_waitBlocked (c : ExtCtx) (s : State) : (extpayStep c s).WaitBlocked := by
  simp only [extpayStep]
  split
  · split
    · rename_i hpush
      exact pushPayout_blocked hpush
    · split <;> trivial
  split
  · split
    · rename_i hpop
      exact popRng_blocked hpop
    · trivial
  split
  · trivial
  · split <;> trivial

theorem hdrStep_waitBlocked (p : HdrPhase) (s : State) : (hdrStep p s).WaitBlocked := by
  unfold hdrStep
  split
  · rename_i hread
    exact readIn_blocked hread
  · trivial
  · exact (hdrByte_proceeds _ _ _).waitBlocked

theorem decblkStep_waitBlocked (p : DecblkAt) (s : State) : (decblkStep p s).WaitBlocked := by
  unfold decblkStep
  split
  · trivial
  · rename_i hblk
    exact blkStep_blocked hblk
  · trivial

theorem scanStep_waitBlocked (p : ScanPhase) (s : State) : (scanStep p s).WaitBlocked := by
  cases p with
  | mcu m =>
    simp only [scanStep]
    split
    · trivial
    split <;> trivial
  | restart m ff =>
    simp only [scanStep]
    split
    · trivial
    · rename_i hmark
      exact markStep_blocked hmark
    · trivial
  | block m j =>
    simp only [scanStep]
    split <;> trivial
  | bits m j ff p =>
    simp only [scanStep]
    split
    · trivial
    · rename_i hblk
      exact blkStep_blocked hblk
    · trivial
    · trivial
    · trivial
  | tail ff =>
    simp only [scanStep]
    split
    · trivial
    · rename_i hmark
      exact markStep_blocked hmark
    · trivial

/-! ### Runs and commands -/

/-- A run of moves that wait on FIFOs that cannot serve them waits on such a FIFO. -/
theorem drive_waitBlocked {π : Type} {emb : π → Progress} {adv : π → State → BodyStep π}
    (h : ∀ p s, (adv p s).WaitBlocked) (n : Nat) (p : π) (s : State) : (drive emb adv n p s).WaitBlocked := by
  induction n generalizing p s with
  | zero => exact nofun
  | succ n ih =>
    have hmove := h p s
    simp only [drive]
    cases hs : adv p s with
    | go q t => exact ih q t
    | wait src q t =>
      rw [hs] at hmove
      rintro _ _ ⟨⟩
      exact hmove
    | done t => exact nofun
    | raise c t => exact nofun

theorem State.WaitBlocked.retire (s : State) : (Machine.retire s).WaitBlocked := nofun

theorem State.WaitBlocked.fault (c : FaultCode) (s : State) : (faultEntry c s).WaitBlocked := nofun

theorem State.WaitBlocked.ite {c : Prop} [Decidable c] {a b : State} (ha : a.WaitBlocked) (hb : b.WaitBlocked) :
    (if c then a else b).WaitBlocked := by
  split
  · exact ha
  · exact hb

/-- An operand check before the rest of a command. -/
theorem State.WaitBlocked.check {c : Prop} [Decidable c] {f : FaultCode} {s t : State} (h : t.WaitBlocked) :
    (if c then faultEntry f s else t).WaitBlocked :=
  .ite (.fault _ _) h

theorem exec_waitBlocked (i : Instr) (s : State) : ∃ t, exec i s = .next t ∧ t.WaitBlocked := by
  cases i with
  | nop | mark | fdct | coefclr | predclr | capcnt => exact ⟨_, rfl, .retire _⟩
  | divcalc | zzfwd | zzinv | blkaddr | xbit => exact ⟨_, rfl, .check (.retire _)⟩
  | qtscale | permrd | curset | offer | bstep | mstep | mxtr => exact ⟨_, rfl, .check (.check (.retire _))⟩
  | quant => exact ⟨_, rfl, .check (.check (.check (.retire _)))⟩
  | geom =>
    refine ⟨_, rfl, ?_⟩
    split
    · exact .fault _ _
    · exact .check (.retire _)
  | flush => exact ⟨_, rfl, drive_waitBlocked emitStep_waitBlocked _ _ _⟩
  | putbits | emitraw => exact ⟨_, rfl, .check (drive_waitBlocked emitStep_waitBlocked _ _ _)⟩
  | encblk => exact ⟨_, rfl, .check (.check (drive_waitBlocked emitStep_waitBlocked _ _ _))⟩
  | encscan =>
    refine ⟨_, rfl, ?_⟩
    split
    · exact .fault _ _
    · exact .check (drive_waitBlocked emitStep_waitBlocked _ _ _)
  | dechdr => exact ⟨_, rfl, drive_waitBlocked hdrStep_waitBlocked _ _ _⟩
  | decblk => exact ⟨_, rfl, .check (.ite (.retire _) (drive_waitBlocked decblkStep_waitBlocked _ _ _))⟩
  | decscan => exact ⟨_, rfl, .ite (.retire _) (drive_waitBlocked scanStep_waitBlocked _ _ _)⟩
  | permgen => exact ⟨_, rfl, drive_waitBlocked permgenStep_waitBlocked _ _ _⟩
  | embhdr => exact ⟨_, rfl, .check (.check (drive_waitBlocked embHdrStep_waitBlocked _ _ _))⟩
  | embpay => exact ⟨_, rfl, .check (.check (drive_waitBlocked embpayStep_waitBlocked _ _ _))⟩
  | exthdr =>
    refine ⟨_, rfl, .check ?_⟩
    split
    · exact .retire _
    · exact drive_waitBlocked extHdrStep_waitBlocked _ _ _
  | extpay => exact ⟨_, rfl, .check (.ite (.retire _) (drive_waitBlocked extpayStep_waitBlocked _ _ _))⟩

end Sys2Proof.Machine

/-! SUPPORT. The core's step on a dequeued word, whoever let it move, and the dequeue that follows (40_control.md R182,
20_memory.md R120). -/

namespace Sys2Proof.Machine

theorem settle_dequeues {t : State} {w : Word} {q : List Word} (ha : t.agent = .idle) (hq : t.fifo.cmd = w :: q) :
    settle t = { t with fifo.cmd := q, cur := w, agent := .exec .start } := by
  simp only [settle, ha, hq]

theorem coreStep_of_decode {s : State} {i : Instr} (ha : s.agent = .exec .start) (hd : decode s.cur = .ok i) :
    coreStep s = settleOut (exec i s) := by
  simp only [coreStep, coreMove, ha, beginCommand, hd]

/-- The host's `yield` is consumed, and the core moves. -/
theorem step_of_yield {s : State} {h : List HostMove} (hh : s.host = .yield :: h) : step s = coreStep { s with host := h } := by
  simp only [step, agentStep, hh]

theorem step_of_yield_decode {s : State} {i : Instr} {h : List HostMove} (ha : s.agent = .exec .start)
    (hd : decode s.cur = .ok i) (hh : s.host = .yield :: h) :
    ∃ t, exec i { s with host := h } = .next t ∧ step s = .next (settle t) := by
  obtain ⟨t, ht, -⟩ := exec_outcome i { s with host := h }
  refine ⟨t, ht, ?_⟩
  rw [step_of_yield hh, coreStep_of_decode (s := { s with host := h }) ha hd, ht, settleOut]

end Sys2Proof.Machine

namespace Sys2Proof

open Machine

/-- Settles O6: a command ends as some move of its body ends, and a move that waits finds its FIFO unable to serve it. -/
theorem commandsEndInOneOfTheSpecsWays : Obligations.CommandsEndInOneOfTheSpecsWays := by
  intro i s
  obtain ⟨t, ht, b, hm, hend⟩ := exec_outcome i s
  obtain ⟨t', ht', hblocked⟩ := exec_waitBlocked i s
  obtain rfl : t = t' := Host.Outcome.next.inj (ht.symm.trans ht')
  refine ⟨t, ht, ?_, fun src p hstall => ?_⟩
  · cases hend with
    | retired => exact .inl ⟨rfl, by rw [retire_cmdcnt, hm.cmdcnt], hm.fcmd, hm.fpc, hm.cmd⟩
    | faulted c => exact .inr (.inl ⟨c, rfl, hm.cmdcnt, hm.cur, hm.cmdcnt, rfl⟩)
    | waits src p => exact .inr (.inr (.inl ⟨⟨src, p, rfl⟩, hm.cmdcnt, hm.fcmd, hm.fpc, hm.cmd⟩))
    | pauses p => exact .inr (.inr (.inr ⟨⟨p, rfl⟩, hm.cmdcnt, hm.fcmd, hm.fpc, hm.cmd⟩))
  · have hb := hblocked src p hstall
    cases src <;> exact hb

/-- Settles O5: with no host move or a `yield` before it, the core's move is `exec` of the decoded word; `settle` is the dequeue. -/
theorem stepRunsTheDecodedCommand : Obligations.StepRunsTheDecodedCommand := by
  intro s i h ha hd
  refine ⟨fun hh => step_of_decode ha hh hd, step_of_yield_decode ha hd, fun t w q => settle_dequeues, fun t hnot => ?_⟩
  exact settle_eq_self fun hidle => hnot.resolve_left (not_not.2 hidle)

/-- Settles O26: the four next states are the definitions of NOP, MARK, retirement and fault entry; STATUS shows the halted core. -/
theorem nopMarkRetirementAndFaultEntry : Obligations.NopMarkRetirementAndFaultEntry := by
  intro imm s c
  have hstatus : (faultEntry c s).statusWord = BitVec.ofNat 32 (2 + 256 * c.code) :=
    congrArg (fun n => BitVec.ofNat 32 (2 + n)) (Nat.mul_comm c.code 256)
  exact ⟨rfl, rfl, rfl, rfl, hstatus, rfl⟩

end Sys2Proof

/-! SUPPORT. The permutation RAM (41_permutation.md R193): what a swap, the identity and a draw of PERMGEN leave in it, and that a bijection
stays one. -/

namespace Sys2Proof.Machine

/-! ### Entries and their list -/

theorem permList_eq_iff {s t : State} {n : Nat} : t.permList n = s.permList n ↔ ∀ i, i < n → t.permAt i = s.permAt i := by
  simp only [State.permList, List.map_inj_left, List.mem_range, BitVec.toNat_inj]

theorem State.Bijective.congr {s t : State} {n m : Nat} (h : s.Bijective n) (perm : t.ram.perm = s.ram.perm)
    (power : t.powerCycles = s.powerCycles) (size : m = n) : t.Bijective m := by
  rw [size, State.Bijective, permList_eq_iff.2 fun i _ => permAt_congr perm power i]
  exact h

@[simp] theorem permList_length (s : State) (n : Nat) : (s.permList n).length = n := by
  simp [State.permList]

@[simp] theorem permList_getElem (s : State) {n i : Nat} (h : i < (s.permList n).length) :
    (s.permList n)[i] = (s.permAt i).toNat := by
  simp [State.permList]

/-! ### Swaps -/

theorem swapAt_eq_swap {l : List Nat} {a b : Nat} (ha : a < l.length) (hb : b < l.length) : swapAt l a b = l.swap a b := by
  rw [List.swap_eq_of_lt ha hb, swapAt, List.getD_eq_getElem _ _ ha, List.getD_eq_getElem _ _ hb]

theorem permAt_swapPerm (s : State) (a b i : Nat) :
    (swapPerm s a b).permAt i = if i = b then s.permAt a else if i = a then s.permAt b else s.permAt i := by
  split_ifs with hb ha
  · subst hb
    exact readRam_some .perm (Memory.entry?_write_self _ _ _)
  · subst ha
    exact readRam_some .perm ((Memory.entry?_write_ne _ _ hb).trans (Memory.entry?_write_self _ _ _))
  · exact readRam_congr .perm rfl ((Memory.entry?_write_ne _ _ hb).trans (Memory.entry?_write_ne _ _ ha)) rfl

section
variable {s : State} {n a b : Nat} (ha : a < n) (hb : b < n)
include ha hb

theorem permList_swapPerm : (swapPerm s a b).permList n = swapAt (s.permList n) a b := by
  rw [swapAt_eq_swap (by simpa using ha) (by simpa using hb), List.swap_eq_of_lt (by simpa using ha) (by simpa using hb)]
  refine List.ext_getElem (by simp) fun i hi _ => ?_
  simp only [permList_getElem, permAt_swapPerm, List.getElem_set, eq_comm (a := i)]
  split_ifs <;> rfl

theorem State.Bijective.swapPerm (h : s.Bijective n) : (Machine.swapPerm s a b).Bijective n := by
  rw [State.Bijective, permList_swapPerm ha hb, swapAt_eq_swap (by simpa using ha) (by simpa using hb)]
  exact (List.swap_perm _ _ _).trans h

theorem permAt_swapPerm_outside {i : Nat} (hi : n ≤ i) : (Machine.swapPerm s a b).permAt i = s.permAt i := by
  rw [permAt_swapPerm, if_neg (by omega), if_neg (by omega)]

end

/-! ### The identity -/

/-- PERMGEN's first effect on the entries: the identity of `[0, N)`, and nothing outside. -/
theorem permAt_permInit (s : State) (i : Nat) :
    (permInit s).permAt i = if i < s.geo.ncoef.toNat then BitVec.ofNat 24 i else s.permAt i := by
  split_ifs with hi
  · refine readRam_some .perm ((Memory.entry?_writeBlock _ _ _ _).trans ?_)
    simp [hi]
  · exact readRam_congr .perm rfl (Memory.entry?_writeBlock_out _ _ _ _ (.inr (by simpa using hi))) rfl

theorem permList_permInit {s : State} (hn : s.geo.ncoef.toNat ≤ 2 ^ 24) :
    (permInit s).permList s.geo.ncoef.toNat = List.range s.geo.ncoef.toNat := by
  refine List.ext_getElem (by simp) fun i hi _ => ?_
  have hi' : i < s.geo.ncoef.toNat := by simpa using hi
  rw [permList_getElem, permAt_permInit, if_pos hi', BitVec.toNat_ofNat, Nat.mod_eq_of_lt (by omega), List.getElem_range]

/-! ### Draws -/

/-- `NextValue(m)` is below `m`, whatever the sign of the word. -/
theorem boundedValue_lt (w : Word) {m : Nat} (hm : 0 < m) : boundedValue w m < m := by
  have hhigh := Int.tmod_lt_of_pos w.toInt (b := m) (by omega)
  have hlow := Int.lt_tmod_of_pos w.toInt (b := m) (by omega)
  simp only [boundedValue]
  split <;> omega

section
variable {s : State} {i : Nat} (hi : i < s.geo.ncoef.toNat) (b0 b1 b2 b3 : Byte)
include hi

/-- Draw `i` as a swap of two places inside `[0, N)`. -/
theorem permDraw_eq_swap : ∃ d, d < s.geo.ncoef.toNat ∧
    d = boundedValue (rngWordOr s.ctrl.rngSigned b0 b1 b2 b3) (s.geo.ncoef.toNat - i) ∧
    permDraw i b0 b1 b2 b3 s = swapPerm s (s.geo.ncoef.toNat - 1 - i) d :=
  ⟨_, lt_of_lt_of_le (boundedValue_lt _ (by omega)) (Nat.sub_le _ _), rfl, rfl⟩

theorem State.Bijective.permDraw (h : s.Bijective s.geo.ncoef.toNat) :
    (Machine.permDraw i b0 b1 b2 b3 s).Bijective s.geo.ncoef.toNat := by
  obtain ⟨d, hd, -, hswap⟩ := permDraw_eq_swap hi b0 b1 b2 b3
  rw [hswap]
  exact h.swapPerm (by omega) hd

end

end Sys2Proof.Machine

/-! SUPPORT. A whole PERMGEN, its generator bytes at hand (41_permutation.md R193): it takes four bytes a draw, and its draws are the shuffle. -/

namespace Sys2Proof.Machine

/-! ### The shuffle from a draw on -/

/-- The shuffle of `l` by the draws numbered from `i` on: `shuffled` is it for the identity and all draws. -/
def shuffledFrom (n i : Nat) (l draws : List Nat) : List Nat :=
  (draws.zipIdx i).foldl (fun l d => swapAt l (n - 1 - d.2) d.1) l

theorem shuffled_eq (n : Nat) (draws : List Nat) : shuffled n draws = shuffledFrom n 0 (List.range n) draws := rfl

theorem shuffledFrom_cons (n i : Nat) (l : List Nat) (d : Nat) (draws : List Nat) :
    shuffledFrom n i l (d :: draws) = shuffledFrom n (i + 1) (swapAt l (n - 1 - i) d) draws := rfl

theorem drawsFrom_all (signed : Bool) {n i : Nat} (hi : n ≤ i) (bytes : List Byte) : drawsFrom signed n i bytes = [] := by
  unfold drawsFrom
  split
  · exact if_neg (Nat.not_lt.2 hi)
  · rfl

theorem drawsFrom_cons (signed : Bool) {n i : Nat} (hi : i < n) (b0 b1 b2 b3 : Byte) (bytes : List Byte) :
    drawsFrom signed n i (b0 :: b1 :: b2 :: b3 :: bytes) =
      boundedValue (rngWordOr signed b0 b1 b2 b3) (n - i) :: drawsFrom signed n (i + 1) bytes := by
  rw [drawsFrom, if_pos hi]

theorem exists_four {bytes : List Byte} (h : 4 ≤ bytes.length) : ∃ b0 b1 b2 b3 rest, bytes = b0 :: b1 :: b2 :: b3 :: rest :=
  match bytes, h with
  | b0 :: b1 :: b2 :: b3 :: rest, _ => ⟨b0, b1, b2, b3, rest, rfl⟩

/-- The draws are determined by their four bytes each. -/
theorem drawsFrom_append (signed : Bool) {n i : Nat} {bytes : List Byte} (h : 4 * (n - i) ≤ bytes.length) (more : List Byte) :
    drawsFrom signed n i (bytes ++ more) = drawsFrom signed n i bytes := by
  induction hk : n - i generalizing i bytes with
  | zero =>
    have hi : n ≤ i := by omega
    rw [drawsFrom_all signed hi, drawsFrom_all signed hi]
  | succ k ih =>
    have hi : i < n := by omega
    obtain ⟨b0, b1, b2, b3, rest, rfl⟩ := exists_four (bytes := bytes) (by omega)
    simp only [List.length_cons] at h
    simp only [List.cons_append]
    rw [drawsFrom_cons signed hi, drawsFrom_cons signed hi, ih (by omega) (by omega)]

/-! ### One draw -/

/-- With four bytes at hand PERMGEN comes from one draw to the next: it collects three and draws with the fourth. -/
theorem permgen_run_draw {s : State} {i : Nat} (hi : i < s.geo.ncoef.toNat) (b0 b1 b2 b3 : Byte) (q : List Byte) :
    permgenBody.run (i, []) { s with fifo.rng := b0 :: b1 :: b2 :: b3 :: q } =
      permgenBody.run (i + 1, []) (permDraw i b0 b1 b2 b3 { s with fifo.rng := q }) := by
  have hnot : ¬ s.geo.ncoef.toNat ≤ i := Nat.not_le.2 hi
  calc permgenBody.run (i, []) { s with fifo.rng := b0 :: b1 :: b2 :: b3 :: q }
    _ = permgenBody.run (i, [b0]) { s with fifo.rng := b1 :: b2 :: b3 :: q } :=
        permgenBody_resumes.run_go trivial (if_neg hnot)
    _ = permgenBody.run (i, [b0, b1]) { s with fifo.rng := b2 :: b3 :: q } :=
        permgenBody_resumes.run_go trivial (if_neg hnot)
    _ = permgenBody.run (i, [b0, b1, b2]) { s with fifo.rng := b3 :: q } :=
        permgenBody_resumes.run_go trivial (if_neg hnot)
    _ = _ := permgenBody_resumes.run_go trivial (if_neg hnot)

/-! ### All draws -/

/-- What PERMGEN's draws from draw `i` on make of the state. -/
structure DrawnFrom (i : Nat) (s t : State) : Prop where
  state : t = { s with ram.perm := t.ram.perm, fifo.rng := s.fifo.rng.drop (4 * (s.geo.ncoef.toNat - i)) }
  entries : t.permList s.geo.ncoef.toNat = shuffledFrom s.geo.ncoef.toNat i (s.permList s.geo.ncoef.toNat)
    (drawsFrom s.ctrl.rngSigned s.geo.ncoef.toNat i s.fifo.rng)
  bijective : s.Bijective s.geo.ncoef.toNat → t.Bijective s.geo.ncoef.toNat
  outside : ∀ j, s.geo.ncoef.toNat ≤ j → t.permAt j = s.permAt j

theorem DrawnFrom.none {i : Nat} {s : State} (hi : s.geo.ncoef.toNat ≤ i) : DrawnFrom i s s where
  state := by rw [Nat.sub_eq_zero_of_le hi]; rfl
  entries := by rw [drawsFrom_all _ hi]; rfl
  bijective := id
  outside _ _ := rfl

/-- One draw before the others. -/
theorem DrawnFrom.cons {i : Nat} {s t : State} {b0 b1 b2 b3 : Byte} {q : List Byte} (hi : i < s.geo.ncoef.toNat)
    (hq : s.fifo.rng = b0 :: b1 :: b2 :: b3 :: q)
    (h : DrawnFrom (i + 1) (permDraw i b0 b1 b2 b3 { s with fifo.rng := q }) t) : DrawnFrom i s t := by
  obtain ⟨d, hd, hval, hswap⟩ := permDraw_eq_swap (s := { s with fifo.rng := q }) hi b0 b1 b2 b3
  have htail : s.geo.ncoef.toNat - 1 - i < s.geo.ncoef.toNat := by omega
  rw [hswap] at h
  constructor
  case state =>
    rw [hq, show 4 * (s.geo.ncoef.toNat - i) = 4 * (s.geo.ncoef.toNat - (i + 1)) + 4 by omega]
    exact h.state
  case entries =>
    rw [hq, drawsFrom_cons _ hi, shuffledFrom_cons]
    subst hval
    exact h.entries.trans (congrArg (fun l => shuffledFrom _ _ l _) (permList_swapPerm htail hd))
  case bijective => exact fun hs => h.bijective (State.Bijective.swapPerm htail hd hs)
  case outside => exact fun j hj => (h.outside j hj).trans (permAt_swapPerm_outside htail hd hj)

/-- PERMGEN with the bytes of all its draws from draw `i` on ends. -/
theorem permgen_run_all {i : Nat} {s : State} (hrng : 4 * (s.geo.ncoef.toNat - i) ≤ s.fifo.rng.length) :
    ∃ t, DrawnFrom i s t ∧ permgenBody.run (i, []) s = retire (permFinish t) := by
  induction hk : s.geo.ncoef.toNat - i generalizing i s with
  | zero =>
    have hi : s.geo.ncoef.toNat ≤ i := by omega
    refine ⟨s, .none hi, ?_⟩
    simp only [Body.run, permgenBody, drive, permgenStep, if_pos hi]
  | succ k ih =>
    have hi : i < s.geo.ncoef.toNat := by omega
    obtain ⟨b0, b1, b2, b3, q, hq⟩ := exists_four (bytes := s.fifo.rng) (by omega)
    rw [hq] at hrng
    simp only [List.length_cons] at hrng
    have hq' : 4 * (s.geo.ncoef.toNat - (i + 1)) ≤ q.length := by omega
    have hk' : s.geo.ncoef.toNat - (i + 1) = k := by omega
    obtain ⟨t, ht, hrun⟩ := ih (s := permDraw i b0 b1 b2 b3 { s with fifo.rng := q }) hq' hk'
    refine ⟨t, ht.cons hi hq, Eq.trans ?_ hrun⟩
    rw [← permgen_run_draw hi, ← hq]

/-- A whole PERMGEN. -/
theorem exec_permgen {s : State} (hrng : 4 * s.geo.ncoef.toNat ≤ s.fifo.rng.length) :
    ∃ t, DrawnFrom 0 (permInit s) t ∧ exec .permgen s = .next (retire (permFinish t)) := by
  obtain ⟨t, ht, hrun⟩ := permgen_run_all (i := 0) (s := permInit s) hrng
  exact ⟨t, ht, congrArg Host.Outcome.next hrun⟩

end Sys2Proof.Machine

namespace Sys2Proof

open Machine

/-- Settles O44: PERMGEN's draws are the shuffle of the identity, each a swap of two places. -/
theorem permgenShufflesTheIndices : Obligations.PermgenShufflesTheIndices := by
  intro s hn hrng
  obtain ⟨t, ht, hexec⟩ := exec_permgen hrng
  have hid := permList_permInit hn
  refine ⟨_, hexec, ?_, ?_, ?_, fun i hi => ?_⟩
  · obtain ⟨hstate, -⟩ := ht
    generalize t.ram.perm = m at hstate
    subst hstate
    rfl
  · rw [shuffled_eq, ← hid]
    exact ht.entries
  · exact ht.bijective (List.Perm.of_eq hid)
  · exact (ht.outside i hi).trans ((permAt_permInit s i).trans (if_neg (Nat.not_lt.2 hi)))

/-- Settles O45: the list of PERM's entries is the shuffle, which the draws' bytes determine. -/
theorem permgenIsDeterminedByItsInputs : Obligations.PermgenIsDeterminedByItsInputs := by
  intro s s' hn hncoef hsigned hrng hrng' hbytes
  obtain ⟨t, ht, -, hlist, -⟩ := permgenShufflesTheIndices s hn hrng
  obtain ⟨t', ht', -, hlist', -⟩ := permgenShufflesTheIndices s' (by rwa [hncoef]) (by rwa [hncoef])
  have hdraws (u : State) (hu : 4 * s.geo.ncoef.toNat ≤ u.fifo.rng.length) :
      drawsFrom s.ctrl.rngSigned s.geo.ncoef.toNat 0 (u.fifo.rng.take (4 * s.geo.ncoef.toNat)) =
        drawsFrom s.ctrl.rngSigned s.geo.ncoef.toNat 0 u.fifo.rng := by
    rw [← drawsFrom_append _ (by simpa using hu) (u.fifo.rng.drop _), List.take_append_drop]
  refine ⟨t, t', ht, ht', permList_eq_iff.1 ?_⟩
  rw [hncoef, hsigned] at hlist'
  rw [hlist, hlist', ← hdraws s hrng, ← hdraws s' hrng', hbytes]

end Sys2Proof

/-! SUPPORT. The permutation's invariant (41_permutation.md R199) is kept by every step. PERMGEN swaps inside `[0, N)` between its first and
its last effect; every other command, and every access of the host but a reset, leaves the permutation alone. -/

namespace Sys2Proof.Machine

/-! ### What the invariant depends on -/

theorem State.PermInv.of_eq {s t : State} (h : s.PermInv) (done : t.valid.perm = s.valid.perm := by rfl)
    (size : t.f5.permN = s.f5.permN := by rfl) (perm : t.ram.perm = s.ram.perm := by rfl)
    (power : t.powerCycles = s.powerCycles := by rfl)
    (shuffling : t.agent.shuffling = true → s.agent.shuffling = true ∧ t.geo.ncoef = s.geo.ncoef := by
      exact fun ha => ⟨ha, rfl⟩) : t.PermInv where
  complete hd := (h.complete (done ▸ hd)).congr perm power (congrArg BitVec.toNat size)
  building ha := by
    obtain ⟨hs, hn⟩ := shuffling ha
    obtain ⟨hdone, hbij⟩ := h.building hs
    exact ⟨done.trans hdone, hbij.congr perm power (congrArg BitVec.toNat hn)⟩

/-- No permutation, and none under construction. -/
theorem State.PermInv.none {s : State} (hd : s.valid.perm = false) (ha : s.agent.shuffling = false) : s.PermInv :=
  ⟨by simp [hd], by simp [ha]⟩

/-! ### PERMGEN -/

/-- PERMGEN is between its first and its last effect. -/
structure State.Building (s : State) : Prop where
  undone : s.valid.perm = false
  size : s.geo.ncoef.toNat ≤ 2 ^ 24
  bijective : s.Bijective s.geo.ncoef.toNat

theorem State.Building.withAgent {s : State} (h : s.Building) (a : Agent) : State.PermInv { s with agent := a } where
  complete hd := by cases h.undone.symm.trans hd
  building _ := ⟨h.undone, h.bijective⟩

theorem building_permInit {s : State} (hn : s.geo.ncoef.toNat ≤ 2 ^ 24) : (permInit s).Building :=
  ⟨rfl, hn, List.Perm.of_eq (permList_permInit hn)⟩

theorem State.Building.popRng {s t : State} {b : Byte} (h : s.Building) (hp : popRng s = some (b, t)) : t.Building := by
  unfold Machine.popRng at hp
  split at hp <;> cases hp
  exact ⟨h.undone, h.size, h.bijective⟩

theorem State.Building.permDraw {s : State} {i : Nat} (h : s.Building) (hi : i < s.geo.ncoef.toNat) (b0 b1 b2 b3 : Byte) :
    (permDraw i b0 b1 b2 b3 s).Building :=
  ⟨h.undone, h.size, h.bijective.permDraw hi b0 b1 b2 b3⟩

/-- A permutation whose last effect is taken is complete and a bijection. -/
theorem State.Building.finished {s : State} (h : s.Building) : (retire (permFinish s)).PermInv where
  complete _ := by
    refine h.bijective.congr rfl rfl ?_
    show (s.geo.ncoef.setWidth 25).toNat = _
    have hn := h.size
    rw [BitVec.toNat_setWidth, Nat.mod_eq_of_lt (by omega)]
  building := nofun

/-- Where one move of PERMGEN leaves the permutation. -/
theorem permgenStep_building (p : Nat × List Byte) {s : State} (h : s.Building) :
    (∃ q t, permgenStep p s = .go q t ∧ t.Building) ∨ permgenStep p s = .wait .rng p s ∨
      permgenStep p s = .done (permFinish s) := by
  obtain ⟨i, got⟩ := p
  simp only [permgenStep]
  split
  · exact .inr (.inr rfl)
  rename_i hi
  split
  · exact .inr (.inl rfl)
  rename_i b t hpop
  have ht := h.popRng hpop
  refine .inl ?_
  split
  · have hn : t.geo.ncoef = s.geo.ncoef := congrArg (·.geo.ncoef) (popRng_writes hpop .geo (by decide))
    exact ⟨_, _, rfl, ht.permDraw (by rw [hn]; exact Nat.lt_of_not_le hi) _ _ _ _⟩
  · exact ⟨_, _, rfl, ht⟩

theorem drive_permgen_permInv (n : Nat) (p : Nat × List Byte) {s : State} (h : s.Building) :
    (drive (fun p => .permgen p.1 p.2) permgenStep n p s).PermInv := by
  induction n generalizing p s with
  | zero => exact h.withAgent _
  | succ n ih =>
    obtain ⟨q, t, hs, ht⟩ | hs | hs := permgenStep_building p h <;> simp only [drive, hs]
    · exact ih q ht
    · exact h.withAgent _
    · exact h.finished

/-! ### Where the other commands stand -/

/-- The core is not between two draws of PERMGEN. -/
def State.NotShuffling (s : State) : Prop := s.agent.shuffling = false

theorem State.NotShuffling.retire (s : State) : (Machine.retire s).NotShuffling := rfl

theorem State.NotShuffling.fault (c : FaultCode) (s : State) : (faultEntry c s).NotShuffling := rfl

theorem State.NotShuffling.ite {c : Prop} [Decidable c] {a b : State} (ha : a.NotShuffling) (hb : b.NotShuffling) :
    (if c then a else b).NotShuffling := by
  split
  · exact ha
  · exact hb

/-- An operand check before the rest of a command. -/
theorem State.NotShuffling.check {c : Prop} [Decidable c] {f : FaultCode} {s t : State} (h : t.NotShuffling) :
    (if c then faultEntry f s else t).NotShuffling :=
  .ite (.fault _ _) h

theorem shuffling_stall (src : StallSrc) (p : Progress) : (Agent.stall src p).shuffling = (Agent.exec p).shuffling := by
  cases p <;> rfl

/-- A run of a body other than PERMGEN's. -/
theorem drive_notShuffling {π : Type} {emb : π → Progress} (h : ∀ p, (Agent.exec (emb p)).shuffling = false)
    (adv : π → State → BodyStep π) (n : Nat) (p : π) (s : State) : (drive emb adv n p s).NotShuffling := by
  unfold State.NotShuffling
  obtain ha | ⟨c, ha⟩ | ⟨src, q, ha⟩ | ⟨q, ha⟩ := drive_agent emb adv n p s <;> rw [ha]
  · rfl
  · rfl
  · rw [shuffling_stall]
    exact h q
  · exact h q

theorem EmbpayAt.notShuffling (p : EmbpayAt) : (Agent.exec p.progress).shuffling = false := by cases p <;> rfl

theorem exec_notShuffling {i : Instr} (hi : i ≠ .permgen) (s : State) : ∃ t, exec i s = .next t ∧ t.NotShuffling := by
  cases i with
  | permgen => exact absurd rfl hi
  | nop | mark | fdct | coefclr | predclr | capcnt => exact ⟨_, rfl, .retire _⟩
  | divcalc | zzfwd | zzinv | blkaddr | xbit => exact ⟨_, rfl, .check (.retire _)⟩
  | qtscale | permrd | curset | offer | bstep | mstep | mxtr => exact ⟨_, rfl, .check (.check (.retire _))⟩
  | quant => exact ⟨_, rfl, .check (.check (.check (.retire _)))⟩
  | geom =>
    refine ⟨_, rfl, ?_⟩
    split
    · exact .fault _ _
    · exact .check (.retire _)
  | flush => exact ⟨_, rfl, drive_notShuffling (fun _ => rfl) _ _ _ _⟩
  | putbits | emitraw => exact ⟨_, rfl, .check (drive_notShuffling (fun _ => rfl) _ _ _ _)⟩
  | encblk => exact ⟨_, rfl, .check (.check (drive_notShuffling (fun _ => rfl) _ _ _ _))⟩
  | encscan =>
    refine ⟨_, rfl, ?_⟩
    split
    · exact .fault _ _
    · exact .check (drive_notShuffling (fun _ => rfl) _ _ _ _)
  | dechdr => exact ⟨_, rfl, drive_notShuffling (fun _ => rfl) _ _ _ _⟩
  | decblk => exact ⟨_, rfl, .check (.ite (.retire _) (drive_notShuffling (fun _ => rfl) _ _ _ _))⟩
  | decscan => exact ⟨_, rfl, .ite (.retire _) (drive_notShuffling (fun _ => rfl) _ _ _ _)⟩
  | embhdr => exact ⟨_, rfl, .check (.check (drive_notShuffling (fun _ => rfl) _ _ _ _))⟩
  | embpay => exact ⟨_, rfl, .check (.check (drive_notShuffling EmbpayAt.notShuffling _ _ _ _))⟩
  | exthdr =>
    refine ⟨_, rfl, .check ?_⟩
    split
    · exact .retire _
    · exact drive_notShuffling (fun _ => rfl) _ _ _ _
  | extpay => exact ⟨_, rfl, .check (.ite (.retire _) (drive_notShuffling (fun _ => rfl) _ _ _ _))⟩

theorem continueCommand_notShuffling {p : Progress} (hstart : p ≠ .start) (hp : (Agent.exec p).shuffling = false) (s : State) :
    (continueCommand p s).NotShuffling := by
  cases p with
  | start => exact absurd rfl hstart
  | permgen => cases hp
  | emit | embHdr | extHdr | extPay | decHdr | decBlk | decScan => exact drive_notShuffling (fun _ => rfl) _ _ _ _
  | embPay | embDrain => exact drive_notShuffling EmbpayAt.notShuffling _ _ _ _

/-! ### What the other commands write -/

/-- Every part but the permutation. -/
def outsidePerm : List Part := Part.all.filter (fun p => p ≠ .permDone ∧ p ≠ .perm)

theorem WritesOnly.permInv {s t : State} (hw : WritesOnly outsidePerm s t) (h : s.PermInv) (ht : t.NotShuffling)
    (power : t.powerCycles = s.powerCycles) : t.PermInv := by
  have hdone := hw .permDone (by decide)
  exact h.of_eq (congrArg (·.valid.perm) hdone) (congrArg (·.f5.permN) hdone) (congrArg (·.ram.perm) (hw .perm (by decide)))
    power fun ha => by cases ht.symm.trans ha

theorem Outcome.powerCycles {s t : State} (o : Outcome s t) : t.powerCycles = s.powerCycles := by
  obtain ⟨b, hm, he⟩ := o
  cases he <;> exact hm.powerCycles

theorem writtenBy_outsidePerm {o : Op} (ho : o ≠ .permgen) : (writtenBy o).all outsidePerm.contains = true := by
  cases o with
  | permgen => exact absurd rfl ho
  | _ => rfl

theorem Ending.parts_outsidePerm (e : Ending) : e.parts.all outsidePerm.contains = true := by
  cases e with
  | retire | flushed => rfl
  | buffered code size rest scan => cases scan <;> rfl
  | codes rest scan => cases scan <;> rfl

theorem continueCommand_writes {p : Progress} (hp : (Agent.exec p).shuffling = false) (s : State) :
    WritesOnly outsidePerm s (continueCommand p s) := by
  cases p with
  | start => exact .refl _ _
  | permgen => cases hp
  | emit bytes e => exact (runEmit_writes (bytes, e) s).widen e.parts_outsidePerm
  | embHdr => exact (drive_writes embHdrStep_writes _ _ _).widen rfl
  | embPay | embDrain => exact (drive_writes embpayStep_writes _ _ _).widen rfl
  | extHdr => exact (drive_writes extHdrStep_writes _ _ _).widen rfl
  | extPay => exact (drive_writes extpayStep_writes _ _ _).widen rfl
  | decHdr => exact (drive_writes hdrStep_writes _ _ _).widen rfl
  | decBlk => exact (drive_writes decblkStep_writes _ _ _).widen rfl
  | decScan => exact (drive_writes scanStep_writes _ _ _).widen rfl

/-! ### The core -/

theorem State.Inv.ncoef_le {s : State} (hs : s.Inv) : s.geo.ncoef.toNat ≤ 2 ^ 24 := by
  obtain ⟨-, -, -, hdepth, -⟩ := hs.params
  exact hs.array.2.trans hdepth

theorem settle_permInv {s : State} (hp : s.PermInv) : (settle s).PermInv := by
  unfold settle
  split
  · exact hp.of_eq (shuffling := nofun)
  · exact hp

section
variable {s t : State} (hs : s.Inv) (hp : s.PermInv)
include hs hp

theorem exec_permInv {i : Instr} (h : exec i s = .next t) : t.PermInv := by
  by_cases hi : i = .permgen
  · subst hi
    cases h
    exact drive_permgen_permInv _ _ (building_permInit hs.ncoef_le)
  · obtain ⟨u, hu, ho⟩ := exec_outcome i s
    obtain ⟨v, hv, hw⟩ := exec_writes i s
    obtain ⟨w, hw', ht⟩ := exec_notShuffling hi s
    cases hu.symm.trans h
    cases hv.symm.trans h
    cases hw'.symm.trans h
    have hop : i.op ≠ .permgen := by
      cases i with
      | permgen => exact absurd rfl hi
      | _ => exact nofun
    exact (hw.widen (writtenBy_outsidePerm hop)).permInv hp ht ho.powerCycles

theorem beginCommand_permInv (h : beginCommand s = .next t) : t.PermInv := by
  have hfault (c : FaultCode) : (faultEntry c s).PermInv := hp.of_eq (shuffling := nofun)
  unfold beginCommand at h
  split at h
  · cases h; exact hfault _
  · cases h; exact hfault _
  · exact exec_permInv hs hp h

theorem continueCommand_permInv {p : Progress} (ha : s.agent = .exec p) (hstart : p ≠ .start) :
    (continueCommand p s).PermInv := by
  by_cases hsh : (Agent.exec p).shuffling = true
  · obtain ⟨hundone, hbij⟩ := hp.building (by rwa [ha])
    cases p with
    | permgen i got => exact drive_permgen_permInv _ _ ⟨hundone, hs.ncoef_le, hbij⟩
    | _ => cases hsh
  · rw [Bool.not_eq_true] at hsh
    obtain ⟨ho, -⟩ := continueCommand_legal hs.preDequeue.progress ha hstart
    exact (continueCommand_writes hsh s).permInv hp (continueCommand_notShuffling hstart hsh s) ho.powerCycles

theorem coreMove_permInv (h : coreMove s = .next t) : t.PermInv := by
  unfold coreMove at h
  split at h
  · exact beginCommand_permInv hs hp h
  · rename_i p hstart ha
    cases h
    exact continueCommand_permInv hs hp ha hstart
  all_goals cases h; exact hp

theorem coreStep_permInv (h : coreStep s = .next t) : t.PermInv := by
  unfold coreStep at h
  cases hm : coreMove s with
  | next u =>
    rw [hm] at h
    cases h
    exact settle_permInv (coreMove_permInv hs hp hm)
  | fault f => rw [hm] at h; cases h
  | refused r => rw [hm] at h; cases h

end

/-! ### The host -/

/-- Reset clears PERM_VALID, and leaves no command (70_reset_and_hazards.md R501). -/
theorem softReset_permInv (s : State) : (softReset s).PermInv := .none rfl rfl

theorem pinReset_permInv (s : State) : (pinReset s).PermInv := .none rfl rfl

theorem notShuffling_of_not_busy {s : State} (h : s.busy = false) : s.NotShuffling := by
  unfold State.busy at h
  unfold State.NotShuffling
  split at h
  · rename_i ha; rw [ha]; rfl
  · cases h
  · cases h
  · rename_i ha; rw [ha]; rfl

section
variable {s : State} (h : s.PermInv)
include h

/-- Ending a wait leaves PERMGEN, or another command, where it stood. -/
theorem State.PermInv.wake (src : StallSrc) : (Machine.wake src s).PermInv := by
  unfold Machine.wake
  split
  · rename_i src' p ha
    split
    · refine h.of_eq (shuffling := fun hx => ⟨?_, rfl⟩)
      rw [ha, shuffling_stall]
      exact hx
    · exact h
  all_goals exact h

theorem State.PermInv.answer (v : Word) : (Machine.answer v s).PermInv := h.of_eq

theorem State.PermInv.refuseAccess : (Machine.refuseAccess s).PermInv := h.of_eq

theorem State.PermInv.refuseRead : (Machine.refuseRead s).PermInv := h.of_eq

theorem readOutData_permInv : (readOutData s).PermInv := by
  unfold readOutData
  split
  · exact h.answer 0
  · exact State.PermInv.wake h.of_eq .out

theorem readPayoutData_permInv : (readPayoutData s).PermInv := by
  unfold readPayoutData
  split
  · exact h.answer 0
  · exact State.PermInv.wake h.of_eq .payout

theorem readReg_permInv (r : HostReg) : (readReg r s).PermInv := by
  unfold readReg
  split
  · exact h.of_eq
  split
  · exact readOutData_permInv h
  · exact readPayoutData_permInv h
  · exact h.answer _

theorem busRead_permInv (off : Nat) : (busRead off s).PermInv := by
  unfold busRead
  split
  · exact readReg_permInv h _
  · exact h.refuseRead
  split
  · exact h.refuseRead
  · exact h.answer _

theorem writeCmd_permInv (v : Word) : (writeCmd v s).Leaves State.PermInv := by
  unfold writeCmd
  split
  · exact h.refuseAccess
  split
  · trivial
  · exact h.of_eq

theorem pushFull_permInv : (pushFull s).Leaves State.PermInv := by
  unfold pushFull
  split
  · exact h.refuseAccess
  · trivial

theorem writeRngData_permInv (v : Word) : (writeRngData v s).Leaves State.PermInv := by
  unfold writeRngData
  split
  · exact pushFull_permInv h
  · exact State.PermInv.wake h.of_eq .rng

theorem writeInData_permInv (v : Word) : (writeInData v s).Leaves State.PermInv := by
  unfold writeInData
  split
  · exact h.refuseAccess
  split
  · exact pushFull_permInv h
  · exact State.PermInv.wake h.of_eq .inp

theorem writePayinData_permInv (v : Word) : (writePayinData v s).Leaves State.PermInv := by
  unfold writePayinData
  split
  · exact pushFull_permInv h
  · exact State.PermInv.wake h.of_eq .payin

theorem writeInCtrl_permInv (v : Word) : (writeInCtrl v s).PermInv := by
  have hclr : (if v.getLsbD 1 then { s with fifo.inEos := false } else s : State).PermInv := by
    split
    · exact h.of_eq
    · exact h
  simp only [writeInCtrl]
  split
  · exact State.PermInv.wake hclr.of_eq .inp
  · exact hclr

theorem writeNcomp_permInv (v : Word) : (writeNcomp v s).PermInv := by
  simp only [writeNcomp]
  split
  · exact h.of_eq
  · exact h

/-- NCOEF changes only while no command runs (20_memory.md R106). -/
theorem writeNcoef_permInv (hb : s.busy = false) (v : Word) : (writeNcoef v s).PermInv := by
  have hset : s.agent.shuffling = false := notShuffling_of_not_busy hb
  exact h.of_eq (shuffling := fun hx => by cases hset.symm.trans hx)

theorem writeConfig_permInv {t : State} (hb : s.busy = false) {r : HostReg} {v : Word}
    (hw : writeConfig r v s = some t) : t.PermInv := by
  cases r with
  | ncoef => cases hw; exact writeNcoef_permInv h hb v
  | ncomp => cases hw; exact writeNcomp_permInv h v
  | inCtrl => cases hw; exact writeInCtrl_permInv h v
  | ctrl | imgW | imgH | compcfg | rstint | pred | outcnt | incnt | k | paylen | fifoclr => cases hw; exact h.of_eq
  | _ => cases hw

theorem writeReg_permInv (r : HostReg) (v : Word) : (writeReg r v s).Leaves State.PermInv := by
  unfold writeReg
  split
  · exact writeCmd_permInv h v
  · exact writeRngData_permInv h v
  · exact writeInData_permInv h v
  · exact writePayinData_permInv h v
  · exact h.of_eq
  · exact h.of_eq
  split
  · exact softReset_permInv s
  split
  · exact writeInCtrl_permInv h v
  split
  · exact h.refuseAccess
  · rename_i hb
    split
    · rename_i t ht
      exact writeConfig_permInv h (by simpa using hb) ht
    · exact h.refuseAccess

theorem busWrite_permInv (off : Nat) (v : Word) : (busWrite off v s).Leaves State.PermInv := by
  unfold busWrite
  split
  · exact writeReg_permInv h _ v
  split
  · exact h.refuseAccess
  split
  · rename_i t ht
    unfold writeWindow at ht
    split at ht <;> cases ht <;> exact h.of_eq
  · exact h.refuseAccess

theorem busAccess_permInv (a : BusAccess) : (busAccess a s).Leaves State.PermInv := by
  unfold busAccess
  split
  · split
    · trivial
    split
    · exact busRead_permInv h _
    · exact h.refuseRead
  · split
    · trivial
    split
    · exact busWrite_permInv h _ _
    · exact h.refuseAccess

end

end Sys2Proof.Machine

namespace Sys2Proof

open Machine

/-- Settles O13: the core's move, the dequeue and the host's accesses keep the permutation's invariant. -/
theorem stepKeepsThePermutationABijection : Obligations.StepKeepsThePermutationABijection := by
  intro s t hs hp h
  have hp' (q : List HostMove) : State.PermInv { s with host := q } := hp.of_eq
  unfold step agentStep at h
  split at h
  · exact coreStep_permInv hs hp h
  · exact coreStep_permInv (hs.withHost _) (hp' _) h
  · cases h
    exact pinReset_permInv _
  · rename_i a q _
    have ha := busAccess_permInv (hp' q) a
    split at h
    · rename_i u hu
      rw [hu] at ha
      cases h
      exact settle_permInv ha
    · exact coreStep_permInv hs hp h
    · cases h

/-- Settles O8: each clause lists the commands that write its FIFO or RAM, by `writtenBy`. -/
theorem onlyTheNamedCommandsUseEachFifoAndRam : Obligations.OnlyTheNamedCommandsUseEachFifoAndRam := by
  intro i s t h
  obtain ⟨u, hu, hw⟩ := exec_writes i s
  cases hu.symm.trans h
  refine ⟨fun hi => ?_, fun hi => ?_, fun hi => ?_, fun hi => ?_, fun hi => ?_, fun hi => ?_, fun hi => ?_, fun hi => ?_,
    fun hi => ?_, fun hi => ?_, fun hi => ?_, fun hi => ?_⟩
  · exact congrArg (·.fifo.rng) (hw.kept .rng rfl hi)
  · have hk := hw.kept .inp rfl hi
    exact ⟨congrArg (·.fifo.inp) hk, congrArg (·.coder.incnt) hk⟩
  · exact congrArg (·.fifo.payin) (hw.kept .payin rfl hi)
  · have hk := hw.kept .out rfl hi
    exact ⟨congrArg (·.fifo.out) hk, congrArg (·.coder.outcnt) hk⟩
  · exact congrArg (·.fifo.payout) (hw.kept .payout rfl hi)
  · exact congrArg (·.ram.coef) (hw.kept .coef rfl hi)
  · exact congrArg (·.ram.perm) (hw.kept .perm rfl hi)
  · exact congrArg (·.ram.qt) (hw.kept .qt rfl hi)
  · exact congrArg (·.ram.dct) (hw.kept .dct rfl hi)
  · exact congrArg (·.ram.div) (hw.kept .div rfl hi)
  · have hk := hw.kept .codeWord rfl hi
    exact ⟨congrArg (·.ram.cw) hk, congrArg (·.f5.cwlen) hk⟩
  · have hk := hw.kept .dht rfl hi
    exact ⟨congrArg (·.ram.dhMax) hk, congrArg (·.ram.dhMin) hk, congrArg (·.ram.dhPtr) hk, congrArg (·.ram.dhVal) hk⟩

end Sys2Proof

/-! SUPPORT. The commands of the cursor (41_permutation.md R194 to R199): the check of the permutation, and drawing a code word, for which the
cursor takes the next usable coefficients, one after another. -/

namespace Sys2Proof.Machine

/-! ### The cursor after several draws -/

theorem drewLast_nil {s t : State} : s.drewLast t [] ↔ t.f5.pos = s.f5.pos := Iff.rfl

/-- One draw before the others: `t` is where it leaves the cursor. -/
theorem drewLast_cons {s t u : State} {p : Nat} {ps : List Nat} (hlt : s.f5.pos.toNat < t.f5.pos.toNat)
    (hp : (s.permAt (t.f5.pos.toNat - 1)).toNat = p) (hperm : ∀ i, t.permAt i = s.permAt i) (h : t.drewLast u ps) :
    s.drewLast u (p :: ps) := by
  cases ps with
  | nil =>
    rw [drewLast_nil] at h
    exact ⟨h ▸ hlt, h ▸ hp⟩
  | cons q qs =>
    unfold State.drewLast at h ⊢
    rw [List.getLast?_cons_cons]
    cases hl : (q :: qs).getLast? with
    | none => simp at hl
    | some r =>
      rw [hl] at h
      obtain ⟨hpos, hr⟩ := h
      exact ⟨hlt.trans hpos, hperm _ ▸ hr⟩

/-! ### NeedPerm() (R199) -/

theorem permReady_eq_false_iff {s : State} :
    s.permReady = false ↔ s.valid.perm = false ∨ s.f5.permN.toNat ≠ s.geo.ncoef.toNat := by
  rw [State.permReady, Bool.and_eq_false_iff, decide_eq_false_iff_not]

theorem not_noperm {s : State} (h : s.permReady = true) : ¬ s.permReady = false := by simp [h]

/-! ### Entries of CWBUF -/

theorem cwAt_appendCw_self (p : Nat) (s : State) : (appendCw p s).cwAt s.f5.cwlen.toNat = BitVec.ofNat 24 p :=
  readRam_some .cw (Memory.entry?_write_self _ _ _)

theorem cwAt_appendCw_ne (p : Nat) (s : State) {j : Nat} (hj : j ≠ s.f5.cwlen.toNat) : (appendCw p s).cwAt j = s.cwAt j :=
  readRam_congr .cw rfl (Memory.entry?_write_ne _ _ hj) rfl

/-! ### The code word -/

/-- What drawing up to `n` members into the code word makes of the state. -/
structure DrawsCw (n : Nat) (s t : State) : Prop where
  state : t = { s with ram.cw := t.ram.cw, f5.cwlen := t.f5.cwlen, f5.pos := t.f5.pos }
  cwlen : t.f5.cwlen.toNat = s.f5.cwlen.toNat + min n s.usableLeft.length
  members : ∀ i, i < min n s.usableLeft.length → (t.cwAt (s.f5.cwlen.toNat + i)).toNat = s.usableLeft.getD i 0
  others : ∀ j, j < s.f5.cwlen.toNat ∨ t.f5.cwlen.toNat ≤ j → t.cwAt j = s.cwAt j
  left : t.usableLeft = s.usableLeft.drop (min n s.usableLeft.length)
  exhausted : s.usableLeft.length < n → t.f5.pos = s.f5.permN
  last : n ≤ s.usableLeft.length → s.drewLast t (s.usableLeft.take n)
  cursor : s.f5.pos.toNat ≤ t.f5.pos.toNat ∧ t.f5.pos.toNat ≤ s.f5.permN.toNat

theorem DrawsCw.zero {s : State} (hp : s.f5.pos.toNat ≤ s.f5.permN.toNat) : DrawsCw 0 s s where
  state := rfl
  cwlen := by simp
  members i hi := by simp at hi
  others _ _ := rfl
  left := by simp
  exhausted h := absurd h (Nat.not_lt_zero _)
  last _ := drewLast_nil.2 rfl
  cursor := ⟨Nat.le_refl _, hp⟩

/-- A draw that finds nothing. -/
theorem DrawsCw.exhaust {n : Nat} {s t : State} (hp : s.f5.pos.toNat ≤ s.f5.permN.toNat) (h : nextUsable s = (none, t)) :
    DrawsCw (n + 1) s t := by
  obtain ⟨rfl, hleft⟩ := nextUsable_none hp h
  have hlen : s.usableLeft.length = 0 := by rw [hleft]; rfl
  constructor
  case state => rfl
  case cwlen => simp [hlen]
  case members => simp [hlen]
  case others => exact fun _ _ => rfl
  case left =>
    have hzero : s.f5.permN.toNat - s.f5.permN.toNat = 0 := Nat.sub_self _
    rw [hleft, List.drop_nil, State.usableLeft, State.entriesLeft, hzero, usableFrom_zero]
  case exhausted => exact fun _ => rfl
  case last => exact fun hn => absurd hn (by omega)
  case cursor => exact ⟨hp, Nat.le_refl _⟩

/-- A draw that finds an index, before the others. -/
theorem DrawsCw.cons {n p : Nat} {s t u : State} (hp : s.f5.pos.toNat ≤ s.f5.permN.toNat) (hcw : s.f5.cwlen.toNat < 255)
    (h : nextUsable s = (some p, t)) (hu : DrawsCw n (appendCw p t) u) : DrawsCw (n + 1) s u := by
  obtain ⟨ht, hlt, -, -, hlast, hleft⟩ := nextUsable_some hp h
  have hcwlen : (appendCw p t).f5.cwlen.toNat = s.f5.cwlen.toNat + 1 := by
    rw [appendCw_cwlen (by rwa [nextUsable_cwlen h]), nextUsable_cwlen h]
  have hv : (appendCw p t).usableLeft = t.usableLeft := rfl
  have hp24 : (BitVec.ofNat 24 p).toNat = p := by
    rw [← hlast, BitVec.ofNat_toNat, BitVec.setWidth_eq]
  have htcw (j : Nat) : t.cwAt j = s.cwAt j := by rw [ht]; rfl
  have hlen : s.usableLeft.length = t.usableLeft.length + 1 := by rw [hleft, List.length_cons]
  have hmin : min (n + 1) s.usableLeft.length = min n t.usableLeft.length + 1 := by omega
  have hulen := hu.cwlen
  rw [hcwlen, hv] at hulen
  constructor
  case state => exact hu.state.trans (by rw [ht]; rfl)
  case cwlen => omega
  case members =>
    intro i hi
    rw [hleft]
    cases i with
    | zero =>
      rw [hu.others _ (.inl (by omega)), ← nextUsable_cwlen h]
      exact (congrArg BitVec.toNat (cwAt_appendCw_self p t)).trans hp24
    | succ i =>
      have hm := hu.members i (by rw [hv]; omega)
      rw [hcwlen, hv] at hm
      rw [List.getD_cons_succ, ← hm, Nat.add_right_comm, Nat.add_assoc]
  case others =>
    intro j hj
    rw [hu.others j (by omega), cwAt_appendCw_ne p t (by rw [nextUsable_cwlen h]; omega), htcw]
  case left => rw [hu.left, hv, hmin, hleft, List.drop_succ_cons]
  case exhausted => exact fun hn => (hu.exhausted (by rw [hv]; omega)).trans (by rw [ht]; rfl)
  case last =>
    intro hn
    rw [hleft, List.take_succ_cons]
    exact drewLast_cons (t := appendCw p t) hlt hlast (fun i => by rw [ht]; rfl) (hu.last (by rw [hv]; omega))
  case cursor =>
    obtain ⟨hlo, hhi⟩ := hu.cursor
    exact ⟨hlt.le.trans hlo, hhi.trans_eq (by rw [ht]; rfl)⟩

/-- Drawing up to `n` members into a code word with room for them. -/
theorem drawCw_draws {n : Nat} {s : State} (hp : s.f5.pos.toNat ≤ s.f5.permN.toNat) (hcw : s.f5.cwlen.toNat + n ≤ 255) :
    DrawsCw n s (drawCw n s).2 := by
  induction n generalizing s with
  | zero => exact .zero hp
  | succ n ih =>
    simp only [drawCw]
    split
    · rename_i t h
      exact .exhaust hp h
    · rename_i p t h
      obtain ⟨-, -, hle, -⟩ := nextUsable_some hp h
      have hN : t.f5.permN = s.f5.permN := congrArg (·.f5.permN) (nextUsable_writes h .permDone (by decide))
      have hl : (appendCw p t).f5.cwlen.toNat = s.f5.cwlen.toNat + 1 := by
        rw [appendCw_cwlen (by rw [nextUsable_cwlen h]; omega), nextUsable_cwlen h]
      exact .cons hp (by omega) h (ih (s := appendCw p t) (hN ▸ hle) (by omega))

end Sys2Proof.Machine

namespace Sys2Proof

open Machine

/-- Settles O48: the two checks of PERMRD and CURSET pass. -/
theorem permrdAndCurset : Obligations.PermrdAndCurset := by
  intro n s hr
  refine ⟨fun hn => ?_, fun hn => ?_⟩
  · exact congrArg Host.Outcome.next ((if_neg (not_noperm hr)).trans (if_neg (Nat.not_le.2 hn)))
  · have hlt := s.f5.permN.isLt
    refine ⟨_, congrArg Host.Outcome.next ((if_neg (not_noperm hr)).trans (if_neg (Nat.not_lt.2 hn))), rfl, ?_⟩
    exact (BitVec.toNat_ofNat _ _).trans (Nat.mod_eq_of_lt (by omega))

/-- Settles O47: each command checks its operand and NeedPerm() in the order of R464, before anything else. -/
theorem permutationCommandsFaultInOrder : Obligations.PermutationCommandsFaultInOrder := by
  intro s
  refine ⟨fun hbad => ?_, fun i hr hi => ?_, fun p hr hlt => ?_, fun n hn => ?_, fun imm himm => ?_, fun val hval => ?_,
    fun hk => ?_, fun hk => ⟨?_, ?_⟩⟩
  · have hr := permReady_eq_false_iff.2 hbad
    refine ⟨fun i => ⟨?_, ?_⟩, fun n hn => ?_, fun imm himm => ?_, fun val h1 hmax hval => ?_, fun h1 => ?_,
      fun hmax => ⟨?_, ?_⟩, ?_, ?_⟩
    · exact congrArg Host.Outcome.next (if_pos hr)
    · exact congrArg Host.Outcome.next (if_pos hr)
    · exact congrArg Host.Outcome.next ((if_neg (Nat.not_lt.2 hn)).trans (if_pos hr))
    · exact congrArg Host.Outcome.next ((if_neg (Nat.not_lt.2 himm)).trans (if_pos hr))
    · exact congrArg Host.Outcome.next ((if_neg (by omega)).trans (if_pos hr))
    · exact congrArg Host.Outcome.next ((if_neg (Nat.not_lt.2 h1)).trans (if_pos hr))
    · exact congrArg Host.Outcome.next ((if_neg (Nat.not_lt.2 hmax)).trans (if_pos hr))
    · exact congrArg Host.Outcome.next ((if_neg (Nat.not_lt.2 hmax)).trans (if_pos hr))
    · exact congrArg Host.Outcome.next (if_pos hr)
    · exact congrArg Host.Outcome.next (if_pos hr)
  · exact congrArg Host.Outcome.next ((if_neg (not_noperm hr)).trans (if_pos hi))
  · exact congrArg Host.Outcome.next ((if_neg (not_noperm hr)).trans (if_pos hlt))
  · exact congrArg Host.Outcome.next (if_pos hn)
  · exact congrArg Host.Outcome.next (if_pos himm)
  · exact congrArg Host.Outcome.next (if_pos (by omega))
  · exact congrArg Host.Outcome.next (if_pos (by omega))
  · exact congrArg Host.Outcome.next (if_pos hk)
  · exact congrArg Host.Outcome.next (if_pos hk)

/-- Settles O49: OFFER draws the code word from the empty one. -/
theorem offerTakesTheNextUsable : Obligations.OfferTakesTheNextUsable := by
  intro count s hcfg hcount hr hp n
  have hmax := cwMax_le hcfg
  have h : DrawsCw count { s with f5.cwlen := 0 } (drawCw count { s with f5.cwlen := 0 }).2 :=
    drawCw_draws hp (by show 0 + count ≤ 255; omega)
  generalize hu : (drawCw count { s with f5.cwlen := 0 }).2 = u at h
  have hempty : ({ s with f5.cwlen := 0 } : State).f5.cwlen.toNat = 0 := rfl
  have hn : u.f5.cwlen.toNat = n := h.cwlen.trans (Nat.zero_add _)
  refine ⟨retire { u with result := u.f5.cwlen.setWidth 32 }, ?_, ?_, ?_, ?_, ?_, ?_, ?_, ?_⟩
  · rw [← hu]
    exact congrArg Host.Outcome.next ((if_neg (Nat.not_lt.2 hcount)).trans (if_neg (not_noperm hr)))
  · obtain ⟨hstate, -⟩ := h
    have hlen : u.f5.cwlen = BitVec.ofNat 8 n := BitVec.eq_of_toNat_eq (by
      rw [hn, BitVec.toNat_ofNat, Nat.mod_eq_of_lt (by omega)])
    have hres : u.f5.cwlen.setWidth 32 = BitVec.ofNat 32 n := BitVec.eq_of_toNat_eq (by
      rw [BitVec.toNat_setWidth, hn, BitVec.toNat_ofNat])
    rw [hres, hstate, hlen]
    rfl
  · intro i hi
    have hm := h.members i hi
    rwa [hempty, Nat.zero_add] at hm
  · exact fun i hi => h.others i (.inr (hn.trans_le hi))
  · exact h.left
  · exact fun hlt => h.exhausted (show s.usableLeft.length < count by omega)
  · intro heq
    rw [heq]
    exact h.last (show count ≤ s.usableLeft.length by omega)
  · obtain ⟨hlo, hhi⟩ := h.cursor
    exact ⟨hlo, hhi.trans_eq (congrArg (·.f5.permN.toNat) h.state).symm⟩

end Sys2Proof

/-! SUPPORT. Binary64 encodings (00_scope.md R14): the value, the sign and the last bit of an encoding, and the grid on which the finite
values lie. -/

namespace Sys2Proof.Machine

/-! ### Signs -/

/-- `±x`. -/
def signedRat (neg : Bool) (x : ℚ) : ℚ := if neg then -x else x

@[simp] theorem signedRat_zero (neg : Bool) : signedRat neg 0 = 0 := by cases neg <;> simp [signedRat]

theorem signedRat_abs (q : ℚ) : signedRat (decide (q < 0)) |q| = q := by
  by_cases h : q < 0
  · simp [signedRat, h, abs_of_neg h]
  · simp [signedRat, h, abs_of_nonneg (not_lt.1 h)]

theorem abs_signedRat (neg : Bool) {x : ℚ} (hx : 0 ≤ x) : |signedRat neg x| = x := by
  cases neg <;> simp [signedRat, abs_of_nonneg hx]

theorem signedRat_neg_iff (neg : Bool) {x : ℚ} (hx : 0 < x) : signedRat neg x < 0 ↔ neg = true := by
  cases neg
  · simpa [signedRat] using hx.le
  · simpa [signedRat] using hx

/-- A sign moves from one side of a distance to the other. -/
theorem abs_signedRat_sub (neg : Bool) (x w : ℚ) : |signedRat neg x - w| = |x - signedRat neg w| := by
  cases neg
  · rfl
  · rw [← abs_neg]
    congr 1
    simp only [signedRat, if_true]
    ring

theorem signedRat_signedRat (a b : Bool) (x : ℚ) : signedRat a (signedRat b x) = signedRat (a != b) x := by
  cases a <;> cases b <;> simp [signedRat]

theorem signedRat_mul_right (neg : Bool) (x y : ℚ) : signedRat neg (x * y) = signedRat neg x * y := by
  cases neg <;> simp [signedRat]

theorem signedRat_mul (a b : Bool) (x y : ℚ) : signedRat a x * signedRat b y = signedRat (a != b) (x * y) := by
  cases a <;> cases b <;> simp [signedRat]

theorem signedRat_div (a b : Bool) (x y : ℚ) : signedRat a x / signedRat b y = signedRat (a != b) (x / y) := by
  cases a <;> cases b <;> simp [signedRat, neg_div, div_neg]

theorem cast_signedNat (neg : Bool) (m : Nat) : ((signedNat neg m : ℤ) : ℚ) = signedRat neg m := by
  cases neg <;> simp [signedNat, signedRat]

theorem signedRat_natAbs (n : ℤ) : signedRat (decide (n < 0)) n.natAbs = n := by
  have h := signedRat_abs n
  simp only [Int.cast_lt_zero] at h
  rwa [Nat.cast_natAbs, Int.cast_abs]

/-! ### Units -/

theorem two_pow_mul_zpow (n : Nat) (e : Int) : (2 : ℚ) ^ n * 2 ^ e = 2 ^ (n + e) := by
  rw [zpow_add₀ two_ne_zero, zpow_natCast]

/-- A multiple of `2^p` in the smaller unit `2^q`. -/
theorem cast_shift_mul (k : Nat) {p q : Int} (h : q ≤ p) : ((k * 2 ^ (p - q).toNat : ℕ) : ℚ) * 2 ^ q = k * 2 ^ p := by
  rw [Nat.cast_mul, mul_assoc, Nat.cast_pow, Nat.cast_ofNat, two_pow_mul_zpow, Int.toNat_of_nonneg (by omega), sub_add_cancel]

theorem signedNat_shift_mul (neg : Bool) (k : Nat) {p q : Int} (h : q ≤ p) :
    ((signedNat neg (k * 2 ^ (p - q).toNat) : ℤ) : ℚ) * 2 ^ q = signedRat neg (k * 2 ^ p) := by
  rw [cast_signedNat, ← signedRat_mul_right, cast_shift_mul k h]

/-! ### The value of an encoding -/

theorem f64Sign_eq (x : F64) : f64Sign x = decide (x.toNat / 2 ^ 63 = 1) := by
  have hx := x.isLt
  rw [f64Sign, BitVec.getLsbD, Nat.testBit_eq_decide_div_mod_eq]
  congr 2
  omega

/-- What the parts of a finite value are within. -/
theorem f64Value_fin {x : F64} {neg : Bool} {m : Nat} {e : Int} (h : f64Value x = .fin neg m e) :
    neg = f64Sign x ∧ m < 2 ^ 53 ∧ -1074 ≤ e := by
  rw [f64Sign_eq]
  simp only [f64Value] at h
  split at h
  · split at h <;> simp at h
  · split at h
    all_goals
      simp only [F64Value.fin.injEq] at h
      obtain ⟨hneg, hm, he⟩ := h
      exact ⟨hneg.symm, by omega, by omega⟩

theorem f64Exact_eq_some {x : F64} {a : ℚ} (h : f64Exact x = some a) :
    ∃ m e, f64Value x = .fin (f64Sign x) m e ∧ a = signedRat (f64Sign x) (m * 2 ^ e) := by
  unfold f64Exact at h
  split at h
  · rename_i neg m e hv
    obtain ⟨rfl, -, -⟩ := f64Value_fin hv
    refine ⟨m, e, hv, ?_⟩
    rw [← Option.some.inj h, cast_signedNat, signedRat_mul_right]
  · simp at h
  · simp at h

theorem f64Exact_of_value {x : F64} {neg : Bool} {m : Nat} {e : Int} (h : f64Value x = .fin neg m e) :
    f64Exact x = some (signedRat neg (m * 2 ^ e)) := by
  rw [f64Exact, h]
  simp only
  rw [cast_signedNat, signedRat_mul_right]

/-- The finite values lie on the grid of any last place `2^q`, or below the 53-bit numbers on it. -/
theorem f64Exact_grid {x : F64} {w : ℚ} (h : f64Exact x = some w) {q : Int} (hq : -1074 ≤ q) :
    (∃ k : ℤ, w = k * 2 ^ q) ∨ (-1074 < q ∧ |w| < 2 ^ 52 * 2 ^ q) := by
  obtain ⟨m, e, hv, rfl⟩ := f64Exact_eq_some h
  obtain ⟨-, hm, he⟩ := f64Value_fin hv
  by_cases hqe : q ≤ e
  · left
    exact ⟨_, (signedNat_shift_mul (f64Sign x) m hqe).symm⟩
  · right
    refine ⟨by omega, ?_⟩
    rw [abs_signedRat _ (by positivity)]
    have hm' : (m : ℚ) < 2 ^ 53 := by exact_mod_cast hm
    calc (m : ℚ) * 2 ^ e < 2 ^ 53 * 2 ^ e := by gcongr
      _ = 2 ^ 52 * 2 ^ (e + 1) := by rw [zpow_add_one₀ two_ne_zero]; ring
      _ ≤ 2 ^ 52 * 2 ^ q := by gcongr <;> [norm_num; omega]

/-! ### Packing -/

theorem f64Pack_toNat (neg : Bool) {ex fr : Nat} (hex : ex < 2 ^ 11) (hfr : fr < 2 ^ 52) :
    (f64Pack neg ex fr).toNat = (if neg then 2 ^ 63 else 0) + ex * 2 ^ 52 + fr := by
  rw [f64Pack, BitVec.toNat_ofNat, Nat.mod_eq_of_lt]
  split <;> omega

theorem f64Sign_pack (neg : Bool) {ex fr : Nat} (hex : ex < 2 ^ 11) (hfr : fr < 2 ^ 52) : f64Sign (f64Pack neg ex fr) = neg := by
  rw [f64Sign_eq, f64Pack_toNat neg hex hfr]
  cases neg
  · simp only [Bool.false_eq_true, if_false, decide_eq_false_iff_not]
    omega
  · simp only [if_true, decide_eq_true_eq]
    omega

theorem f64Value_pack (neg : Bool) {ex fr : Nat} (hex : ex < 2047) (hfr : fr < 2 ^ 52) :
    f64Value (f64Pack neg ex fr) = if ex = 0 then .fin neg fr (-1074) else .fin neg (fr + 2 ^ 52) ((ex : Int) - 1075) := by
  have hbits := f64Pack_toNat neg (by omega : ex < 2 ^ 11) hfr
  have hneg : decide ((f64Pack neg ex fr).toNat / 2 ^ 63 = 1) = neg :=
    (f64Sign_eq _).symm.trans (f64Sign_pack neg (by omega) hfr)
  have hexponent : (f64Pack neg ex fr).toNat / 2 ^ 52 % 2 ^ 11 = ex := by rw [hbits]; split <;> omega
  have hfraction : (f64Pack neg ex fr).toNat % 2 ^ 52 = fr := by rw [hbits]; split <;> omega
  simp only [f64Value, hneg, hexponent, hfraction]
  rw [if_neg (by omega)]

theorem f64Sign_zero (neg : Bool) : f64Sign (f64Zero neg) = neg := f64Sign_pack neg (by omega) (by omega)

theorem f64Exact_zero (neg : Bool) : f64Exact (f64Zero neg) = some 0 := by
  have h := f64Exact_of_value (f64Value_pack neg (ex := 0) (fr := 0) (by omega) (by omega))
  rwa [Nat.cast_zero, zero_mul, signedRat_zero] at h

theorem f64Sign_ofParts (neg : Bool) {mant : Nat} (q : Int) (hm : mant < 2 ^ 53) : f64Sign (f64OfParts neg mant q) = neg := by
  unfold f64OfParts
  split
  · exact f64Sign_pack neg (by omega) ‹_›
  · split
    · exact f64Sign_pack neg (by omega) (by omega)
    · exact f64Sign_pack neg (by omega) (by omega)

/-- The encoding of `mant · 2^q`: its value and its last bit. -/
theorem f64OfParts_value (neg : Bool) {mant : Nat} {q : Int} (hm : mant < 2 ^ 53) (hq : -1074 ≤ q) (hmax : q < 972)
    (hsub : mant < 2 ^ 52 → q = -1074) :
    f64Exact (f64OfParts neg mant q) = some (signedRat neg (mant * 2 ^ q)) ∧ (f64OfParts neg mant q).toNat % 2 = mant % 2 := by
  unfold f64OfParts
  by_cases hlow : mant < 2 ^ 52
  · rw [if_pos hlow, hsub hlow]
    refine ⟨f64Exact_of_value (f64Value_pack neg (by omega) hlow), ?_⟩
    rw [f64Pack_toNat neg (by omega) hlow]
    split <;> omega
  · rw [if_neg hlow, if_neg (by omega)]
    constructor
    · have hv := f64Value_pack neg (by omega : (q + 1075).toNat < 2047) (by omega : mant - 2 ^ 52 < 2 ^ 52)
      rw [if_neg (by omega), Nat.sub_add_cancel (by omega), show ((q + 1075).toNat : Int) - 1075 = q by omega] at hv
      exact f64Exact_of_value hv
    · rw [f64Pack_toNat neg (by omega) (by omega)]
      split <;> omega

/-! ### The opposite sign -/

theorem f64Sign_neg (x : F64) : f64Sign (f64Neg x) = !f64Sign x := by
  have h : (BitVec.ofNat 64 (2 ^ 63)).getLsbD 63 = true := by decide
  rw [f64Sign, f64Neg, BitVec.getLsbD_xor, h, Bool.xor_true, f64Sign]

theorem f64Neg_toNat_mod (x : F64) : (f64Neg x).toNat % 2 ^ 63 = x.toNat % 2 ^ 63 := by
  have h : BitVec.toNat (BitVec.ofNat 64 (2 ^ 63)) = 2 ^ 63 := by decide
  rw [f64Neg, BitVec.toNat_xor, Nat.xor_mod_two_pow, h, Nat.mod_self, Nat.xor_zero]

theorem f64Value_neg {x : F64} {neg : Bool} {m : Nat} {e : Int} (h : f64Value x = .fin neg m e) :
    f64Value (f64Neg x) = .fin (!neg) m e := by
  have hsign := f64Sign_neg x
  have hlow := f64Neg_toNat_mod x
  rw [f64Sign_eq, f64Sign_eq] at hsign
  have hexponent : (f64Neg x).toNat / 2 ^ 52 % 2 ^ 11 = x.toNat / 2 ^ 52 % 2 ^ 11 := by omega
  have hfraction : (f64Neg x).toNat % 2 ^ 52 = x.toNat % 2 ^ 52 := by omega
  simp only [f64Value] at h ⊢
  rw [hsign, hexponent, hfraction]
  split at h
  · split at h <;> simp at h
  · rw [if_neg ‹_›]
    split at h
    all_goals
      simp only [F64Value.fin.injEq] at h
      obtain ⟨rfl, rfl, rfl⟩ := h
    · rw [if_pos ‹_›]
    · rw [if_neg ‹_›]

theorem f64Exact_neg {x : F64} {a : ℚ} (h : f64Exact x = some a) : f64Exact (f64Neg x) = some (-a) := by
  obtain ⟨m, e, hv, rfl⟩ := f64Exact_eq_some h
  rw [f64Exact_of_value (f64Value_neg hv), ← Bool.true_bne, ← signedRat_signedRat]
  rfl

end Sys2Proof.Machine

/-! SUPPORT. Rounding to binary64 (00_scope.md R14): `RoundsTo x q mant` says that `mant · 2^q` is `x` rounded to 53 bits with last place
`2^q`; its encoding is then the nearest one, and `f64Round` finds these parts. -/

namespace Sys2Proof.Machine

/-- `mant` is the integer nearest to `x` in units of `u`, ties to even. -/
structure RoundsIn (u x : ℚ) (mant : Nat) : Prop where
  near : 2 * |x - mant * u| ≤ u
  tie : 2 * |x - mant * u| = u → mant % 2 = 0

namespace RoundsIn

variable {u x : ℚ} {mant : Nat}

theorem of_lt (h : 2 * |x - mant * u| < u) : RoundsIn u x mant := ⟨h.le, fun heq => absurd heq h.ne⟩

theorem of_even (h : 2 * |x - mant * u| ≤ u) (heven : mant % 2 = 0) : RoundsIn u x mant := ⟨h, fun _ => heven⟩

theorem exact (mant : Nat) (hu : 0 < u) : RoundsIn u (mant * u) mant :=
  .of_lt (by rwa [sub_self, abs_zero, mul_zero])

theorem scale (h : RoundsIn u x mant) {c : ℚ} (hc : 0 < c) : RoundsIn (u * c) (x * c) mant := by
  obtain ⟨hnear, htie⟩ := h
  constructor <;> rw [← mul_assoc, ← sub_mul, abs_mul, abs_of_pos hc, ← mul_assoc]
  · exact mul_le_mul_of_nonneg_right hnear hc.le
  · exact fun heq => htie (mul_right_cancel₀ hc.ne' heq)

end RoundsIn

/-- `mant · 2^q` is `x` rounded to 53 bits, where `2^q` is the last place of the magnitude `x`. -/
structure RoundsTo (x : ℚ) (q : Int) (mant : Nat) : Prop extends RoundsIn (2 ^ q) x mant where
  lowest : -1074 ≤ q
  leading : -1074 < q → 2 ^ 52 * 2 ^ q ≤ x
  fits : x < 2 ^ 53 * 2 ^ q

namespace RoundsTo

variable {x : ℚ} {q : Int} {mant : Nat}

/-- No other multiple of the last place is nearer. -/
theorem near_multiple (h : RoundsTo x q mant) (k : ℤ) :
    |x - mant * 2 ^ q| ≤ |x - k * 2 ^ q| ∧
      (|x - k * 2 ^ q| = |x - mant * 2 ^ q| → (k : ℚ) * 2 ^ q ≠ mant * 2 ^ q → mant % 2 = 0) := by
  by_cases hk : k = mant
  · subst hk
    exact ⟨le_refl _, fun _ hne => absurd rfl hne⟩
  have hu : (0 : ℚ) < 2 ^ q := by positivity
  have hgap : (2 : ℚ) ^ q ≤ |x - k * 2 ^ q| + |x - mant * 2 ^ q| := by
    have hone : (1 : ℚ) ≤ |(mant : ℚ) - k| := by
      have : (1 : ℤ) ≤ |(mant : ℤ) - k| := Int.one_le_abs (by omega)
      exact_mod_cast this
    calc (2 : ℚ) ^ q ≤ |(mant : ℚ) - k| * 2 ^ q := le_mul_of_one_le_left hu.le hone
      _ = |(x - k * 2 ^ q) - (x - mant * 2 ^ q)| := by
        rw [← abs_of_pos hu, ← abs_mul, abs_of_pos hu]
        congr 1
        ring
      _ ≤ _ := abs_sub _ _
  have hnear := h.near
  exact ⟨by linarith, fun heq _ => h.tie (by linarith)⟩

/-- No other finite binary64 value is nearer. -/
theorem nearest (h : RoundsTo x q mant) {y : F64} {w : ℚ} (hw : f64Exact y = some w) :
    |x - mant * 2 ^ q| ≤ |x - w| ∧ (|x - w| = |x - mant * 2 ^ q| → w ≠ mant * 2 ^ q → mant % 2 = 0) := by
  rcases f64Exact_grid hw h.lowest with ⟨k, rfl⟩ | ⟨hq, hsmall⟩
  · exact h.near_multiple k
  · have hlead := h.leading hq
    have hlt : |x - mant * 2 ^ q| < |x - w| := by
      have hw' := (abs_lt.1 hsmall).2
      have hedge := (h.near_multiple (2 ^ 52)).1
      rw [Int.cast_pow, Int.cast_ofNat, abs_of_nonneg (sub_nonneg.2 hlead)] at hedge
      rw [abs_of_pos (by linarith : 0 < x - w)]
      linarith
    exact ⟨hlt.le, fun heq => absurd heq hlt.ne'⟩

theorem le_two_pow (h : RoundsTo x q mant) : mant ≤ 2 ^ 53 := by
  by_contra hlt
  have hu : (0 : ℚ) < 2 ^ q := by positivity
  have hm : (2 ^ 53 + 1 : ℚ) * 2 ^ q ≤ mant * 2 ^ q := by
    gcongr
    exact_mod_cast Nat.not_le.1 hlt
  have hfits := h.fits
  have hnear := h.near
  rw [abs_sub_comm, abs_of_nonneg (by linarith)] at hnear
  linarith

theorem two_pow_le (h : RoundsTo x q mant) (hq : -1074 < q) : 2 ^ 52 ≤ mant := by
  by_contra hlt
  have hu : (0 : ℚ) < 2 ^ q := by positivity
  have hm : (mant : ℚ) * 2 ^ q ≤ (2 ^ 52 - 1) * 2 ^ q := by
    gcongr
    rw [le_sub_iff_add_le]
    exact_mod_cast Nat.not_le.1 hlt
  have hlead := h.leading hq
  have hnear := h.near
  rw [abs_of_nonneg (by linarith)] at hnear
  linarith

/-- Rounding reaches the next binade exactly from the midpoint below it on. -/
theorem eq_two_pow_iff (h : RoundsTo x q mant) : mant = 2 ^ 53 ↔ (2 ^ 53 - 1 / 2) * 2 ^ q ≤ x := by
  have hu : (0 : ℚ) < 2 ^ q := by positivity
  have hfits := h.fits
  have hnear := h.near
  constructor
  · rintro rfl
    push_cast at hnear
    rw [abs_sub_comm, abs_of_nonneg (by linarith)] at hnear
    linarith
  · intro hx
    refine le_antisymm h.le_two_pow (not_lt.1 fun hlt => ?_)
    have hm : (mant : ℚ) * 2 ^ q ≤ (2 ^ 53 - 1) * 2 ^ q := by
      gcongr
      rw [le_sub_iff_add_le]
      exact_mod_cast hlt
    rw [abs_of_nonneg (by linarith)] at hnear
    have hmul : (mant : ℚ) * 2 ^ q = (2 ^ 53 - 1 : ℕ) * 2 ^ q := by push_cast; linarith
    have hmant : mant = 2 ^ 53 - 1 := by exact_mod_cast mul_right_cancel₀ hu.ne' hmul
    have htie := h.tie (by rw [abs_of_nonneg (by linarith)]; linarith)
    omega

end RoundsTo

/-- The midpoint above the 53-bit numbers with last place `2^(n + 1)`. -/
theorem carryMidpoint_eq (n : Nat) : (2 : ℚ) ^ (n + 54) - 2 ^ n = (2 ^ 53 - 1 / 2) * 2 ^ (n + 1 : ℤ) := by
  rw [zpow_add_one₀ two_ne_zero, zpow_natCast, pow_add]
  ring

/-- The overflow midpoint, in the last place of the largest finite values. -/
theorem overflowMidpoint_eq : (2 : ℚ) ^ 1024 - 2 ^ 970 = (2 ^ 53 - 1 / 2) * 2 ^ (971 : ℤ) := carryMidpoint_eq 970

/-- The encoding of a rounded magnitude: a carry out of 53 bits goes to the next exponent. -/
def f64OfRounded (neg : Bool) (mant : Nat) (q : Int) : F64 :=
  if mant = 2 ^ 53 then f64OfParts neg (2 ^ 52) (q + 1) else f64OfParts neg mant q

namespace RoundsTo

variable {x : ℚ} {q : Int} {mant : Nat}

theorem f64Sign_ofRounded (h : RoundsTo x q mant) (neg : Bool) : f64Sign (f64OfRounded neg mant q) = neg := by
  have hle := h.le_two_pow
  unfold f64OfRounded
  split <;> exact f64Sign_ofParts neg _ (by omega)

/-- Below the overflow midpoint the encoding's value is `mant · 2^q`, and its last bit is that of `mant`. -/
theorem ofRounded_value (h : RoundsTo x q mant) (neg : Bool) (hx : x < 2 ^ 1024 - 2 ^ 970) :
    f64Exact (f64OfRounded neg mant q) = some (signedRat neg (mant * 2 ^ q)) ∧
      (f64OfRounded neg mant q).toNat % 2 = mant % 2 := by
  have hle := h.le_two_pow
  have hlow := h.lowest
  have hq : q ≤ 971 := by
    by_contra hgt
    have hlead := h.leading (by omega)
    have hpow : (2 : ℚ) ^ (971 + 1 : ℤ) ≤ 2 ^ q := zpow_le_zpow_right₀ one_le_two (by omega)
    have hpos : (0 : ℚ) < 2 ^ (971 : ℤ) := by positivity
    rw [zpow_add_one₀ two_ne_zero] at hpow
    rw [overflowMidpoint_eq] at hx
    generalize (2 : ℚ) ^ (971 : ℤ) = u at hpow hpos hx
    linarith
  unfold f64OfRounded
  split
  · rename_i hm
    have hq' : q ≠ 971 := by
      rintro rfl
      exact not_le.2 hx (overflowMidpoint_eq ▸ h.eq_two_pow_iff.1 hm)
    obtain ⟨hv, hp⟩ := f64OfParts_value neg (mant := 2 ^ 52) (q := q + 1) (by omega) (by omega) (by omega) (by omega)
    refine ⟨?_, by omega⟩
    rw [hv, hm, zpow_add_one₀ two_ne_zero]
    congr 2
    push_cast
    ring
  · refine f64OfParts_value neg (by omega) hlow (by omega) fun hlt => ?_
    by_contra hne
    have := h.two_pow_le (by omega)
    omega

/-- From the overflow midpoint on the encoding is an infinity. -/
theorem ofRounded_overflow (h : RoundsTo x q mant) (neg : Bool) (hx : 2 ^ 1024 - 2 ^ 970 ≤ x) :
    f64OfRounded neg mant q = f64Inf neg := by
  have hq : 971 ≤ q := by
    by_contra hlt
    have hfits := h.fits
    have hpow : (2 : ℚ) ^ (q + 1) ≤ 2 ^ (971 : ℤ) := zpow_le_zpow_right₀ one_le_two (by omega)
    have hpos : (0 : ℚ) < 2 ^ (971 : ℤ) := by positivity
    rw [zpow_add_one₀ two_ne_zero] at hpow
    rw [overflowMidpoint_eq] at hx
    generalize (2 : ℚ) ^ (971 : ℤ) = u at hpow hpos hx
    linarith
  have hmid : q = 971 → mant = 2 ^ 53 := by
    rintro rfl
    exact h.eq_two_pow_iff.2 (overflowMidpoint_eq ▸ hx)
  have hlow := h.two_pow_le (by omega)
  unfold f64OfRounded f64OfParts
  split <;> rw [if_neg (by omega), if_pos (by omega)]

/-- The encoding of a rounded magnitude is the nearest binary64 value. -/
theorem nearestEven (h : RoundsTo x q mant) (neg : Bool) (hx : 0 < x) :
    NearestEven (signedRat neg x) (f64OfRounded neg mant q) := by
  unfold NearestEven
  rw [abs_signedRat neg hx.le]
  split
  · rename_i hbig
    rw [h.ofRounded_overflow neg hbig]
    congr 1
    rw [Bool.eq_iff_iff, decide_eq_true_eq, signedRat_neg_iff neg hx]
  · rename_i hsmall
    obtain ⟨hv, hparity⟩ := h.ofRounded_value neg (not_le.1 hsmall)
    refine ⟨_, hv, fun y w hw => ?_⟩
    have hsigned : f64Exact (if neg then f64Neg y else y) = some (signedRat neg w) := by
      cases neg
      · exact hw
      · exact f64Exact_neg hw
    obtain ⟨hnear, htie⟩ := h.nearest hsigned
    rw [abs_signedRat_sub, abs_signedRat_sub, signedRat_signedRat, bne_self_eq_false, hparity]
    refine ⟨hnear, fun heq hne => htie heq fun h' => hne ?_⟩
    rw [← h', signedRat_signedRat, bne_self_eq_false]
    rfl

end RoundsTo

/-! ### `f64Round` -/

/-- `M` stands for the magnitude `y` when it is rounded: it is `y`, or it is odd, of at least 56 bits, and less than 1 away. -/
def StandsFor (M : Nat) (y : ℚ) : Prop := y = M ∨ (2 ^ 55 ≤ M ∧ M % 2 = 1 ∧ (M : ℚ) - 1 < y ∧ y < M + 1)

namespace StandsFor

variable {M : Nat} {y : ℚ}

/-- `M` and `y` lie on the same side of every even number. -/
theorem same_side (h : StandsFor M y) {t : Nat} (ht : y = M ∨ t % 2 = 0) : (y < t ↔ M < t) ∧ ((t : ℚ) < y ↔ t < M) := by
  rcases h with rfl | ⟨-, hodd, hlo, hhi⟩
  · exact ⟨Nat.cast_lt, Nat.cast_lt⟩
  · rcases ht with rfl | heven
    · exact ⟨Nat.cast_lt, Nat.cast_lt⟩
    · rcases Nat.lt_or_gt_of_ne (by omega : M ≠ t) with hlt | hgt
      · have : (M : ℚ) + 1 ≤ t := by exact_mod_cast hlt
        exact ⟨iff_of_true (by linarith) hlt, iff_of_false (by linarith) (by omega)⟩
      · have : (t : ℚ) + 1 ≤ M := by exact_mod_cast hgt
        exact ⟨iff_of_false (by linarith) (by omega), iff_of_true (by linarith) hgt⟩

theorem lt_cast_iff (h : StandsFor M y) {t : Nat} (ht : y = M ∨ t % 2 = 0) : y < t ↔ M < t := (h.same_side ht).1

theorem cast_lt_iff (h : StandsFor M y) {t : Nat} (ht : y = M ∨ t % 2 = 0) : (t : ℚ) < y ↔ t < M := (h.same_side ht).2

theorem cast_le_iff (h : StandsFor M y) {t : Nat} (ht : y = M ∨ t % 2 = 0) : (t : ℚ) ≤ y ↔ t ≤ M := by
  rw [← not_lt, ← not_lt, h.lt_cast_iff ht]

/-- `roundShift` rounds the magnitude that `M` stands for. -/
theorem roundsIn_roundShift (h : StandsFor M y) {k : Nat} (hexact : y = M ∨ 1 ≤ k) :
    RoundsIn (2 ^ (k + 1)) y (roundShift M (k + 1)) := by
  obtain ⟨c, hc⟩ : ∃ c, c = 2 ^ k := ⟨_, rfl⟩
  have hcast : (2 : ℚ) ^ (k + 1) = 2 * c := by rw [hc, pow_succ']; push_cast; rfl
  have hcpos : 0 < c := hc ▸ Nat.two_pow_pos k
  have heven (t : Nat) : y = M ∨ t * c % 2 = 0 := hexact.imp_right fun hk => by
    rw [hc, ← Nat.sub_add_cancel hk, pow_succ, ← mul_assoc, Nat.mul_mod_left]
  have below (t : Nat) : y < (t * c : ℕ) ↔ M < t * c := h.lt_cast_iff (heven t)
  have above (t : Nat) : (t * c : ℕ) < y ↔ t * c < M := h.cast_lt_iff (heven t)
  have hM : M = M / (2 * c) * (2 * c) + M % (2 * c) := (Nat.div_add_mod' _ _).symm
  have hr : M % (2 * c) < 2 * c := Nat.mod_lt _ (by omega)
  rw [hcast, roundShift, Nat.add_sub_cancel, pow_succ', ← hc]
  generalize M / (2 * c) = f at hM ⊢
  generalize M % (2 * c) = r at hM hr ⊢
  rcases Nat.lt_trichotomy r c with hlt | rfl | hgt
  · have hlo := (not_congr (below (2 * f))).2 (by lia)
    have hhi := (below (2 * f + 1)).2 (by lia)
    rw [if_neg (by omega)]
    push_cast at hlo hhi
    exact .of_lt (by rw [abs_of_nonneg (by linarith)]; linarith)
  · have hlo := (not_congr (below (2 * f + 1))).2 (by lia)
    have hhi := (not_congr (above (2 * f + 1))).2 (by lia)
    push_cast at hlo hhi
    have hy : y = (2 * f + 1) * r := le_antisymm (not_lt.1 hhi) (not_lt.1 hlo)
    subst hy
    split
    · rename_i hodd
      exact .of_even (by push_cast; rw [abs_of_nonpos (by linarith)]; linarith) (by omega)
    · exact .of_even (by rw [abs_of_nonneg (by linarith)]; linarith) (by omega)
  · have hlo := (above (2 * f + 1)).2 (by lia)
    have hhi := (below (2 * f + 2)).2 (by lia)
    rw [if_pos (.inl hgt)]
    push_cast at hlo hhi
    exact .of_lt (by push_cast; rw [abs_of_nonpos (by linarith)]; linarith)

end StandsFor

/-- The last place that 53 bits of `M · 2^e` reach down to, at least the least one there is. -/
def lastPlace (M : Nat) (e : Int) : Int := max (e + (Nat.log2 M + 1 : Nat) - 53) (-1074)

/-- `M · 2^e` in units of its last place, rounded. -/
def roundedMant (M : Nat) (e : Int) : Nat :=
  if lastPlace M e ≤ e then M * 2 ^ (e - lastPlace M e).toNat else roundShift M (lastPlace M e - e).toNat

theorem f64Round_zero (neg : Bool) (e : Int) : f64Round neg 0 e = f64Zero neg := if_pos rfl

theorem f64Round_of_ne_zero (neg : Bool) {M : Nat} (hM : M ≠ 0) (e : Int) :
    f64Round neg M e = f64OfRounded neg (roundedMant M e) (lastPlace M e) := if_neg hM

namespace StandsFor

variable {M : Nat} {y : ℚ}

/-- A number with few bits stands for itself only. -/
theorem exact_or_long (h : StandsFor M y) : y = M ∨ 55 ≤ Nat.log2 M := by
  refine h.imp_right fun hlong => ?_
  obtain ⟨hbig, -⟩ := hlong
  exact (Nat.le_log2 (by omega)).2 hbig

theorem two_pow_log2_le (h : StandsFor M y) (hM : M ≠ 0) : (2 : ℚ) ^ Nat.log2 M ≤ y := by
  have heven : y = M ∨ 2 ^ Nat.log2 M % 2 = 0 :=
    h.exact_or_long.imp_right fun hlog => by rw [← Nat.sub_add_cancel (by omega : 1 ≤ Nat.log2 M), pow_succ, Nat.mul_mod_left]
  exact_mod_cast (h.cast_le_iff heven).2 (Nat.log2_self_le hM)

theorem lt_two_pow_log2 (h : StandsFor M y) : y < 2 ^ (Nat.log2 M + 1) := by
  exact_mod_cast (h.lt_cast_iff (.inr (by rw [pow_succ, Nat.mul_mod_left]))).2 Nat.lt_log2_self

theorem roundsIn_roundedMant (h : StandsFor M y) (e : Int) : RoundsIn (2 ^ lastPlace M e) (y * 2 ^ e) (roundedMant M e) := by
  have hlong := h.exact_or_long
  have hplace : lastPlace M e = max (e + (Nat.log2 M + 1 : Nat) - 53) (-1074) := rfl
  unfold roundedMant
  split
  · have hy : y = M := hlong.resolve_right (by omega)
    rw [hy, ← cast_shift_mul M ‹_›]
    exact .exact _ (by positivity)
  · obtain ⟨k, hk⟩ : ∃ k, (lastPlace M e - e).toNat = k + 1 := ⟨_, (Nat.sub_add_cancel (by omega)).symm⟩
    have hunit : (2 : ℚ) ^ lastPlace M e = 2 ^ (k + 1) * 2 ^ e := by rw [two_pow_mul_zpow]; congr 1; omega
    rw [hk, hunit]
    exact (h.roundsIn_roundShift (hlong.imp_right fun _ => by omega)).scale (by positivity)

/-- What `f64Round` makes of `M · 2^e` is the magnitude that stands behind it, rounded. -/
theorem roundsTo (h : StandsFor M y) (hM : M ≠ 0) (e : Int) : RoundsTo (y * 2 ^ e) (lastPlace M e) (roundedMant M e) := by
  have hlow := h.two_pow_log2_le hM
  have hhigh := h.lt_two_pow_log2
  have hplace : lastPlace M e = max (e + (Nat.log2 M + 1 : Nat) - 53) (-1074) := rfl
  refine ⟨h.roundsIn_roundedMant e, by omega, fun hlt => ?_, ?_⟩
  · calc (2 : ℚ) ^ 52 * 2 ^ lastPlace M e = 2 ^ Nat.log2 M * 2 ^ e := by
          rw [two_pow_mul_zpow, two_pow_mul_zpow]
          congr 1
          push_cast
          omega
      _ ≤ y * 2 ^ e := by gcongr
  · calc y * 2 ^ e < 2 ^ (Nat.log2 M + 1) * 2 ^ e := by gcongr
      _ ≤ 2 ^ 53 * 2 ^ lastPlace M e := by
        rw [two_pow_mul_zpow, two_pow_mul_zpow]
        exact zpow_le_zpow_right₀ one_le_two (by push_cast; omega)

end StandsFor

/-- A zero is nearest to 0. -/
theorem nearestEven_zero (neg : Bool) : NearestEven 0 (f64Zero neg) := by
  unfold NearestEven
  rw [if_neg (by rw [abs_zero, overflowMidpoint_eq]; exact not_le.2 (by positivity))]
  exact ⟨0, f64Exact_zero neg, fun y w _ => ⟨by simp, fun h hw => absurd (by simpa using h) hw⟩⟩

/-- `f64Round` gives the binary64 value nearest to the magnitude that stands behind `M`, with the sign asked for. -/
theorem StandsFor.nearestEven {M : Nat} {y : ℚ} (h : StandsFor M y) (neg : Bool) (e : Int) :
    NearestEven (signedRat neg (y * 2 ^ e)) (f64Round neg M e) := by
  by_cases hM : M = 0
  · subst hM
    have hy : y = 0 := by exact_mod_cast h.resolve_right fun hlong => by omega
    rw [hy, zero_mul, signedRat_zero, f64Round_zero]
    exact nearestEven_zero neg
  · rw [f64Round_of_ne_zero neg hM]
    have hpos : 0 < y := lt_of_lt_of_le (by positivity) (h.two_pow_log2_le hM)
    exact (h.roundsTo hM e).nearestEven neg (by positivity)

theorem standsFor_self (M : Nat) : StandsFor M M := .inl rfl

theorem f64Sign_round (neg : Bool) (M : Nat) (e : Int) : f64Sign (f64Round neg M e) = neg := by
  by_cases hM : M = 0
  · rw [hM, f64Round_zero, f64Sign_zero]
  · rw [f64Round_of_ne_zero neg hM, ((standsFor_self M).roundsTo hM e).f64Sign_ofRounded]

end Sys2Proof.Machine

/-! SUPPORT. The binary64 operations on finite values (00_scope.md R14): each rounds its exact result once. Rounding to an integer
(42_transform_quant.md R228). -/

namespace Sys2Proof.Machine

/-! ### What each operation rounds -/

section

variable {x y : F64} {a b : Bool} {m n : Nat} {e f : Int}

theorem fadd_fin (hx : f64Value x = .fin a m e) (hy : f64Value y = .fin b n f) :
    fadd x y =
      let sum := signedNat a (m * 2 ^ (e - min e f).toNat) + signedNat b (n * 2 ^ (f - min e f).toNat)
      if sum = 0 then f64Zero (a && b) else f64Round (decide (sum < 0)) sum.natAbs (min e f) := by
  rw [fadd, hx, hy]

theorem fmul_fin (hx : f64Value x = .fin a m e) (hy : f64Value y = .fin b n f) :
    fmul x y = f64Round (a != b) (m * n) (e + f) := by
  rw [fmul, hx, hy]

/-- The quotient's bits with the sticky bit last. -/
def stickyQuotient (m n : Nat) : Nat :=
  2 * (m * 2 ^ (Nat.log2 n + 56) / n) + if m * 2 ^ (Nat.log2 n + 56) % n = 0 then 0 else 1

theorem fdiv_fin (hx : f64Value x = .fin a m e) (hy : f64Value y = .fin b n f) (hn : n ≠ 0) :
    fdiv x y = f64Round (a != b) (stickyQuotient m n) (e - f - (Nat.log2 n + 56 : Nat) - 1) := by
  rw [fdiv, hx, hy]
  exact if_neg hn

end

theorem stickyQuotient_standsFor (m : Nat) {n : Nat} (hn : n ≠ 0) :
    StandsFor (stickyQuotient m n) (m * 2 ^ (Nat.log2 n + 57) / n) := by
  have hn' : (0 : ℚ) < n := by exact_mod_cast Nat.pos_of_ne_zero hn
  have hdiv : (m : ℚ) * 2 ^ (Nat.log2 n + 56) =
      n * (m * 2 ^ (Nat.log2 n + 56) / n : ℕ) + (m * 2 ^ (Nat.log2 n + 56) % n : ℕ) := by
    exact_mod_cast (Nat.div_add_mod _ _).symm
  have hrem : ((m * 2 ^ (Nat.log2 n + 56) % n : ℕ) : ℚ) < n := by exact_mod_cast Nat.mod_lt _ (Nat.pos_of_ne_zero hn)
  have hlarge : m ≠ 0 → 2 ^ 55 ≤ m * 2 ^ (Nat.log2 n + 56) / n := fun hm => by
    rw [Nat.le_div_iff_mul_le (Nat.pos_of_ne_zero hn)]
    calc 2 ^ 55 * n ≤ 2 ^ 55 * 2 ^ (Nat.log2 n + 1) := Nat.mul_le_mul_left _ Nat.lt_log2_self.le
      _ = 1 * 2 ^ (Nat.log2 n + 56) := by rw [one_mul, ← pow_add, Nat.add_comm 55]
      _ ≤ m * 2 ^ (Nat.log2 n + 56) := Nat.mul_le_mul_right _ (Nat.pos_of_ne_zero hm)
  rw [pow_succ, ← mul_assoc, hdiv, stickyQuotient]
  split
  · rename_i h0
    left
    rw [h0]
    push_cast
    field_simp
    ring
  · rename_i h0
    have hm : m ≠ 0 := by rintro rfl; simp at h0
    have hpos : (0 : ℚ) < (m * 2 ^ (Nat.log2 n + 56) % n : ℕ) := by exact_mod_cast Nat.pos_of_ne_zero h0
    have hq := hlarge hm
    generalize m * 2 ^ (Nat.log2 n + 56) / n = quo at hq ⊢
    generalize m * 2 ^ (Nat.log2 n + 56) % n = rem at hpos hrem ⊢
    refine .inr ⟨by omega, by omega, ?_, ?_⟩
    · rw [lt_div_iff₀ hn']
      push_cast
      linarith
    · rw [div_lt_iff₀ hn']
      push_cast
      linarith

/-! ### Nearest results -/

/-- An integer in units of `2^e`, rounded. -/
theorem f64Round_int_nearest (n e : ℤ) : NearestEven (n * 2 ^ e) (f64Round (decide (n < 0)) n.natAbs e) := by
  have h := (standsFor_self n.natAbs).nearestEven (decide (n < 0)) e
  rwa [signedRat_mul_right, signedRat_natAbs] at h

section

variable {x y : F64} {a b : ℚ} (hx : f64Exact x = some a) (hy : f64Exact y = some b)
include hx hy

theorem f64Sign_fmul : f64Sign (fmul x y) = (f64Sign x != f64Sign y) := by
  obtain ⟨m, e, hvx, rfl⟩ := f64Exact_eq_some hx
  obtain ⟨n, f, hvy, rfl⟩ := f64Exact_eq_some hy
  rw [fmul_fin hvx hvy, f64Sign_round]

theorem fmul_nearest : NearestEven (a * b) (fmul x y) := by
  obtain ⟨m, e, hvx, rfl⟩ := f64Exact_eq_some hx
  obtain ⟨n, f, hvy, rfl⟩ := f64Exact_eq_some hy
  rw [fmul_fin hvx hvy]
  have h := (standsFor_self (m * n)).nearestEven (f64Sign x != f64Sign y) (e + f)
  rwa [zpow_add₀ two_ne_zero, Nat.cast_mul, mul_mul_mul_comm, ← signedRat_mul] at h

/-- The sum is an integer in units of the smaller exponent. -/
theorem fadd_nearest : NearestEven (a + b) (fadd x y) ∧ (a + b = 0 → fadd x y = f64Zero (f64Sign x && f64Sign y)) := by
  obtain ⟨m, e, hvx, rfl⟩ := f64Exact_eq_some hx
  obtain ⟨n, f, hvy, rfl⟩ := f64Exact_eq_some hy
  rw [fadd_fin hvx hvy]
  rw [← signedNat_shift_mul _ m (min_le_left e f), ← signedNat_shift_mul _ n (min_le_right e f), ← add_mul, ← Int.cast_add]
  generalize signedNat _ (m * _) + signedNat _ (n * _) = sum
  dsimp only
  split
  · rename_i h0
    rw [h0, Int.cast_zero, zero_mul]
    exact ⟨nearestEven_zero _, fun _ => rfl⟩
  · rename_i h0
    exact ⟨f64Round_int_nearest sum _, fun hsum => absurd hsum (by positivity)⟩

theorem fsub_nearest : NearestEven (a - b) (fsub x y) ∧ (a - b = 0 → fsub x y = f64Zero (f64Sign x && !f64Sign y)) := by
  have h := fadd_nearest hx (f64Exact_neg hy)
  rwa [← sub_eq_add_neg, f64Sign_neg] at h

theorem fdiv_nearest (hb : b ≠ 0) :
    NearestEven (a / b) (fdiv x y) ∧ f64Sign (fdiv x y) = (f64Sign x != f64Sign y) := by
  obtain ⟨m, e, hvx, rfl⟩ := f64Exact_eq_some hx
  obtain ⟨n, f, hvy, rfl⟩ := f64Exact_eq_some hy
  have hn : n ≠ 0 := by rintro rfl; simp at hb
  rw [fdiv_fin hvx hvy hn]
  refine ⟨?_, f64Sign_round _ _ _⟩
  have h := (stickyQuotient_standsFor m hn).nearestEven (f64Sign x != f64Sign y) (e - f - (Nat.log2 n + 56 : Nat) - 1)
  have hscale : (m : ℚ) * 2 ^ (Nat.log2 n + 57) / n * 2 ^ (e - f - (Nat.log2 n + 56 : Nat) - 1) = m * 2 ^ e / (n * 2 ^ f) := by
    rw [sub_sub _ _ (1 : ℤ), ← Nat.cast_add_one, zpow_sub₀ two_ne_zero, zpow_sub₀ two_ne_zero, zpow_natCast]
    field_simp
  rwa [hscale, ← signedRat_div] at h

end

/-! ### Integers -/

/-- `f64(n)` is exact when 53 bits hold it. -/
theorem f64OfInt_exact {n : Int} (hn : n.natAbs < 2 ^ 53) : f64Exact (f64OfInt n) = some (n : ℚ) := by
  by_cases h0 : n.natAbs = 0
  · rw [Int.natAbs_eq_zero.1 h0, Int.cast_zero]
    exact f64Exact_zero false
  · have hlog : Nat.log2 n.natAbs < 53 := (Nat.log2_lt h0).2 hn
    have hplace : lastPlace n.natAbs 0 ≤ 0 := by
      unfold lastPlace
      omega
    have hmant : (roundedMant n.natAbs 0 : ℚ) * 2 ^ lastPlace n.natAbs 0 = n.natAbs := by
      rw [roundedMant, if_pos hplace, cast_shift_mul _ hplace, zpow_zero, mul_one]
    have hsmall : (n.natAbs : ℚ) * 2 ^ (0 : ℤ) < 2 ^ 1024 - 2 ^ 970 := by
      have hn' : (n.natAbs : ℚ) < 2 ^ 53 := by exact_mod_cast hn
      have hpow : (2 : ℚ) ^ (1 : ℤ) ≤ 2 ^ (971 : ℤ) := zpow_le_zpow_right₀ one_le_two (by omega)
      rw [zpow_one] at hpow
      rw [overflowMidpoint_eq, zpow_zero, mul_one]
      generalize (2 : ℚ) ^ (971 : ℤ) = u at hpow ⊢
      linarith
    obtain ⟨hvalue, -⟩ := ((standsFor_self n.natAbs).roundsTo h0 0).ofRounded_value (decide (n < 0)) hsmall
    rw [f64OfInt, f64Round_of_ne_zero _ h0, hvalue, hmant, signedRat_natAbs]

/-- A decimal literal is the binary64 value nearest to it. -/
theorem f64Decimal_nearest {n d : Nat} (hn : n < 2 ^ 53) (hd : 10 ^ d < 2 ^ 53) :
    NearestEven (n / 10 ^ d) (f64Decimal n d) := by
  have hne : (((10 ^ d : Nat) : ℤ) : ℚ) ≠ 0 := by positivity
  obtain ⟨h, -⟩ := fdiv_nearest (f64OfInt_exact (n := n) hn) (f64OfInt_exact (n := (10 ^ d : Nat)) hd) hne
  have hvalue : ((n : ℤ) : ℚ) / (((10 ^ d : Nat) : ℤ) : ℚ) = n / 10 ^ d := by push_cast; rfl
  rwa [hvalue] at h

/-! ### Rounding to an integer (42_transform_quant.md R228) -/

section

variable {x : F64} {neg : Bool} {m : Nat} {e : Int}

theorem roundF64_of_nonneg (tie : TieRule) (hx : f64Value x = .fin neg m e) (he : 0 ≤ e) :
    roundF64 tie x = signedNat neg m * 2 ^ e.toNat := by
  rw [roundF64, hx]
  cases neg <;> simp [he, signedNat]

theorem roundF64_of_neg (tie : TieRule) (hx : f64Value x = .fin neg m e) (he : e < 0) :
    roundF64 tie x = roundRatio tie (signedNat neg m) (2 ^ (-e).toNat) := by
  rw [roundF64, hx]
  exact if_neg (not_le.2 he)

end

/-- The result is nearest to `num / den`; where two integers are equally near, the tie rule says which it is. -/
theorem roundRatio_near (tie : TieRule) (num : Int) {den : Nat} (hden : 0 < den) :
    let rest := 2 * (num - roundRatio tie num den * den)
    rest ≤ den ∧ -(den : Int) ≤ rest ∧
      (rest = den ∨ rest = -(den : Int) →
        (tie = .halfAway → (0 < num → rest = -(den : Int)) ∧ (num < 0 → rest = den)) ∧
        (tie = .halfUp → rest = -(den : Int)) ∧ (tie = .halfEven → roundRatio tie num den % 2 = 0)) := by
  have hlo : num / den * (den : Int) ≤ num := Int.ediv_mul_le _ (by omega)
  have hhi : num < (num / den + 1) * (den : Int) := Int.lt_ediv_add_one_mul_self _ (by omega)
  dsimp only [roundRatio]
  generalize num / (den : Int) = f at hlo hhi ⊢
  have hsucc : (f + 1) * (den : Int) = f * den + den := by ring
  rw [hsucc] at hhi
  by_cases hbelow : 2 * (num - f * den) < den
  · rw [if_pos hbelow]
    omega
  · rw [if_neg hbelow]
    by_cases habove : (den : Int) < 2 * (num - f * den)
    · rw [if_pos habove, hsucc]
      omega
    · rw [if_neg habove]
      cases tie
      case halfAway =>
        simp only [reduceCtorEq, false_implies, true_implies, and_true]
        split
        · rw [hsucc]
          omega
        · omega
      case halfUp =>
        simp only [reduceCtorEq, false_implies, true_implies, and_true, true_and, hsucc]
        omega
      case halfEven =>
        simp only [reduceCtorEq, false_implies, true_implies, true_and]
        split
        · omega
        · rw [hsucc]
          omega

end Sys2Proof.Machine

namespace Sys2Proof

open Machine

/-- Settles O31: ROUND is the floor plus the tie rule, and every binary64 operation rounds its exact result once. -/
theorem roundIsNearestWithTheTieRule : Obligations.RoundIsNearestWithTheTieRule := by
  refine ⟨fun tie x neg m e hv => ⟨fun he => ?_, fun he => ?_⟩, fun x y a b hx hy => ?_, fun n hn => f64OfInt_exact hn⟩
  · exact roundF64_of_nonneg tie hv he
  · rw [roundF64_of_neg tie hv he]
    have h := roundRatio_near tie (signedNat neg m) (Nat.two_pow_pos (-e).toNat)
    rw [Nat.cast_pow, Nat.cast_ofNat] at h
    exact h
  · obtain ⟨hadd, hadd0⟩ := fadd_nearest hx hy
    obtain ⟨hsub, hsub0⟩ := fsub_nearest hx hy
    exact ⟨hadd, hsub, fmul_nearest hx hy, fdiv_nearest hx hy, f64Sign_fmul hx hy, hadd0, hsub0⟩

end Sys2Proof

/-! SUPPORT. The transform and the quantiser (42_transform_quant.md): the decimal constants, what the tables, the divisors and DCTBUF hold
after they are written, and the outcomes of QUANT. -/

namespace Sys2Proof.Machine

/-! ### Decimal constants (R223, R224) -/

/-- R223's factors in units of 10⁻⁹. -/
def aanDigits : List Nat :=
  [1000000000, 1387039845, 1306562965, 1175875602, 1000000000, 785694958, 541196100, 275899379]

theorem aanScale_eq_decimal {k : Nat} (hk : k < 8) :
    aanScale k = f64Decimal (aanDigits.getD k 0) 9 ∧ aanDigits.getD k 0 < 2 ^ 53 := by
  revert k
  decide +kernel

theorem nearestEven_of_eq_decimal {x : F64} {n d : Nat} {a : ℚ} (hx : x = f64Decimal n d) (ha : a = n / 10 ^ d) (hn : n < 2 ^ 53)
    (hd : 10 ^ d < 2 ^ 53) : NearestEven a x := by
  rw [hx, ha]
  exact f64Decimal_nearest hn hd

theorem aanScale_nearest {k : Nat} (hk : k < 8) : NearestEven ((aanDigits.getD k 0 : ℚ) / 10 ^ 9) (aanScale k) := by
  obtain ⟨heq, hlt⟩ := aanScale_eq_decimal hk
  exact nearestEven_of_eq_decimal heq rfl hlt (by norm_num)

theorem f64Exact_of_eq_int {x : F64} {n : Int} (hx : x = f64OfInt n) (hn : n.natAbs < 2 ^ 53) : f64Exact x = some (n : ℚ) :=
  hx ▸ f64OfInt_exact hn

theorem f64Exact_one : f64Exact f64One = some 1 := by
  exact_mod_cast f64Exact_of_eq_int (n := 1) (by decide +kernel) (by decide)

theorem f64Exact_eight : f64Exact f64Eight = some 8 := by
  exact_mod_cast f64Exact_of_eq_int (n := 8) (by decide +kernel) (by decide)

theorem f64Exact_oneTwentyEight : f64Exact f64OneTwentyEight = some 128 := by
  exact_mod_cast f64Exact_of_eq_int (n := 128) (by decide +kernel) (by decide)

theorem butterfly_eq_decimal :
    butterfly707 = f64Decimal 707106781 9 ∧ butterfly382 = f64Decimal 382683433 9 ∧
      butterfly541 = f64Decimal 541196100 9 ∧ butterfly1306 = f64Decimal 1306562965 9 := by
  decide +kernel

/-! ### Written blocks -/

/-- An entry of a block written from entry 0 on. -/
theorem readRam_writeBlock_zero {s : State} (name : RamName) {w : Nat} (m : Memory w) {vs : List (BitVec w)} {i : Nat}
    (hi : i < vs.length) (d : BitVec w) : s.readRam name (Memory.writeBlock m 0 vs) i = vs.getD i d := by
  have h := Memory.entry?_writeBlock_in m 0 vs i hi
  rw [Nat.zero_add] at h
  rw [readRam_some name h, List.getD_eq_getElem _ _ hi]

theorem getD_map_range {α : Type} (f : Nat → α) {n i : Nat} (hi : i < n) (d : α) : ((List.range n).map f).getD i d = f i := by
  rw [List.getD_eq_getElem _ _ (by simpa using hi), List.getElem_map, List.getElem_range]

/-! ### QT and DIV (R221, R222) -/

theorem qtAt_table (s : State) (t i : Nat) : s.qtAt t i = s.qtAt 0 (64 * t + i) := by
  rw [State.qtAt, State.qtAt, Nat.mul_zero, Nat.zero_add]

/-- The state whose QT tables 0 and 1 are those of a quality factor. -/
def State.withQuality (q : Nat) (s : State) : State :=
  { s with ram.qt := Memory.writeBlock s.ram.qt 0 (scaledTables q) }

theorem scaledTables_length (q : Nat) : (scaledTables q).length = 128 := List.length_map _

theorem scaledEntry_bounds (scale base : Nat) : 1 ≤ scaledEntry scale base ∧ scaledEntry scale base ≤ 255 := by
  unfold scaledEntry
  omega

/-- At quality 1 the scale is 5000. -/
theorem scaledEntry_lowest {base : Nat} (h : 10 ≤ base) : scaledEntry (qualityScale 1) base = 255 := by
  show min (max ((base * 5000 + 50) / 100) 1) 255 = 255
  omega

/-- At quality 100 the scale is 0. -/
theorem scaledEntry_highest (base : Nat) : scaledEntry (qualityScale 100) base = 1 := by
  show min (max ((base * 0 + 50) / 100) 1) 255 = 1
  omega

theorem base_length : (qbaseLum ++ qbaseChr).length = 128 := List.length_append.trans rfl

theorem ten_le_base {i : Nat} (hi : i < 128) : 10 ≤ (qbaseLum ++ qbaseChr).getD i 0 := by
  revert i
  decide +kernel

/-- Tables 0 and 1 are the scaled base matrices, one after the other. -/
theorem withQuality_qtAt (q : Nat) (s : State) {t i : Nat} (ht : t < 2) (hi : i < 64) :
    ((s.withQuality q).qtAt t i).toNat = scaledEntry (qualityScale q) ((qbaseLum ++ qbaseChr).getD (64 * t + i) 0) := by
  have hlen : 64 * t + i < (qbaseLum ++ qbaseChr).length := by rw [base_length]; omega
  have hbounds := scaledEntry_bounds (qualityScale q) (qbaseLum ++ qbaseChr)[64 * t + i]
  rw [State.qtAt, State.withQuality, readRam_writeBlock_zero .qt _ (by rw [scaledTables, List.length_map]; exact hlen) 0,
    scaledTables, List.getD_eq_getElem _ _ (by rw [List.length_map]; exact hlen), List.getElem_map, BitVec.toNat_ofNat,
    Nat.mod_eq_of_lt (by omega), List.getD_eq_getElem _ _ hlen]

theorem withQuality_qtAt_above (q : Nat) (s : State) {t : Nat} (ht : 2 ≤ t) (i : Nat) : (s.withQuality q).qtAt t i = s.qtAt t i :=
  readRam_congr .qt rfl (Memory.entry?_writeBlock_out _ _ _ _ (.inr (by rw [scaledTables_length]; omega))) rfl

theorem someQtZero_iff (s : State) : someQtZero s = true ↔ ∃ i, i < 64 ∧ (s.qtAt 0 i = 0 ∨ s.qtAt 1 i = 0) := by
  rw [someQtZero, List.any_eq_true]
  constructor
  · rintro ⟨i, hi, hzero⟩
    rw [List.mem_range] at hi
    rw [decide_eq_true_eq] at hzero
    by_cases hlow : i < 64
    · exact ⟨i, hlow, .inl hzero⟩
    · refine ⟨i - 64, by omega, .inr ?_⟩
      rw [qtAt_table, ← hzero]
      congr 1
      omega
  · rintro ⟨i, hi, hzero | hzero⟩
    · exact ⟨i, List.mem_range.2 (by omega), decide_eq_true hzero⟩
    · exact ⟨64 * 1 + i, List.mem_range.2 (by omega), decide_eq_true ((qtAt_table s 1 i).symm.trans hzero)⟩

theorem withQuality_someQtZero (q : Nat) (s : State) : someQtZero (s.withQuality q) = false := by
  have hne {t i : Nat} (ht : t < 2) (hi : i < 64) : (s.withQuality q).qtAt t i ≠ 0 := fun hzero => by
    have hvalue := withQuality_qtAt q s ht hi
    rw [hzero] at hvalue
    exact absurd (scaledEntry_bounds _ _).1 (by rw [← hvalue]; decide)
  rw [Bool.eq_false_iff, Ne, someQtZero_iff]
  rintro ⟨i, hi, hzero | hzero⟩
  · exact hne (by omega) hi hzero
  · exact hne (by omega) hi hzero

/-- The divisors of the present tables. -/
theorem computeDivisors_divAt (s : State) {t r c : Nat} (ht : t < 2) (hr : r < 8) (hc : c < 8) :
    (computeDivisors s).divAt t (8 * r + c) = divisor (s.qtAt t (8 * r + c)).toNat r c := by
  rw [State.divAt, computeDivisors, readRam_writeBlock_zero .div _ (by rw [List.length_map, List.length_range]; omega) 0,
    getD_map_range _ (by omega), ← qtAt_table]
  congr 1 <;> omega

/-- QTSCALE with a legal quality factor. -/
theorem exec_qtscale {q : Nat} (s : State) (h1 : 1 ≤ q) (h100 : q ≤ 100) :
    exec (.qtscale q) s = .next (retire (computeDivisors (s.withQuality q))) := by
  have hzero : ¬ someQtZero (s.withQuality q) = true := by rw [withQuality_someQtZero]; exact Bool.false_ne_true
  exact congrArg Host.Outcome.next ((if_neg (by omega)).trans (if_neg hzero))

/-! ### DCTBUF (R224, R225) -/

theorem aan1d_length {ds : List F64} (h : ds.length = 8) : (aan1d ds).length = 8 := by
  match ds, h with
  | [_, _, _, _, _, _, _, _], _ => rfl

theorem rowOf_length (xs : List F64) (r : Nat) : (rowOf xs r).length = 8 := by simp [rowOf]

/-- An entry of rows of one length, one after the other. -/
theorem getD_flatten_rows {α : Type} (f : Nat → List α) {k : Nat} (hf : ∀ r, (f r).length = k) {n r c : Nat} (hr : r < n) (hc : c < k)
    (d : α) : (((List.range n).map f).flatten).getD (k * r + c) d = (f r).getD c d := by
  induction n generalizing f r with
  | zero => omega
  | succ n ih =>
    rw [List.range_succ_eq_map, List.map_cons, List.map_map, List.flatten_cons]
    cases r with
    | zero => rw [Nat.mul_zero, Nat.zero_add, List.getD_append _ _ _ _ (by rwa [hf])]
    | succ r =>
      rw [List.getD_append_right _ _ _ _ (by rw [hf, Nat.mul_succ]; omega), hf, Nat.mul_succ,
        show k * r + k + c - k = k * r + c by omega]
      exact ih (f ∘ Nat.succ) (fun r => hf _) (by omega)

theorem rowOf_map_range (f : Nat → F64) {r : Nat} (hr : r < 8) :
    rowOf ((List.range 64).map f) r = (List.range 8).map fun c => f (8 * r + c) :=
  List.map_congr_left fun c hc => getD_map_range f (by have := List.mem_range.1 hc; omega) 0

theorem dct8x8_length (xs : List F64) : (dct8x8 xs).length = 64 := by simp [dct8x8, transposed]

theorem rowPass_getD (xs : List F64) {r c : Nat} (hr : r < 8) (hc : c < 8) :
    (rowPass xs).getD (8 * r + c) 0 = (aan1d (rowOf xs r)).getD c 0 :=
  getD_flatten_rows _ (fun r => aan1d_length (rowOf_length xs r)) hr hc 0

theorem transposed_getD (xs : List F64) {r c : Nat} (hr : r < 8) (hc : c < 8) :
    (transposed xs).getD (8 * r + c) 0 = xs.getD (8 * c + r) 0 := by
  rw [transposed, getD_map_range _ (by omega)]
  congr 2 <;> omega

/-- Entry (r, c) is output r of the butterfly on column c of the row outputs. -/
theorem dct8x8_getD (xs : List F64) {r c : Nat} (hr : r < 8) (hc : c < 8) :
    (dct8x8 xs).getD (8 * r + c) 0 = (aan1d ((List.range 8).map fun r' => (aan1d (rowOf xs r')).getD c 0)).getD r 0 := by
  have hcolumn : rowOf (transposed (rowPass xs)) c = (List.range 8).map fun r' => (aan1d (rowOf xs r')).getD c 0 :=
    List.map_congr_left fun r' hr' => by
      have hr' := List.mem_range.1 hr'
      rw [transposed_getD _ hc hr', rowPass_getD _ hr' hc]
  rw [dct8x8, transposed_getD _ hr hc, rowPass_getD _ hc hr, hcolumn]

/-! ### QUANT (R229) -/

theorem quantised_out_of_range_iff (t : Nat) (s : State) :
    (quantised t s).any (fun q => decide (q < -32768 ∨ 32767 < q)) = true ↔
      ∃ i, i < 64 ∧ (roundF64 s.ctrl.qround (fmul (s.dctAt i) (s.divAt t i)) < -32768 ∨
        32767 < roundF64 s.ctrl.qround (fmul (s.dctAt i) (s.divAt t i))) := by
  simp only [quantised, List.any_map, List.any_eq_true, List.mem_range, Function.comp_apply, decide_eq_true_eq]

/-- QUANT after its checks. -/
theorem exec_quant_in_range {t : Fin 2} {blk : Nat} {s : State} (hin : 64 * blk + 64 ≤ s.geo.ncoef.toNat) (hdiv : s.valid.div = true) :
    exec (.quant t blk) s = .next (
      if (quantised t.val s).any (fun q => decide (q < -32768 ∨ 32767 < q)) then faultEntry .range s
      else retire (s.setCoefs (64 * blk) ((quantised t.val s).map (BitVec.ofInt 16)))) := by
  have hinside : ¬ s.blockInside blk = false := by simp [State.blockInside, hin]
  exact congrArg Host.Outcome.next ((if_neg hinside).trans (if_neg (by simp [hdiv])))

/-- A value in range is read back from the coefficient it was written to. -/
theorem coefInt_setCoefs_quantised {t blk i : Nat} {s : State} (hi : i < 64)
    (hlo : -32768 ≤ roundF64 s.ctrl.qround (fmul (s.dctAt i) (s.divAt t i)))
    (hhi : roundF64 s.ctrl.qround (fmul (s.dctAt i) (s.divAt t i)) ≤ 32767) :
    (s.setCoefs (64 * blk) ((quantised t s).map (BitVec.ofInt 16))).coefInt (64 * blk + i) =
      roundF64 s.ctrl.qround (fmul (s.dctAt i) (s.divAt t i)) := by
  rw [State.coefInt, coefAt_setCoefs_in _ _ _ _ (by simpa [quantised] using hi)]
  simp only [quantised, List.getElem_map, List.getElem_range, BitVec.toInt_ofInt]
  exact Int.bmod_eq_of_le (by omega) (by omega)

end Sys2Proof.Machine

namespace Sys2Proof

open Machine

/-- Settles O27: the tables are never 0 after QTSCALE, so its divisors are always computed; DIVCALC checks the tables first. -/
theorem qtscaleAndDivcalcBuildTheTables : Obligations.QtscaleAndDivcalcBuildTheTables := by
  refine ⟨fun k hk => ?_, f64Exact_one, f64Exact_eight, fun q s =>
    ⟨fun h1 h100 => ?_, fun hq => ?_, fun hne => ?_, fun hzero => ?_⟩⟩
  · convert aanScale_nearest hk using 1
    revert k
    decide +kernel
  · refine ⟨_, exec_qtscale s h1 h100, rfl, fun i hi => ⟨?_, ?_, ?_, ?_⟩, fun d r c hd hr hc => ?_⟩
    · have h := withQuality_qtAt q s (t := 0) (by omega) hi
      rwa [Nat.mul_zero, Nat.zero_add, List.getD_append _ _ _ _ hi] at h
    · have h := withQuality_qtAt q s (t := 1) (by omega) hi
      rwa [List.getD_append_right _ _ _ _ (Nat.le_add_right 64 i), Nat.mul_one, show qbaseLum.length = 64 from rfl,
        Nat.add_sub_cancel_left] at h
    · exact withQuality_qtAt_above q s (by omega) i
    · exact withQuality_qtAt_above q s (by omega) i
    · exact computeDivisors_divAt (s.withQuality q) hd hr hc
  · exact congrArg Host.Outcome.next (if_pos (by omega))
  · have hzero : ¬ someQtZero s = true := fun h => by
      obtain ⟨i, hi, h0 | h1⟩ := (someQtZero_iff s).1 h
      · exact (hne i hi).1 h0
      · exact (hne i hi).2 h1
    exact ⟨_, congrArg Host.Outcome.next (if_neg hzero), rfl, fun d r c => computeDivisors_divAt s⟩
  · exact congrArg Host.Outcome.next (if_pos ((someQtZero_iff s).2 hzero))

/-- Settles O28: the clamp bounds every entry; at quality 1 it holds the entries down to 255 and at quality 100 up to 1. -/
theorem qualityTablesAreBounded : Obligations.QualityTablesAreBounded := by
  intro q s h1 h100
  refine ⟨_, exec_qtscale s h1 h100, fun d i hd hi => ?_⟩
  have hvalue : ((retire (computeDivisors (s.withQuality q))).qtAt d i).toNat = _ := withQuality_qtAt q s hd hi
  rw [hvalue]
  obtain ⟨hlo, hhi⟩ := scaledEntry_bounds (qualityScale q) ((qbaseLum ++ qbaseChr).getD (64 * d + i) 0)
  refine ⟨hlo, hhi, ?_, ?_⟩
  · rintro rfl
    exact scaledEntry_lowest (ten_le_base (by omega))
  · rintro rfl
    exact scaledEntry_highest _

/-- Settles O29: two passes of AAN1D over the rows, with a transposition after each, are one over the rows and one over the columns. -/
theorem fdctTransformsRowsThenColumns : Obligations.FdctTransformsRowsThenColumns := by
  obtain ⟨h707, h382, h541, h1306⟩ := butterfly_eq_decimal
  refine ⟨f64Exact_oneTwentyEight, ⟨butterfly707, butterfly382, butterfly541, butterfly1306, ?_, ?_, ?_, ?_, ?_⟩, fun s => ?_⟩
  · exact nearestEven_of_eq_decimal h707 (by norm_num) (by norm_num) (by norm_num)
  · exact nearestEven_of_eq_decimal h382 (by norm_num) (by norm_num) (by norm_num)
  · exact nearestEven_of_eq_decimal h541 (by norm_num) (by norm_num) (by norm_num)
  · exact nearestEven_of_eq_decimal h1306 (by norm_num) (by norm_num) (by norm_num)
  · intros
    rfl
  · refine ⟨_, rfl, rfl, fun r c hr hc => ?_⟩
    have hrow (r' : Nat) (hr' : r' ∈ List.range 8) :
        (aan1d (rowOf ((List.range 64).map fun i => centred (s.pixAt i)) r')).getD c 0 =
          (aan1d ((List.range 8).map fun c => centred (s.pixAt (8 * r' + c)))).getD c 0 := by
      rw [rowOf_map_range _ (List.mem_range.1 hr')]
    have hentry : s.readRam .dct _ (8 * r + c) = _ :=
      readRam_writeBlock_zero .dct s.ram.dct (vs := dct8x8 ((List.range 64).map fun i => centred (s.pixAt i)))
        (by rw [dct8x8_length]; omega) 0
    rw [dct8x8_getD _ hr hc, List.map_congr_left hrow] at hentry
    exact hentry

/-- Settles O30: the checks come in the order of R464, and a value in range fits its coefficient. -/
theorem quantRoundsIntoOneBlock : Obligations.QuantRoundsIntoOneBlock := by
  intro d blk s q
  refine ⟨fun hout => ?_, fun hin hdiv => ?_, fun hin hdiv hbad => ?_, fun hin hdiv hgood => ?_⟩
  · have hinside : s.blockInside blk = false := by simpa [State.blockInside] using hout
    exact congrArg Host.Outcome.next (if_pos hinside)
  · have hinside : ¬ s.blockInside blk = false := by simp [State.blockInside, hin]
    exact congrArg Host.Outcome.next ((if_neg hinside).trans (if_pos hdiv))
  · rw [exec_quant_in_range hin hdiv, if_pos ((quantised_out_of_range_iff _ s).2 hbad)]
  · have hrange : ¬ (quantised d.val s).any (fun q => decide (q < -32768 ∨ 32767 < q)) = true := fun h => by
      obtain ⟨i, hi, hbad⟩ := (quantised_out_of_range_iff _ s).1 h
      obtain ⟨hlo, hhi⟩ := hgood i hi
      exact hbad.elim (not_lt.2 hlo) (not_lt.2 hhi)
    refine ⟨_, (exec_quant_in_range hin hdiv).trans (congrArg _ (if_neg hrange)), rfl, fun i hi => ?_, fun a ha => ?_⟩
    · exact coefInt_setCoefs_quantised hi (hgood i hi).1 (hgood i hi).2
    · exact coefAt_setCoefs_out _ _ _ _ (by simpa [quantised] using ha)

end Sys2Proof

/-! SUPPORT. The zig-zag reindexer and the coefficient array (43_zigzag_mux.md): a block reordered in place and what undoes it, and the
components' figures as sums, maxima and bounds over the components, from which the geometry of a legal frame is one equation. -/

namespace Sys2Proof.Machine

/-! ### Reordering a block (R260 to R262) -/

theorem zz_lt : ∀ k < 64, zz k < 64 := by decide

theorem zzi_lt : ∀ i < 64, zzi i < 64 := by decide

theorem zz_zzi : ∀ i < 64, zz (zzi i) = i := by decide

theorem zzi_zz : ∀ k < 64, zzi (zz k) = k := by decide

theorem blockInside_iff {s : State} {blk : Nat} : s.blockInside blk = true ↔ 64 * blk + 64 ≤ s.geo.ncoef.toNat := decide_eq_true_iff

/-- The block's entry `k` takes the value of its entry `order k`. -/
def State.reorderBlock (blk : Nat) (order : Nat → Nat) (s : State) : State :=
  s.setCoefs (64 * blk) ((List.range 64).map fun k => s.coefAt (64 * blk + order k))

theorem coefAt_reorderBlock_in (blk : Nat) (order : Nat → Nat) (s : State) {k : Nat} (hk : k < 64) :
    (s.reorderBlock blk order).coefAt (64 * blk + k) = s.coefAt (64 * blk + order k) := by
  rw [State.reorderBlock, coefAt_setCoefs_in _ _ _ _ (by simpa using hk), List.getElem_map, List.getElem_range]

theorem coefAt_reorderBlock_out (blk : Nat) (order : Nat → Nat) (s : State) {a : Nat} (ha : a < 64 * blk ∨ 64 * blk + 64 ≤ a) :
    (s.reorderBlock blk order).coefAt a = s.coefAt a :=
  coefAt_setCoefs_out _ _ _ _ (by simpa using ha)

/-- A reordering is undone by one whose order is its right inverse on the block. -/
theorem coefAt_reorderBlock_undone (blk : Nat) {order back : Nat → Nat} (hback : ∀ k < 64, back k < 64)
    (hinv : ∀ k < 64, order (back k) = k) (s : State) (a : Nat) :
    ((s.reorderBlock blk order).reorderBlock blk back).coefAt a = s.coefAt a := by
  by_cases ha : a < 64 * blk ∨ 64 * blk + 64 ≤ a
  · rw [coefAt_reorderBlock_out _ _ _ ha, coefAt_reorderBlock_out _ _ _ ha]
  · obtain ⟨k, rfl⟩ := Nat.exists_eq_add_of_le (show 64 * blk ≤ a by omega)
    have hk : k < 64 := by omega
    rw [coefAt_reorderBlock_in _ _ _ hk, coefAt_reorderBlock_in _ _ _ (hback k hk), hinv k hk]

/-- ZZFWD inside the array. -/
theorem exec_zzfwd_inside {blk : Nat} {s : State} (hin : 64 * blk + 64 ≤ s.geo.ncoef.toNat) :
    exec (.zzfwd blk) s = .next (retire (s.reorderBlock blk zz)) :=
  congrArg Host.Outcome.next (if_neg (by simp [blockInside_iff.2 hin]))

/-- ZZINV inside the array. -/
theorem exec_zzinv_inside {blk : Nat} {s : State} (hin : 64 * blk + 64 ≤ s.geo.ncoef.toNat) :
    exec (.zzinv blk) s = .next (retire (s.reorderBlock blk zzi)) :=
  congrArg Host.Outcome.next (if_neg (by simp [blockInside_iff.2 hin]))

/-! ### Units and offsets (R263) -/

theorem offsetOf_eq_sum (s : State) (c : Nat) : s.offsetOf c = ((List.range c).map s.unitsOf).sum := by
  induction c with
  | zero => rfl
  | succ c ih =>
    rw [State.offsetOf, ih, List.range_succ, List.map_append, List.sum_append, List.map_singleton, List.sum_singleton]

theorem bpm_of_one {s : State} (hn : s.geo.ncomp.toNat = 1) : s.bpm = 1 := by
  have hunits : s.unitsOf 0 = 1 := if_pos (BitVec.eq_of_toNat_eq hn)
  rw [State.bpm, hn, State.offsetOf, State.offsetOf, hunits]

theorem bpm_of_ne_one {s : State} (hn : s.geo.ncomp.toNat ≠ 1) :
    s.bpm = ((List.range s.geo.ncomp.toNat).map fun c => (s.geo.comp.get c).h.toNat * (s.geo.comp.get c).v.toNat).sum := by
  have hunits (c : Nat) : s.unitsOf c = (s.geo.comp.get c).h.toNat * (s.geo.comp.get c).v.toNat :=
    if_neg fun h => hn (congrArg BitVec.toNat h)
  rw [State.bpm, offsetOf_eq_sum, funext hunits]

/-! ### Geometry (R265) -/

theorem foldl_max_range_succ (f : Nat → Nat) (n : Nat) :
    ((List.range (n + 1)).map f).foldl max 0 = max (((List.range n).map f).foldl max 0) (f n) := by
  rw [List.range_succ, List.map_append, List.foldl_append, List.map_singleton, List.foldl_cons, List.foldl_nil]

theorem foldl_max_pos {f : Nat → Nat} {n : Nat} (hn : 1 ≤ n) (hf : ∀ c < n, 1 ≤ f c) :
    0 < ((List.range n).map f).foldl max 0 := by
  obtain ⟨c, rfl⟩ := Nat.exists_eq_add_of_le' hn
  rw [foldl_max_range_succ]
  exact (hf c c.lt_succ_self).trans (Nat.le_max_right _ _)

theorem hmax_eq_foldl (s : State) (n : Nat) : s.hmax n = ((List.range n).map fun c => (s.geo.comp.get c).h.toNat).foldl max 0 := by
  induction n with
  | zero => rfl
  | succ n ih => rw [State.hmax, ih, foldl_max_range_succ]

theorem vmax_eq_foldl (s : State) (n : Nat) : s.vmax n = ((List.range n).map fun c => (s.geo.comp.get c).v.toNat).foldl max 0 := by
  induction n with
  | zero => rfl
  | succ n ih => rw [State.vmax, ih, foldl_max_range_succ]

theorem factorsLegal_iff (s : State) (n : Nat) :
    s.factorsLegal n = true ↔ ∀ c, c < n → 1 ≤ (s.geo.comp.get c).h.toNat ∧ (s.geo.comp.get c).h.toNat ≤ 4 ∧
      1 ≤ (s.geo.comp.get c).v.toNat ∧ (s.geo.comp.get c).v.toNat ≤ 4 := by
  induction n with
  | zero => simp [State.factorsLegal]
  | succ n ih => rw [State.factorsLegal, Bool.and_eq_true, decide_eq_true_iff, ih, Nat.forall_lt_succ_right, and_comm]

theorem ceilDiv_le_self (a : Nat) {b : Nat} (hb : 0 < b) : ceilDiv a b ≤ a :=
  (ceilDiv_le_iff_le_mul hb).2 (Nat.le_mul_of_pos_left a hb)

/-- The width of an MCU in blocks: the largest H, or 1 in a single-component scan. -/
def State.mcuCols (s : State) : Nat := if s.geo.ncomp.toNat = 1 then 1 else s.hmax s.geo.ncomp.toNat

/-- The height of an MCU in blocks: the largest V, or 1 in a single-component scan. -/
def State.mcuRows (s : State) : Nat := if s.geo.ncomp.toNat = 1 then 1 else s.vmax s.geo.ncomp.toNat

/-- The checks of `Geometry()` pass. -/
def State.FrameLegal (s : State) : Prop :=
  0 < s.geo.imgW.toNat ∧ 0 < s.geo.imgH.toNat ∧ 1 ≤ s.geo.ncomp.toNat ∧ s.geo.ncomp.toNat ≤ 4 ∧
  (∀ c, c < s.geo.ncomp.toNat → 1 ≤ (s.geo.comp.get c).h.toNat ∧ (s.geo.comp.get c).h.toNat ≤ 4 ∧
    1 ≤ (s.geo.comp.get c).v.toNat ∧ (s.geo.comp.get c).v.toNat ≤ 4) ∧
  (1 < s.geo.ncomp.toNat → s.bpm ≤ 10)

/-- The MCU counts and the array length by the formulas of `Geometry()`. -/
def State.frameGeometry (s : State) : GeomResult where
  mx := ceilDiv s.geo.imgW.toNat (8 * s.mcuCols)
  my := ceilDiv s.geo.imgH.toNat (8 * s.mcuRows)
  n := 64 * ceilDiv s.geo.imgW.toNat (8 * s.mcuCols) * ceilDiv s.geo.imgH.toNat (8 * s.mcuRows) * s.bpm

theorem dimension_ne_zero_iff {v : BitVec 16} : v ≠ 0 ↔ 0 < v.toNat := by
  rw [Nat.pos_iff_ne_zero, ne_eq, ne_eq, BitVec.toNat_eq]
  rfl

theorem geometry_of_legal {s : State} (h : s.FrameLegal) : s.geometry = some s.frameGeometry := by
  obtain ⟨hw, hh, hlo, hhi, hfactors, hbpm⟩ := h
  have hsize : ¬ (s.geo.imgW = 0 ∨ s.geo.imgH = 0 ∨ s.geo.ncomp.toNat < 1 ∨ 4 < s.geo.ncomp.toNat) := by
    rintro (h | h | h | h)
    · exact dimension_ne_zero_iff.2 hw h
    · exact dimension_ne_zero_iff.2 hh h
    · omega
    · omega
  rw [State.geometry, if_neg hsize, if_neg (by simp [(factorsLegal_iff s _).2 hfactors])]
  by_cases hn : s.geo.ncomp.toNat = 1
  · rw [if_pos hn, State.frameGeometry, State.mcuCols, State.mcuRows, if_pos hn, if_pos hn]
  · rw [if_neg hn, if_neg (Nat.not_lt.2 (hbpm (by omega))), State.frameGeometry, State.mcuCols, State.mcuRows, if_neg hn, if_neg hn]

theorem geometry_of_not_legal {s : State} (h : ¬ s.FrameLegal) : s.geometry = none := by
  by_contra hsome
  refine h ?_
  simp only [State.geometry] at hsome
  split at hsome
  · exact absurd rfl hsome
  · next hsize =>
    obtain ⟨hw, hh, hlo, hhi⟩ := by simpa only [not_or, Nat.not_lt] using hsize
    split at hsome
    · exact absurd rfl hsome
    · next hfactors =>
      refine ⟨dimension_ne_zero_iff.1 hw, dimension_ne_zero_iff.1 hh, hlo, hhi,
        (factorsLegal_iff s _).1 (by simpa using hfactors), fun hmany => ?_⟩
      rw [if_neg (by omega)] at hsome
      exact Nat.not_lt.1 fun hbpm => hsome (if_pos hbpm)

theorem State.FrameLegal.mcuCols_pos {s : State} (h : s.FrameLegal) : 0 < s.mcuCols := by
  obtain ⟨-, -, hlo, -, hfactors, -⟩ := h
  unfold State.mcuCols
  split
  · exact Nat.one_pos
  · rw [hmax_eq_foldl]
    exact foldl_max_pos hlo fun c hc => (hfactors c hc).1

theorem State.FrameLegal.mcuRows_pos {s : State} (h : s.FrameLegal) : 0 < s.mcuRows := by
  obtain ⟨-, -, hlo, -, hfactors, -⟩ := h
  unfold State.mcuRows
  split
  · exact Nat.one_pos
  · rw [vmax_eq_foldl]
    refine foldl_max_pos hlo fun c hc => ?_
    obtain ⟨-, -, hv, -⟩ := hfactors c hc
    exact hv

/-- An MCU count fits its register: it is at most the image's size in samples. -/
theorem toNat_mcuCount (v : BitVec 16) {span : Nat} (hspan : 0 < span) :
    (BitVec.ofNat 16 (ceilDiv v.toNat (8 * span))).toNat = ceilDiv v.toNat (8 * span) := by
  have hle := ceilDiv_le_self v.toNat (b := 8 * span) (by omega)
  exact Nat.mod_eq_of_lt (hle.trans_lt v.isLt)

/-- GEOM on an illegal frame. -/
theorem exec_geom_of_not_legal {s : State} (h : ¬ s.FrameLegal) : exec .geom s = .next (faultEntry .geom s) := by
  rw [show exec .geom s = execGeom s from rfl, execGeom, geometry_of_not_legal h]

/-- GEOM on a legal frame. -/
theorem exec_geom_of_legal {s : State} (h : s.FrameLegal) :
    exec .geom s = .next (
      if s.cfg.coefDepth < s.frameGeometry.n then faultEntry .coefovf s else retire (s.setGeometry s.frameGeometry)) := by
  rw [show exec .geom s = execGeom s from rfl, execGeom, geometry_of_legal h]

end Sys2Proof.Machine

namespace Sys2Proof

open Machine

/-- Settles O32: ZZFWD reads the block in the order `zz`, ZZINV in the order `zzi`, and these are each other's inverse. -/
theorem zigZagReordersOneBlockAndUndoes : Obligations.ZigZagReordersOneBlockAndUndoes := by
  intro blk s
  refine ⟨fun hout => ?_, fun hin => ⟨?_, ?_⟩⟩
  · have hinside : s.blockInside blk = false := Bool.eq_false_iff.2 fun h => absurd (blockInside_iff.1 h) (Nat.not_le.2 hout)
    exact ⟨congrArg Host.Outcome.next (if_pos hinside), congrArg Host.Outcome.next (if_pos hinside)⟩
  · refine ⟨_, exec_zzfwd_inside hin, rfl, fun k hk => coefAt_reorderBlock_in blk zz s hk,
      fun a ha => coefAt_reorderBlock_out blk zz s ha, _, exec_zzinv_inside hin, ?_⟩
    exact coefAt_reorderBlock_undone blk zzi_lt zz_zzi s
  · refine ⟨_, exec_zzinv_inside hin, rfl, fun k hk => ?_, fun a ha => coefAt_reorderBlock_out blk zzi s ha, _,
      exec_zzfwd_inside hin, ?_⟩
    · exact (coefAt_reorderBlock_in blk zzi s (zz_lt k hk)).trans (by rw [zzi_zz k hk])
    · exact coefAt_reorderBlock_undone blk zz_lt zzi_zz s

/-- Settles O33: the statement's figures are those of `Geometry()`, and on a legal frame that fits they fit their registers. -/
theorem geomComputesTheFrame : Obligations.GeomComputesTheFrame := by
  intro s hcfg n w ht hOf vOf blocks hmax vmax mx my legal
  have hblocks : blocks = s.bpm := by
    by_cases hn : s.geo.ncomp.toNat = 1
    · exact (if_pos hn).trans (bpm_of_one hn).symm
    · exact (if_neg hn).trans (bpm_of_ne_one hn).symm
  have hcols : hmax = s.mcuCols := by rw [State.mcuCols, hmax_eq_foldl]
  have hrows : vmax = s.mcuRows := by rw [State.mcuRows, vmax_eq_foldl]
  have hmx : mx = ceilDiv w (8 * s.mcuCols) := by rw [← hcols]; rfl
  have hmy : my = ceilDiv ht (8 * s.mcuRows) := by rw [← hrows]; rfl
  have hlen : 64 * mx * my * blocks = s.frameGeometry.n := by rw [hmx, hmy, hblocks]; rfl
  have hlegal : legal ↔ s.FrameLegal := by unfold legal; rw [hblocks]; rfl
  rw [hlegal, hlen]
  refine ⟨exec_geom_of_not_legal, fun hok hover => ?_, fun hok hfit => ?_⟩
  · rw [exec_geom_of_legal hok, if_pos hover]
  · obtain ⟨-, -, -, hdepth, -⟩ := hcfg
    refine ⟨_, (exec_geom_of_legal hok).trans (by rw [if_neg (Nat.not_lt.2 hfit)]), rfl, ?_, ?_, ?_⟩
    · exact (toNat_mcuCount _ hok.mcuCols_pos).trans hmx.symm
    · exact (toNat_mcuCount _ hok.mcuRows_pos).trans hmy.symm
    · exact Nat.mod_eq_of_lt (by omega)

/-- Settles O34: the sums of the units are `OFF` and `BPM`, and COEFCLR writes one block of zeros, from entry 0 to NCOEF. -/
theorem blkaddrAndCoefclr : Obligations.BlkaddrAndCoefclr := by
  intro comp unit mcu s off
  refine ⟨fun hbad => congrArg Host.Outcome.next (if_pos hbad), fun hcomp hunit hmcu => ?_, _, rfl, rfl, fun a ha => ?_, fun a ha => ?_⟩
  · have hoff (c : Nat) : off c = s.offsetOf c := (offsetOf_eq_sum s c).symm
    rw [hoff, hoff]
    exact congrArg Host.Outcome.next (if_neg (by omega))
  · have hzero := coefAt_setCoefs_in s 0 (List.replicate s.geo.ncoef.toNat 0) a (by simpa using ha)
    rwa [Nat.zero_add, List.getElem_replicate] at hzero
  · exact coefAt_setCoefs_out s 0 _ a (.inr (by simpa using ha))

end Sys2Proof

/-! SUPPORT. The stream of the bit packer (44_entropy_encoder.md R291 to R293). `Packed bytes p bits` says that the whole bytes and what then
pends in the packer are the bits. BufBits appends its code's bits to them, and the FLUSH body pads them to a byte. -/

namespace Sys2Proof.Machine

/-! ### The accumulator's top bits -/

/-- The `n` top bits of a 24-bit accumulator, most significant first. -/
def topBits (acc n : Nat) : List Bool := (List.range n).map fun i => acc.testBit (23 - i)

@[simp] theorem topBits_length (acc n : Nat) : (topBits acc n).length = n := by simp [topBits]

theorem map_range_add {α : Type} (f : Nat → α) (m n : Nat) :
    (List.range (m + n)).map f = (List.range m).map f ++ (List.range n).map fun i => f (m + i) := by
  rw [List.range_add, List.map_append, List.map_map]
  rfl

theorem map_range_congr {α : Type} {f g : Nat → α} {n : Nat} (h : ∀ i < n, f i = g i) : (List.range n).map f = (List.range n).map g :=
  List.map_congr_left fun i hi => h i (List.mem_range.1 hi)

/-- The top byte of the accumulator. -/
theorem byteBits_top (acc : Nat) : byteBits (BitVec.ofNat 8 (acc / 2 ^ 16)) = topBits acc 8 := by
  refine map_range_congr fun i hi => ?_
  rw [BitVec.getLsbD_ofNat, decide_eq_true (by omega), Bool.true_and, Nat.testBit_div_two_pow]
  congr 1
  omega

/-- The top byte, and the bits that a shift by one byte brings to the top. -/
theorem topBits_shift (acc : Nat) {n : Nat} (hn : n ≤ 16) : topBits acc (8 + n) = topBits acc 8 ++ topBits (acc * 2 ^ 8 % 2 ^ 24) n := by
  rw [topBits, map_range_add]
  refine congrArg (topBits acc 8 ++ ·) (map_range_congr fun i hi => ?_)
  rw [Nat.testBit_mod_two_pow, Nat.testBit_mul_two_pow, decide_eq_true (by omega), decide_eq_true (by omega), Bool.true_and, Bool.true_and]
  congr 1
  omega

/-! ### Stuffing -/

@[simp] theorem byteBits_length (b : Byte) : (byteBits b).length = 8 := by simp [byteBits]

theorem stuff_cons (b : Byte) (bytes : List Byte) : stuff (b :: bytes) = stuffed b ++ stuff bytes := rfl

theorem stuff_append (bytes more : List Byte) : stuff (bytes ++ more) = stuff bytes ++ stuff more := List.flatMap_append

theorem streamBits_append (bytes more : List Byte) : streamBits (bytes ++ more) = streamBits bytes ++ streamBits more := List.flatMap_append

theorem streamBits_length (bytes : List Byte) : (streamBits bytes).length = 8 * bytes.length := by
  induction bytes with
  | nil => rfl
  | cons b bytes ih =>
    rw [streamBits, List.flatMap_cons, List.length_append, byteBits_length, ← streamBits, ih, List.length_cons]
    omega

/-- Stuffing at most doubles the bytes. -/
theorem stuff_length (bytes : List Byte) : (stuff bytes).length ≤ 2 * bytes.length := by
  induction bytes with
  | nil => exact Nat.le_refl _
  | cons b bytes ih =>
    have hb := stuffed_length b
    rw [stuff_cons, List.length_append, List.length_cons]
    omega

/-! ### The packer's stream -/

/-- The bits that pend in the packer, first given first. -/
def Packer.pending (p : Packer) : List Bool := topBits p.buf p.bits

theorem pendingBits_eq (s : State) : s.pendingBits = s.packer.pending := rfl

theorem pendingBits_length (s : State) : s.pendingBits.length = s.coder.putbits.toNat := topBits_length _ _

/-- The whole bytes, and what pends in the packer after them, are `bits`. -/
structure Packed (bytes : List Byte) (p : Packer) (bits : List Bool) : Prop where
  aligned : p.Aligned
  stream : streamBits bytes ++ p.pending = bits

namespace Packed

variable {bytes : List Byte} {p : Packer} {bits : List Bool}

theorem of_aligned {s : State} (h : s.coder.Aligned) : Packed [] s.packer s.pendingBits := ⟨h.packer, rfl⟩

theorem length (h : Packed bytes p bits) : bits.length = 8 * bytes.length + p.bits := by
  rw [← h.stream, List.length_append, streamBits_length, Packer.pending, topBits_length]

theorem bits_eq (h : Packed bytes p bits) : p.bits = bits.length % 8 := by
  have hlen := h.length
  have hle := h.aligned.1
  omega

theorem stuff_length_le (h : Packed bytes p bits) : (stuff bytes).length ≤ 2 * (bits.length / 8) := by
  have hlen := h.length
  have hle := h.aligned.1
  have hstuff := stuff_length bytes
  omega

end Packed

/-- Taking whole bytes off the accumulator keeps its top bits, in the bytes and in what is left. -/
theorem takeBytes_stream {n r acc : Nat} (h : 8 * n + r ≤ 24) :
    ∃ bytes, (takeBytes n acc).1 = stuff bytes ∧ streamBits bytes ++ topBits (takeBytes n acc).2 r = topBits acc (8 * n + r) := by
  induction n generalizing acc with
  | zero => exact ⟨[], rfl, by rw [Nat.mul_zero, Nat.zero_add]; rfl⟩
  | succ n ih =>
    obtain ⟨bytes, hbytes, hstream⟩ := ih (acc := acc * 2 ^ 8 % 2 ^ 24) (by omega)
    refine ⟨BitVec.ofNat 8 (acc / 2 ^ 16) :: bytes, congrArg _ hbytes, ?_⟩
    calc byteBits (BitVec.ofNat 8 (acc / 2 ^ 16)) ++ streamBits bytes ++ topBits (takeBytes n (acc * 2 ^ 8 % 2 ^ 24)).2 r
      _ = topBits acc 8 ++ topBits (acc * 2 ^ 8 % 2 ^ 24) (8 * n + r) := by rw [List.append_assoc, hstream, byteBits_top]
      _ = topBits acc (8 * (n + 1) + r) := by rw [← topBits_shift acc (by omega)]; congr 1; omega

/-- Nothing stands in the accumulator below the pending bits. -/
theorem Packer.Aligned.testBit_low {p : Packer} (h : p.Aligned) {j : Nat} (hj : j < 24 - p.bits) : p.buf.testBit j = false := by
  obtain ⟨-, -, hlow⟩ := h
  have hbit := Nat.testBit_mod_two_pow p.buf (24 - p.bits) j
  rw [hlow, Nat.zero_testBit, decide_eq_true hj, Bool.true_and] at hbit
  exact hbit.symm

/-- The accumulator of BufBits: the pending bits, then the `size` low bits of the code. -/
theorem topBits_acc {p : Packer} (h : p.Aligned) (code : Nat) {size : Nat} (hs : size ≤ 16) :
    topBits ((code % 2 ^ size * 2 ^ (24 - (p.bits + size)) ||| p.buf) % 2 ^ 24) (p.bits + size) = p.pending ++ lowBits code size := by
  have hle := h.1
  have hbit (i : Nat) (hi : i < p.bits + size) :
      ((code % 2 ^ size * 2 ^ (24 - (p.bits + size)) ||| p.buf) % 2 ^ 24).testBit (23 - i) =
        ((decide (p.bits + size - 1 - i < size) && code.testBit (p.bits + size - 1 - i)) || p.buf.testBit (23 - i)) := by
    rw [Nat.testBit_mod_two_pow, Nat.testBit_or, Nat.testBit_mul_two_pow, Nat.testBit_mod_two_pow, decide_eq_true (by omega),
      decide_eq_true (by omega), Bool.true_and, Bool.true_and, show 23 - i - (24 - (p.bits + size)) = p.bits + size - 1 - i by omega]
  rw [topBits, map_range_add]
  refine congrArg₂ (· ++ ·) (map_range_congr fun i hi => ?_) (map_range_congr fun i hi => ?_)
  · rw [hbit i (by omega), decide_eq_false (by omega), Bool.false_and, Bool.false_or]
  · rw [hbit _ (by omega), h.testBit_low (by omega), decide_eq_true (by omega), Bool.true_and, Bool.or_false]
    congr 1
    omega

/-- BufBits appends the code's bits to the stream (R291). -/
theorem Packed.bufBits {bytes : List Byte} {p : Packer} {bits : List Bool} (h : Packed bytes p bits) (code : Nat) {size : Nat}
    (hs : size ≤ 16) :
    ∃ more, (bufBits code size p).1 = stuff more ∧ Packed (bytes ++ more) (Machine.bufBits code size p).2 (bits ++ lowBits code size) := by
  have hle := h.aligned.1
  obtain ⟨more, hmore, hstream⟩ := takeBytes_stream (n := (p.bits + size) / 8) (r := (p.bits + size) % 8)
    (acc := (code % 2 ^ size * 2 ^ (24 - (p.bits + size)) ||| p.buf) % 2 ^ 24) (by omega)
  refine ⟨more, hmore, bufBits_aligned h.aligned code size hs, ?_⟩
  rw [Nat.div_add_mod, topBits_acc h.aligned code hs] at hstream
  rw [streamBits_append, List.append_assoc, ← h.stream, List.append_assoc]
  exact congrArg (streamBits bytes ++ ·) hstream

/-- The byte of the FLUSH body: the pending bits, then the pad. -/
theorem byteBits_flush {p : Packer} (h : p.Aligned) (padbit : Bool) :
    byteBits (BitVec.ofNat 8 (p.buf / 2 ^ 16 ||| if padbit then 0xFF / 2 ^ p.bits else 0)) =
      p.pending ++ List.replicate (8 - p.bits) padbit := by
  have hle := h.1
  have hpad (j : Nat) : (if padbit then 0xFF / 2 ^ p.bits else 0).testBit j = (padbit && decide (j + p.bits < 8)) := by
    cases padbit with
    | false => rw [Bool.false_and, if_neg Bool.false_ne_true, Nat.zero_testBit]
    | true => rw [if_pos rfl, Nat.testBit_div_two_pow, show 0xFF = 2 ^ 8 - 1 from rfl, Nat.testBit_two_pow_sub_one, Bool.true_and]
  have hbit (i : Nat) (hi : i < 8) :
      (BitVec.ofNat 8 (p.buf / 2 ^ 16 ||| if padbit then 0xFF / 2 ^ p.bits else 0)).getLsbD (7 - i) =
        (p.buf.testBit (23 - i) || (padbit && decide (p.bits ≤ i))) := by
    rw [BitVec.getLsbD_ofNat, decide_eq_true (by omega), Bool.true_and, Nat.testBit_or, Nat.testBit_div_two_pow, hpad,
      show 7 - i + 16 = 23 - i by omega, decide_eq_decide.2 (show 7 - i + p.bits < 8 ↔ p.bits ≤ i by omega)]
  have hrange : List.range 8 = List.range (p.bits + (8 - p.bits)) := congrArg _ (by omega)
  have hreplicate : List.replicate (8 - p.bits) padbit = (List.range (8 - p.bits)).map fun _ => padbit := by
    rw [List.map_const', List.length_range]
  rw [byteBits, hrange, map_range_add, hreplicate]
  refine congrArg₂ (· ++ ·) (map_range_congr fun i hi => ?_) (map_range_congr fun i hi => ?_)
  · rw [hbit i (by omega), decide_eq_false (by omega), Bool.and_false, Bool.or_false]
  · rw [hbit _ (by omega), h.testBit_low (by omega), decide_eq_true (by omega), Bool.and_true, Bool.false_or]

/-- The FLUSH body pads the stream to whole bytes (R293). -/
theorem Packed.flush {bytes : List Byte} {p : Packer} {bits : List Bool} (h : Packed bytes p bits) (padbit : Bool) :
    ∃ last, flushBytes padbit p = stuff last ∧
      streamBits (bytes ++ last) = bits ++ List.replicate ((8 - bits.length % 8) % 8) padbit := by
  have hle := h.aligned.1
  rw [← h.bits_eq]
  by_cases hzero : p.bits = 0
  · have hpending : p.pending = [] := by rw [Packer.pending, hzero]; rfl
    refine ⟨[], if_pos hzero, ?_⟩
    rw [← h.stream, hpending, hzero, List.append_nil, List.append_nil]
    exact (List.append_nil _).symm
  · refine ⟨[BitVec.ofNat 8 (p.buf / 2 ^ 16 ||| if padbit then 0xFF / 2 ^ p.bits else 0)], (if_neg hzero).trans (List.append_nil _).symm, ?_⟩
    rw [streamBits_append, ← h.stream, List.append_assoc, show (8 - p.bits) % 8 = 8 - p.bits by omega, ← byteBits_flush h.aligned]
    exact congrArg _ (List.append_nil _)

end Sys2Proof.Machine

/-! SUPPORT. Runs of an encoder command with room in OUT (44_entropy_encoder.md R300, R301). `State.coded` is a state after the packer has pushed
whole bytes; a run comes from one such state to the next by appending the codes of a list, of a block, of the blocks of the array. -/

namespace Sys2Proof.Machine

/-! ### States of a run -/

/-- The state after bytes are pushed to OUT and counted. -/
def State.pushed (s : State) (new : List Byte) : State :=
  { s with fifo.out := s.fifo.out ++ new, coder.outcnt := s.coder.outcnt + BitVec.ofNat 32 new.length }

/-- The state after the packer has pushed whole bytes, with the predictors `preds` and what pends in the packer `p`. -/
def State.coded (s : State) (bytes : List Byte) (preds : Quad (BitVec 16)) (p : Packer) : State :=
  { (s.pushed (stuff bytes)).setPacker p with coder.pred := preds }

theorem pushed_nil (s : State) : s.pushed [] = s := by
  simp [State.pushed]

theorem pushed_pushed (s : State) (new more : List Byte) : (s.pushed new).pushed more = s.pushed (new ++ more) := by
  simp [State.pushed, BitVec.add_assoc, BitVec.ofNat_add]

theorem coded_nil (s : State) (preds : Quad (BitVec 16)) : s.coded [] preds s.packer = { s with coder.pred := preds } := by
  simp [State.coded, stuff, pushed_nil, State.setPacker, State.packer]

theorem coded_pushed (s : State) (bytes more : List Byte) (preds : Quad (BitVec 16)) (p : Packer) :
    (s.coded bytes preds p).pushed (stuff more) = s.coded (bytes ++ more) preds p := by
  have h := pushed_pushed s (stuff bytes) (stuff more)
  rw [← stuff_append] at h
  exact congrArg (fun u : State => { u.setPacker p with coder.pred := preds }) h

theorem packer_coded (s : State) (bytes : List Byte) (preds : Quad (BitVec 16)) {p : Packer} (h : p.Aligned) :
    (s.coded bytes preds p).packer = p :=
  packer_setPacker (s := s.pushed (stuff bytes)) h

/-! ### Moves -/

theorem Body.Reaches.trans {π : Type} {B : Body π} {p q r : π} {s t u : State} (h : B.Reaches p s q t) (k : B.Reaches q t r u) :
    B.Reaches p s r u := by
  induction h with
  | refl => exact k
  | step hgo _ ih => exact .step hgo (ih k)

theorem Body.Reaches.single {π : Type} {B : Body π} {p q : π} {s t : State} (h : B.move p s = .go q t) : B.Reaches p s q t :=
  .step h (.refl _ _)

/-- With room for them, the bytes at hand are pushed. -/
theorem reaches_pushed {new : List Byte} {s : State} (e : Ending) (h : s.fifo.out.length + new.length ≤ s.cfg.outqDepth) :
    emitBody.Reaches (new, e) s ([], e) (s.pushed new) := by
  induction new generalizing s with
  | nil =>
    rw [pushed_nil]
    exact .refl _ _
  | cons b new ih =>
    have hroom : s.fifo.out.length < s.cfg.outqDepth := by
      rw [List.length_cons] at h
      omega
    have hpush : pushOut b s = some (s.pushed [b]) := if_pos hroom
    have hrest : (s.pushed [b]).fifo.out.length + new.length ≤ (s.pushed [b]).cfg.outqDepth := by
      simpa [State.pushed, Nat.add_assoc, Nat.add_comm 1] using h
    have hreach := ih hrest
    rw [pushed_pushed] at hreach
    refine .step ?_ hreach
    show emitStep (b :: new, e) s = _
    rw [emitStep, hpush]

/-- With room for them, stuffed bytes are pushed. -/
theorem reaches_coded {s : State} {bytes more : List Byte} (e : Ending) (preds : Quad (BitVec 16)) (p : Packer)
    (h : s.fifo.out.length + (stuff (bytes ++ more)).length ≤ s.cfg.outqDepth) :
    emitBody.Reaches (stuff more, e) (s.coded bytes preds p) ([], e) (s.coded (bytes ++ more) preds p) := by
  rw [← coded_pushed]
  refine reaches_pushed e ?_
  rw [stuff_append, List.length_append, ← Nat.add_assoc] at h
  show (s.fifo.out ++ stuff bytes).length + _ ≤ s.cfg.outqDepth
  rwa [List.length_append]

theorem runEmit_reaches {p q : List Byte × Ending} {s t : State} (h : emitBody.Reaches p s q t) (hp : EmitAt p) : runEmit p s = runEmit q t :=
  (emitBody_resumes.run_reaches h hp).2.2

theorem runEmit_raise {p : List Byte × Ending} {s t : State} {c : FaultCode} (h : emitStep p s = .raise c t) :
    runEmit p s = faultEntry c t := by
  rw [runEmit, drive, h]

/-! ### A list of codes (R291) -/

/-- OUT has room for the whole bytes of a stream, were each of them stuffed. -/
def State.HasRoom (s : State) (bits : List Bool) : Prop := s.fifo.out.length + 2 * (bits.length / 8) ≤ s.cfg.outqDepth

theorem State.HasRoom.of_append {s : State} {bits more : List Bool} (h : s.HasRoom (bits ++ more)) : s.HasRoom bits := by
  unfold State.HasRoom at h ⊢
  rw [List.length_append] at h
  omega

theorem State.HasRoom.stuffed {s : State} {bytes : List Byte} {p : Packer} {bits : List Bool} (h : s.HasRoom bits)
    (hp : Packed bytes p bits) : s.fifo.out.length + (stuff bytes).length ≤ s.cfg.outqDepth :=
  (Nat.add_le_add_left hp.stuff_length_le _).trans h

theorem State.HasRoom.of_pending {s : State} {more : List Bool}
    (h : s.fifo.out.length + 2 * ((s.coder.putbits.toNat + more.length) / 8) ≤ s.cfg.outqDepth) : s.HasRoom (s.pendingBits ++ more) := by
  rwa [State.HasRoom, List.length_append, pendingBits_length]

theorem codeBits_cons (code size : Nat) (cs : List (Nat × Nat)) : codeBits ((code, size) :: cs) = lowBits code size ++ codeBits cs := rfl

theorem codeBits_append (cs ds : List (Nat × Nat)) : codeBits (cs ++ ds) = codeBits cs ++ codeBits ds := List.flatMap_append

/-- With room for them, the codes of a list are appended to the stream. -/
theorem reaches_codes {s : State} {cs : List (Nat × Nat)} {bytes : List Byte} {p : Packer} {bits : List Bool}
    (scan : Option Nat) (preds : Quad (BitVec 16)) (hcs : ∀ c ∈ cs, c.2 ≤ 16) (hp : Packed bytes p bits)
    (hroom : s.HasRoom (bits ++ codeBits cs)) :
    ∃ bytes' p', Packed bytes' p' (bits ++ codeBits cs) ∧
      emitBody.Reaches ([], .codes cs scan) (s.coded bytes preds p) ([], .codes [] scan) (s.coded bytes' preds p') := by
  induction cs generalizing bytes p bits with
  | nil => exact ⟨bytes, p, by rwa [codeBits, List.flatMap_nil, List.append_nil], .refl _ _⟩
  | cons c cs ih =>
    obtain ⟨code, size⟩ := c
    obtain ⟨hsize, hcs⟩ := List.forall_mem_cons.1 hcs
    rw [codeBits_cons, ← List.append_assoc] at hroom ⊢
    obtain ⟨more, hmore, hp'⟩ := hp.bufBits code hsize
    obtain ⟨bytes', p', hpacked, hreach⟩ := ih hcs hp' hroom
    have hpush := reaches_coded (.buffered code size cs scan) preds p (hroom.of_append.stuffed hp')
    have hbegin : emitBody.move ([], .codes ((code, size) :: cs) scan) (s.coded bytes preds p) =
        .go (stuff more, .buffered code size cs scan) (s.coded bytes preds p) := by
      show BodyStep.go ((bufBits code size (s.coded bytes preds p).packer).1, _) _ = _
      rw [packer_coded s bytes preds hp.aligned, hmore]
    have hend : emitBody.move ([], .buffered code size cs scan) (s.coded (bytes ++ more) preds p) =
        .go ([], .codes cs scan) (s.coded (bytes ++ more) preds (bufBits code size p).2) := by
      show BodyStep.go _ ((s.coded (bytes ++ more) preds p).setPacker (bufBits code size (s.coded (bytes ++ more) preds p).packer).2) = _
      rw [packer_coded s (bytes ++ more) preds hp.aligned]
      rfl
    exact ⟨bytes', p', hpacked, .step hbegin (hpush.trans (.step hend hreach))⟩

/-- With room for them, the codes of a list are appended to what `s` has pending, and the command retires. -/
theorem runEmit_codes {s : State} {cs : List (Nat × Nat)} (preds : Quad (BitVec 16)) (hcs : ∀ c ∈ cs, c.2 ≤ 16) (hs : s.coder.Aligned)
    (hroom : s.HasRoom (s.pendingBits ++ codeBits cs)) :
    ∃ bytes p, Packed bytes p (s.pendingBits ++ codeBits cs) ∧
      runEmit ([], .codes cs none) (s.coded [] preds s.packer) = retire (s.coded bytes preds p) := by
  obtain ⟨bytes, p, hp, hreach⟩ := reaches_codes none preds hcs (Packed.of_aligned hs) hroom
  exact ⟨bytes, p, hp, runEmit_reaches hreach (by simpa [EmitAt, Ending.fits] using fun a b hab => hcs (a, b) hab)⟩

/-! ### The FLUSH body (R293) -/

/-- With room for it, the FLUSH body pushes the stream's last byte, and the command retires with nothing pending. -/
theorem runEmit_flush {s : State} {bytes : List Byte} {p : Packer} {bits : List Bool} (preds : Quad (BitVec 16)) (hp : Packed bytes p bits)
    (hroom : s.fifo.out.length + 2 * ((bits.length + 7) / 8) ≤ s.cfg.outqDepth) :
    ∃ whole, streamBits whole = bits ++ List.replicate ((8 - bits.length % 8) % 8) s.ctrl.padbit ∧
      runEmit (flushBytes s.ctrl.padbit p, .flushed) (s.coded bytes preds p) = retire (s.coded whole preds { buf := 0, bits := 0 }) := by
  obtain ⟨last, hlast, hstream⟩ := hp.flush s.ctrl.padbit
  have hlen := congrArg List.length hstream
  rw [streamBits_length, List.length_append (as := bits), List.length_replicate] at hlen
  have hstuff := stuff_length (bytes ++ last)
  refine ⟨bytes ++ last, hstream, ?_⟩
  rw [hlast]
  exact runEmit_reaches (reaches_coded .flushed preds p (by omega)) rfl

/-! ### The blocks of the array (R301) -/

theorem componentBelow_congr {s t : State} (h : t.geo = s.geo) (j n : Nat) : t.componentBelow j n = s.componentBelow j n := by
  have hunits : t.unitsOf = s.unitsOf := funext fun c => by rw [State.unitsOf, State.unitsOf, h]
  induction n with
  | zero => rfl
  | succ n ih => rw [State.componentBelow, State.componentBelow, offsetOf_eq_sum, offsetOf_eq_sum, hunits, ih]

theorem blockComponent_congr {s t : State} (h : t.geo = s.geo) (b : Nat) : t.blockComponent b = s.blockComponent b := by
  rw [State.blockComponent, State.blockComponent, bpm_congr h, State.componentOf, State.componentOf, componentBelow_congr h, h]

/-- The codes of block `b` with the predictors `preds`. -/
def State.codesOfBlock (s : State) (b : Nat) (preds : Quad (BitVec 16)) : List (Nat × Nat) :=
  blockCodes (s.blockComponent b) (s.geo.comp.get (s.blockComponent b)).td (s.geo.comp.get (s.blockComponent b)).ta b
    { s with coder.pred := preds }

/-- Block `b` has a code with the predictors `preds`. -/
def State.blockCodable (s : State) (b : Nat) (preds : Quad (BitVec 16)) : Bool :=
  codable (s.blockComponent b) b { s with coder.pred := preds }

/-- The predictors after block `b`. -/
def State.predsAfter (s : State) (b : Nat) (preds : Quad (BitVec 16)) : Quad (BitVec 16) :=
  preds.set (s.blockComponent b) (s.coefAt (64 * b))

theorem scanCodes_succ (s : State) (n b : Nat) (preds : Quad (BitVec 16)) :
    scanCodes s (n + 1) b preds = s.codesOfBlock b preds ++ scanCodes s n (b + 1) (s.predsAfter b preds) := rfl

theorem scanPreds_succ (s : State) (n b : Nat) (preds : Quad (BitVec 16)) :
    scanPreds s (n + 1) b preds = scanPreds s n (b + 1) (s.predsAfter b preds) := rfl

theorem scanCodable_succ (s : State) (n b : Nat) (preds : Quad (BitVec 16)) :
    scanCodable s (n + 1) b preds = (s.blockCodable b preds && scanCodable s n (b + 1) (s.predsAfter b preds)) := rfl

/-- Of `n + 1` blocks the first `n` have codes and not all: the last has none. -/
theorem blockCodable_last {s : State} {n b : Nat} {preds : Quad (BitVec 16)} (h : scanCodable s n b preds = true)
    (hlast : scanCodable s (n + 1) b preds = false) : s.blockCodable (b + n) (scanPreds s n b preds) = false := by
  induction n generalizing b preds with
  | zero =>
    rw [scanCodable_succ, Bool.and_eq_false_iff] at hlast
    exact hlast.resolve_right Bool.noConfusion
  | succ n ih =>
    rw [scanCodable_succ, Bool.and_eq_true] at h
    rw [scanCodable_succ, h.1, Bool.true_and] at hlast
    rw [scanPreds_succ, show b + (n + 1) = b + 1 + n by omega]
    exact ih h.2 hlast

section
variable (s : State) (f : Fifos) (k : Coder) {b : Nat}

/-- A state that differs from `s` in its FIFOs and its coder, as every state of a run of ENCSCAN does. -/
def State.recoded : State := { s with fifo := f, coder := k }

theorem scanNext_component (b : Nat) : (s.recoded f k).componentOf (b % (s.recoded f k).bpm) = s.blockComponent b :=
  blockComponent_congr (s := s) (t := s.recoded f k) rfl b

/-- After the last block ENCSCAN takes the FLUSH body. -/
theorem scanNext_last (hb : s.geo.ncoef.toNat / 64 ≤ b) :
    scanNext b (s.recoded f k) = .go (flushBytes s.ctrl.padbit (s.recoded f k).packer, .flushed) (s.recoded f k) := if_pos hb

/-- A block without a code ends ENCSCAN in NOCODE. -/
theorem scanNext_nocode (hb : b < s.geo.ncoef.toNat / 64) (hc : s.blockCodable b k.pred = false) :
    scanNext b (s.recoded f k) = .raise .nocode (s.recoded f k) := by
  refine (if_neg (Nat.not_le.2 hb)).trans (if_pos ?_)
  rw [scanNext_component]
  exact hc

/-- A block's predictor is written, and its codes come next. -/
theorem scanNext_codes (hb : b < s.geo.ncoef.toNat / 64) (hc : s.blockCodable b k.pred = true) :
    scanNext b (s.recoded f k) =
      .go ([], .codes (s.codesOfBlock b k.pred) (some (b + 1))) (s.recoded f { k with pred := s.predsAfter b k.pred }) := by
  refine (if_neg (Nat.not_le.2 hb)).trans ((if_neg ?_).trans ?_)
  · rw [scanNext_component]
    exact ne_false_of_eq_true hc
  · rw [scanNext_component]
    rfl

end

theorem emitStep_coded_last {s : State} {b : Nat} (bytes : List Byte) (preds : Quad (BitVec 16)) {p : Packer} (hp : p.Aligned)
    (hb : s.geo.ncoef.toNat / 64 ≤ b) :
    emitStep ([], .codes [] (some b)) (s.coded bytes preds p) = .go (flushBytes s.ctrl.padbit p, .flushed) (s.coded bytes preds p) := by
  have hflush : emitStep ([], .codes [] (some b)) (s.coded bytes preds p) =
      .go (flushBytes s.ctrl.padbit (s.coded bytes preds p).packer, .flushed) (s.coded bytes preds p) :=
    scanNext_last s (s.coded bytes preds p).fifo (s.coded bytes preds p).coder hb
  rwa [packer_coded s bytes preds hp] at hflush

/-- With room for them, the codes of blocks that have them are appended. -/
theorem reaches_blocks {s : State} {n b : Nat} {preds : Quad (BitVec 16)} {bytes : List Byte} {p : Packer} {bits : List Bool}
    (hn : b + n ≤ s.geo.ncoef.toNat / 64) (hcodable : scanCodable s n b preds = true) (hp : Packed bytes p bits)
    (hroom : s.HasRoom (bits ++ codeBits (scanCodes s n b preds))) :
    ∃ bytes' p', Packed bytes' p' (bits ++ codeBits (scanCodes s n b preds)) ∧
      emitBody.Reaches ([], .codes [] (some b)) (s.coded bytes preds p)
        ([], .codes [] (some (b + n))) (s.coded bytes' (scanPreds s n b preds) p') := by
  induction n generalizing b preds bytes p bits with
  | zero => exact ⟨bytes, p, by rwa [scanCodes, codeBits, List.flatMap_nil, List.append_nil], .refl _ _⟩
  | succ n ih =>
    rw [scanCodable_succ, Bool.and_eq_true] at hcodable
    obtain ⟨hfirst, hrest⟩ := hcodable
    rw [scanCodes_succ, codeBits_append, ← List.append_assoc] at hroom ⊢
    have hbegin : emitBody.move ([], .codes [] (some b)) (s.coded bytes preds p) =
        .go ([], .codes (s.codesOfBlock b preds) (some (b + 1))) (s.coded bytes (s.predsAfter b preds) p) :=
      scanNext_codes s (s.coded bytes preds p).fifo (s.coded bytes preds p).coder (by omega) hfirst
    obtain ⟨bytes₁, p₁, hp₁, hreach₁⟩ :=
      reaches_codes (some (b + 1)) (s.predsAfter b preds) (blockCodes_size _ _ _ _ _) hp hroom.of_append
    obtain ⟨bytes₂, p₂, hp₂, hreach₂⟩ := ih (by omega) hrest hp₁ hroom
    refine ⟨bytes₂, p₂, hp₂, .step hbegin (hreach₁.trans ?_)⟩
    rwa [Nat.add_right_comm] at hreach₂

/-- ENCSCAN has still to come to a block without a code. -/
def BlockAhead (s : State) (q : List Byte × Ending) (u : State) : Prop :=
  (∃ f k, u = s.recoded f k) ∧
  ∃ b, q.2.nextBlock = some b ∧ scanCodable s (s.geo.ncoef.toNat / 64 - b) b u.coder.pred = false

/-- A block without a code ahead is a block of the array. -/
theorem lt_of_scanCodable_eq_false {s : State} {blocks b : Nat} {preds : Quad (BitVec 16)}
    (h : scanCodable s (blocks - b) b preds = false) : b < blocks := by
  by_contra hle
  rw [Nat.sub_eq_zero_of_le (Nat.not_lt.1 hle)] at h
  exact Bool.noConfusion h

/-- No move but NOCODE goes past a block without a code. -/
theorem BlockAhead.step {s u u' : State} {q q' : List Byte × Ending} (h : BlockAhead s q u) :
    emitStep q u ≠ .done u' ∧ (emitStep q u = .go q' u' → BlockAhead s q' u') := by
  obtain ⟨⟨f, k, rfl⟩, b, hnext, hcodable⟩ := h
  obtain ⟨bytes, e⟩ := q
  cases bytes with
  | cons c cs =>
    simp only [emitStep, pushOut]
    split <;> rename_i hpush
    · exact ⟨nofun, nofun⟩
    · refine ⟨nofun, fun hgo => ?_⟩
      cases hgo
      split at hpush <;> cases hpush
      exact ⟨⟨_, _, rfl⟩, b, hnext, hcodable⟩
  | nil =>
    match e, hnext with
    | .buffered code size rest scan, hnext =>
      refine ⟨nofun, fun hgo => ?_⟩
      cases hgo
      exact ⟨⟨_, _, rfl⟩, b, hnext, hcodable⟩
    | .codes ((code, size) :: rest) scan, hnext =>
      refine ⟨nofun, fun hgo => ?_⟩
      cases hgo
      exact ⟨⟨_, _, rfl⟩, b, hnext, hcodable⟩
    | .codes [] (some c), hnext =>
      obtain rfl : c = b := Option.some.inj hnext
      have hlt := lt_of_scanCodable_eq_false hcodable
      cases hfirst : s.blockCodable c k.pred with
      | false =>
        have hraise : emitStep ([], .codes [] (some c)) (s.recoded f k) = _ := scanNext_nocode s f k hlt hfirst
        rw [hraise]
        exact ⟨nofun, nofun⟩
      | true =>
        have hcodes : emitStep ([], .codes [] (some c)) (s.recoded f k) = _ := scanNext_codes s f k hlt hfirst
        rw [hcodes]
        refine ⟨nofun, fun hgo => ?_⟩
        cases hgo
        rw [show s.geo.ncoef.toNat / 64 - c = s.geo.ncoef.toNat / 64 - (c + 1) + 1 by omega, scanCodable_succ] at hcodable
        rw [show (s.recoded f k).coder.pred = k.pred from rfl, hfirst, Bool.true_and] at hcodable
        exact ⟨⟨_, _, rfl⟩, c + 1, rfl, hcodable⟩

/-- With a block without a code ahead, ENCSCAN ends in NOCODE or waits for room. -/
theorem runEmit_blockAhead {s u : State} {q : List Byte × Ending} (hq : EmitAt q) (h : BlockAhead s q u) :
    (runEmit q u).agent = .halted .nocode ∨ ∃ p, (runEmit q u).agent = .stall .out p := by
  have hends := drive_ends emitBody.place emitStep (fun q u => EmitAt q ∧ BlockAhead s q u) (fun _ => False) (fun c _ => c = .nocode)
    (fun src _ _ => src = .out) emitLeft
    (fun q u q' u' hq hgo => ⟨⟨(emitStep_go hq.1 hgo).1, hq.2.step.2 hgo⟩, (emitStep_go hq.1 hgo).2⟩)
    (fun q u src q' u' _ hwait => (emitStep_wait hwait).1)
    (fun q u u' hq hdone => hq.2.step (q' := q).1 hdone)
    (fun q u c u' _ hraise => emitStep_raise hraise)
    (emitBody.bound q u) q u ⟨hq, h⟩ (emitBody_resumes.bounded hq)
  obtain ⟨_, hfalse, _⟩ | ⟨c, b, rfl, hrun⟩ | ⟨src, q', b, rfl, hrun⟩ := hends
  · exact hfalse.elim
  · exact .inl (congrArg State.agent hrun)
  · exact .inr ⟨_, congrArg State.agent hrun⟩

/-! ### ENCBLK and ENCSCAN -/

/-- The two checks of ENCBLK's categories, over the block's coefficients in zig-zag order (R300). -/
theorem codable_iff {comp blk : Nat} {s : State} :
    codable comp blk s = true ↔ category (s.coefInt (64 * blk) - (s.coder.pred.get comp).toInt) ≤ 11 ∧
      ∀ k, 1 ≤ k → k < 64 → category (s.coefInt (64 * blk + zz k)) ≤ 10 := by
  rw [codable, Bool.and_eq_true, decide_eq_true_iff, acValues, List.all_map, List.all_eq_true]
  refine and_congr Iff.rfl ⟨fun h k hlo hhi => ?_, fun h k hk => ?_⟩
  · obtain ⟨j, rfl⟩ := Nat.exists_eq_add_of_le' hlo
    exact of_decide_eq_true (h j (List.mem_range.2 (by omega)))
  · have := List.mem_range.1 hk
    exact decide_eq_true (h (k + 1) (by omega) (by omega))

/-- The geometry is the array's (R301). -/
def State.geometryMatches (s : State) : Prop :=
  s.geometry = some { mx := s.geo.mcux.toNat, my := s.geo.mcuy.toNat, n := s.geo.ncoef.toNat }

theorem exec_encscan_geom {s : State} (h : ¬ s.geometryMatches) : exec .encscan s = .next (faultEntry .geom s) := by
  show execEncscan s = _
  rw [execEncscan]
  cases hg : s.geometry with
  | none => rfl
  | some g =>
    refine congrArg Host.Outcome.next (if_pos ?_)
    by_contra hsame
    obtain ⟨mx, my, n⟩ := g
    simp only [ne_eq, not_or, not_not] at hsame
    obtain ⟨rfl, rfl, rfl⟩ := hsame
    exact h hg

theorem exec_encscan_matching {s : State} (h : s.geometryMatches) :
    exec .encscan s = .next (runEmit ([], .codes [] (some 0)) (s.coded [] (Quad.all 0) s.packer)) := by
  show execEncscan s = _
  rw [execEncscan, show s.geometry = _ from h, coded_nil]
  exact congrArg Host.Outcome.next (if_neg (by simp))

theorem Packed.coded {s : State} {bytes : List Byte} {p : Packer} {bits : List Bool} (h : Packed bytes p bits) (preds : Quad (BitVec 16)) :
    streamBits bytes ++ (s.coded bytes preds p).pendingBits = bits ∧ (s.coded bytes preds p).coder.Aligned :=
  ⟨by rw [pendingBits_eq, packer_coded s bytes preds h.aligned, h.stream], setPacker_aligned (s := s.pushed (stuff bytes)) h.aligned⟩

end Sys2Proof.Machine

namespace Sys2Proof

open Machine

/-- Settles O35: PUTBITS is BufBits of one code. -/
theorem putbitsAppendsItsBits : Obligations.PutbitsAppendsItsBits := by
  intro size code s
  refine ⟨fun hsize => congrArg Host.Outcome.next (if_pos hsize), fun hsize hs hroom => ?_⟩
  have hbits : codeBits [(code.toNat, size)] = lowBits code.toNat size := List.append_nil _
  have hlen : (codeBits [(code.toNat, size)]).length = size := by simp [hbits, lowBits]
  obtain ⟨bytes, p, hp, hrun⟩ := runEmit_codes (cs := [(code.toNat, size)]) s.coder.pred (by simpa using hsize) hs
    (.of_pending (by rwa [hlen]))
  rw [hbits] at hp
  rw [coded_nil] at hrun
  exact ⟨_, bytes, congrArg Host.Outcome.next ((if_neg (Nat.not_lt.2 hsize)).trans hrun), rfl, hp.coded _⟩

/-- Settles O36: the FLUSH body pads the stream of what pends. -/
theorem flushPadsThePendingBits : Obligations.FlushPadsThePendingBits := by
  intro s hs hroom
  have hle := hs.1
  have hspace : s.fifo.out.length + 2 * ((s.pendingBits.length + 7) / 8) ≤ s.cfg.outqDepth := by
    rw [pendingBits_length]
    omega
  obtain ⟨whole, hstream, hrun⟩ := runEmit_flush s.coder.pred (Packed.of_aligned hs) hspace
  rw [pendingBits_length, Nat.mod_eq_of_lt (show s.coder.putbits.toNat < 8 by omega)] at hstream
  rw [coded_nil] at hrun
  exact ⟨_, whole, congrArg Host.Outcome.next hrun, rfl, hstream⟩

/-- Settles O37: EMITRAW is the push of one byte from an empty packer. -/
theorem emitrawAndPredclr : Obligations.EmitrawAndPredclr := by
  intro b s
  refine ⟨fun hbits => congrArg Host.Outcome.next (if_pos hbits), fun hbits hroom => ?_, fun hbits hfull => ?_, rfl⟩
  · have hrun := runEmit_reaches (reaches_pushed (new := [b]) .retire hroom) rfl
    exact congrArg Host.Outcome.next ((if_neg (not_not.2 hbits)).trans hrun)
  · have hpush : pushOut b s = none := if_neg (Nat.not_lt.2 hfull)
    have hrun : runEmit ([b], .retire) s = { s with agent := .stall .out (.emit [b] .retire) } := by
      rw [runEmit, drive, emitStep, hpush]
    exact congrArg Host.Outcome.next ((if_neg (not_not.2 hbits)).trans hrun)

/-- Settles O38: ENCBLK appends the list of its block's codes, after its two checks. -/
theorem encblkAppendsTheBlocksCodes : Obligations.EncblkAppendsTheBlocksCodes := by
  intro comp dt ac blk s ok bits
  have hok : codable comp.val blk s = true ↔ ok := codable_iff
  have hinside : 64 * blk + 64 ≤ s.geo.ncoef.toNat → ¬ s.blockInside blk = false := fun h => ne_false_of_eq_true (blockInside_iff.2 h)
  refine ⟨fun hout => ?_, fun hin hno => ?_, fun hin hyes hs hroom => ?_⟩
  · have hbad : s.blockInside blk = false := Bool.eq_false_iff.2 fun h => absurd (blockInside_iff.1 h) (Nat.not_le.2 hout)
    exact congrArg Host.Outcome.next (if_pos hbad)
  · have hbad : codable comp.val blk s = false := Bool.eq_false_iff.2 fun h => hno (hok.1 h)
    exact congrArg Host.Outcome.next ((if_neg (hinside hin)).trans (if_pos hbad))
  · obtain ⟨bytes, p, hp, hrun⟩ := runEmit_codes (s.coder.pred.set comp.val (s.coefAt (64 * blk))) (blockCodes_size _ _ _ _ _) hs
      (.of_pending hroom)
    rw [coded_nil] at hrun
    have hexec : exec (.encblk comp dt ac blk) s = .next (retire (s.coded bytes _ p)) :=
      congrArg Host.Outcome.next ((if_neg (hinside hin)).trans ((if_neg (ne_false_of_eq_true (hok.2 hyes))).trans hrun))
    exact ⟨_, bytes, hexec, rfl, hp.coded _⟩

/-- Settles O39: ENCSCAN appends the codes of the array's blocks one block after the other, and ends in its FLUSH body or at the first block
without a code; with such a block ahead no move ends the command but NOCODE. -/
theorem encscanAppendsEveryBlock : Obligations.EncscanAppendsEveryBlock := by
  intro s blocks zero bits matching
  refine ⟨exec_encscan_geom, fun hmatch hno => ?_, ?_, fun hmatch hall hs hroom => ?_⟩
  · have hahead : BlockAhead s ([], .codes [] (some 0)) (s.coded [] zero s.packer) := ⟨⟨_, _, rfl⟩, 0, rfl, hno⟩
    exact ⟨_, exec_encscan_matching hmatch, runEmit_blockAhead rfl hahead⟩
  · intro m hmatch hm hbefore hno hs before hroom
    obtain ⟨bytes, p, hp, hreach⟩ := reaches_blocks (by omega) hbefore (Packed.of_aligned hs) (.of_pending hroom)
    have hlast := blockCodable_last hbefore hno
    rw [Nat.zero_add] at hreach hlast
    have hraise : emitStep ([], .codes [] (some m)) (s.coded bytes (scanPreds s m 0 zero) p) = _ := scanNext_nocode s _ _ hm hlast
    have hrun := (runEmit_reaches hreach rfl).trans (runEmit_raise hraise)
    exact ⟨_, bytes, (exec_encscan_matching hmatch).trans (congrArg Host.Outcome.next hrun), rfl, hp.coded _⟩
  · have hlen : (s.pendingBits ++ bits).length = s.coder.putbits.toNat + bits.length := by rw [List.length_append, pendingBits_length]
    have hspace : s.HasRoom (s.pendingBits ++ bits) := .of_pending (by omega)
    obtain ⟨bytes, p, hp, hreach⟩ := reaches_blocks (by omega) hall (Packed.of_aligned hs) hspace
    have hlast := emitStep_coded_last (s := s) (b := 0 + blocks) bytes (scanPreds s blocks 0 zero) hp.aligned (by omega)
    obtain ⟨whole, hstream, hflush⟩ := runEmit_flush (scanPreds s blocks 0 zero) hp (by rwa [hlen])
    rw [hlen] at hstream
    have hrun := (runEmit_reaches (hreach.trans (.single hlast)) rfl).trans hflush
    exact ⟨_, whole, (exec_encscan_matching hmatch).trans (congrArg Host.Outcome.next hrun), rfl, hstream⟩

end Sys2Proof

/-! SUPPORT. The carried bit and the capacity (46_f5_matrix.md R400, R402): which number the carried bit is, what a step toward zero makes of
it, and how many coefficients of an array are not DC. -/

namespace Sys2Proof.Machine

/-! ### The carried bit and one step toward zero (R400) -/

theorem carriedBit_eq_none_iff {v : Int} : carriedBit v = none ↔ v = 0 := by
  unfold carriedBit
  split_ifs <;> simp_all

theorem carriedBit_pos {v : Int} (h : 0 < v) : carriedBit v = some (decide (v % 2 = 1)) := by
  rw [carriedBit, if_neg h.ne', if_pos h]

theorem carriedBit_neg {v : Int} (h : v < 0) : carriedBit v = some (decide (v % 2 = 0)) := by
  rw [carriedBit, if_neg h.ne, if_neg h.not_gt]

theorem bitOf_decide (p : Prop) [Decidable p] : bitOf (decide p) = if p then 1 else 0 := by
  by_cases h : p <;> simp [bitOf, h]

/-! ### The capacity (R402) -/

theorem countNonDc_eq (f : Int → Bool) (s : State) (n : Nat) :
    countNonDc f s n = (((List.range n).filter (fun i => i % 64 ≠ 0)).filter (fun i => f (s.coefInt i))).length := by
  rw [List.filter_filter, countNonDc, List.countP_eq_length_filter]
  refine congrArg (fun g => ((List.range n).filter g).length) (funext fun i => ?_)
  exact Bool.and_comm _ _

/-- A block has 63 coefficients that are not DC. -/
theorem countNonDc_all (s : State) (blocks : Nat) : countNonDc (fun _ => true) s (64 * blocks) = 63 * blocks := by
  induction blocks with
  | zero => rfl
  | succ m ih =>
    have hblock : ((List.range 64).map (64 * m + ·)).countP (fun i => decide (i % 64 ≠ 0) && true) = 63 := by
      rw [List.countP_map]
      have hshift : (fun i => decide (i % 64 ≠ 0) && true) ∘ (64 * m + ·) = fun i => decide (i % 64 ≠ 0) := by
        funext i
        simp
      rw [hshift]
      rfl
    unfold countNonDc at ih ⊢
    rw [Nat.mul_succ, List.range_add, List.countP_append, ih, hblock, Nat.mul_succ]

end Sys2Proof.Machine

namespace Sys2Proof

open Machine

/-- Settles O50: the three signs of the carried bit, below the bound. -/
theorem xbitReadsTheCarriedBit : Obligations.XbitReadsTheCarriedBit := by
  intro a s
  refine ⟨fun hout => congrArg Host.Outcome.next (if_pos hout), fun hin => ?_⟩
  refine ⟨_, congrArg Host.Outcome.next (if_neg (Nat.not_le.2 hin)), fun h => ?_, fun h => ?_, fun h => ?_⟩
  · rw [carriedBit_eq_none_iff.2 h]
  · simp only [carriedBit_pos h, bitOf_decide]
    split <;> simp <;> omega
  · simp only [carriedBit_neg h, bitOf_decide]
    split <;> simp <;> omega

/-- Settles O51: CAPCNT counts the non-DC indices by value, and there are 63 of them a block. -/
theorem capcntCountsTheCoefficients : Obligations.CapcntCountsTheCoefficients := by
  intro s hblocks nonDc ones zeros
  have hones : countNonDc (fun v => decide (v = 1 ∨ v = -1)) s s.geo.ncoef.toNat = ones := countNonDc_eq _ _ _
  have hzeros : countNonDc (fun v => decide (v = 0)) s s.geo.ncoef.toNat = zeros := countNonDc_eq _ _ _
  have hall : countNonDc (fun _ => true) s s.geo.ncoef.toNat = 63 * (s.geo.ncoef.toNat / 64) := by
    have h := countNonDc_all s (s.geo.ncoef.toNat / 64)
    rwa [Nat.mul_div_cancel' (Nat.dvd_of_mod_eq_zero hblocks)] at h
  show execCapcnt s = _
  rw [execCapcnt]
  simp only [hones, hzeros, hall]

end Sys2Proof

/-! SUPPORT. Reading coefficients through the cursor (41_permutation.md R195, 46_f5_matrix.md R404, R413, R415): the usable coefficients it has
left say what each draw finds, and the commands that only read are what their draws give. -/

namespace Sys2Proof.Machine

/-! ### The usable coefficients left -/

theorem usable_of_mem_usableLeft {s : State} {p : Nat} (h : p ∈ s.usableLeft) : s.usable p = true := (List.mem_filter.1 h).2

theorem usable_iff {s : State} {p : Nat} : s.usable p = true ↔ p % 64 ≠ 0 ∧ s.coefInt p ≠ 0 := by
  rw [State.usable, Bool.and_eq_true, decide_eq_true_iff, decide_eq_true_iff]

theorem usableLeft_length_le (s : State) : s.usableLeft.length ≤ s.entriesLeft :=
  (List.length_filter_le _ _).trans_eq (by simp)

theorem usableLeft_exhausted {s : State} (h : s.f5.pos = s.f5.permN) : s.usableLeft = [] := by
  rw [State.usableLeft, State.entriesLeft, h, Nat.sub_self, usableFrom_zero]

/-- The entries of the permutation the cursor has not looked at. -/
def State.ahead (s : State) : List Nat := (List.range s.entriesLeft).map (fun i => (s.permAt (s.f5.pos.toNat + i)).toNat)

theorem usableLeft_eq_filter (s : State) : s.usableLeft = s.ahead.filter s.usable := rfl

theorem ahead_congr {s t : State} (perm : t.ram.perm = s.ram.perm := by rfl) (cycles : t.powerCycles = s.powerCycles := by rfl)
    (permN : t.f5.permN = s.f5.permN := by rfl) (pos : t.f5.pos = s.f5.pos := by rfl) : t.ahead = s.ahead := by
  simp only [State.ahead, State.entriesLeft, permN, pos, permAt_congr perm cycles]

theorem coefInt_congr {s t : State} {a : Nat} (h : t.coefAt a = s.coefAt a) : t.coefInt a = s.coefInt a := congrArg BitVec.toInt h

/-! ### Draws -/

/-- Drawing the coefficients `ps` moves the cursor past them and does nothing else. -/
structure Draws (ps : List Nat) (s t : State) : Prop where
  state : t = { s with f5.pos := t.f5.pos }
  left : s.usableLeft = ps ++ t.usableLeft
  last : s.drewLast t ps
  cursor : t.f5.pos.toNat ≤ t.f5.permN.toNat

theorem Draws.nil {s : State} (hp : s.f5.pos.toNat ≤ s.f5.permN.toNat) : Draws [] s s := ⟨rfl, rfl, drewLast_nil.2 rfl, hp⟩

theorem drewLast_append {s t u : State} {ps qs : List Nat} (h : s.drewLast t ps) (k : t.drewLast u qs)
    (hperm : ∀ i, t.permAt i = s.permAt i) : s.drewLast u (ps ++ qs) := by
  unfold State.drewLast at h k ⊢
  rw [List.getLast?_append]
  cases hq : qs.getLast? with
  | none =>
    rw [hq] at k
    rw [Option.none_or, show u.f5.pos = t.f5.pos from k]
    exact h
  | some q =>
    rw [hq] at k
    obtain ⟨hpos, hlast⟩ := k
    refine ⟨?_, hperm _ ▸ hlast⟩
    cases hl : ps.getLast? with
    | none =>
      rw [hl] at h
      exact (show t.f5.pos = s.f5.pos from h) ▸ hpos
    | some p =>
      rw [hl] at h
      exact h.1.trans hpos

theorem Draws.trans {s t u : State} {ps qs : List Nat} (h : Draws ps s t) (k : Draws qs t u) : Draws (ps ++ qs) s u where
  state := k.state.trans (by rw [h.state])
  left := by rw [h.left, k.left, List.append_assoc]
  last := drewLast_append h.last k.last fun i => by rw [h.state]; rfl
  cursor := k.cursor

theorem Draws.coefAt {s t : State} {ps : List Nat} (h : Draws ps s t) (a : Nat) : t.coefAt a = s.coefAt a := by
  rw [h.state]
  rfl

theorem Draws.carried {s t : State} {ps : List Nat} (h : Draws ps s t) (qs : List Nat) : t.carried qs = s.carried qs := by
  rw [h.state]
  rfl

theorem Draws.left_drop {s t : State} {n : Nat} (h : Draws (s.usableLeft.take n) s t) : t.usableLeft = s.usableLeft.drop n :=
  List.append_cancel_left (h.left.symm.trans (List.take_append_drop n _).symm)

/-- With a usable coefficient left, NextUsable() finds the next one. -/
theorem nextUsable_of_cons {s : State} {p : Nat} {ps : List Nat} (hp : s.f5.pos.toNat ≤ s.f5.permN.toNat) (h : s.usableLeft = p :: ps) :
    ∃ t, nextUsable s = (some p, t) ∧ Draws [p] s t ∧ t.usableLeft = ps := by
  cases hn : nextUsable s with
  | mk o t =>
    cases o with
    | none => rw [(nextUsable_none hp hn).2] at h; cases h
    | some q =>
      obtain ⟨hstate, hlt, hle, -, hlast, hleft⟩ := nextUsable_some hp hn
      obtain ⟨rfl, rfl⟩ := List.cons.inj (hleft.symm.trans h)
      have hN : t.f5.permN = s.f5.permN := by rw [hstate]
      exact ⟨t, rfl, ⟨hstate, hleft, ⟨hlt, hlast⟩, hN ▸ hle⟩, rfl⟩

/-- With none left, NextUsable() exhausts the cursor. -/
theorem nextUsable_of_nil {s : State} (hp : s.f5.pos.toNat ≤ s.f5.permN.toNat) (h : s.usableLeft = []) :
    nextUsable s = (none, { s with f5.pos := s.f5.permN }) := by
  cases hn : nextUsable s with
  | mk o t =>
    cases o with
    | none => rw [(nextUsable_none hp hn).1]
    | some q =>
      obtain ⟨-, -, -, -, -, hleft⟩ := nextUsable_some hp hn
      rw [h] at hleft
      cases hleft

/-! ### Syndromes (R404, R413) -/

/-- The numbers of the members that carry 1, from number `i` on, XORed onto `acc`: `syndromeOf` is it from 1 on, onto 0. -/
def xorMembers (i acc : Nat) (bits : List Nat) : Nat := (bits.zipIdx i).foldl (fun h m => if m.1 = 1 then h ^^^ m.2 else h) acc

theorem syndromeOf_eq (bits : List Nat) : syndromeOf bits = xorMembers 1 0 bits := rfl

theorem xorMembers_cons (i acc b : Nat) (bits : List Nat) :
    xorMembers i acc (b :: bits) = xorMembers (i + 1) (if b = 1 then acc ^^^ i else acc) bits := rfl

theorem carried_cons (s : State) (p : Nat) (ps : List Nat) :
    s.carried (p :: ps) = (if carriedBit (s.coefInt p) = some true then 1 else 0) :: s.carried ps := rfl

theorem drawSyndrome_enough {n : Nat} (i acc : Nat) {s : State} (hp : s.f5.pos.toNat ≤ s.f5.permN.toNat) (h : n ≤ s.usableLeft.length) :
    ∃ t, drawSyndrome n i acc s = (some (xorMembers (i + 1) acc (s.carried (s.usableLeft.take n))), t) ∧
      Draws (s.usableLeft.take n) s t := by
  induction n generalizing i acc s with
  | zero => exact ⟨s, rfl, .nil hp⟩
  | succ n ih =>
    cases hl : s.usableLeft with
    | nil => rw [hl] at h; cases h
    | cons p ps =>
      obtain ⟨t, hnext, hdraw, rfl⟩ := nextUsable_of_cons hp hl
      rw [hl] at h
      obtain ⟨u, hrest, hdraws⟩ := ih (i + 1) (if carriedBit (t.coefInt p) = some true then acc ^^^ (i + 1) else acc) hdraw.cursor
        (Nat.le_of_succ_le_succ h)
      refine ⟨u, ?_, hdraw.trans hdraws⟩
      rw [drawSyndrome, hnext]
      refine hrest.trans ?_
      rw [List.take_succ_cons, carried_cons, xorMembers_cons, hdraw.carried, coefInt_congr (hdraw.coefAt p)]
      simp

theorem drawSyndrome_short {n : Nat} (i acc : Nat) {s : State} (hp : s.f5.pos.toNat ≤ s.f5.permN.toNat) (h : s.usableLeft.length < n) :
    drawSyndrome n i acc s = (none, { s with f5.pos := s.f5.permN }) := by
  induction n generalizing i acc s with
  | zero => exact absurd h (Nat.not_lt_zero _)
  | succ n ih =>
    cases hl : s.usableLeft with
    | nil => rw [drawSyndrome, nextUsable_of_nil hp hl]
    | cons p ps =>
      obtain ⟨t, hnext, hdraw, rfl⟩ := nextUsable_of_cons hp hl
      rw [hl] at h
      rw [drawSyndrome, hnext]
      refine (ih _ _ hdraw.cursor (Nat.lt_of_succ_lt_succ h)).trans ?_
      rw [hdraw.state]

/-! ### The header's bits (R415) -/

theorem readHeader_enough {n : Nat} (i acc : Nat) {s : State} (hp : s.f5.pos.toNat ≤ s.f5.permN.toNat) (h : n ≤ s.usableLeft.length) :
    ∃ t, readHeader n i acc s = (some (acc + 2 ^ i * valueOf (s.carried (s.usableLeft.take n))), t) ∧ Draws (s.usableLeft.take n) s t := by
  induction n generalizing i acc s with
  | zero => exact ⟨s, rfl, .nil hp⟩
  | succ n ih =>
    cases hl : s.usableLeft with
    | nil => rw [hl] at h; cases h
    | cons p ps =>
      obtain ⟨t, hnext, hdraw, rfl⟩ := nextUsable_of_cons hp hl
      rw [hl] at h
      obtain ⟨u, hrest, hdraws⟩ := ih (i + 1) (if carriedBit (t.coefInt p) = some true then acc + 2 ^ i else acc) hdraw.cursor
        (Nat.le_of_succ_le_succ h)
      refine ⟨u, ?_, hdraw.trans hdraws⟩
      rw [readHeader, hnext]
      refine hrest.trans ?_
      rw [List.take_succ_cons, carried_cons, valueOf, hdraw.carried, coefInt_congr (hdraw.coefAt p), pow_succ]
      split <;> ring_nf

theorem readHeader_short {n : Nat} (i acc : Nat) {s : State} (hp : s.f5.pos.toNat ≤ s.f5.permN.toNat) (h : s.usableLeft.length < n) :
    readHeader n i acc s = (none, { s with f5.pos := s.f5.permN }) := by
  induction n generalizing i acc s with
  | zero => exact absurd h (Nat.not_lt_zero _)
  | succ n ih =>
    cases hl : s.usableLeft with
    | nil => rw [readHeader, nextUsable_of_nil hp hl]
    | cons p ps =>
      obtain ⟨t, hnext, hdraw, rfl⟩ := nextUsable_of_cons hp hl
      rw [hl] at h
      rw [readHeader, hnext]
      refine (ih _ _ hdraw.cursor (Nat.lt_of_succ_lt_succ h)).trans ?_
      rw [hdraw.state]

/-- With four bytes at hand EXTHDR pops them and ends. -/
theorem runExthdr_four {h : Word} {s : State} {b0 b1 b2 b3 : Byte} {rest : List Byte} (hrng : s.fifo.rng = b0 :: b1 :: b2 :: b3 :: rest) :
    runExthdr (h, []) s = retire (setHeader (h ^^^ rngWordXor s.ctrl.rngSigned b0 b1 b2 b3) { s with fifo.rng := rest }) := by
  have hpop : s = { s with fifo.rng := b0 :: b1 :: b2 :: b3 :: rest } := by rw [← hrng]
  conv_lhs => rw [hpop]
  rfl

/-- EXTHDR with its coefficients and its bytes at hand: it draws, and then un-whitens what it read. -/
theorem exec_exthdr {s : State} {b0 b1 b2 b3 : Byte} {rest : List Byte} (hr : s.permReady = true)
    (hp : s.f5.pos.toNat ≤ s.f5.permN.toNat) (h : 32 ≤ s.usableLeft.length) (hrng : s.fifo.rng = b0 :: b1 :: b2 :: b3 :: rest) :
    ∃ t, Draws (s.usableLeft.take 32) { s with f5.extBytes := 0 } t ∧
      exec .exthdr s = .next (retire (setHeader
        (BitVec.ofNat 32 (valueOf (s.carried (s.usableLeft.take 32))) ^^^ rngWordXor s.ctrl.rngSigned b0 b1 b2 b3)
        { t with fifo.rng := rest })) := by
  have hexec : exec .exthdr s = _ := congrArg Host.Outcome.next (if_neg (not_noperm hr))
  obtain ⟨t, hread, hdraws⟩ := readHeader_enough 0 0 (s := { s with f5.extBytes := 0 }) hp h
  rw [hread, Nat.zero_add, Nat.pow_zero, Nat.one_mul] at hexec
  have hrng' : t.fifo.rng = b0 :: b1 :: b2 :: b3 :: rest := by rw [hdraws.state]; exact hrng
  have hsigned : t.ctrl.rngSigned = s.ctrl.rngSigned := by rw [hdraws.state]
  have hrun := runExthdr_four (h := BitVec.ofNat 32 (valueOf (s.carried (s.usableLeft.take 32)))) hrng'
  rw [hsigned] at hrun
  exact ⟨t, hdraws, hexec.trans (congrArg Host.Outcome.next hrun)⟩

end Sys2Proof.Machine

namespace Sys2Proof

open Machine

/-- Settles O55: MXTR's draws are the next usable coefficients, or exhaust the cursor. -/
theorem mxtrReadsTheSyndrome : Obligations.MxtrReadsTheSyndrome := by
  intro s hr hp hk n
  have hexec : exec .mxtr s = _ := congrArg Host.Outcome.next ((if_neg (Nat.not_lt.2 hk)).trans (if_neg (not_noperm hr)))
  refine ⟨fun h => ?_, fun h => ?_⟩
  · obtain ⟨t, hdraw, hdraws⟩ := drawSyndrome_enough 0 0 hp h
    rw [hdraw, Nat.zero_add, ← syndromeOf_eq] at hexec
    refine ⟨_, hexec, ?_, hdraws.left_drop, hdraws.last⟩
    rw [hdraws.state]
    rfl
  · rw [drawSyndrome_short 0 0 hp h] at hexec
    exact hexec

/-- Settles O58: EXTHDR reads its bits before it pops, and four bytes end it. -/
theorem exthdrReadsTheHeader : Obligations.ExthdrReadsTheHeader := by
  intro b0 b1 b2 b3 rest s hr hp
  constructor
  · intro h hrng word
    obtain ⟨t, hdraws, hexec⟩ := exec_exthdr hr hp h hrng
    have hleft : t.usableLeft = s.usableLeft.drop 32 := Draws.left_drop (s := { s with f5.extBytes := 0 }) hdraws
    refine ⟨_, hexec, ?_, hleft, hdraws.last⟩
    rw [hdraws.state]
    rfl
  · intro h
    have hexec : exec .exthdr s = _ := congrArg Host.Outcome.next (if_neg (not_noperm hr))
    rw [readHeader_short 0 0 (s := { s with f5.extBytes := 0 }) hp h] at hexec
    exact hexec

end Sys2Proof

/-! SUPPORT. What embedding makes of the array (46_f5_matrix.md R400, R403, R405). `Embeds ds s t` says that between `s` and `t` the cursor drew
the coefficients `ds` and that some of them went one step toward zero, each counted. Every embedding procedure is such a piece, and
pieces compose. -/

namespace Sys2Proof.Machine

/-! ### One step toward zero (R400) -/

theorem decMag_eq_zero_iff {v : Int} : decMag v = 0 ↔ v = 1 ∨ v = -1 := by
  unfold decMag
  split <;> omega

theorem decMag_ne (v : Int) : decMag v ≠ v := by
  unfold decMag
  split <;> omega

/-- One step toward zero that does not reach it turns the carried bit over. -/
theorem carriedBit_decMag {v : Int} (hv : v ≠ 0) (h : decMag v ≠ 0) : carriedBit (decMag v) = (carriedBit v).map not := by
  rcases lt_or_gt_of_ne hv with hneg | hpos
  · have hstep : decMag v = v + 1 := if_neg hneg.not_gt
    have hlt : v + 1 < 0 := by omega
    rw [hstep, carriedBit_neg hneg, carriedBit_neg hlt, Option.map_some, ← decide_not]
    exact congrArg some (decide_eq_decide.2 (by omega))
  · have hstep : decMag v = v - 1 := if_pos hpos
    have hlt : 0 < v - 1 := by omega
    rw [hstep, carriedBit_pos hpos, carriedBit_pos hlt, Option.map_some, ← decide_not]
    exact congrArg some (decide_eq_decide.2 (by omega))

theorem carriedBit_isSome {v : Int} (hv : v ≠ 0) : ∃ b, carriedBit v = some b :=
  Option.ne_none_iff_exists'.1 (mt carriedBit_eq_none_iff.1 hv)

/-- A bit that a coefficient does not carry is the one it carries after a step toward zero that does not reach it. -/
theorem carriedBit_decMag_other {v : Int} {b : Bool} (hv : v ≠ 0) (hb : carriedBit v ≠ some b) (h : decMag v ≠ 0) :
    carriedBit (decMag v) = some b := by
  obtain ⟨c, hc⟩ := carriedBit_isSome hv
  rw [carriedBit_decMag hv h, hc, Option.map_some, Option.some_inj]
  rw [hc, ne_eq, Option.some_inj] at hb
  cases b <;> cases c <;> simp_all

/-- `toggle`, and the count of a coefficient that it leaves 0 (R403, R405). -/
def toggleCounted (a : Nat) (s : State) : State :=
  if (toggle a s).coefInt a = 0 then countShrink (toggle a s) else toggle a s

section
variable {s : State} {a x : Nat}

theorem coefAt_toggle_ne (h : x ≠ a) : (toggle a s).coefAt x = s.coefAt x := coefAt_setCoef_ne s (decMag (s.coefInt a)) h

theorem coefInt_toggle_self (a : Nat) (s : State) : (toggle a s).coefInt a = decMag (s.coefInt a) := by
  have hb := coefInt_bounds s a
  have hself : (toggle a s).coefAt a = BitVec.ofInt 16 (decMag (s.coefInt a)) := coefAt_setCoef_self s a _
  rw [State.coefInt, hself, BitVec.toInt_ofInt]
  unfold decMag
  split <;> exact Int.bmod_eq_of_le (by omega) (by omega)

theorem toggleCounted_ram : (toggleCounted a s).ram = (toggle a s).ram := by
  unfold toggleCounted
  split <;> rfl

theorem toggleCounted_powerCycles : (toggleCounted a s).powerCycles = s.powerCycles := by
  unfold toggleCounted
  split <;> rfl

theorem toggleCounted_f5 : (toggleCounted a s).f5 = { s.f5 with
    embChanged := s.f5.embChanged + 1
    embShrink := s.f5.embShrink + (if (toggle a s).coefInt a = 0 then 1 else 0) } := by
  unfold toggleCounted
  split
  · rfl
  · rw [show (0 : Word) = 0#32 from rfl, BitVec.add_zero]
    rfl

theorem coefAt_toggleCounted (a x : Nat) (s : State) : (toggleCounted a s).coefAt x = (toggle a s).coefAt x :=
  coefAt_congr (congrArg Rams.coef toggleCounted_ram) toggleCounted_powerCycles x

theorem coefAt_toggleCounted_ne (h : x ≠ a) : (toggleCounted a s).coefAt x = s.coefAt x := by
  rw [coefAt_toggleCounted, coefAt_toggle_ne h]

theorem coefInt_toggleCounted_self (a : Nat) (s : State) : (toggleCounted a s).coefInt a = decMag (s.coefInt a) := by
  rw [coefInt_congr (coefAt_toggleCounted a a s), coefInt_toggle_self]

/-- A coefficient that is usable and not left to draw is not ahead of the cursor, so toggling it leaves what is to draw alone. -/
theorem usableLeft_toggleCounted (hu : s.usable a = true) (ha : a ∉ s.usableLeft) : (toggleCounted a s).usableLeft = s.usableLeft := by
  have hahead : (toggleCounted a s).ahead = s.ahead := ahead_congr ((congrArg Rams.perm toggleCounted_ram).trans rfl) toggleCounted_powerCycles
    (by rw [toggleCounted_f5]) (by rw [toggleCounted_f5])
  rw [usableLeft_eq_filter, usableLeft_eq_filter, hahead]
  refine List.filter_congr fun x hx => ?_
  have hne : x ≠ a := by
    rintro rfl
    exact ha (List.mem_filter.2 ⟨hx, hu⟩)
  simp only [State.usable, coefInt_congr (coefAt_toggleCounted_ne hne)]

end

/-! ### Pieces of an embedding -/

/-- Of the parts an embedding reads and writes, `t` differs from `s` in the position of the cursor and in the code word at most. -/
structure SameArray (s t : State) : Prop where
  coef : t.ram.coef = s.ram.coef
  perm : t.ram.perm = s.ram.perm
  cycles : t.powerCycles = s.powerCycles
  permN : t.f5.permN = s.f5.permN
  changed : t.f5.embChanged = s.f5.embChanged
  shrunk : t.f5.embShrink = s.f5.embShrink

/-- From `s` to `t` the cursor drew `ds`, and every coefficient that changed is one of them, went one step toward zero and is counted. -/
structure Embeds (ds : List Nat) (s t : State) : Prop where
  perm : t.ram.perm = s.ram.perm
  cycles : t.powerCycles = s.powerCycles
  permN : t.f5.permN = s.f5.permN
  left : s.usableLeft = ds ++ t.usableLeft
  toggled : s.toggledOnly t ds
  changed : t.f5.embChanged = s.f5.embChanged + BitVec.ofNat 32 (s.changedAmong t ds)
  shrunk : t.f5.embShrink = s.f5.embShrink + BitVec.ofNat 32 (t.zerosAmong ds)
  cursor : t.f5.pos.toNat ≤ t.f5.permN.toNat

/-- The cursor is inside the permutation, and no coefficient will be drawn twice. -/
structure State.Drawable (s : State) : Prop where
  cursor : s.f5.pos.toNat ≤ s.f5.permN.toNat
  nodup : s.usableLeft.Nodup

/-- Those of `ds` that are not 0. -/
def State.alive (t : State) (ds : List Nat) : List Nat := ds.filter (fun p => decide (t.coefInt p ≠ 0))

theorem SameArray.refl (s : State) : SameArray s s := ⟨rfl, rfl, rfl, rfl, rfl, rfl⟩

theorem SameArray.trans {s t u : State} (h : SameArray s t) (k : SameArray t u) : SameArray s u :=
  ⟨k.coef.trans h.coef, k.perm.trans h.perm, k.cycles.trans h.cycles, k.permN.trans h.permN, k.changed.trans h.changed,
    k.shrunk.trans h.shrunk⟩

theorem SameArray.coefAt {s t : State} (h : SameArray s t) (a : Nat) : t.coefAt a = s.coefAt a := coefAt_congr h.coef h.cycles a

theorem SameArray.usable {s t : State} (h : SameArray s t) : t.usable = s.usable := by
  funext p
  rw [State.usable, State.usable, coefInt_congr (h.coefAt p)]

theorem SameArray.usableLeft {s t : State} (h : SameArray s t) (pos : t.f5.pos = s.f5.pos := by rfl) : t.usableLeft = s.usableLeft := by
  rw [usableLeft_eq_filter, usableLeft_eq_filter, h.usable, ahead_congr h.perm h.cycles h.permN pos]

theorem SameArray.carried {s t : State} (h : SameArray s t) (ps : List Nat) : t.carried ps = s.carried ps :=
  List.map_congr_left fun p _ => by rw [coefInt_congr (h.coefAt p)]

theorem SameArray.alive {s t : State} (h : SameArray s t) (ds : List Nat) : t.alive ds = s.alive ds :=
  List.filter_congr fun p _ => by rw [coefInt_congr (h.coefAt p)]

theorem Draws.same {s t : State} {ps : List Nat} (h : Draws ps s t) : SameArray s t := by
  rw [h.state]
  exact ⟨rfl, rfl, rfl, rfl, rfl, rfl⟩

theorem changedAmong_same {s t : State} {ds : List Nat} (h : ∀ a ∈ ds, t.coefAt a = s.coefAt a) : s.changedAmong t ds = 0 := by
  rw [State.changedAmong, List.length_eq_zero_iff, List.filter_eq_nil_iff]
  exact fun a ha => by simp [h a ha]

theorem zerosAmong_alive {t : State} {ds : List Nat} (h : ∀ a ∈ ds, t.coefInt a ≠ 0) : t.zerosAmong ds = 0 := by
  rw [State.zerosAmong, List.length_eq_zero_iff, List.filter_eq_nil_iff]
  exact fun a ha => by simp [h a ha]

theorem alive_self {t : State} {ds : List Nat} (h : ∀ a ∈ ds, t.coefInt a ≠ 0) : t.alive ds = ds :=
  List.filter_eq_self.2 fun a ha => decide_eq_true (h a ha)

/-- Drawing `ds` without changing one. -/
theorem Embeds.of_same {s t : State} {ds : List Nat} (h : SameArray s t) (left : s.usableLeft = ds ++ t.usableLeft)
    (cursor : t.f5.pos.toNat ≤ t.f5.permN.toNat) : Embeds ds s t where
  perm := h.perm
  cycles := h.cycles
  permN := h.permN
  left := left
  toggled := ⟨fun a _ => h.coefAt a, fun a _ => .inl (h.coefAt a)⟩
  changed := by rw [changedAmong_same fun a _ => h.coefAt a, BitVec.add_zero, h.changed]
  shrunk := by
    have halive (a : Nat) (ha : a ∈ ds) : t.coefInt a ≠ 0 := by
      rw [coefInt_congr (h.coefAt a)]
      exact (usable_iff.1 (usable_of_mem_usableLeft (left ▸ List.mem_append_left _ ha))).2
    rw [zerosAmong_alive halive, BitVec.add_zero, h.shrunk]
  cursor := cursor

theorem Embeds.refl {s : State} (h : s.f5.pos.toNat ≤ s.f5.permN.toNat) : Embeds [] s s := .of_same (.refl s) rfl h

theorem Draws.embeds {s t : State} {ps : List Nat} (h : Draws ps s t) : Embeds ps s t := .of_same h.same h.left h.cursor

/-- Exhausting the cursor where nothing is left to draw. -/
theorem embeds_exhaust {s : State} (h : s.usableLeft = []) : Embeds [] s { s with f5.pos := s.f5.permN } := by
  refine .of_same ⟨rfl, rfl, rfl, rfl, rfl, rfl⟩ ?_ (Nat.le_refl _)
  rw [h, usableLeft_exhausted rfl, List.append_nil]

namespace Embeds

variable {s t u : State} {ds es : List Nat}

theorem nodup (h : Embeds ds s t) (hn : s.usableLeft.Nodup) : ds.Nodup := (List.nodup_append.1 (h.left ▸ hn)).1

theorem drawable (h : Embeds ds s t) (hs : s.Drawable) : t.Drawable := ⟨h.cursor, (List.nodup_append.1 (h.left ▸ hs.nodup)).2.1⟩

theorem usable_drawn (h : Embeds ds s t) {a : Nat} (ha : a ∈ ds) : s.usable a = true :=
  usable_of_mem_usableLeft (h.left ▸ List.mem_append_left _ ha)

theorem not_left (h : Embeds ds s t) (hn : s.usableLeft.Nodup) {a : Nat} (ha : a ∈ ds) : a ∉ t.usableLeft :=
  fun hb => (List.nodup_append.1 (h.left ▸ hn)).2.2 a ha a hb rfl

theorem permAt (h : Embeds ds s t) (i : Nat) : t.permAt i = s.permAt i := permAt_congr h.perm h.cycles i

theorem left_drop (h : Embeds ds s t) : t.usableLeft = s.usableLeft.drop ds.length := by rw [h.left, List.drop_left]

theorem take_left (h : Embeds ds s t) : s.usableLeft.take ds.length = ds := by rw [h.left, List.take_left]

/-- What an embedding leaves usable was usable. -/
theorem usable_before (h : Embeds ds s t) {a : Nat} (ha : t.usable a = true) : s.usable a = true := by
  by_cases hd : a ∈ ds
  · exact h.usable_drawn hd
  · rwa [State.usable, ← coefInt_congr (h.toggled.1 a hd)]

/-- A piece after which only the cursor, the code word and other parts of the state move. -/
theorem thenSame (h : Embeds ds s t) (k : SameArray t u) (pos : u.f5.pos = t.f5.pos := by rfl) : Embeds ds s u where
  perm := k.perm.trans h.perm
  cycles := k.cycles.trans h.cycles
  permN := k.permN.trans h.permN
  left := by rw [h.left, k.usableLeft pos]
  toggled := by
    obtain ⟨hout, hin⟩ := h.toggled
    refine ⟨fun a ha => (k.coefAt a).trans (hout a ha), fun a ha => ?_⟩
    rw [k.coefAt a, coefInt_congr (k.coefAt a)]
    exact hin a ha
  changed := by
    rw [k.changed, h.changed]
    simp only [State.changedAmong, k.coefAt]
  shrunk := by
    rw [k.shrunk, h.shrunk]
    simp only [State.zerosAmong, coefInt_congr (k.coefAt _)]
  cursor := by
    rw [pos, k.permN]
    exact h.cursor

/-- One piece after another: no coefficient is drawn twice. -/
theorem trans (h : Embeds ds s t) (k : Embeds es t u) (hn : s.usableLeft.Nodup) : Embeds (ds ++ es) s u := by
  have hleft : s.usableLeft = ds ++ es ++ u.usableLeft := by rw [h.left, k.left, List.append_assoc]
  have hfirst (a : Nat) (ha : a ∈ ds) : u.coefAt a = t.coefAt a :=
    k.toggled.1 a fun hb => h.not_left hn ha (k.left ▸ List.mem_append_left _ hb)
  have hsecond (a : Nat) (ha : a ∈ es) : t.coefAt a = s.coefAt a :=
    h.toggled.1 a fun hb => h.not_left hn hb (k.left ▸ List.mem_append_left _ ha)
  constructor
  case perm => exact k.perm.trans h.perm
  case cycles => exact k.cycles.trans h.cycles
  case permN => exact k.permN.trans h.permN
  case left => exact hleft
  case toggled =>
    refine ⟨fun a ha => ?_, fun a ha => ?_⟩
    · rw [List.mem_append, not_or] at ha
      exact (k.toggled.1 a ha.2).trans (h.toggled.1 a ha.1)
    · rcases List.mem_append.1 ha with ha | ha
      · rw [hfirst a ha, coefInt_congr (hfirst a ha)]
        exact h.toggled.2 a ha
      · rw [← hsecond a ha, ← coefInt_congr (hsecond a ha)]
        exact k.toggled.2 a ha
  case changed =>
    have hds : s.changedAmong u ds = s.changedAmong t ds :=
      congrArg List.length (List.filter_congr fun a ha => by rw [hfirst a ha])
    have hes : s.changedAmong u es = t.changedAmong u es :=
      congrArg List.length (List.filter_congr fun a ha => by rw [hsecond a ha])
    have hsum : s.changedAmong u (ds ++ es) = s.changedAmong t ds + t.changedAmong u es := by
      rw [← hds, ← hes, State.changedAmong, List.filter_append, List.length_append]
      rfl
    rw [k.changed, h.changed, hsum, BitVec.ofNat_add, BitVec.add_assoc]
  case shrunk =>
    have hds : u.zerosAmong ds = t.zerosAmong ds :=
      congrArg List.length (List.filter_congr fun a ha => by rw [coefInt_congr (hfirst a ha)])
    have hsum : u.zerosAmong (ds ++ es) = t.zerosAmong ds + u.zerosAmong es := by
      rw [← hds, State.zerosAmong, List.filter_append, List.length_append]
      rfl
    rw [k.shrunk, h.shrunk, hsum, BitVec.ofNat_add, BitVec.add_assoc]
  case cursor => exact k.cursor

/-- The coefficients of an earlier piece stay as it left them. -/
theorem coefAt_earlier (h : Embeds ds s t) (k : Embeds es t u) (hn : s.usableLeft.Nodup) {a : Nat} (ha : a ∈ ds) :
    u.coefAt a = t.coefAt a :=
  k.toggled.1 a fun hb => h.not_left hn ha (k.left ▸ List.mem_append_left _ hb)

theorem alive_append (h : Embeds ds s t) (k : Embeds es t u) (hn : s.usableLeft.Nodup) :
    u.alive (ds ++ es) = t.alive ds ++ u.alive es := by
  have hds : u.alive ds = t.alive ds := List.filter_congr fun a ha => by rw [coefInt_congr (h.coefAt_earlier k hn ha)]
  rw [← hds, State.alive, List.filter_append]
  rfl

theorem carried_alive_append (h : Embeds ds s t) (k : Embeds es t u) (hn : s.usableLeft.Nodup) :
    u.carried (u.alive (ds ++ es)) = t.carried (t.alive ds) ++ u.carried (u.alive es) := by
  have hds : u.carried (t.alive ds) = t.carried (t.alive ds) :=
    List.map_congr_left fun a ha => by rw [coefInt_congr (h.coefAt_earlier k hn (List.mem_filter.1 ha).1)]
  rw [h.alive_append k hn, ← hds, State.carried, List.map_append]
  rfl

/-- Back at the starting position the cursor finds those drawn coefficients that are not 0, and then what it had left. -/
theorem usableLeft_rewind (h : Embeds ds s t) : State.usableLeft { t with f5.pos := s.f5.pos } = t.alive ds ++ t.usableLeft := by
  have hahead : State.ahead { t with f5.pos := s.f5.pos } = s.ahead := ahead_congr h.perm h.cycles h.permN rfl
  have hsub : (s.ahead.filter s.usable).filter t.usable = s.ahead.filter t.usable := by
    rw [List.filter_filter]
    exact List.filter_congr fun a _ => Bool.and_eq_left_iff_imp.2 h.usable_before
  have hdrawn : ds.filter t.usable = t.alive ds :=
    List.filter_congr fun a ha => by simp [State.usable, (usable_iff.1 (h.usable_drawn ha)).1]
  have hrest : t.usableLeft.filter t.usable = t.usableLeft := List.filter_eq_self.2 fun a ha => usable_of_mem_usableLeft ha
  show (State.ahead { t with f5.pos := s.f5.pos }).filter t.usable = _
  rw [hahead, ← hsub, ← usableLeft_eq_filter, h.left, List.filter_append, hdrawn, hrest]

end Embeds

/-! ### Toggling a drawn coefficient -/

/-- A filter that takes one more element of a list without repetitions. -/
theorem length_filter_one_more {α : Type} {P Q : α → Bool} {l : List α} {a : α} (hn : l.Nodup) (ha : a ∈ l) (hP : P a = false)
    (hQ : Q a = true) (h : ∀ x ∈ l, x ≠ a → Q x = P x) : (l.filter Q).length = (l.filter P).length + 1 := by
  induction l with
  | nil => cases ha
  | cons b l ih =>
    obtain ⟨hb, hl⟩ := List.nodup_cons.1 hn
    rcases List.mem_cons.1 ha with rfl | ha
    · have hsame : l.filter Q = l.filter P :=
        List.filter_congr fun x hx => h x (List.mem_cons_of_mem _ hx) fun hxa => hb (hxa ▸ hx)
      rw [List.filter_cons_of_pos hQ, List.filter_cons_of_neg (by simp [hP]), hsame, List.length_cons]
    · have hba : b ≠ a := fun hba => hb (hba ▸ ha)
      have hrec := ih hl ha fun x hx => h x (List.mem_cons_of_mem _ hx)
      rw [List.filter_cons, List.filter_cons, h b List.mem_cons_self hba]
      split
      · rw [List.length_cons, List.length_cons, hrec]
      · exact hrec

/-- A coefficient that was drawn and is unchanged goes one step toward zero. -/
theorem Embeds.toggle {s t : State} {ds : List Nat} {a : Nat} (h : Embeds ds s t) (hn : s.usableLeft.Nodup) (ha : a ∈ ds)
    (hsame : t.coefAt a = s.coefAt a) : Embeds ds s (toggleCounted a t) := by
  have husable := h.usable_drawn ha
  have ha0 : t.coefInt a ≠ 0 := coefInt_congr hsame ▸ (usable_iff.1 husable).2
  have hself : (toggleCounted a t).coefInt a = decMag (s.coefInt a) := by rw [coefInt_toggleCounted_self, coefInt_congr hsame]
  have hdiff : (toggleCounted a t).coefAt a ≠ s.coefAt a := fun heq => decMag_ne _ (hself.symm.trans (coefInt_congr heq))
  have hother (x : Nat) (hx : x ≠ a) : (toggleCounted a t).coefAt x = t.coefAt x := coefAt_toggleCounted_ne hx
  have hleft : (toggleCounted a t).usableLeft = t.usableLeft :=
    usableLeft_toggleCounted (usable_iff.2 ⟨(usable_iff.1 husable).1, ha0⟩) (h.not_left hn ha)
  have hf5 := toggleCounted_f5 (s := t) (a := a)
  constructor
  case perm => exact (congrArg Rams.perm toggleCounted_ram).trans h.perm
  case cycles => exact toggleCounted_powerCycles.trans h.cycles
  case permN => exact (congrArg F5Regs.permN hf5).trans h.permN
  case left => rw [h.left, hleft]
  case toggled =>
    refine ⟨fun x hx => ?_, fun x hx => ?_⟩
    · have hxa : x ≠ a := fun hxa => hx (hxa ▸ ha)
      exact (hother x hxa).trans (h.toggled.1 x hx)
    · by_cases hxa : x = a
      · exact .inr (hxa ▸ hself)
      · rw [hother x hxa, coefInt_congr (hother x hxa)]
        exact h.toggled.2 x hx
  case changed =>
    have hcount : s.changedAmong (toggleCounted a t) ds = s.changedAmong t ds + 1 :=
      length_filter_one_more (h.nodup hn) ha (by simp [hsame]) (by simp [hdiff]) fun x _ hx => by rw [hother x hx]
    rw [hf5, hcount, BitVec.ofNat_add, ← BitVec.add_assoc, ← h.changed]
    rfl
  case shrunk =>
    have hcount : (toggleCounted a t).zerosAmong ds = t.zerosAmong ds + (if (Machine.toggle a t).coefInt a = 0 then 1 else 0) := by
      rw [← coefInt_congr (coefAt_toggleCounted a a t)]
      split
      · rename_i hzero
        exact length_filter_one_more (h.nodup hn) ha (by simp [ha0]) (by simp [hzero])
          fun x _ hx => by rw [coefInt_congr (hother x hx)]
      · rename_i hne
        refine congrArg List.length (List.filter_congr fun x _ => ?_)
        by_cases hxa : x = a
        · rw [hxa, decide_eq_false hne, decide_eq_false ha0]
        · rw [coefInt_congr (hother x hxa)]
    rw [hf5, hcount, BitVec.ofNat_add, ← BitVec.add_assoc, ← h.shrunk]
    split <;> rfl
  case cursor =>
    rw [hf5]
    exact h.cursor

/-! ### Over a bijective permutation -/

/-- Over a bijective permutation no coefficient is drawn twice. -/
theorem drawable_of_bijective {s : State} (hp : s.f5.pos.toNat ≤ s.f5.permN.toNat) (hb : s.Bijective s.f5.permN.toNat) : s.Drawable := by
  refine ⟨hp, List.Nodup.filter _ ?_⟩
  have hall : (s.permList s.f5.permN.toNat).Nodup := (List.Perm.nodup_iff hb).2 List.nodup_range
  have hdrop : s.ahead = (s.permList s.f5.permN.toNat).drop s.f5.pos.toNat := by
    refine List.ext_getElem (by simp [State.ahead, State.entriesLeft]) fun i _ _ => ?_
    simp [State.ahead]
  exact (hdrop ▸ hall.sublist (List.drop_sublist _ _) : s.ahead.Nodup)

theorem State.PermInv.drawable {s : State} (h : s.PermInv) (hr : s.permReady = true) (hp : s.f5.pos.toNat ≤ s.f5.permN.toNat) :
    s.Drawable :=
  drawable_of_bijective hp (h.complete (Bool.and_eq_true_iff.1 hr).1)

end Sys2Proof.Machine

/-! SUPPORT. LsbEmbed (46_f5_matrix.md R403): the coefficients it meets shrink to 0 one after another, until one settles the bit, is lost, or
none is left. -/

namespace Sys2Proof.Machine

/-! ### What an embedding leaves alone -/

/-- The state without what LsbEmbed and MatrixEmbed write. -/
def State.unembedded (s : State) : State :=
  { s with ram.coef := [], ram.cw := [], f5.pos := 0, f5.cwlen := 0, f5.embChanged := 0, f5.embShrink := 0 }

/-- The state with what LsbEmbed and MatrixEmbed write as `t` has it. -/
def State.withEmbedding (s t : State) : State :=
  { s with
    ram.coef := t.ram.coef
    ram.cw := t.ram.cw
    f5.pos := t.f5.pos
    f5.cwlen := t.f5.cwlen
    f5.embChanged := t.f5.embChanged
    f5.embShrink := t.f5.embShrink }

theorem eq_withEmbedding {s t : State} (h : t.unembedded = s.unembedded) : t = s.withEmbedding t :=
  calc t = t.unembedded.withEmbedding t := rfl
    _ = s.unembedded.withEmbedding t := by rw [h]
    _ = s.withEmbedding t := rfl

theorem nextUsable_unembedded {s t : State} {o : Option Nat} (h : nextUsable s = (o, t)) : t.unembedded = s.unembedded := by
  have ht : t = (nextUsable s).2 := by rw [h]
  rw [ht, nextUsable_state]
  rfl

theorem lsbEmbedLoop_unembedded (b retry : Bool) (n : Nat) (s : State) : (lsbEmbedLoop b retry n s).2.unembedded = s.unembedded := by
  induction n generalizing s with
  | zero => rfl
  | succ n ih =>
    simp only [lsbEmbedLoop]
    split
    · exact nextUsable_unembedded ‹_›
    · rename_i p t ht
      have hdraw := nextUsable_unembedded ht
      split
      · exact hdraw
      split
      · exact hdraw
      split
      · exact hdraw
      · exact (ih _).trans hdraw

theorem lsbEmbed_codeWord (b retry : Bool) (s : State) :
    (lsbEmbed b retry s).2.ram.cw = s.ram.cw ∧ (lsbEmbed b retry s).2.f5.cwlen = s.f5.cwlen := by
  have hw := lsbEmbed_writes b retry s .codeWord (by decide)
  exact ⟨congrArg (·.ram.cw) hw, congrArg (·.f5.cwlen) hw⟩

/-! ### Counting over several pieces -/

theorem changedAmong_all {s t : State} {ds : List Nat} (h : ∀ a ∈ ds, t.coefAt a ≠ s.coefAt a) : s.changedAmong t ds = ds.length := by
  rw [State.changedAmong, List.filter_eq_self.2 fun a ha => decide_eq_true (h a ha)]

theorem zerosAmong_all {t : State} {ds : List Nat} (h : ∀ a ∈ ds, t.coefInt a = 0) : t.zerosAmong ds = ds.length := by
  rw [State.zerosAmong, List.filter_eq_self.2 fun a ha => decide_eq_true (h a ha)]

theorem alive_zeros {t : State} {ds : List Nat} (h : ∀ a ∈ ds, t.coefInt a = 0) : t.alive ds = [] :=
  List.filter_eq_nil_iff.2 fun a ha => by simp [h a ha]

/-! ### One draw -/

/-- The coefficient carries the other bit and is one step from 0. -/
def State.shrinks (s : State) (b : Bool) (q : Nat) : Bool := decide (carriedBit (s.coefInt q) ≠ some b ∧ decMag (s.coefInt q) = 0)

theorem shrinks_iff {s : State} {b : Bool} {q : Nat} :
    s.shrinks b q = true ↔ carriedBit (s.coefInt q) ≠ some b ∧ (s.coefInt q = 1 ∨ s.coefInt q = -1) := by
  rw [State.shrinks, decide_eq_true_iff, decMag_eq_zero_iff]

/-- The coefficients `ds` were drawn, the last of them last. -/
structure EmbedsLast (ds : List Nat) (s t : State) : Prop extends Embeds ds s t where
  last : s.drewLast t ds

theorem EmbedsLast.trans {s t u : State} {ds es : List Nat} (h : EmbedsLast ds s t) (k : EmbedsLast es t u) (hn : s.usableLeft.Nodup) :
    EmbedsLast (ds ++ es) s u :=
  { h.toEmbeds.trans k.toEmbeds hn with last := drewLast_append h.last k.last h.permAt }

theorem EmbedsLast.refl {s : State} (h : s.f5.pos.toNat ≤ s.f5.permN.toNat) : EmbedsLast [] s s :=
  { Embeds.refl h with last := drewLast_nil.2 rfl }

theorem EmbedsLast.toggle {s t : State} {ds : List Nat} {a : Nat} (h : EmbedsLast ds s t) (hn : s.usableLeft.Nodup) (ha : a ∈ ds)
    (hsame : t.coefAt a = s.coefAt a) : EmbedsLast ds s (toggleCounted a t) := by
  refine { h.toEmbeds.toggle hn ha hsame with last := ?_ }
  have hpos : (toggleCounted a t).f5.pos = t.f5.pos := by rw [toggleCounted_f5]
  have hlast := h.last
  unfold State.drewLast at hlast ⊢
  rwa [hpos]

theorem toggle_eq {a : Nat} {s : State} (h : decMag (s.coefInt a) ≠ 0) : toggle a s = toggleCounted a s :=
  (if_neg (by rwa [coefInt_toggle_self])).symm

theorem countShrink_toggle {a : Nat} {s : State} (h : decMag (s.coefInt a) = 0) : countShrink (toggle a s) = toggleCounted a s :=
  (if_pos (by rwa [coefInt_toggle_self])).symm

section
variable {s : State} {b : Bool} {p : Nat} {post : List Nat}

/-- A draw of LsbEmbed: the coefficient carries the bit, or goes one step toward zero and carries it then, or has shrunk (R403). -/
theorem lsbEmbedLoop_draw (retry : Bool) (n : Nat) (hp : s.f5.pos.toNat ≤ s.f5.permN.toNat) (h : s.usableLeft = p :: post) :
    ∃ t, Draws [p] s t ∧ lsbEmbedLoop b retry (n + 1) s =
      if carriedBit (s.coefInt p) = some b then (.embedded, t)
      else if decMag (s.coefInt p) ≠ 0 then (.embedded, toggleCounted p t)
      else if retry = false then (.lost, toggleCounted p t)
      else lsbEmbedLoop b retry n (toggleCounted p t) := by
  obtain ⟨t, hnext, hdraw, -⟩ := nextUsable_of_cons hp h
  refine ⟨t, hdraw, ?_⟩
  rw [lsbEmbedLoop, hnext]
  simp only [coefInt_toggle_self, coefInt_congr (hdraw.coefAt p)]
  by_cases hz : decMag (s.coefInt p) = 0
  · simp only [hz, ne_eq, not_true_eq_false, if_false, countShrink_toggle (coefInt_congr (hdraw.coefAt p) ▸ hz)]
  · simp only [ne_eq, hz, not_false_iff, if_true, toggle_eq (coefInt_congr (hdraw.coefAt p) ▸ hz)]

theorem Draws.embedsLast {t : State} {ps : List Nat} (h : Draws ps s t) : EmbedsLast ps s t := { h.embeds with last := h.last }

/-- The coefficient that settles the bit. -/
structure Settles (b : Bool) (p : Nat) (s t : State) : Prop extends EmbedsLast [p] s t where
  carries : carriedBit (t.coefInt p) = some b
  value : t.coefInt p = if carriedBit (s.coefInt p) = some b then s.coefInt p else decMag (s.coefInt p)

theorem lsbEmbedLoop_settles (retry : Bool) (n : Nat) (hs : s.Drawable) (h : s.usableLeft = p :: post) (hno : s.shrinks b p = false) :
    ∃ t, lsbEmbedLoop b retry (n + 1) s = (.embedded, t) ∧ Settles b p s t := by
  obtain ⟨t, hdraw, hloop⟩ := lsbEmbedLoop_draw retry n hs.cursor h
  have hsame := hdraw.coefAt p
  by_cases hb : carriedBit (s.coefInt p) = some b
  · rw [if_pos hb] at hloop
    exact ⟨t, hloop, hdraw.embedsLast, by rw [coefInt_congr hsame, hb], by rw [coefInt_congr hsame, if_pos hb]⟩
  · have hstep : decMag (s.coefInt p) ≠ 0 := fun hz => (decide_eq_false_iff_not.1 hno) ⟨hb, hz⟩
    have husable : s.coefInt p ≠ 0 := (usable_iff.1 (usable_of_mem_usableLeft (h ▸ List.mem_cons_self))).2
    have hvalue : (toggleCounted p t).coefInt p = decMag (s.coefInt p) := by rw [coefInt_toggleCounted_self, coefInt_congr hsame]
    rw [if_neg hb, if_pos hstep] at hloop
    refine ⟨_, hloop, hdraw.embedsLast.toggle hs.nodup List.mem_cons_self hsame, ?_, by rw [hvalue, if_neg hb]⟩
    rw [hvalue]
    exact carriedBit_decMag_other husable hb hstep

/-- Coefficients that were drawn and have shrunk to 0. -/
structure Shrunk (ds : List Nat) (s t : State) : Prop extends EmbedsLast ds s t where
  zero : ∀ a ∈ ds, t.coefInt a = 0

theorem lsbEmbedLoop_shrinks (retry : Bool) (n : Nat) (hs : s.Drawable) (h : s.usableLeft = p :: post) (hyes : s.shrinks b p = true) :
    ∃ t, lsbEmbedLoop b retry (n + 1) s = (if retry = false then (.lost, t) else lsbEmbedLoop b retry n t) ∧ Shrunk [p] s t := by
  obtain ⟨t, hdraw, hloop⟩ := lsbEmbedLoop_draw retry n hs.cursor h
  have hsame := hdraw.coefAt p
  obtain ⟨hb, hz⟩ := of_decide_eq_true hyes
  rw [if_neg hb, if_neg (not_not.2 hz)] at hloop
  refine ⟨_, hloop, hdraw.embedsLast.toggle hs.nodup List.mem_cons_self hsame, fun a ha => ?_⟩
  rw [List.mem_singleton.1 ha, coefInt_toggleCounted_self, coefInt_congr hsame, hz]

end

/-! ### All draws -/

section
variable {s : State} {b retry : Bool} {pre post : List Nat} {p : Nat}

theorem Shrunk.trans {t u : State} {ds es : List Nat} (h : Shrunk ds s t) (k : Shrunk es t u) (hn : s.usableLeft.Nodup) :
    Shrunk (ds ++ es) s u where
  toEmbedsLast := h.toEmbedsLast.trans k.toEmbedsLast hn
  zero a ha := by
    rcases List.mem_append.1 ha with ha | ha
    · rw [coefInt_congr (h.coefAt_earlier k.toEmbeds hn ha), h.zero a ha]
    · exact k.zero a ha

/-- What was not drawn shrinks as it did before. -/
theorem Embeds.shrinks_left {t : State} {ds : List Nat} (h : Embeds ds s t) (hn : s.usableLeft.Nodup) (b : Bool) {a : Nat}
    (ha : a ∈ t.usableLeft) : t.shrinks b a = s.shrinks b a := by
  rw [State.shrinks, State.shrinks, coefInt_congr (h.toggled.1 a fun hd => h.not_left hn hd ha)]

/-- With retry, or with none to shrink, LsbEmbed passes the coefficients that shrink. -/
theorem lsbEmbedLoop_passes (n : Nat) (hs : s.Drawable) (h : s.usableLeft = pre ++ post) (hpre : ∀ q ∈ pre, s.shrinks b q = true)
    (hretry : retry = false → pre = []) :
    ∃ t, lsbEmbedLoop b retry (pre.length + n) s = lsbEmbedLoop b retry n t ∧ Shrunk pre s t := by
  induction pre generalizing s with
  | nil => exact ⟨s, by rw [List.length_nil, Nat.zero_add], .refl hs.cursor, fun _ hq => nomatch hq⟩
  | cons q pre ih =>
    have hr : retry = true := Bool.eq_true_of_not_eq_false fun hf => List.cons_ne_nil _ _ (hretry hf)
    obtain ⟨t, hloop, ht⟩ := lsbEmbedLoop_shrinks retry (pre.length + n) hs h (hpre q List.mem_cons_self)
    have hleft : t.usableLeft = pre ++ post := List.append_cancel_left (ht.left.symm.trans h)
    have hrest (a : Nat) (ha : a ∈ pre) : t.shrinks b a = true := by
      rw [ht.shrinks_left hs.nodup b (hleft ▸ List.mem_append_left _ ha)]
      exact hpre a (List.mem_cons_of_mem _ ha)
    obtain ⟨u, hloop', hu⟩ := ih (ht.drawable hs) hleft hrest fun hf => absurd hr (by simp [hf])
    refine ⟨u, ?_, ht.trans hu hs.nodup⟩
    rw [List.length_cons, Nat.add_right_comm, hloop, if_neg (by simp [hr]), hloop']

theorem lsbEmbed_eq (b retry : Bool) (h : s.usableLeft = pre ++ post) :
    ∃ n, lsbEmbed b retry s = lsbEmbedLoop b retry (pre.length + (n + 1)) s := by
  have hlen := usableLeft_length_le s
  rw [h, List.length_append] at hlen
  refine ⟨s.entriesLeft - pre.length, ?_⟩
  rw [lsbEmbed]
  congr 1
  omega

/-- LsbEmbed comes to a coefficient that settles the bit. -/
theorem lsbEmbed_embeds (hs : s.Drawable) (h : s.usableLeft = pre ++ p :: post) (hpre : ∀ q ∈ pre, s.shrinks b q = true)
    (hp : s.shrinks b p = false) (hretry : retry = false → pre = []) :
    ∃ t u, lsbEmbed b retry s = (.embedded, u) ∧ Shrunk pre s t ∧ Settles b p t u ∧ t.coefAt p = s.coefAt p := by
  obtain ⟨n, heq⟩ := lsbEmbed_eq b retry h
  obtain ⟨t, hpass, ht⟩ := lsbEmbedLoop_passes (n + 1) hs h hpre hretry
  have hleft : t.usableLeft = p :: post := List.append_cancel_left (ht.left.symm.trans h)
  have hmem : p ∈ t.usableLeft := hleft ▸ List.mem_cons_self
  obtain ⟨u, hloop, hu⟩ := lsbEmbedLoop_settles retry n (ht.drawable hs) hleft (by rw [ht.shrinks_left hs.nodup b hmem, hp])
  exact ⟨t, u, heq.trans (hpass.trans hloop), ht, hu, ht.toggled.1 p fun hd => ht.not_left hs.nodup hd hmem⟩

/-- LsbEmbed finds none that settles the bit and exhausts the cursor. -/
theorem lsbEmbed_exhausts (hs : s.Drawable) (hall : ∀ q ∈ s.usableLeft, s.shrinks b q = true) (hretry : retry = false → s.usableLeft = []) :
    ∃ t, lsbEmbed b retry s = (.exhausted, { t with f5.pos := t.f5.permN }) ∧ Shrunk s.usableLeft s t ∧ t.usableLeft = [] := by
  obtain ⟨n, heq⟩ := lsbEmbed_eq b retry (List.append_nil s.usableLeft).symm
  obtain ⟨t, hpass, ht⟩ := lsbEmbedLoop_passes (n + 1) hs (List.append_nil s.usableLeft).symm hall hretry
  have hleft : t.usableLeft = [] := List.append_right_eq_self.1 ht.left.symm
  refine ⟨t, heq.trans (hpass.trans ?_), ht, hleft⟩
  rw [lsbEmbedLoop, nextUsable_of_nil ht.cursor hleft]

/-- Without retry a coefficient that shrinks loses the bit. -/
theorem lsbEmbed_loses (hs : s.Drawable) (h : s.usableLeft = p :: post) (hp : s.shrinks b p = true) :
    ∃ t, lsbEmbed b false s = (.lost, t) ∧ Shrunk [p] s t := by
  obtain ⟨t, hloop, ht⟩ := lsbEmbedLoop_shrinks false s.entriesLeft hs h hp
  exact ⟨t, hloop, ht⟩

end

/-! ### The counters -/

section
variable {s t : State} {b : Bool} {p : Nat} {ds : List Nat}

theorem Shrunk.counts (h : Shrunk ds s t) :
    t.f5.embChanged = s.f5.embChanged + BitVec.ofNat 32 ds.length ∧ t.f5.embShrink = s.f5.embShrink + BitVec.ofNat 32 ds.length := by
  have hdiff (a : Nat) (ha : a ∈ ds) : t.coefAt a ≠ s.coefAt a := fun heq =>
    (usable_iff.1 (h.usable_drawn ha)).2 (coefInt_congr heq ▸ h.zero a ha)
  rw [h.changed, h.shrunk, changedAmong_all hdiff, zerosAmong_all h.zero]
  exact ⟨rfl, rfl⟩

theorem Settles.alive (h : Settles b p s t) : t.coefInt p ≠ 0 := by
  intro hz
  have hc := h.carries
  rw [carriedBit_eq_none_iff.2 hz] at hc
  cases hc

theorem Settles.counts (h : Settles b p s t) :
    t.f5.embChanged = s.f5.embChanged + BitVec.ofNat 32 (if carriedBit (s.coefInt p) = some b then 0 else 1) ∧
      t.f5.embShrink = s.f5.embShrink := by
  have hchanged : s.changedAmong t [p] = if carriedBit (s.coefInt p) = some b then 0 else 1 := by
    have hvalue := h.value
    split at hvalue
    · rename_i hb
      rw [if_pos hb]
      exact changedAmong_same fun a ha => by rw [List.mem_singleton.1 ha, BitVec.toInt_inj.1 hvalue]
    · rename_i hb
      rw [if_neg hb]
      refine changedAmong_all fun a ha heq => decMag_ne _ (hvalue.symm.trans ?_)
      rw [List.mem_singleton.1 ha] at heq
      exact coefInt_congr heq
  have hzero : t.zerosAmong [p] = 0 := zerosAmong_alive fun a ha => by
    rw [List.mem_singleton.1 ha]
    exact h.alive
  rw [h.changed, h.shrunk, hchanged, hzero]
  exact ⟨rfl, BitVec.add_zero _⟩

end

/-! ### BSTEP (R411) -/

section
variable {s t : State} {imm : BitVec 8} {e : EmbedEnd}

theorem imm_bits {b lossy : Bool} (h : imm.toNat = bitOf b + 2 * bitOf lossy) :
    imm.toNat ≤ 3 ∧ imm.getLsbD 0 = b ∧ imm.getLsbD 1 = lossy := by
  have himm : imm = BitVec.ofNat 8 (bitOf b + 2 * bitOf lossy) := BitVec.eq_of_toNat_eq (by
    rw [h, BitVec.toNat_ofNat, Nat.mod_eq_of_lt]
    cases b <;> cases lossy <;> decide)
  subst himm
  cases b <;> cases lossy <;> decide

theorem exec_bstep {b lossy : Bool} (hr : s.permReady = true) (himm : imm.toNat = bitOf b + 2 * bitOf lossy)
    (h : lsbEmbed b (!lossy) s = (e, t)) : exec (.bstep imm) s = .next (retire { t with result := embedResult e }) := by
  obtain ⟨hle, hb, hlossy⟩ := imm_bits himm
  rw [← hb, ← hlossy] at h
  have hexec : exec (.bstep imm) s = _ := congrArg Host.Outcome.next ((if_neg (Nat.not_lt.2 hle)).trans (if_neg (not_noperm hr)))
  rw [h] at hexec
  exact hexec

/-- What LsbEmbed leaves of the state. -/
theorem lsbEmbed_frame {b retry : Bool} (h : lsbEmbed b retry s = (e, t)) :
    t = { s with ram.coef := t.ram.coef, f5.pos := t.f5.pos, f5.embChanged := t.f5.embChanged, f5.embShrink := t.f5.embShrink } := by
  have hframe := lsbEmbedLoop_unembedded b retry (s.entriesLeft + 1) s
  obtain ⟨hcw, hlen⟩ := lsbEmbed_codeWord b retry s
  rw [← lsbEmbed, h] at hframe
  rw [h] at hcw hlen
  have heq := eq_withEmbedding hframe
  rw [State.withEmbedding, hcw, hlen] at heq
  exact heq

end

end Sys2Proof.Machine

namespace Sys2Proof

open Machine

/-- Settles O52: the coefficients that shrink are passed, and the next one settles the bit, is lost, or is not there. -/
theorem bstepEmbedsOneBit : Obligations.BstepEmbedsOneBit := by
  intro b lossy imm s pre post p hinv hperm hr himm shrinks framed hpre
  have hs := hperm.drawable hr hinv.cursor.1
  have hiff (q : Nat) : s.shrinks b q = true ↔ shrinks q := shrinks_iff
  have hpre' (q : Nat) (hq : q ∈ pre) : s.shrinks b q = true := (hiff q).2 (hpre q hq)
  have hretry (h : lossy = true → pre = []) : (!lossy) = false → pre = [] := fun hf => h (by simpa using hf)
  have hframed {t : State} {e : EmbedEnd} (h : lsbEmbed b (!lossy) s = (e, t)) :
      framed (retire { t with result := embedResult e }) (embedResult e) := by
    show retire { t with result := embedResult e } = _
    rw [lsbEmbed_frame h]
    rfl
  refine ⟨fun hleft hp hlossy => ?_, fun hleft hlossy => ?_, fun hleft hp hlossy => ?_⟩
  · have hp' : s.shrinks b p = false := Bool.eq_false_iff.2 fun h => hp ((hiff p).1 h)
    obtain ⟨t, u, hloop, ht, hu, hpt⟩ := lsbEmbed_embeds hs hleft hpre' hp' (hretry hlossy)
    have hall := ht.toEmbedsLast.trans hu.toEmbedsLast hs.nodup
    have hrest : u.usableLeft = post := by
      have := hall.left.symm.trans hleft
      simpa using this
    obtain ⟨hchanged, hshrunk⟩ := ht.counts
    obtain ⟨hchanged', hshrunk'⟩ := hu.counts
    have hvalue := hu.value
    rw [coefInt_congr hpt] at hvalue hchanged'
    refine ⟨_, exec_bstep hr himm hloop, hframed hloop, hrest, hall.last, hu.carries, hvalue, fun q hq => ?_, fun a ha hap => ?_, ?_, ?_⟩
    · exact (coefInt_congr (ht.coefAt_earlier hu.toEmbeds hs.nodup hq)).trans (ht.zero q hq)
    · exact hall.toggled.1 a (by simp [ha, hap])
    · exact hshrunk'.trans hshrunk
    · show u.f5.embChanged = _
      rw [hchanged', hchanged, BitVec.ofNat_add, BitVec.add_assoc]
  · obtain ⟨t, hloop, ht, -⟩ := lsbEmbed_exhausts (retry := !lossy) hs (hleft ▸ hpre') (hleft ▸ hretry hlossy)
    rw [hleft] at ht
    obtain ⟨hchanged, hshrunk⟩ := ht.counts
    exact ⟨_, exec_bstep hr himm hloop, hframed hloop, ht.permN, ht.zero, ht.toggled.1, hshrunk, hchanged⟩
  · subst hlossy
    obtain ⟨t, hloop, ht⟩ := lsbEmbed_loses hs hleft ((hiff p).2 hp)
    obtain ⟨hchanged, hshrunk⟩ := ht.counts
    have hrest : t.usableLeft = post := List.append_cancel_left (ht.left.symm.trans hleft)
    exact ⟨_, exec_bstep hr himm hloop, hframed hloop, hrest, ht.last, ht.zero p List.mem_cons_self,
      fun a ha => ht.toggled.1 a (by simp [ha]), hshrunk, hchanged⟩

end Sys2Proof

/-! SUPPORT. The embedded header (46_f5_matrix.md R407, R409, R417): how LsbEmbed can end, the bits that EMBHDR's loop leaves in the
coefficients it drew, and that EXTHDR reads them. -/

namespace Sys2Proof.Machine

/-! ### Numbers and their bits -/

theorem valueOf_bits (x i n : Nat) : valueOf ((List.range n).map (fun j => x / 2 ^ (i + j) % 2)) = x / 2 ^ i % 2 ^ n := by
  induction n generalizing i with
  | zero => rw [Nat.pow_zero, Nat.mod_one]; rfl
  | succ n ih =>
    have htail : (List.range n).map ((fun j => x / 2 ^ (i + j) % 2) ∘ Nat.succ) = (List.range n).map (fun j => x / 2 ^ (i + 1 + j) % 2) :=
      List.map_congr_left fun j _ => by simp only [Function.comp, Nat.succ_eq_add_one, Nat.add_assoc, Nat.add_comm 1]
    rw [List.range_succ_eq_map, List.map_cons, List.map_map, valueOf, htail, ih, pow_succ' 2 n, Nat.mod_mul, Nat.add_zero, pow_succ,
      Nat.div_div_eq_div_mul]

theorem bitOf_getLsbD {w : Nat} (x : BitVec w) (i : Nat) : bitOf (x.getLsbD i) = x.toNat / 2 ^ i % 2 := by
  rw [BitVec.getLsbD, Nat.testBit_eq_decide_div_mod_eq, bitOf_decide]
  split <;> omega

theorem valueOf_getLsbD {w : Nat} (x : BitVec w) : valueOf ((List.range w).map (fun j => bitOf (x.getLsbD j))) = x.toNat := by
  simp only [bitOf_getLsbD]
  have h := valueOf_bits x.toNat 0 w
  rw [Nat.pow_zero, Nat.div_one, Nat.mod_eq_of_lt x.isLt] at h
  simpa using h

/-! ### How LsbEmbed ends -/

theorem carried_of_bit {t : State} {p : Nat} {b : Bool} (h : carriedBit (t.coefInt p) = some b) : t.carried [p] = [bitOf b] := by
  rw [carried_cons, h]
  cases b <;> rfl

/-- The ends of LsbEmbed, and what it drew: in the first case one coefficient that is not 0, the last, and it carries the bit (R403). -/
inductive LsbEnds (b retry : Bool) (s : State) : EmbedEnd × State → Prop
  | embedded {ds : List Nat} {t : State} (draws : EmbedsLast ds s t) (last : s.drewLast t (t.alive ds))
      (carries : t.carried (t.alive ds) = [bitOf b]) (some : 1 ≤ ds.length) (one : retry = false → ds.length = 1) :
      LsbEnds b retry s (.embedded, t)
  | lost {p : Nat} {t : State} (draws : EmbedsLast [p] s t) (noRetry : retry = false) : LsbEnds b retry s (.lost, t)
  | exhausted {t : State} (draws : Embeds s.usableLeft s t) (pos : t.f5.pos = s.f5.permN) (none : retry = false → s.usableLeft = []) :
      LsbEnds b retry s (.exhausted, t)

theorem lsbEmbed_ends {b retry : Bool} {s : State} (hs : s.Drawable) : LsbEnds b retry s (lsbEmbed b retry s) := by
  by_cases hlossy : retry = false ∧ ∃ p post, s.usableLeft = p :: post ∧ s.shrinks b p = true
  · obtain ⟨rfl, p, post, hleft, hp⟩ := hlossy
    obtain ⟨t, hloop, ht⟩ := lsbEmbed_loses hs hleft hp
    rw [hloop]
    exact .lost ht.toEmbedsLast rfl
  have hsplit := List.takeWhile_append_dropWhile (p := s.shrinks b) (l := s.usableLeft)
  have hpre (q : Nat) (hq : q ∈ s.usableLeft.takeWhile (s.shrinks b)) : s.shrinks b q = true := List.mem_takeWhile_imp hq
  have hretry (hf : retry = false) : s.usableLeft.takeWhile (s.shrinks b) = [] := by
    cases hl : s.usableLeft with
    | nil => rfl
    | cons p post => exact List.takeWhile_cons_of_neg fun hp => hlossy ⟨hf, p, post, hl, hp⟩
  cases hdrop : s.usableLeft.dropWhile (s.shrinks b) with
  | nil =>
    rw [hdrop, List.append_nil] at hsplit
    rw [hsplit] at hpre hretry
    obtain ⟨t, hloop, ht, hnone⟩ := lsbEmbed_exhausts hs hpre hretry
    have hall := ht.toEmbeds.trans (embeds_exhaust hnone) hs.nodup
    rw [List.append_nil] at hall
    rw [hloop]
    exact .exhausted hall ht.permN hretry
  | cons p post =>
    have hp : s.shrinks b p = false := by
      have h := List.head_dropWhile_not (s.shrinks b) (l := s.usableLeft) (by simp [hdrop])
      simpa only [hdrop, List.head_cons] using h
    obtain ⟨t, u, hloop, ht, hu, -⟩ := lsbEmbed_embeds hs (hdrop ▸ hsplit).symm hpre hp hretry
    have hall := ht.toEmbedsLast.trans hu.toEmbedsLast hs.nodup
    have halive : u.alive (s.usableLeft.takeWhile (s.shrinks b) ++ [p]) = [p] := by
      rw [ht.alive_append hu.toEmbeds hs.nodup, alive_zeros ht.zero, alive_self fun a ha => List.mem_singleton.1 ha ▸ hu.alive]
      rfl
    have hlast : s.drewLast u [p] := by
      have h := hall.last
      unfold State.drewLast at h ⊢
      rwa [List.getLast?_append_of_ne_nil _ (List.cons_ne_nil p [])] at h
    rw [hloop]
    refine .embedded hall (by rwa [halive]) (by rw [halive, carried_of_bit hu.carries]) (by simp) fun hf => by simp [hretry hf]

/-! ### EMBHDR's loop (R407) -/

/-- The bits of `hw` from bit `i` on. -/
def bitsFrom (hw : Word) (i n : Nat) : List Nat := (List.range n).map (fun j => bitOf (hw.getLsbD (i + j)))

theorem bitsFrom_succ (hw : Word) (i n : Nat) : bitsFrom hw i (n + 1) = bitOf (hw.getLsbD i) :: bitsFrom hw (i + 1) n := by
  rw [bitsFrom, List.range_succ_eq_map, List.map_cons, List.map_map]
  refine congrArg (_ :: ·) (List.map_congr_left fun j _ => ?_)
  simp only [Function.comp, Nat.succ_eq_add_one, Nat.add_assoc, Nat.add_comm 1]

/-- What embedding the header bits `i` to `i + n − 1` makes of the state: with `ds` drawn, all of them were embedded, or the cursor is
exhausted. -/
structure HeaderEmbeds (hw : Word) (n i : Nat) (ds : List Nat) (s t : State) : Prop extends Embeds ds s t where
  state : t = { s with
    ram.coef := t.ram.coef
    f5.pos := t.f5.pos
    f5.embChanged := t.f5.embChanged
    f5.embShrink := t.f5.embShrink
    warn := t.warn }
  ends : (t.warn = s.warn ∧ n ≤ ds.length ∧ s.drewLast t ds ∧ (s.ctrl.hdrLossy = true → ds.length = n) ∧
      (s.ctrl.hdrLossy = false → s.drewLast t (t.alive ds) ∧ t.carried (t.alive ds) = bitsFrom hw i n)) ∨
    (t.warn = s.warn ||| 0x0003 ∧ ds = s.usableLeft ∧ t.f5.pos = s.f5.permN ∧ (s.ctrl.hdrLossy = true → ds.length < n))

/-- One bit that was embedded or lost, before the others. -/
theorem HeaderEmbeds.cons {hw : Word} {n i : Nat} {ds es : List Nat} {s t u : State} {e : EmbedEnd} (hs : s.Drawable)
    (hloop : lsbEmbed (hw.getLsbD i) (!s.ctrl.hdrLossy) s = (e, t)) (h : EmbedsLast ds s t) (hlen : 1 ≤ ds.length)
    (hone : s.ctrl.hdrLossy = true → ds.length = 1)
    (hbit : s.ctrl.hdrLossy = false → s.drewLast t (t.alive ds) ∧ t.carried (t.alive ds) = [bitOf (hw.getLsbD i)])
    (k : HeaderEmbeds hw n (i + 1) es t u) : HeaderEmbeds hw (n + 1) i (ds ++ es) s u := by
  have hstate := lsbEmbed_frame hloop
  have hctrl : t.ctrl = s.ctrl := by rw [hstate]
  have hwarn : t.warn = s.warn := by rw [hstate]
  refine { h.toEmbeds.trans k.toEmbeds hs.nodup with state := k.state.trans (by rw [hstate]), ends := ?_ }
  have hends := k.ends
  rw [hctrl, hwarn] at hends
  refine hends.imp ?_ ?_
  · rintro ⟨hw', hn, hlast, hlossy, hbits⟩
    refine ⟨hw', by rw [List.length_append]; omega, drewLast_append h.last hlast h.permAt, fun hl => ?_, fun hl => ?_⟩
    · rw [List.length_append, hone hl, hlossy hl, Nat.add_comm]
    · obtain ⟨hlast1, hbit1⟩ := hbit hl
      obtain ⟨hlast2, hbit2⟩ := hbits hl
      rw [h.carried_alive_append k.toEmbeds hs.nodup, hbit1, hbit2, bitsFrom_succ, h.alive_append k.toEmbeds hs.nodup]
      exact ⟨drewLast_append hlast1 hlast2 h.permAt, rfl⟩
  · rintro ⟨hw', hes, hpos, hlossy⟩
    refine ⟨hw', by rw [h.left, hes], hpos.trans h.permN, fun hl => ?_⟩
    rw [List.length_append, hone hl, Nat.add_comm]
    exact Nat.succ_lt_succ (hlossy hl)

theorem embedHeader_embeds (hw : Word) (n i : Nat) {s : State} (hs : s.Drawable) :
    ∃ ds, HeaderEmbeds hw n i ds s (embedHeader hw n i s) := by
  induction n generalizing i s with
  | zero =>
    exact ⟨[], { Embeds.refl hs.cursor with
      state := rfl, ends := .inl ⟨rfl, Nat.le_refl 0, drewLast_nil.2 rfl, fun _ => rfl, fun _ => ⟨drewLast_nil.2 rfl, rfl⟩⟩ }⟩
  | succ n ih =>
    have hends := lsbEmbed_ends (b := hw.getLsbD i) (retry := !s.ctrl.hdrLossy) hs
    generalize hloop : lsbEmbed (hw.getLsbD i) (!s.ctrl.hdrLossy) s = r at hends
    cases hends with
    | @embedded ds t draws last carries some one =>
      obtain ⟨es, h⟩ := ih (i + 1) (draws.drawable hs)
      simp only [embedHeader, hloop]
      exact ⟨ds ++ es, .cons hs hloop draws some (fun hl => one (by simp [hl])) (fun _ => ⟨last, carries⟩) h⟩
    | @lost p t draws noRetry =>
      obtain ⟨es, h⟩ := ih (i + 1) (draws.drawable hs)
      simp only [embedHeader, hloop]
      exact ⟨[p] ++ es, .cons hs hloop draws (Nat.le_refl 1) (fun _ => rfl) (fun hl => absurd noRetry (by simp [hl])) h⟩
    | @exhausted t draws pos none =>
      have hstate := lsbEmbed_frame hloop
      simp only [embedHeader, hloop]
      refine ⟨s.usableLeft, { draws.thenSame (u := (t.warns .hdrcap).warns .trunc) ⟨rfl, rfl, rfl, rfl, rfl, rfl⟩ with
        state := ?_, ends := .inr ⟨?_, rfl, pos, fun hl => ?_⟩ }⟩
      · rw [hstate]
        rfl
      · have hwarn : t.warn = s.warn := by rw [hstate]
        rw [warns_warn, warns_warn, hwarn, BitVec.or_assoc]
        rfl
      · rw [none (by simp [hl])]
        exact Nat.succ_pos n

/-! ### EMBHDR -/

/-- The state in which EMBHDR, its four bytes popped, begins to embed. -/
def State.headerStart (s : State) (rest : List Byte) : State := { embHdrInit s with fifo.rng := rest }

/-- The whitened header (R407). -/
def State.whiteHeader (s : State) (b0 b1 b2 b3 : Byte) : Word := s.headerWord ^^^ rngWordXor s.ctrl.rngSigned b0 b1 b2 b3

theorem headerWord_eq (s : State) : s.headerWord = BitVec.ofNat 32 (min s.f5.paylen.toNat 0x7FFFFF + s.f5.k.toNat * 2 ^ 24) := by
  have hlt : s.payLength < 2 ^ 24 := by
    unfold State.payLength
    omega
  rw [State.headerWord, Nat.mul_comm, Nat.or_comm, ← Nat.two_pow_add_eq_or_of_lt hlt, Nat.add_comm]
  rfl

theorem exec_embhdr {s : State} {b0 b1 b2 b3 : Byte} {rest : List Byte} (hk : s.f5.k.toNat ≤ s.cfg.kMaxEmb) (hr : s.permReady = true)
    (hrng : s.fifo.rng = b0 :: b1 :: b2 :: b3 :: rest) :
    exec .embhdr s = .next (retire (embedHeader (s.whiteHeader b0 b1 b2 b3) 32 0 (s.headerStart rest))) := by
  have hpop : embHdrInit s = { embHdrInit s with fifo.rng := b0 :: b1 :: b2 :: b3 :: rest } := by rw [← hrng]; rfl
  have hrun : runEmbhdr [] (embHdrInit s) = retire (embedHeader (s.whiteHeader b0 b1 b2 b3) 32 0 (s.headerStart rest)) := by
    rw [hpop]
    rfl
  exact congrArg Host.Outcome.next ((if_neg (Nat.not_lt.2 hk)).trans ((if_neg (not_noperm hr)).trans hrun))

/-! ### Reading the header back (R417) -/

/-- A permutation has each entry in one place, so the last coefficient drawn says where the cursor stands. -/
theorem drewLast_unique {s t u : State} {ps : List Nat} (hb : s.Bijective s.f5.permN.toNat) (ht : t.f5.pos.toNat ≤ s.f5.permN.toNat)
    (hu : u.f5.pos.toNat ≤ s.f5.permN.toNat) (h : s.drewLast t ps) (k : s.drewLast u ps) : t.f5.pos = u.f5.pos := by
  unfold State.drewLast at h k
  cases hl : ps.getLast? with
  | none =>
    rw [hl] at h k
    exact h.trans k.symm
  | some p =>
    rw [hl] at h k
    obtain ⟨hlt, hp⟩ := h
    obtain ⟨hlt', hp'⟩ := k
    have hnodup : (s.permList s.f5.permN.toNat).Nodup := (List.Perm.nodup_iff hb).2 List.nodup_range
    have heq := (List.Nodup.getElem_inj_iff hnodup (i := t.f5.pos.toNat - 1) (j := u.f5.pos.toNat - 1)
      (hi := by rw [permList_length]; omega) (hj := by rw [permList_length]; omega)).1
        (by rw [permList_getElem, permList_getElem, hp, hp'])
    exact BitVec.eq_of_toNat_eq (by omega)

theorem extractLsb_header {n : Nat} {k : BitVec 5} (hn : n ≤ 0x7FFFFF) :
    ((BitVec.ofNat 32 (n + k.toNat * 2 ^ 24)).extractLsb' 0 23).toNat = n ∧ (BitVec.ofNat 32 (n + k.toNat * 2 ^ 24)).extractLsb' 24 5 = k := by
  have hk := k.isLt
  have hmod : (n + k.toNat * 2 ^ 24) % 2 ^ 32 = n + k.toNat * 2 ^ 24 := Nat.mod_eq_of_lt (by omega)
  refine ⟨?_, BitVec.eq_of_toNat_eq ?_⟩
  · rw [BitVec.extractLsb'_toNat, BitVec.toNat_ofNat, hmod, Nat.shiftRight_zero]
    omega
  · rw [BitVec.extractLsb'_toNat, BitVec.toNat_ofNat, hmod, Nat.shiftRight_eq_div_pow]
    omega

end Sys2Proof.Machine

namespace Sys2Proof

open Machine

/-- Settles O56: EMBHDR embeds the bits of the whitened header from its cleared counters on. -/
theorem embhdrEmbedsTheHeader : Obligations.EmbhdrEmbedsTheHeader := by
  intro b0 b1 b2 b3 rest s hinv hperm hr hk hrng
  have hs := hperm.drawable hr hinv.cursor.1
  obtain ⟨ds, h⟩ := embedHeader_embeds (s.whiteHeader b0 b1 b2 b3) 32 0 (s := s.headerStart rest) ⟨hs.cursor, hs.nodup⟩
  generalize ht : embedHeader (s.whiteHeader b0 b1 b2 b3) 32 0 (s.headerStart rest) = t at h
  have hexec := exec_embhdr hk hr hrng
  rw [ht] at hexec
  have hdrawn : s.usableLeft.take ds.length = ds := h.take_left
  have hlen : ds.length ≤ s.usableLeft.length := by
    rw [← hdrawn, List.length_take]
    exact Nat.min_le_right _ _
  refine ⟨retire t, ds.length, ?_⟩
  rw [hdrawn]
  refine ⟨hexec, ?_, h.toggled, h.left_drop, ?_, fun hmany hlossy => ?_, fun hfew => ?_⟩
  · have hchanged : t.f5.embChanged = BitVec.ofNat 32 (s.changedAmong (retire t) ds) := h.changed.trans (BitVec.zero_add _)
    have hshrunk : t.f5.embShrink = BitVec.ofNat 32 ((retire t).zerosAmong ds) := h.shrunk.trans (BitVec.zero_add _)
    have hstate := h.state
    rw [← headerWord_eq, ← hchanged, ← hshrunk]
    conv_lhs => rw [hstate]
    rfl
  · exact h.ends.imp (fun ⟨hw, hn, hlast, _⟩ => ⟨hw, hn, hlast⟩) fun ⟨hw, hds, hpos, _⟩ => ⟨hw, hds, hpos⟩
  · rcases h.ends with ⟨hw, -, -, hone, -⟩ | ⟨-, hds, -, hfew⟩
    · exact ⟨hw, hone hlossy⟩
    · exact absurd (hfew hlossy) (Nat.not_lt.2 (hds ▸ hmany))
  · rcases h.ends with ⟨-, hn, -⟩ | ⟨hw, -⟩
    · omega
    · exact hw

/-- Settles O60: the drawn coefficients that are not 0 carry the bits of the whitened header, and EXTHDR reads them from the starting
position on. -/
theorem headerRoundTrip : Obligations.HeaderRoundTrip := by
  intro b0 b1 b2 b3 rest rest' s t hinv hperm hr hk hlossy hrng hexec hcap
  have hs := hperm.drawable hr hinv.cursor.1
  obtain ⟨ds, h⟩ := embedHeader_embeds (s.whiteHeader b0 b1 b2 b3) 32 0 (s := s.headerStart rest) ⟨hs.cursor, hs.nodup⟩
  cases (exec_embhdr hk hr hrng).symm.trans hexec
  generalize embedHeader (s.whiteHeader b0 b1 b2 b3) 32 0 (s.headerStart rest) = t at h hcap
  have hstate := h.state
  have hheader : t.f5.hdrword = s.headerWord := by rw [hstate]; rfl
  obtain ⟨-, -, hlast, -, hbits⟩ | ⟨hwarn, -⟩ := h.ends
  case inr =>
    have hset : t.warn.getLsbD 1 = true := by rw [hwarn, BitVec.getLsbD_or]; simp
    exact absurd (hset.symm.trans hcap) (by decide)
  obtain ⟨hlastAlive, hcarried⟩ := hbits hlossy
  let v : State := { retire t with f5.pos := s.f5.pos, fifo.rng := b0 :: b1 :: b2 :: b3 :: rest' }
  have hleft : v.usableLeft = t.alive ds ++ t.usableLeft := h.usableLeft_rewind
  have hlen : (t.alive ds).length = 32 := by
    have := congrArg List.length hcarried
    simpa [State.carried, bitsFrom] using this
  have htake : v.usableLeft.take 32 = t.alive ds := by rw [hleft, ← hlen, List.take_left]
  have hrv : v.permReady = true := by
    show (t.valid.perm && decide (t.f5.permN.toNat = t.geo.ncoef.toNat)) = true
    rw [hstate]
    exact hr
  have hpermN : v.f5.permN = s.f5.permN := h.permN
  have hcarry : v.carried (v.usableLeft.take 32) = bitsFrom (s.whiteHeader b0 b1 b2 b3) 0 32 := by
    rw [htake]
    exact hcarried
  have hword : BitVec.ofNat 32 (valueOf (v.carried (v.usableLeft.take 32))) ^^^ rngWordXor v.ctrl.rngSigned b0 b1 b2 b3 =
      s.headerWord := by
    have hvalue : BitVec.ofNat 32 (valueOf (v.carried (v.usableLeft.take 32))) = s.whiteHeader b0 b1 b2 b3 := by
      rw [hcarry, bitsFrom]
      simp only [Nat.zero_add]
      rw [valueOf_getLsbD, BitVec.ofNat_toNat, BitVec.setWidth_eq]
    have hctrl : v.ctrl = s.ctrl := by
      show t.ctrl = s.ctrl
      rw [hstate]
      rfl
    rw [hvalue, hctrl, State.whiteHeader, BitVec.xor_assoc, BitVec.xor_self, BitVec.xor_zero]
  obtain ⟨u, hdraws, hu⟩ := exec_exthdr hrv (hpermN ▸ hs.cursor) (by rw [hleft, List.length_append]; omega)
    (show v.fifo.rng = b0 :: b1 :: b2 :: b3 :: rest' from rfl)
  have hpos : u.f5.pos = t.f5.pos := by
    have hN : u.f5.permN = s.f5.permN := hdraws.same.permN.trans hpermN
    have htN : t.f5.permN = s.f5.permN := h.permN
    have hread : s.drewLast u (t.alive ds) := by
      have hperm (i : Nat) : v.permAt i = s.permAt i := h.permAt i
      have hlast := hdraws.last
      rw [htake] at hlast
      unfold State.drewLast at hlast ⊢
      simp only [← hperm]
      exact hlast
    exact drewLast_unique (hperm.complete (Bool.and_eq_true_iff.1 hr).1) (hN ▸ hdraws.cursor) (htN ▸ h.cursor) hread hlastAlive
  have hfields := extractLsb_header (n := min s.f5.paylen.toNat 0x7FFFFF) (k := s.f5.k) (Nat.min_le_right _ _)
  rw [← headerWord_eq] at hfields
  rw [hword] at hu
  exact ⟨_, hu, hheader.symm, hfields.1, hfields.2, hpos⟩

end Sys2Proof

/-! SUPPORT. MatrixEmbed (46_f5_matrix.md R404, R405): the code word holds those of the drawn coefficients that are not 0, each as it was before;
one step toward zero at the place the syndrome names sets the value, or the coefficient shrinks, is discarded and another drawn. -/

namespace Sys2Proof.Machine

/-! ### Syndromes -/

/-- The members of the code word. -/
def State.codeWord (t : State) : List Nat := (List.range t.f5.cwlen.toNat).map (fun i => (t.cwAt i).toNat)

theorem codeWord_length (t : State) : t.codeWord.length = t.f5.cwlen.toNat := by simp [State.codeWord]

theorem codeWord_getElem {t : State} {i : Nat} (h : i < t.codeWord.length) : t.codeWord[i] = (t.cwAt i).toNat := by simp [State.codeWord]

theorem xorMembers_acc (i acc : Nat) (bits : List Nat) : xorMembers i acc bits = acc ^^^ xorMembers i 0 bits := by
  induction bits generalizing i acc with
  | nil => exact (Nat.xor_zero acc).symm
  | cons b bits ih =>
    rw [xorMembers_cons, xorMembers_cons, ih, ih (acc := if b = 1 then 0 ^^^ i else 0)]
    split
    · rw [Nat.zero_xor, Nat.xor_assoc]
    · rw [Nat.zero_xor]

theorem xorMembers_lt {k i : Nat} {bits : List Nat} (h : i + bits.length ≤ 2 ^ k) : xorMembers i 0 bits < 2 ^ k := by
  induction bits generalizing i with
  | nil => exact Nat.two_pow_pos k
  | cons b bits ih =>
    rw [List.length_cons] at h
    rw [xorMembers_cons, xorMembers_acc]
    refine Nat.xor_lt_two_pow ?_ (ih (by omega))
    split
    · rw [Nat.zero_xor]
      omega
    · exact Nat.two_pow_pos k

/-- Turning over the bit that member `i + j` carries changes the syndrome by its number. -/
theorem xorMembers_flip {t u : State} {ps : List Nat} (hn : ps.Nodup) {j : Nat} (hj : j < ps.length)
    (hother : ∀ x ∈ ps, x ≠ ps[j] → u.coefInt x = t.coefInt x) (hsome : t.coefInt ps[j] ≠ 0)
    (hflip : carriedBit (u.coefInt ps[j]) = (carriedBit (t.coefInt ps[j])).map not) (i : Nat) :
    xorMembers i 0 (u.carried ps) = xorMembers i 0 (t.carried ps) ^^^ (i + j) := by
  induction ps generalizing i j with
  | nil => cases hj
  | cons p ps ih =>
    obtain ⟨hp, hps⟩ := List.nodup_cons.1 hn
    rw [carried_cons, carried_cons, xorMembers_cons, xorMembers_cons, xorMembers_acc, xorMembers_acc (bits := t.carried ps)]
    cases j with
    | zero =>
      rw [List.getElem_cons_zero] at hsome hflip
      have hrest : u.carried ps = t.carried ps := List.map_congr_left fun x hx => by
        rw [hother x (List.mem_cons_of_mem _ hx) (ne_of_mem_of_not_mem hx hp)]
      obtain ⟨b, hb⟩ := carriedBit_isSome hsome
      rw [hrest, hflip, hb]
      cases b <;> simp [Nat.xor_comm]
    | succ j =>
      rw [List.getElem_cons_succ] at hsome hflip
      have hpj : p ≠ ps[j]'(Nat.lt_of_succ_lt_succ hj) := fun h => hp (h ▸ List.getElem_mem _)
      rw [ih hps (Nat.lt_of_succ_lt_succ hj) (fun x hx => hother x (List.mem_cons_of_mem _ hx)) hsome hflip,
        hother p List.mem_cons_self hpj, Nat.xor_assoc, Nat.add_assoc, Nat.add_comm 1]

theorem syndromeFrom_eq (t : State) (i n : Nat) :
    syndromeFrom t i n = xorMembers (i + 1) 0 (t.carried ((List.range n).map (fun j => (t.cwAt (i + j)).toNat))) := by
  induction n generalizing i with
  | zero => rfl
  | succ n ih =>
    have htail : (List.range n).map ((fun j => (t.cwAt (i + j)).toNat) ∘ Nat.succ) = (List.range n).map (fun j => (t.cwAt (i + 1 + j)).toNat) :=
      List.map_congr_left fun j _ => by simp only [Function.comp, Nat.succ_eq_add_one, Nat.add_assoc, Nat.add_comm 1]
    rw [syndromeFrom, ih, List.range_succ_eq_map, List.map_cons, List.map_map, htail, carried_cons, xorMembers_cons, Nat.add_zero]
    conv_rhs => rw [xorMembers_acc]
    by_cases hb : carriedBit (t.coefInt (t.cwAt i).toNat) = some true <;> simp [hb]

theorem syndrome_eq {t : State} {n : Nat} (h : t.f5.cwlen.toNat = n) : syndrome t n = syndromeOf (t.carried t.codeWord) := by
  rw [syndrome, syndromeFrom_eq, State.codeWord, h, syndromeOf_eq]
  simp only [Nat.zero_add]

/-! ### Members of the code word -/

theorem codeWord_appendCw {p : Nat} {t : State} (hp : p < 2 ^ 24) (hlen : t.f5.cwlen.toNat < 255) :
    (appendCw p t).codeWord = t.codeWord ++ [p] := by
  have hself := cwAt_appendCw_self p t
  rw [State.codeWord, appendCw_cwlen hlen, List.range_succ, List.map_append, List.map_singleton, hself, BitVec.toNat_ofNat,
    Nat.mod_eq_of_lt hp]
  refine congrArg (· ++ [p]) (List.map_congr_left fun i hi => ?_)
  rw [cwAt_appendCw_ne p t (List.mem_range.1 hi).ne]

theorem cwAt_discardCw (idx n i : Nat) (t : State) :
    (discardCw idx n t).cwAt i = if idx ≤ i ∧ i < n - 1 then t.cwAt (i + 1) else t.cwAt i := by
  have hentry := Memory.entry?_writeBlock t.ram.cw idx ((List.range (n - 1 - idx)).map (fun i => t.cwAt (idx + i + 1))) i
  rw [List.length_map, List.length_range] at hentry
  split_ifs with h
  · rw [if_pos (by omega), List.getElem?_map, List.getElem?_range (by omega), Option.map_some, Nat.add_sub_cancel' h.1] at hentry
    exact readRam_some .cw hentry
  · rw [if_neg (by omega)] at hentry
    exact readRam_congr .cw rfl hentry rfl

theorem discardCw_cwlen {idx n : Nat} (t : State) (hn : n ≤ 256) : (discardCw idx n t).f5.cwlen.toNat = n - 1 :=
  (BitVec.toNat_ofNat _ _).trans (Nat.mod_eq_of_lt (by omega))

theorem codeWord_discardCw {idx n : Nat} {t : State} (hlen : t.f5.cwlen.toNat = n) (hidx : idx < n) :
    (discardCw idx n t).codeWord = t.codeWord.eraseIdx idx := by
  have hn : n ≤ 256 := hlen ▸ t.f5.cwlen.isLt.le
  have hcw := codeWord_length t
  have hdcw := codeWord_length (discardCw idx n t)
  rw [discardCw_cwlen t hn] at hdcw
  refine List.ext_getElem ?_ fun i hi hi' => ?_
  · rw [hdcw, List.length_eraseIdx_of_lt (by omega), hcw, hlen]
  · rw [codeWord_getElem, cwAt_discardCw, List.getElem_eraseIdx]
    by_cases hlt : i < idx
    · rw [if_neg (by omega), dif_pos hlt, codeWord_getElem]
    · rw [if_pos (by omega), dif_neg hlt, codeWord_getElem]

theorem permAt_lt (s : State) (i : Nat) : (s.permAt i).toNat < 2 ^ 24 := (s.permAt i).isLt

theorem lt_of_mem_usableLeft {s : State} {p : Nat} (h : p ∈ s.usableLeft) : p < 2 ^ 24 := by
  obtain ⟨i, -, rfl⟩ := List.mem_map.1 (List.mem_filter.1 h).1
  exact permAt_lt s _

/-! ### MatrixEmbed -/

theorem kMaxEmb_le {p : Params} (h : p.wf) : p.kMaxEmb ≤ 8 := by
  obtain ⟨-, -, -, -, -, hle, -⟩ := h
  exact hle

/-- With `ds` drawn, the code word is those of them that are not 0, and CWBUF is as it was from entry `n` on. -/
structure CodesDrawn (n : Nat) (ds : List Nat) (s t : State) : Prop extends Embeds ds s t where
  word : t.codeWord = t.alive ds
  beyond : ∀ i, n ≤ i → t.cwAt i = s.cwAt i

/-- How MatrixEmbed ends: with a full code word of the value's syndrome, in which all but one of the changed coefficients are 0, or with
the cursor exhausted and the code word short. -/
inductive MatrixEnds (n val : Nat) (s : State) : EmbedEnd × State → Prop
  | embedded {ds : List Nat} {t : State} (codes : CodesDrawn n ds s t) (full : t.f5.cwlen.toNat = n)
      (value : syndromeOf (t.carried t.codeWord) = val) (last : s.drewLast t ds)
      (one : ∃ a, ∀ x, x ≠ a → t.coefAt x = s.coefAt x ∨ t.coefInt x = 0) : MatrixEnds n val s (.embedded, t)
  | exhausted {t : State} (codes : CodesDrawn n s.usableLeft s t) (short : t.f5.cwlen.toNat < n) (pos : t.f5.pos = s.f5.permN) :
      MatrixEnds n val s (.exhausted, t)

/-- A round of MatrixEmbed begins: the code word is full, and every changed coefficient has shrunk. -/
structure RoundBegins (n : Nat) (ds : List Nat) (s t : State) : Prop extends CodesDrawn n ds s t where
  full : t.f5.cwlen.toNat = n
  last : s.drewLast t ds
  untouched : ∀ x, t.coefAt x = s.coefAt x ∨ t.coefInt x = 0

section
variable {n : Nat} {ds : List Nat} {s t : State}

theorem RoundBegins.member (h : RoundBegins n ds s t) {j : Nat} (hj : j < n) :
    (t.cwAt j).toNat ∈ ds ∧ t.coefInt (t.cwAt j).toNat ≠ 0 ∧ t.coefAt (t.cwAt j).toNat = s.coefAt (t.cwAt j).toNat := by
  have hlen : j < t.codeWord.length := by rwa [codeWord_length, h.full]
  have hmem : (t.cwAt j).toNat ∈ t.alive ds := by
    rw [← h.word, ← codeWord_getElem hlen]
    exact List.getElem_mem hlen
  obtain ⟨hds, hne⟩ := List.mem_filter.1 hmem
  have hne := of_decide_eq_true hne
  exact ⟨hds, hne, (h.untouched _).resolve_right hne⟩

theorem RoundBegins.nodup_word (h : RoundBegins n ds s t) (hs : s.Drawable) : t.codeWord.Nodup := by
  rw [h.word]
  exact (h.toEmbeds.nodup hs.nodup).filter _

/-- The step that reaches the value: the coefficient at the place the syndrome names, one step toward zero, does not shrink. -/
theorem RoundBegins.settles (h : RoundBegins n ds s t) (hs : s.Drawable) {j val : Nat} (hj : j < n)
    (hval : syndrome t n ^^^ (j + 1) = val) (hstep : decMag (t.coefInt (t.cwAt j).toNat) ≠ 0) :
    MatrixEnds n val s (.embedded, toggleCounted (t.cwAt j).toNat t) := by
  obtain ⟨hds, hne, hsame⟩ := h.member hj
  have hlen : j < t.codeWord.length := by rwa [codeWord_length, h.full]
  have hself := coefInt_toggleCounted_self (t.cwAt j).toNat t
  have hother (x : Nat) (hx : x ≠ (t.cwAt j).toNat) := coefAt_toggleCounted_ne (s := t) hx
  have hcw (i : Nat) : (toggleCounted (t.cwAt j).toNat t).cwAt i = t.cwAt i :=
    readRam_congr .cw toggleCounted_powerCycles (by rw [toggleCounted_ram]; rfl) rfl
  have hcwlen : (toggleCounted (t.cwAt j).toNat t).f5.cwlen = t.f5.cwlen := by rw [toggleCounted_f5]
  have hword : (toggleCounted (t.cwAt j).toNat t).codeWord = t.codeWord := by simp only [State.codeWord, hcw, hcwlen]
  have halive : (toggleCounted (t.cwAt j).toNat t).alive ds = t.alive ds := by
    refine List.filter_congr fun x _ => decide_eq_decide.2 ?_
    by_cases hx : x = (t.cwAt j).toNat
    · rw [hx, hself]
      exact iff_of_true hstep hne
    · rw [coefInt_congr (hother x hx)]
  have htoggle := h.toEmbeds.toggle hs.nodup hds hsame
  refine .embedded { htoggle with word := ?_, beyond := ?_ } ?_ ?_ ?_ ⟨(t.cwAt j).toNat, fun x hx => ?_⟩
  · rw [hword, halive, h.word]
  · exact fun i hi => (hcw i).trans (h.beyond i hi)
  · rw [hcwlen, h.full]
  · rw [← hval, syndrome_eq h.full, hword, syndromeOf_eq, syndromeOf_eq, Nat.add_comm j]
    rw [← codeWord_getElem hlen] at hself hother hne hstep ⊢
    refine xorMembers_flip (h.nodup_word hs) hlen (fun x _ hx => coefInt_congr (hother x hx)) hne ?_ 1
    rw [hself]
    exact carriedBit_decMag hne hstep
  · have hlast : EmbedsLast ds s t := { h.toEmbeds with last := h.last }
    exact (hlast.toggle hs.nodup hds hsame).last
  · rw [hother x hx, coefInt_congr (hother x hx)]
    exact h.untouched x

/-- The state in which a member that shrank is discarded (R405). -/
def discardShrunk (j n : Nat) (t : State) : State := discardCw j n (toggleCounted (t.cwAt j).toNat t)

/-- The coefficient shrinks: it leaves the code word, which keeps the others. -/
theorem RoundBegins.discards (h : RoundBegins n ds s t) (hs : s.Drawable) {j : Nat} (hj : j < n)
    (hstep : decMag (t.coefInt (t.cwAt j).toNat) = 0) :
    CodesDrawn n ds s (discardShrunk j n t) ∧ (discardShrunk j n t).f5.cwlen.toNat = n - 1 ∧ s.drewLast (discardShrunk j n t) ds ∧
      (∀ x, (discardShrunk j n t).coefAt x = s.coefAt x ∨ (discardShrunk j n t).coefInt x = 0) ∧
      (discardShrunk j n t).usableLeft = t.usableLeft := by
  obtain ⟨hds, hne, hsame⟩ := h.member hj
  have hlen : j < t.codeWord.length := by rwa [codeWord_length, h.full]
  have hn : n ≤ 256 := h.full ▸ t.f5.cwlen.isLt.le
  have hself := coefInt_toggleCounted_self (t.cwAt j).toNat t
  have hother (x : Nat) (hx : x ≠ (t.cwAt j).toNat) := coefAt_toggleCounted_ne (s := t) hx
  have hcw (i : Nat) : (toggleCounted (t.cwAt j).toNat t).cwAt i = t.cwAt i :=
    readRam_congr .cw toggleCounted_powerCycles (by rw [toggleCounted_ram]; rfl) rfl
  have hcwlen : (toggleCounted (t.cwAt j).toNat t).f5.cwlen = t.f5.cwlen := by rw [toggleCounted_f5]
  have hword : (toggleCounted (t.cwAt j).toNat t).codeWord = t.codeWord := by simp only [State.codeWord, hcw, hcwlen]
  have hlast : EmbedsLast ds s t := { h.toEmbeds with last := h.last }
  have htoggle := hlast.toggle hs.nodup hds hsame
  have hsameArray : SameArray (toggleCounted (t.cwAt j).toNat t) (discardShrunk j n t) := ⟨rfl, rfl, rfl, rfl, rfl, rfl⟩
  have hall := htoggle.toEmbeds.thenSame hsameArray
  refine ⟨{ hall with word := ?_, beyond := fun i hi => ?_ }, discardCw_cwlen _ hn, htoggle.last, fun x => ?_, ?_⟩
  · have hmember : t.codeWord[j] = (t.cwAt j).toNat := codeWord_getElem hlen
    have halive : (toggleCounted (t.cwAt j).toNat t).alive ds = (t.alive ds).erase (t.cwAt j).toNat := by
      rw [State.alive, State.alive, ((h.toEmbeds.nodup hs.nodup).filter _).erase_eq_filter, List.filter_filter]
      refine List.filter_congr fun x _ => ?_
      by_cases hx : x = (t.cwAt j).toNat
      · simp [hx, hself, hstep]
      · simp [hx, coefInt_congr (hother x hx)]
    rw [hsameArray.alive, halive, ← h.word, ← hmember, (h.nodup_word hs).erase_getElem j hlen, ← hword]
    exact codeWord_discardCw (by rw [hcwlen, h.full]) hj
  · show (discardCw j n _).cwAt i = _
    rw [cwAt_discardCw, if_neg (by omega), hcw]
    exact h.beyond i hi
  · rw [hsameArray.coefAt, coefInt_congr (hsameArray.coefAt x)]
    by_cases hx : x = (t.cwAt j).toNat
    · exact .inr (by rw [hx, hself, hstep])
    · rw [hother x hx, coefInt_congr (hother x hx)]
      exact h.untouched x
  · exact List.append_cancel_left (hall.left.symm.trans h.left)

theorem matrixLoop_ends {k val fuel : Nat} (hs : s.Drawable) (hk : 2 ^ k = n + 1) (hval : val < 2 ^ k) (h : RoundBegins n ds s t)
    (hfuel : t.usableLeft.length < fuel) : MatrixEnds n val s (matrixLoop val n fuel t) := by
  induction fuel generalizing ds t with
  | zero => exact absurd hfuel (Nat.not_lt_zero _)
  | succ fuel ih =>
    have hsyn : syndrome t n < 2 ^ k := by
      rw [syndrome_eq h.full, syndromeOf_eq]
      exact xorMembers_lt (by rw [State.carried, List.length_map, codeWord_length, h.full, hk, Nat.add_comm])
    have hd : syndrome t n ^^^ val < 2 ^ k := Nat.xor_lt_two_pow hsyn hval
    have hn : n ≤ 255 := h.full ▸ Nat.le_of_lt_succ t.f5.cwlen.isLt
    rw [matrixLoop]
    generalize hdiff : syndrome t n ^^^ val = d at hd
    cases d with
    | zero =>
      rw [if_pos rfl]
      refine .embedded h.toCodesDrawn h.full ?_ h.last ⟨0, fun x _ => h.untouched x⟩
      rw [← syndrome_eq h.full]
      exact Nat.xor_eq_zero_iff.1 hdiff
    | succ j =>
      have hj : j < n := by omega
      simp only [Nat.add_one_ne_zero, if_false, Nat.add_sub_cancel, coefInt_toggle_self]
      by_cases hstep : decMag (t.coefInt (t.cwAt j).toNat) = 0
      · rw [if_neg (not_not.2 hstep), countShrink_toggle hstep]
        obtain ⟨hcodes, hlen, hlast, hshrunk, hleft⟩ := h.discards hs hj hstep
        change MatrixEnds n val s (match nextUsable (discardShrunk j n t) with
          | (none, s2) => (.exhausted, s2)
          | (some p, s2) => matrixLoop val n fuel (appendCw p s2))
        cases hl : (discardShrunk j n t).usableLeft with
        | nil =>
          rw [nextUsable_of_nil hcodes.cursor hl]
          have hds : ds = s.usableLeft := by rw [hcodes.left, hl, List.append_nil]
          have hall := hcodes.toEmbeds.trans (embeds_exhaust hl) hs.nodup
          rw [List.append_nil] at hall
          subst hds
          exact .exhausted { hall with word := hcodes.word, beyond := hcodes.beyond } (by show (discardShrunk j n t).f5.cwlen.toNat < n; omega)
            hcodes.permN
        | cons p ps =>
          obtain ⟨u, hnext, hdraw, rfl⟩ := nextUsable_of_cons hcodes.cursor hl
          rw [hnext]
          have hsame : SameArray u (appendCw p u) := ⟨rfl, rfl, rfl, rfl, rfl, rfl⟩
          have hpiece := hdraw.embeds.thenSame hsame
          have hulen : u.f5.cwlen.toNat = n - 1 := by rw [hdraw.state]; exact hlen
          have hucw (i : Nat) : u.cwAt i = (discardShrunk j n t).cwAt i := by rw [hdraw.state]; rfl
          have huword : u.codeWord = (discardShrunk j n t).codeWord := by rw [hdraw.state]; rfl
          have hpmem : p ∈ (discardShrunk j n t).usableLeft := hl ▸ List.mem_cons_self
          have hcoef (x : Nat) : (appendCw p u).coefAt x = (discardShrunk j n t).coefAt x := (hsame.coefAt x).trans (hdraw.coefAt x)
          refine ih { hcodes.toEmbeds.trans hpiece hs.nodup with
            word := ?_, beyond := fun i hi => ?_, full := ?_, last := ?_, untouched := fun x => ?_ } ?_
          · rw [codeWord_appendCw (lt_of_mem_usableLeft hpmem) (by omega), hcodes.alive_append hpiece hs.nodup, huword, hcodes.word]
            refine congrArg ((discardShrunk j n t).alive ds ++ ·) (alive_self fun a ha => ?_).symm
            rw [List.mem_singleton.1 ha, coefInt_congr (hcoef p)]
            exact (usable_iff.1 (usable_of_mem_usableLeft hpmem)).2
          · rw [cwAt_appendCw_ne p u (by omega), hucw, hcodes.beyond i hi]
          · rw [appendCw_cwlen (by omega), hulen]
            omega
          · exact drewLast_append hlast hdraw.last hcodes.permAt
          · rw [hcoef, coefInt_congr (hcoef x)]
            exact hshrunk x
          · rw [← hleft, hl, List.length_cons] at hfuel
            exact Nat.lt_of_succ_lt_succ hfuel
      · rw [if_pos hstep, toggle_eq hstep]
        refine h.settles hs hj ?_ hstep
        rw [← hdiff, ← Nat.xor_assoc, Nat.xor_self, Nat.zero_xor]

end

theorem drawCw_found {n : Nat} {s : State} (hp : s.f5.pos.toNat ≤ s.f5.permN.toNat) :
    (drawCw n s).1 = decide (n ≤ s.usableLeft.length) := by
  induction n generalizing s with
  | zero => rfl
  | succ n ih =>
    cases hl : s.usableLeft with
    | nil => rw [drawCw, nextUsable_of_nil hp hl]; rfl
    | cons p ps =>
      obtain ⟨t, hnext, hdraw, rfl⟩ := nextUsable_of_cons hp hl
      have hv : (appendCw p t).usableLeft = t.usableLeft := rfl
      rw [drawCw, hnext]
      refine (ih (s := appendCw p t) hdraw.cursor).trans ?_
      simp [hv]

/-- Drawing the code word is a piece that changes no coefficient. -/
theorem CodesDrawn.of_draws {n : Nat} {s t : State} (h : DrawsCw n { s with f5.cwlen := 0 } t) : CodesDrawn n (s.usableLeft.take n) s t := by
  have hv : State.usableLeft { s with f5.cwlen := 0 } = s.usableLeft := rfl
  have hsame : SameArray s t := by
    rw [h.state]
    exact ⟨rfl, rfl, rfl, rfl, rfl, rfl⟩
  have hmin : s.usableLeft.take n = s.usableLeft.take (min n s.usableLeft.length) := List.take_eq_take_min.symm ▸ rfl
  have hleft : s.usableLeft = s.usableLeft.take n ++ t.usableLeft := by
    rw [h.left, hv, hmin, List.take_append_drop]
  have hlen : t.f5.cwlen.toNat = min n s.usableLeft.length := h.cwlen.trans (Nat.zero_add _)
  refine { Embeds.of_same hsame hleft (hsame.permN ▸ h.cursor.2) with word := ?_, beyond := fun i hi => h.others i (.inr (by omega)) }
  have halive : t.alive (s.usableLeft.take n) = s.usableLeft.take n := alive_self fun a ha => by
    rw [coefInt_congr (hsame.coefAt a)]
    exact (usable_iff.1 (usable_of_mem_usableLeft (List.mem_of_mem_take ha))).2
  rw [halive]
  refine List.ext_getElem (by rw [codeWord_length, hlen, List.length_take]) fun i hi hi' => ?_
  rw [List.length_take] at hi'
  have hmember := h.members i hi'
  rw [hv, List.getD_eq_getElem _ _ (by omega), show ({ s with f5.cwlen := 0 } : State).f5.cwlen.toNat = 0 from rfl, Nat.zero_add] at hmember
  rw [codeWord_getElem, hmember, List.getElem_take]

/-- MatrixEmbed ends with the value in a full code word, or exhausts the cursor. -/
theorem matrixEmbed_ends {s : State} {k val : Nat} (hs : s.Drawable) (hk : k ≤ 8) (hval : val < 2 ^ k) :
    MatrixEnds (2 ^ k - 1) val s (matrixEmbed val k s) := by
  have hpow : 2 ^ k ≤ 2 ^ 8 := Nat.pow_le_pow_right (by decide) hk
  have hpos := Nat.two_pow_pos k
  have hdraws : DrawsCw (2 ^ k - 1) { s with f5.cwlen := 0 } (drawCw (2 ^ k - 1) { s with f5.cwlen := 0 }).2 :=
    drawCw_draws hs.cursor (by show 0 + _ ≤ 255; omega)
  have hfound : (drawCw (2 ^ k - 1) { s with f5.cwlen := 0 }).1 = decide (2 ^ k - 1 ≤ s.usableLeft.length) := drawCw_found hs.cursor
  rw [matrixEmbed]
  generalize hn : 2 ^ k - 1 = n at hdraws hfound ⊢
  generalize drawCw n { s with f5.cwlen := 0 } = r at hdraws hfound ⊢
  obtain ⟨found, t⟩ := r
  have hcodes : CodesDrawn n (s.usableLeft.take n) s t := .of_draws hdraws
  have hlen : t.f5.cwlen.toNat = min n s.usableLeft.length := hdraws.cwlen.trans (Nat.zero_add _)
  by_cases henough : n ≤ s.usableLeft.length
  · obtain rfl : found = true := hfound.trans (decide_eq_true henough)
    have hsame (x : Nat) : t.coefAt x = s.coefAt x := by
      have hstate : t = _ := hdraws.state
      rw [hstate]
      rfl
    have hround : RoundBegins n (s.usableLeft.take n) s t :=
      { hcodes with full := by omega, last := hdraws.last henough, untouched := fun x => .inl (hsame x) }
    exact matrixLoop_ends hs (by omega) hval hround (Nat.lt_succ_of_le (usableLeft_length_le t))
  · obtain rfl : found = false := hfound.trans (decide_eq_false henough)
    have hshort : s.usableLeft.length < n := Nat.not_le.1 henough
    rw [List.take_of_length_le hshort.le] at hcodes
    exact .exhausted hcodes (by omega) (hdraws.exhausted hshort)

/-! ### MSTEP (R412) -/

theorem toggle_unembedded (a : Nat) (s : State) : (toggle a s).unembedded = s.unembedded := rfl

theorem countShrink_unembedded (s : State) : (countShrink s).unembedded = s.unembedded := rfl

theorem discardCw_unembedded (j n : Nat) (s : State) : (discardCw j n s).unembedded = s.unembedded := rfl

theorem appendCw_unembedded (p : Nat) (s : State) : (appendCw p s).unembedded = s.unembedded := rfl

theorem matrixLoop_unembedded (val n fuel : Nat) (s : State) : (matrixLoop val n fuel s).2.unembedded = s.unembedded := by
  induction fuel generalizing s with
  | zero => rfl
  | succ fuel ih =>
    simp only [matrixLoop]
    generalize syndrome s n ^^^ val = d
    have hround : (discardCw (d - 1) n (countShrink (toggle (s.cwAt (d - 1)).toNat s))).unembedded = s.unembedded :=
      (discardCw_unembedded _ _ _).trans ((countShrink_unembedded _).trans (toggle_unembedded _ s))
    split
    · rfl
    split
    · exact toggle_unembedded _ s
    split
    · rename_i t ht
      exact (nextUsable_unembedded ht).trans hround
    · rename_i p t ht
      exact (ih _).trans ((appendCw_unembedded p t).trans ((nextUsable_unembedded ht).trans hround))

theorem drawCw_unembedded (n : Nat) (s : State) : (drawCw n s).2.unembedded = s.unembedded := by
  induction n generalizing s with
  | zero => rfl
  | succ n ih =>
    simp only [drawCw]
    split
    · exact nextUsable_unembedded ‹_›
    · rename_i p t ht
      exact (ih _).trans ((appendCw_unembedded p t).trans (nextUsable_unembedded ht))

theorem matrixEmbed_unembedded (val k : Nat) (s : State) : (matrixEmbed val k s).2.unembedded = s.unembedded := by
  have hdraw : (drawCw (2 ^ k - 1) { s with f5.cwlen := 0 }).2.unembedded = s.unembedded := drawCw_unembedded _ _
  simp only [matrixEmbed]
  split <;> rename_i t ht <;> rw [ht] at hdraw
  · exact hdraw
  · exact (matrixLoop_unembedded _ _ _ _).trans hdraw

/-- Where EMB_SHRINK is what it was, none of the drawn coefficients has shrunk. -/
theorem Embeds.no_zero {s t : State} {ds : List Nat} (h : Embeds ds s t) (hshrink : t.f5.embShrink = s.f5.embShrink) {x : Nat}
    (hx : x ∈ ds) : t.coefInt x ≠ 0 := by
  have hfew : t.zerosAmong ds < 2 ^ 32 := by
    have hzeros : t.zerosAmong ds ≤ ds.length := List.length_filter_le _ _
    have hlen : ds.length ≤ s.usableLeft.length := by rw [h.left, List.length_append]; omega
    have hentries : s.usableLeft.length ≤ s.f5.permN.toNat - s.f5.pos.toNat := usableLeft_length_le s
    have hN := s.f5.permN.isLt
    omega
  have hcount : BitVec.ofNat 32 (t.zerosAmong ds) = 0 := by
    have hsum := h.shrunk
    rw [hshrink] at hsum
    exact (BitVec.add_right_eq_self.1 hsum.symm :)
  have hnone : t.zerosAmong ds = 0 := by
    have htoNat := congrArg BitVec.toNat hcount
    rwa [BitVec.toNat_ofNat, Nat.mod_eq_of_lt hfew] at htoNat
  intro hz
  have hmem : x ∈ ds.filter (fun p => decide (t.coefInt p = 0)) := List.mem_filter.2 ⟨hx, decide_eq_true hz⟩
  rw [List.length_eq_zero_iff.1 hnone] at hmem
  cases hmem

theorem exec_mstep {s : State} {val : Nat} (h1 : 1 ≤ s.f5.k.toNat) (hk : s.f5.k.toNat ≤ s.cfg.kMaxEmb) (hval : val < 2 ^ s.f5.k.toNat)
    (hr : s.permReady = true) :
    exec (.mstep val) s = .next (retire { (matrixEmbed val s.f5.k.toNat s).2 with
      result := embedResult (matrixEmbed val s.f5.k.toNat s).1 }) :=
  congrArg Host.Outcome.next ((if_neg (by omega)).trans (if_neg (not_noperm hr)))

/-- An MSTEP that retires had legal operands and a complete permutation. -/
theorem mstep_checks {s t : State} {val : Nat} (h : exec (.mstep val) s = .next t) (ht : t.agent = .idle) :
    1 ≤ s.f5.k.toNat ∧ s.f5.k.toNat ≤ s.cfg.kMaxEmb ∧ val < 2 ^ s.f5.k.toNat ∧ s.permReady = true := by
  have hexec : execMstep val s = .next t := h
  rw [execMstep, Host.Outcome.next.injEq] at hexec
  split at hexec
  · rw [← hexec] at ht
    cases ht
  split at hexec
  · rw [← hexec] at ht
    cases ht
  · rename_i hops hr
    exact ⟨by omega, by omega, by omega, Bool.eq_true_of_not_eq_false hr⟩

end Sys2Proof.Machine

namespace Sys2Proof

open Machine

/-- Settles O53: MatrixEmbed ends in one of its two ways, and its pieces say what was drawn and changed. -/
theorem mstepEmbedsOneValue : Obligations.MstepEmbedsOneValue := by
  intro val s hinv hperm hr h1 hk hval n
  have hs := hperm.drawable hr hinv.cursor.1
  have hk8 : s.f5.k.toNat ≤ 8 := hk.trans (kMaxEmb_le hinv.params)
  have hends := matrixEmbed_ends hs hk8 hval
  have hexec := exec_mstep h1 hk hval hr
  have hframe := eq_withEmbedding (matrixEmbed_unembedded val s.f5.k.toNat s)
  generalize matrixEmbed val s.f5.k.toNat s = r at hends hexec hframe
  have hstate {ds : List Nat} {t : State} (e : EmbedEnd) (hcodes : CodesDrawn n ds s t) (hframe : t = s.withEmbedding t) :
      retire { t with result := embedResult e } = retire { s with
        ram.coef := t.ram.coef
        ram.cw := t.ram.cw
        f5.pos := t.f5.pos
        f5.cwlen := t.f5.cwlen
        f5.embChanged := s.f5.embChanged + BitVec.ofNat 32 (s.changedAmong t ds)
        f5.embShrink := s.f5.embShrink + BitVec.ofNat 32 (t.zerosAmong ds)
        result := embedResult e } := by
    rw [← hcodes.changed, ← hcodes.shrunk]
    conv_lhs => rw [hframe]
    rfl
  cases hends with
  | @embedded ds t codes full value last one =>
    refine ⟨retire { t with result := embedResult .embedded }, ds.length, ?_⟩
    rw [codes.take_left]
    exact ⟨hexec, hstate _ codes hframe, codes.toggled, codes.left_drop, codes.word, codes.beyond, .inl ⟨rfl, full, value, last⟩⟩
  | @exhausted t codes short pos =>
    refine ⟨retire { t with result := embedResult .exhausted }, s.usableLeft.length, ?_⟩
    rw [List.take_length]
    exact ⟨hexec, hstate _ codes hframe, codes.toggled, codes.left_drop, codes.word, codes.beyond, .inr ⟨rfl, short, rfl, pos⟩⟩

/-- Settles O54: without shrinkage one drawn coefficient has changed at most, the others that changed are 0, and the code word is what MXTR
draws from the starting position. -/
theorem matrixCodeIsCorrect : Obligations.MatrixCodeIsCorrect := by
  intro val s t hinv hperm hexec hidle hresult
  obtain ⟨h1, hk, hval, hr⟩ := mstep_checks hexec hidle
  have hs := hperm.drawable hr hinv.cursor.1
  have hk8 : s.f5.k.toNat ≤ 8 := hk.trans (kMaxEmb_le hinv.params)
  have hends := matrixEmbed_ends hs hk8 hval
  have hframe := eq_withEmbedding (matrixEmbed_unembedded val s.f5.k.toNat s)
  cases (exec_mstep h1 hk hval hr).symm.trans hexec
  generalize matrixEmbed val s.f5.k.toNat s = r at hends hframe hresult
  cases hends with
  | exhausted => cases hresult
  | @embedded ds u codes full value last one =>
    have hzero {x : Nat} (h : u.coefInt x = 0) : u.coefAt x = 0 := BitVec.toInt_inj.1 h
    obtain ⟨a, ha⟩ := one
    refine ⟨fun hshrink => ⟨a, fun x hx => ?_⟩, ⟨a, fun x hx => (ha x hx).imp_right hzero⟩, ?_⟩
    · by_cases hds : x ∈ ds
      · have hnone := codes.no_zero hshrink hds
        exact (ha x hx).resolve_right hnone
      · exact codes.toggled.1 x hds
    · have hstate : u = s.withEmbedding u := hframe
      have hrt : State.permReady (retire { u with result := embedResult .embedded }) = true := by
        show (u.valid.perm && decide (u.f5.permN.toNat = u.geo.ncoef.toNat)) = true
        rw [hstate]
        exact hr
      have hN : u.f5.permN = s.f5.permN := codes.permN
      obtain ⟨-, hcurset⟩ := permrdAndCurset s.f5.pos.toNat _ hrt
      obtain ⟨v, hv, hvstate, hpos⟩ := hcurset (hN ▸ hs.cursor)
      have hvpos : v.f5.pos = s.f5.pos := BitVec.eq_of_toNat_eq hpos
      rw [hvpos] at hvstate
      have hleft : v.usableLeft = u.alive ds ++ u.usableLeft := by
        rw [hvstate]
        exact codes.usableLeft_rewind
      have hkv : v.f5.k = s.f5.k := by
        rw [hvstate]
        show u.f5.k = _
        rw [hstate]
        rfl
      have hlen : (u.alive ds).length = 2 ^ v.f5.k.toNat - 1 := by rw [← codes.word, codeWord_length, full, hkv]
      have htake : v.usableLeft.take (2 ^ v.f5.k.toNat - 1) = u.codeWord := by rw [hleft, ← hlen, List.take_left, codes.word]
      have hrv : v.permReady = true := by
        rw [hvstate]
        exact hrt
      have hcursor : v.f5.pos.toNat ≤ v.f5.permN.toNat := by
        have hvN : v.f5.permN = s.f5.permN := by
          rw [hvstate]
          exact hN
        rw [hvpos, hvN]
        exact hs.cursor
      obtain ⟨hread, -⟩ := mxtrReadsTheSyndrome v hrv hcursor (hkv ▸ h1)
      obtain ⟨w, hw, hwstate, -⟩ := hread (by rw [hleft, List.length_append, hlen]; omega)
      have hcarried : v.carried u.codeWord = u.carried u.codeWord := by
        rw [hvstate]
        rfl
      rw [htake, hcarried, value] at hwstate
      exact ⟨v, w, hv, hw, congrArg State.result hwstate, congrArg State.agent hwstate⟩

end Sys2Proof

/-! SUPPORT. Extraction of the payload (46_f5_matrix.md R416): the bits that groups of carried bits hold, and EXTPAY's run over them, with its
generator bytes and room at hand. -/

namespace Sys2Proof.Machine

/-! ### Numbers of several bits -/

theorem valueOf_append (xs ys : List Nat) : valueOf (xs ++ ys) = valueOf xs + 2 ^ xs.length * valueOf ys := by
  induction xs with
  | nil => simp [valueOf]
  | cons x xs ih =>
    rw [List.cons_append, valueOf, valueOf, ih, List.length_cons, pow_succ]
    ring

theorem valueOf_lt {xs : List Nat} (h : ∀ x ∈ xs, x < 2) : valueOf xs < 2 ^ xs.length := by
  induction xs with
  | nil => exact Nat.one_pos
  | cons x xs ih =>
    obtain ⟨hx, hxs⟩ := List.forall_mem_cons.1 h
    have := ih hxs
    rw [valueOf, List.length_cons, pow_succ]
    omega

/-! ### Groups (R404, R416) -/

/-- The coefficients of a group, for a code parameter or 0 in plain mode. -/
def groupCoefs (k : Nat) : Nat := if k = 0 then 1 else 2 ^ k - 1

/-- The bits of a group. -/
def groupWidth (k : Nat) : Nat := if k = 0 then 1 else k

/-- The `k` low bits of a number, lowest first. -/
def lowestBits (k h : Nat) : List Nat := (List.range k).map (fun i => h / 2 ^ i % 2)

theorem groupCoefs_pos (k : Nat) : 0 < groupCoefs k := by
  unfold groupCoefs
  split
  · exact Nat.one_pos
  · have : 2 ^ 1 ≤ 2 ^ k := Nat.pow_le_pow_right (by decide) (by omega)
    omega

theorem groupWidth_pos (k : Nat) : 0 < groupWidth k := by
  unfold groupWidth
  split <;> omega

theorem lowestBits_succ (k h : Nat) : lowestBits (k + 1) h = h % 2 :: lowestBits k (h / 2) := by
  rw [lowestBits, List.range_succ_eq_map, List.map_cons, List.map_map, Nat.pow_zero, Nat.div_one]
  refine congrArg (_ :: ·) (List.map_congr_left fun i _ => ?_)
  rw [Function.comp, Nat.succ_eq_add_one, pow_succ', Nat.div_div_eq_div_mul]

theorem lowestBits_lt {k h x : Nat} (hx : x ∈ lowestBits k h) : x < 2 := by
  obtain ⟨i, -, rfl⟩ := List.mem_map.1 hx
  exact Nat.mod_lt _ (by decide)

theorem lowestBits_single {b : Nat} (hb : b < 2) : lowestBits 1 (syndromeOf [b]) = [b] := by
  obtain rfl | rfl : b = 0 ∨ b = 1 := by omega
  · decide
  · decide

theorem lowestBits_length (k h : Nat) : (lowestBits k h).length = k := by simp [lowestBits]

theorem carried_lt {s : State} {ps : List Nat} {x : Nat} (hx : x ∈ s.carried ps) : x < 2 := by
  obtain ⟨p, -, rfl⟩ := List.mem_map.1 hx
  split <;> decide

theorem groupBits_fuel {k n m : Nat} (hk : k ≠ 0) {bits : List Nat} (hn : bits.length ≤ n) (hm : bits.length ≤ m) :
    groupBits k n bits = groupBits k m bits := by
  have hpos : 0 < 2 ^ k - 1 := by
    have h := groupCoefs_pos k
    rwa [groupCoefs, if_neg hk] at h
  induction n generalizing m bits with
  | zero =>
    have hnil : bits.length = 0 := by omega
    cases m with
    | zero => rfl
    | succ m => rw [groupBits, groupBits, if_pos (by omega)]
  | succ n ih =>
    cases m with
    | zero =>
      have hnil : bits.length = 0 := by omega
      rw [groupBits, groupBits, if_pos (by omega)]
    | succ m =>
      rw [groupBits, groupBits]
      split
      · rfl
      · rw [ih (m := m) (by rw [List.length_drop]; omega) (by rw [List.length_drop]; omega)]

/-- Fewer carried bits than a group's hold none. -/
theorem payloadBits_short {k : Nat} {bits : List Nat} (h : bits.length < groupCoefs k) : payloadBits k bits = [] := by
  unfold groupCoefs at h
  unfold payloadBits
  split at h
  · rename_i hk
    rw [if_pos hk]
    exact List.length_eq_zero_iff.1 (by omega)
  · rename_i hk
    rw [if_neg hk]
    cases hl : bits.length with
    | zero => rfl
    | succ n => rw [groupBits, if_pos h]

/-- The first group's bits come first. -/
theorem payloadBits_group {k : Nat} {bits : List Nat} (hbits : ∀ x ∈ bits, x < 2) (h : groupCoefs k ≤ bits.length) :
    payloadBits k bits =
      lowestBits (groupWidth k) (syndromeOf (bits.take (groupCoefs k))) ++ payloadBits k (bits.drop (groupCoefs k)) := by
  unfold groupCoefs groupWidth payloadBits at *
  by_cases hk : k = 0
  · rw [if_pos hk] at h
    simp only [if_pos hk]
    obtain ⟨b, bs, rfl⟩ := List.exists_cons_of_length_pos h
    have hb := hbits b List.mem_cons_self
    rw [List.take_succ_cons, List.take_zero, lowestBits_single hb]
    rfl
  · rw [if_neg hk] at h
    simp only [if_neg hk]
    have hcoefs := groupCoefs_pos k
    rw [groupCoefs, if_neg hk] at hcoefs
    have hpos : 0 < bits.length := lt_of_lt_of_le hcoefs h
    obtain ⟨n, hn⟩ := Nat.exists_eq_succ_of_ne_zero hpos.ne'
    have hrest : (bits.drop (2 ^ k - 1)).length ≤ n := by
      rw [List.length_drop]
      omega
    rw [hn, groupBits, if_neg (by omega), groupBits_fuel hk hrest (Nat.le_refl _)]
    rfl

theorem payloadBits_lt {k : Nat} {bits : List Nat} (hbits : ∀ x ∈ bits, x < 2) {x : Nat} (hx : x ∈ payloadBits k bits) : x < 2 := by
  induction hn : bits.length using Nat.strong_induction_on generalizing bits with
  | _ n ih =>
    by_cases h : groupCoefs k ≤ bits.length
    · rw [payloadBits_group hbits h] at hx
      have hpos := groupCoefs_pos k
      rcases List.mem_append.1 hx with hx | hx
      · exact lowestBits_lt hx
      · exact ih _ (by rw [List.length_drop]; omega) (fun y hy => hbits y (List.mem_of_mem_drop hy)) hx rfl
    · rw [payloadBits_short (Nat.not_le.1 h)] at hx
      cases hx

/-! ### Runs that keep an invariant -/

/-- A move goes on with `G` or completes the body with `D`. -/
def BodyStep.Meets {π : Type} (G : π → State → Prop) (D : State → Prop) : BodyStep π → Prop
  | .go p s => G p s
  | .wait _ _ _ => False
  | .done s => D s
  | .raise _ _ => False

/-- A body whose moves keep `G` until they complete it with `D` retires with `D`. -/
theorem Body.Resumes.run_meets {π : Type} {B : Body π} (hB : B.Resumes) {G : π → State → Prop} {D : State → Prop}
    (hl : ∀ p s, G p s → B.legal p s) (h : ∀ p s, G p s → (B.move p s).Meets G D) {p : π} {s : State} (hg : G p s) :
    ∃ b, D b ∧ B.run p s = retire b := by
  have hend := drive_ends B.place B.move G D (fun _ _ => False) (fun _ _ _ => False) B.left
    (fun p s q t hg hm => ⟨by have := h p s hg; rwa [hm] at this, (hB.nearer (hl p s hg) hm).2⟩)
    (fun p s src q t hg hm => by have := h p s hg; rwa [hm] at this)
    (fun p s t hg hm => by have := h p s hg; rwa [hm] at this)
    (fun p s c t hg hm => by have := h p s hg; rwa [hm] at this)
    (B.bound p s) p s hg (hB.bounded (hl p s hg))
  rcases hend with ⟨b, hb, hrun⟩ | ⟨_, _, hf, _⟩ | ⟨_, _, _, hf, _⟩
  · exact ⟨b, hb, hrun⟩
  · exact hf.elim
  · exact hf.elim

/-! ### EXTPAY -/

/-- The payload bits that the coefficients left to `s` hold. -/
def State.heldBits (s : State) : List Nat := payloadBits s.f5.extK.toNat (s.carried s.usableLeft)

/-- After `n` payload bytes and `popped` generator bytes, with the cursor at `pos`. -/
def State.extracted (s : State) (n popped : Nat) (pos : BitVec 25) : State :=
  { s with
    fifo.rng := s.fifo.rng.drop popped
    fifo.payout := s.fifo.payout ++ (List.range n).map (fun j => byteOfBits s.heldBits j ^^^ s.fifo.rng.getD j 0)
    f5.pos := pos
    f5.extBytes := BitVec.ofNat 32 n }

/-- EXTPAY on its way from `s`: `n` bytes are pushed, `q` groups drawn, and the cursor is at `pos`. -/
structure Extracting (s : State) (n q : Nat) (pos : BitVec 25) (c : ExtCtx) : Prop where
  draws : Draws (s.usableLeft.take (q * groupCoefs s.f5.extK.toNat)) s { s with f5.pos := pos }
  count : q * groupWidth s.f5.extK.toNat = 8 * n + c.na + c.left
  group : c.left ≤ groupWidth s.f5.extK.toNat
  fresh : c.left = groupWidth s.f5.extK.toNat → c.out = none ∧ c.na < 8
  byte : c.na ≤ 8
  fits : 8 * n + c.na ≤ s.heldBits.length
  more : n < s.f5.extLen.toNat
  rest : s.heldBits.drop (8 * n + c.na) = lowestBits c.left c.h ++ State.heldBits { s with f5.pos := pos }
  acc : c.out = none → c.acc = BitVec.ofNat 8 (valueOf ((s.heldBits.drop (8 * n)).take c.na))
  out : ∀ b, c.out = some b → c.na = 8 ∧ b = byteOfBits s.heldBits n ^^^ s.fifo.rng.getD n 0

/-- The state of EXTPAY on its way: a finished byte has taken its generator byte. -/
def ExtractingAt (s : State) (c : ExtCtx) (t : State) : Prop :=
  ∃ n q pos, t = s.extracted n (if c.out = none then n else n + 1) pos ∧ Extracting s n q pos c

/-- EXTPAY's end (R416): with the whole payload, or short of it with the cursor exhausted. -/
inductive Extracted (s : State) : State → Prop
  | whole {pos : BitVec 25} (enough : s.f5.extLen.toNat ≤ s.heldBits.length / 8)
      (draws : Draws (s.usableLeft.take ((8 * s.f5.extLen.toNat + groupWidth s.f5.extK.toNat - 1) / groupWidth s.f5.extK.toNat
        * groupCoefs s.f5.extK.toNat)) s { s with f5.pos := pos }) :
      Extracted s (s.extracted s.f5.extLen.toNat s.f5.extLen.toNat pos)
  | short {n : Nat} (held : s.heldBits.length / 8 = n) (few : n < s.f5.extLen.toNat) :
      Extracted s ((s.extracted n n s.f5.permN).warns .incomplete)

/-- EXTPAY finds its generator bytes and room for the payload. -/
structure State.ExtractReady (s : State) : Prop where
  cursor : s.f5.pos.toNat ≤ s.f5.permN.toNat
  bytes : s.f5.extLen.toNat ≤ s.fifo.rng.length
  room : s.fifo.payout.length + s.f5.extLen.toNat ≤ s.cfg.payoutqDepth

theorem heldBits_lt {s : State} {x : Nat} (hx : x ∈ s.heldBits) : x < 2 := payloadBits_lt (fun _ hy => carried_lt hy) hx

section
variable {s : State} {n q : Nat} {pos : BitVec 25} {c : ExtCtx}

theorem popRng_extracted (hn : n < s.fifo.rng.length) :
    popRng (s.extracted n n pos) = some (s.fifo.rng.getD n 0, s.extracted n (n + 1) pos) := by
  have hdrop : (s.extracted n n pos).fifo.rng = s.fifo.rng[n] :: s.fifo.rng.drop (n + 1) := List.drop_eq_getElem_cons hn
  rw [popRng, hdrop, List.getD_eq_getElem _ _ hn]
  rfl

/-- The byte at hand, pushed and counted. -/
theorem pushPayout_extracted (hn : s.fifo.payout.length + n < s.cfg.payoutqDepth) :
    ∃ t, pushPayout (byteOfBits s.heldBits n ^^^ s.fifo.rng.getD n 0) (s.extracted n (n + 1) pos) = some t ∧
      { t with f5.extBytes := t.f5.extBytes + 1 } = s.extracted (n + 1) (n + 1) pos := by
  refine ⟨_, if_pos ?_, ?_⟩
  · simpa [State.extracted] using hn
  · rw [State.extracted, State.extracted, List.range_succ, List.map_append, ← List.append_assoc, BitVec.ofNat_add]
    rfl

/-- Bits above those of a number. -/
theorem ofNat_or_shifted {v m : Nat} (b : Nat) (hv : v < 2 ^ m) :
    BitVec.ofNat 8 v ||| BitVec.ofNat 8 (b * 2 ^ m) = BitVec.ofNat 8 (v + 2 ^ m * b) := by
  rw [← BitVec.ofNat_or, Nat.mul_comm b, Nat.or_comm, ← Nat.two_pow_add_eq_or_of_lt hv, Nat.add_comm]

/-- A finished byte is pushed. -/
theorem Extracting.push (hs : s.ExtractReady) (h : Extracting s n q pos c) {b : Byte} (hb : c.out = some b) :
    (extpayStep c (s.extracted n (n + 1) pos)).Meets (ExtractingAt s) (Extracted s) := by
  obtain ⟨hna, hbyte⟩ := h.out b hb
  have hmore := h.more
  have hroom := hs.room
  have hlen := s.f5.extLen.isLt
  have hfits := h.fits
  have hgroup := h.group
  obtain ⟨t, hpush, ht⟩ := pushPayout_extracted (s := s) (n := n) (pos := pos) (by omega)
  have hcount : (t.f5.extBytes + 1).toNat = n + 1 := by
    have hext : t.f5.extBytes + 1 = BitVec.ofNat 32 (n + 1) := congrArg (·.f5.extBytes) ht
    rw [hext, BitVec.toNat_ofNat, Nat.mod_eq_of_lt (by omega)]
  have hlast : t.f5.extLen = s.f5.extLen := congrArg (·.f5.extLen) ht
  have hleft : c.left < groupWidth s.f5.extK.toNat := lt_of_le_of_ne hgroup fun heq => by
    obtain ⟨hout, -⟩ := h.fresh heq
    rw [hb] at hout
    cases hout
  simp only [extpayStep, hb, hbyte, hpush]
  rw [ht]
  split
  · rename_i hfinal
    have hn : n + 1 = s.f5.extLen.toNat := (hcount.symm.trans hfinal).trans (congrArg BitVec.toNat hlast)
    have hqcount := h.count
    rw [hna] at hqcount
    have hq : (8 * s.f5.extLen.toNat + groupWidth s.f5.extK.toNat - 1) / groupWidth s.f5.extK.toNat = q := by
      refine Nat.div_eq_of_lt_le (by omega) ?_
      rw [Nat.succ_mul q]
      omega
    rw [hn]
    exact .whole (by omega) (hq ▸ h.draws)
  · rename_i hfinal
    have hnot : n + 1 ≠ s.f5.extLen.toNat := fun heq => hfinal (hcount.trans (heq.trans (congrArg BitVec.toNat hlast).symm))
    have hqcount := h.count
    exact ⟨n + 1, q, pos, rfl, {
      draws := h.draws
      count := show _ = 8 * (n + 1) + 0 + c.left by omega
      group := hgroup
      fresh := fun _ => ⟨rfl, show 0 < 8 by decide⟩
      byte := Nat.zero_le 8
      fits := show 8 * (n + 1) + 0 ≤ _ by omega
      more := by omega
      rest := by rw [← h.rest, hna]; rfl
      acc := fun _ => rfl
      out := fun _ hnone => by cases hnone }⟩

/-- A whole byte of bits is whitened. -/
theorem Extracting.whiten (hs : s.ExtractReady) (h : Extracting s n q pos c) (hout : c.out = none) (hna : 8 ≤ c.na) :
    (extpayStep c (s.extracted n n pos)).Meets (ExtractingAt s) (Extracted s) := by
  have hmore := h.more
  have hbytes := hs.bytes
  have hna8 : c.na = 8 := Nat.le_antisymm h.byte hna
  simp only [extpayStep, hout, if_pos hna, popRng_extracted (s := s) (n := n) (pos := pos) (by omega)]
  refine ⟨n, q, pos, rfl, { h with fresh := fun heq => ?_, acc := fun hnone => ?_, out := fun b hb => ⟨hna8, ?_⟩ }⟩
  · exact absurd (h.fresh heq).2 (Nat.not_lt.2 hna)
  · cases hnone
  · cases hb
    rw [h.acc hout, hna8]
    rfl

/-- A bit of the last syndrome is put. -/
theorem Extracting.putBit (h : Extracting s n q pos c) (hout : c.out = none) (hna : ¬ 8 ≤ c.na) (hleft : 0 < c.left) :
    (extpayStep c (s.extracted n n pos)).Meets (ExtractingAt s) (Extracted s) := by
  obtain ⟨left, hl⟩ := Nat.exists_eq_succ_of_ne_zero hleft.ne'
  have hrest := h.rest
  rw [hl, lowestBits_succ, List.cons_append] at hrest
  have hcount := h.count
  have hgroup := h.group
  have hlt : 8 * n + c.na < s.heldBits.length := by
    by_contra hge
    rw [List.drop_of_length_le (Nat.not_lt.1 hge)] at hrest
    cases hrest
  have hbits : (s.heldBits.drop (8 * n)).take (c.na + 1) = (s.heldBits.drop (8 * n)).take c.na ++ [c.h % 2] := by
    rw [List.take_add, List.drop_drop, hrest, List.take_succ_cons, List.take_zero]
  have hvalue : valueOf ((s.heldBits.drop (8 * n)).take c.na) < 2 ^ c.na := by
    have hlen : ((s.heldBits.drop (8 * n)).take c.na).length = c.na := by
      rw [List.length_take, List.length_drop]
      omega
    have := valueOf_lt (xs := (s.heldBits.drop (8 * n)).take c.na) fun x hx => heldBits_lt (List.mem_of_mem_drop (List.mem_of_mem_take hx))
    rwa [hlen] at this
  simp only [extpayStep, hout, if_neg hna, if_pos hleft]
  exact ⟨n, q, pos, rfl, {
    draws := h.draws
    count := show _ = 8 * n + (c.na + 1) + (c.left - 1) by omega
    group := show c.left - 1 ≤ _ by omega
    fresh := fun heq => by
      change c.left - 1 = _ at heq
      omega
    byte := show c.na + 1 ≤ 8 by omega
    fits := show 8 * n + (c.na + 1) ≤ _ by omega
    more := h.more
    rest := by
      have htail := congrArg (List.drop 1) hrest
      rw [List.drop_drop] at htail
      simp only [hl]
      exact htail
    acc := fun _ => by
      simp only [h.acc hout, hbits]
      rw [valueOf_append, ofNat_or_shifted _ hvalue, List.length_take, List.length_drop, Nat.min_eq_left (by omega)]
      rfl
    out := fun _ hnone => by cases hnone }⟩

theorem drawGroup_eq (t : State) : drawGroup t = drawSyndrome (groupCoefs t.f5.extK.toNat) 0 0 t := by
  have hzero : t.f5.extK = 0 ↔ t.f5.extK.toNat = 0 := BitVec.toNat_inj.symm
  simp only [drawGroup, groupCoefs, hzero]

theorem extGroupSize_eq (t : State) : t.extGroupSize = groupWidth t.f5.extK.toNat := by
  have hzero : t.f5.extK = 0 ↔ t.f5.extK.toNat = 0 := BitVec.toNat_inj.symm
  simp only [State.extGroupSize, groupWidth, hzero]

/-- The bits that a draw's coefficients and the ones after them hold. -/
theorem Draws.heldBits_group {t u : State} (h : Draws (t.usableLeft.take (groupCoefs t.f5.extK.toNat)) t u)
    (henough : groupCoefs t.f5.extK.toNat ≤ t.usableLeft.length) :
    t.heldBits = lowestBits (groupWidth t.f5.extK.toNat) (syndromeOf (t.carried (t.usableLeft.take (groupCoefs t.f5.extK.toNat)))) ++
      u.heldBits := by
  have hk : u.f5.extK = t.f5.extK := by rw [h.state]
  rw [State.heldBits, payloadBits_group (fun x hx => carried_lt hx) (by simpa [State.carried] using henough), State.heldBits, hk, h.carried,
    h.left_drop]
  simp only [State.carried, List.map_take, List.map_drop]

/-- The next group is drawn, or the cursor exhausted. -/
theorem Extracting.draw (h : Extracting s n q pos c) (hout : c.out = none) (hna : ¬ 8 ≤ c.na) (hleft : ¬ 0 < c.left) :
    (extpayStep c (s.extracted n n pos)).Meets (ExtractingAt s) (Extracted s) := by
  have hzero : c.left = 0 := by omega
  have hcursor : (s.extracted n n pos).f5.pos.toNat ≤ (s.extracted n n pos).f5.permN.toNat := h.draws.cursor
  have hrest := h.rest
  rw [hzero] at hrest
  simp only [extpayStep, hout, if_neg hna, if_neg hleft, drawGroup_eq]
  by_cases henough : groupCoefs s.f5.extK.toNat ≤ (s.extracted n n pos).usableLeft.length
  · obtain ⟨t, hdraw, hdraws⟩ := drawSyndrome_enough 0 0 hcursor henough
    have ht : t = s.extracted n n t.f5.pos := hdraws.state
    have hstep : Draws ((State.usableLeft { s with f5.pos := pos }).take (groupCoefs s.f5.extK.toNat)) { s with f5.pos := pos }
        { s with f5.pos := t.f5.pos } := by
      refine ⟨rfl, ?_, hdraws.last, ?_⟩
      · have hl := hdraws.left
        rw [ht] at hl
        exact hl
      · have hc := hdraws.cursor
        rw [ht] at hc
        exact hc
    have hall := h.draws.trans hstep
    rw [h.draws.left_drop, ← List.take_add] at hall
    have hheld := Draws.heldBits_group (t := { s with f5.pos := pos }) hstep henough
    rw [show drawSyndrome (groupCoefs (s.extracted n n pos).f5.extK.toNat) 0 0 (s.extracted n n pos) = _ from hdraw]
    have hsize : t.extGroupSize = groupWidth s.f5.extK.toNat := by rw [extGroupSize_eq, ht]; rfl
    have hqcount := h.count
    refine ⟨n, q + 1, t.f5.pos, ht, { h with
      draws := by rwa [Nat.succ_mul]
      count := ?_
      group := hsize.le
      fresh := fun _ => ⟨rfl, Nat.not_le.1 hna⟩
      acc := fun _ => h.acc hout
      out := nofun
      rest := ?_ }⟩
    · rw [Nat.succ_mul, hqcount, hzero, hsize]
      rfl
    · rw [hrest, hsize]
      exact hheld
  · have hnone : State.heldBits { s with f5.pos := pos } = [] :=
      payloadBits_short ((List.length_map _).trans_lt (Nat.not_le.1 henough))
    rw [hnone] at hrest
    have hlen := congrArg List.length hrest
    rw [List.length_drop] at hlen
    have hfits := h.fits
    have hheld : s.heldBits.length = 8 * n + c.na := by
      simp [lowestBits] at hlen
      omega
    rw [show drawSyndrome (groupCoefs (s.extracted n n pos).f5.extK.toNat) 0 0 (s.extracted n n pos) = _ from
      drawSyndrome_short 0 0 hcursor (Nat.not_le.1 henough)]
    exact .short (by omega) h.more

theorem extpay_meets (hs : s.ExtractReady) (c : ExtCtx) (t : State) (h : ExtractingAt s c t) :
    (extpayStep c t).Meets (ExtractingAt s) (Extracted s) := by
  obtain ⟨n, q, pos, rfl, h⟩ := h
  cases hout : c.out with
  | some b => exact h.push hs hout
  | none =>
    rw [if_pos rfl]
    by_cases hna : 8 ≤ c.na
    · exact h.whiten hs hout hna
    by_cases hleft : 0 < c.left
    · exact h.putBit hout hna hleft
    · exact h.draw hout hna hleft

end

/-- Before the first move. -/
theorem extracted_zero (s : State) : s.extracted 0 0 s.f5.pos = { s with f5.extBytes := 0 } := by
  rw [State.extracted, List.range_zero, List.map_nil, List.append_nil]
  rfl

theorem extpay_ends {s : State} (hs : s.ExtractReady) (hr : s.permReady = true) :
    ∃ b, Extracted s b ∧ exec .extpay s = .next (retire b) := by
  by_cases hlen : s.f5.extLen = 0
  · refine ⟨_, ?_, congrArg Host.Outcome.next ((if_neg (not_noperm hr)).trans (if_pos hlen))⟩
    have hzero : s.f5.extLen.toNat = 0 := congrArg BitVec.toNat hlen
    have hwidth : (groupWidth s.f5.extK.toNat - 1) / groupWidth s.f5.extK.toNat = 0 :=
      Nat.div_eq_of_lt (Nat.sub_lt (groupWidth_pos _) Nat.one_pos)
    rw [← extracted_zero]
    have hwhole := Extracted.whole (s := s) (pos := s.f5.pos) (by rw [hzero]; exact Nat.zero_le _)
      (by rw [hzero, Nat.mul_zero, Nat.zero_add, hwidth, Nat.zero_mul]; exact .nil hs.cursor)
    rwa [hzero] at hwhole
  · have hpos : 0 < s.f5.extLen.toNat := Nat.pos_of_ne_zero fun h => hlen (BitVec.eq_of_toNat_eq h)
    obtain ⟨b, hb, hrun⟩ := extpayBody_resumes.run_meets (G := ExtractingAt s) (fun _ _ _ => trivial) (extpay_meets hs)
      (p := { acc := 0, na := 0, h := 0, left := 0, out := none }) ⟨0, 0, s.f5.pos, (extracted_zero s).symm, {
        draws := by rw [Nat.zero_mul]; exact .nil hs.cursor
        count := Nat.zero_mul _
        group := Nat.zero_le _
        fresh := fun _ => ⟨rfl, Nat.succ_pos 7⟩
        byte := Nat.zero_le 8
        fits := Nat.zero_le _
        more := hpos
        rest := rfl
        acc := fun _ => rfl
        out := nofun }⟩
    exact ⟨b, hb, congrArg Host.Outcome.next ((if_neg (not_noperm hr)).trans ((if_neg hlen).trans hrun))⟩

/-- The coefficients of the groups that `n` bytes need. -/
theorem groups_needed (k n : Nat) :
    (8 * n + groupWidth k - 1) / groupWidth k * groupCoefs k = if k = 0 then 8 * n else (8 * n + k - 1) / k * (2 ^ k - 1) := by
  unfold groupWidth groupCoefs
  split
  · rw [Nat.add_sub_cancel, Nat.div_one, Nat.mul_one]
  · rfl

end Sys2Proof.Machine

namespace Sys2Proof

open Machine

/-- Settles O59: every move of EXTPAY keeps `Extracting`, in which the bits it has taken and the ones it still can are those the remaining
coefficients hold. -/
theorem extpayPushesThePayload : Obligations.ExtpayPushesThePayload := by
  unfold Obligations.ExtpayPushesThePayload
  intro s hr hp hbytes hroom bits n k draws
  obtain ⟨b, hend, hexec⟩ := extpay_ends ⟨hp, hbytes, hroom⟩ hr
  refine ⟨retire b, hexec, ?_⟩
  cases hend with
  | @whole pos henough hdraws =>
    have hn : n = s.f5.extLen.toNat := Nat.min_eq_left henough
    rw [groups_needed, ← hn] at hdraws
    refine ⟨?_, fun _ => ⟨rfl, hdraws.last, hdraws.left_drop⟩, fun h => absurd hn h.ne⟩
    rw [hn]
    rfl
  | short hheld hfew =>
    have hn : n = bits.length / 8 := Nat.min_eq_right (hheld ▸ hfew.le)
    rw [← show n = _ from hn.trans hheld] at hfew ⊢
    exact ⟨rfl, fun h => absurd h hfew.ne, fun _ => ⟨rfl, rfl⟩⟩

end Sys2Proof

/-! SUPPORT. Embedding of the payload (46_f5_matrix.md R408): EMBPAY's run with its payload and its generator bytes at hand, against the stream of
whitened bits. -/

namespace Sys2Proof.Machine

/-! ### Bits of numbers and of bytes -/

theorem valueOf_lowestBits (k h : Nat) : valueOf (lowestBits k h) = h % 2 ^ k := by
  simpa [lowestBits] using valueOf_bits h 0 k

/-- Bits are the lowest of their value. -/
theorem prefix_lowestBits {xs : List Nat} {k : Nat} (h : ∀ x ∈ xs, x < 2) (hk : xs.length ≤ k) : xs <+: lowestBits k (valueOf xs) := by
  induction xs generalizing k with
  | nil => exact List.nil_prefix
  | cons x xs ih =>
    obtain ⟨hx, hxs⟩ := List.forall_mem_cons.1 h
    obtain ⟨k, rfl⟩ := Nat.exists_eq_succ_of_ne_zero (Nat.ne_zero_of_lt (lt_of_lt_of_le (Nat.succ_pos xs.length) hk))
    rw [lowestBits_succ, valueOf, show (x + 2 * valueOf xs) % 2 = x by omega, show (x + 2 * valueOf xs) / 2 = valueOf xs by omega]
    exact List.cons_prefix_cons.2 ⟨rfl, ih hxs (Nat.le_of_succ_le_succ hk)⟩

theorem flatMap_drop {α : Type} {f : α → List Nat} {w : Nat} (hf : ∀ a, (f a).length = w) (l : List α) (j : Nat) :
    (l.flatMap f).drop (w * j) = (l.drop j).flatMap f := by
  induction j generalizing l with
  | zero => rfl
  | succ j ih =>
    cases l with
    | nil => simp
    | cons a l => rw [List.flatMap_cons, Nat.mul_succ, Nat.add_comm, ← List.drop_drop, ← hf a, List.drop_left, hf a, ih, List.drop_succ_cons]

/-- Payload byte `j`, whitened. -/
def State.whiteByte (s : State) (j : Nat) : Byte := s.fifo.payin.getD j 0 ^^^ s.fifo.rng.getD j 0

/-- The bits of the whitened payload, in the order they are embedded. -/
def State.whiteBits (s : State) : List Nat := ((List.range s.payLength).map s.whiteByte).flatMap (fun b => lowestBits 8 b.toNat)

section
variable {s : State}

theorem whiteBits_drop {j : Nat} (h : j < s.payLength) :
    s.whiteBits.drop (8 * j) = lowestBits 8 (s.whiteByte j).toNat ++ s.whiteBits.drop (8 * (j + 1)) := by
  have hlen (b : Byte) : (lowestBits 8 b.toNat).length = 8 := lowestBits_length 8 _
  rw [State.whiteBits, flatMap_drop hlen, flatMap_drop hlen, List.drop_eq_getElem_cons (by simpa using h), List.flatMap_cons]
  simp

theorem whiteBits_length (s : State) : s.whiteBits.length = 8 * s.payLength := by
  simp [State.whiteBits, List.length_flatMap, lowestBits_length, Nat.mul_comm, Function.comp_def]

theorem whiteBits_lt {x : Nat} (hx : x ∈ s.whiteBits) : x < 2 := by
  obtain ⟨_, -, hx⟩ := List.mem_flatMap.1 hx
  exact lowestBits_lt hx

/-- A byte whose bits stand in the embedded ones is read back. -/
theorem byteOfBits_of_prefix {bits : List Nat} {done j : Nat} (h : s.whiteBits.take done <+: bits) (hdone : done ≤ 8 * s.payLength)
    (hj : 8 * (j + 1) ≤ done) : byteOfBits bits j = s.whiteByte j := by
  obtain ⟨rest, rfl⟩ := h
  have hlen : (s.whiteBits.take done).length = done := by
    rw [List.length_take, whiteBits_length, Nat.min_eq_left hdone]
  have hbyte : ((s.whiteBits.take done ++ rest).drop (8 * j)).take 8 = lowestBits 8 (s.whiteByte j).toNat := by
    rw [List.drop_append_of_le_length (by omega), List.take_append_of_le_length (by rw [List.length_drop]; omega), List.drop_take,
      List.take_take, Nat.min_eq_left (by omega), whiteBits_drop (by omega), List.take_left' (lowestBits_length 8 _)]
  rw [byteOfBits, hbyte, valueOf_lowestBits]
  rw [Nat.mod_eq_of_lt (BitVec.isLt _), BitVec.ofNat_toNat, BitVec.setWidth_eq]

end

/-! ### Whole groups -/

/-- Whole groups hold their bits whatever follows them. -/
theorem payloadBits_groups {k g : Nat} {bits : List Nat} (hbits : ∀ x ∈ bits, x < 2) (hlen : bits.length = g * groupCoefs k) {more : List Nat}
    (hmore : ∀ x ∈ more, x < 2) :
    payloadBits k (bits ++ more) = payloadBits k bits ++ payloadBits k more ∧ (payloadBits k bits).length = g * groupWidth k := by
  induction g generalizing bits with
  | zero =>
    obtain rfl : bits = [] := List.length_eq_zero_iff.1 (by rw [hlen, Nat.zero_mul])
    rw [payloadBits_short (bits := []) (groupCoefs_pos k)]
    exact ⟨rfl, (Nat.zero_mul _).symm⟩
  | succ g ih =>
    rw [Nat.succ_mul] at hlen
    have hle : groupCoefs k ≤ bits.length := by omega
    obtain ⟨happ, hwidth⟩ := ih (bits := bits.drop (groupCoefs k)) (fun x hx => hbits x (List.mem_of_mem_drop hx))
      (by rw [List.length_drop]; omega)
    have hall : ∀ x ∈ bits ++ more, x < 2 := fun x hx => (List.mem_append.1 hx).elim (hbits x) (hmore x)
    rw [payloadBits_group hall (by rw [List.length_append]; omega), payloadBits_group hbits hle, List.take_append_of_le_length hle,
      List.drop_append_of_le_length hle, happ, List.append_assoc]
    refine ⟨rfl, ?_⟩
    rw [List.length_append, lowestBits_length, hwidth, Nat.succ_mul, Nat.add_comm]

/-- How embedding the bits of a group ends. -/
inductive GroupEnds (bits : List Nat) (s : State) : EmbedEnd × State → Prop
  | embedded {ds : List Nat} {t : State} (draws : Embeds ds s t) (last : s.drewLast t ds)
      (size : (t.carried (t.alive ds)).length = groupCoefs s.f5.k.toNat)
      (carries : bits <+: lowestBits (groupWidth s.f5.k.toNat) (syndromeOf (t.carried (t.alive ds))))
      (beyond : ∀ i, 2 ^ s.f5.k.toNat - 1 ≤ i → t.cwAt i = s.cwAt i) : GroupEnds bits s (.embedded, t)
  | exhausted {t : State} (draws : Embeds s.usableLeft s t) (pos : t.f5.pos = s.f5.permN)
      (beyond : ∀ i, 2 ^ s.f5.k.toNat - 1 ≤ i → t.cwAt i = s.cwAt i) : GroupEnds bits s (.exhausted, t)

theorem cwAt_congr {s t : State} (cycles : t.powerCycles = s.powerCycles) (cw : t.ram.cw = s.ram.cw) (i : Nat) : t.cwAt i = s.cwAt i :=
  readRam_congr .cw cycles (by rw [cw]) rfl

section
variable {s : State}

theorem groupSize_eq (s : State) : s.groupSize = groupWidth s.f5.k.toNat := by
  unfold State.groupSize groupWidth
  split <;> split <;> omega

theorem embedGroup_ends (hs : s.Drawable) (hk : s.f5.k.toNat ≤ 8) {bits : List Nat} (hbits : ∀ x ∈ bits, x < 2) (hne : bits ≠ [])
    (hlen : bits.length ≤ groupWidth s.f5.k.toNat) : GroupEnds bits s (embedGroup (valueOf bits) s) := by
  have hprefix := prefix_lowestBits hbits hlen
  rw [embedGroup]
  split
  · rename_i hplain
    have hcoefs : groupCoefs s.f5.k.toNat = 1 := by
      obtain h | h : s.f5.k.toNat = 0 ∨ s.f5.k.toNat = 1 := by omega
      · rw [h]; rfl
      · rw [h]; rfl
    have hwidth : groupWidth s.f5.k.toNat = 1 := by
      rw [← groupSize_eq, State.groupSize, if_pos hplain]
    have hends := lsbEmbed_ends (b := decide (valueOf bits % 2 = 1)) (retry := true) hs
    obtain ⟨hcw, -⟩ := lsbEmbed_codeWord (decide (valueOf bits % 2 = 1)) true s
    generalize lsbEmbed (decide (valueOf bits % 2 = 1)) true s = r at hends hcw
    cases hends with
    | embedded draws last carries _ _ =>
      obtain ⟨b, rfl⟩ := List.length_eq_one_iff.1 (Nat.le_antisymm (hwidth ▸ hlen) (List.length_pos_iff.2 hne))
      have hb := hbits b List.mem_cons_self
      have hbit : bitOf (decide (valueOf [b] % 2 = 1)) = b := by
        rw [bitOf_decide, valueOf, valueOf]
        split <;> omega
      rw [hbit] at carries
      exact .embedded draws.toEmbeds draws.last (by rw [carries, hcoefs]; rfl) (by rw [carries, hwidth, lowestBits_single hb])
        fun i _ => cwAt_congr draws.cycles hcw i
    | lost _ noRetry => cases noRetry
    | exhausted draws pos _ => exact .exhausted draws pos fun i _ => cwAt_congr draws.cycles hcw i
  · rename_i hmatrix
    have hcoefs : groupCoefs s.f5.k.toNat = 2 ^ s.f5.k.toNat - 1 := if_neg (by omega)
    have hwidth : groupWidth s.f5.k.toNat = s.f5.k.toNat := if_neg (by omega)
    have hval : valueOf bits < 2 ^ s.f5.k.toNat :=
      (valueOf_lt hbits).trans_le (Nat.pow_le_pow_right (by decide) (hwidth ▸ hlen))
    have hends := matrixEmbed_ends hs hk hval
    generalize matrixEmbed (valueOf bits) s.f5.k.toNat s = r at hends
    cases hends with
    | embedded codes full value last _ =>
      rw [codes.word] at value
      refine .embedded codes.toEmbeds last ?_ (value ▸ hprefix) codes.beyond
      rw [State.carried, List.length_map, ← codes.word, codeWord_length, full, hcoefs]
    | exhausted codes _ pos => exact .exhausted codes.toEmbeds pos codes.beyond

theorem embedGroup_unembedded (val : Nat) (s : State) : (embedGroup val s).2.unembedded = s.unembedded := by
  rw [embedGroup]
  split
  · exact lsbEmbedLoop_unembedded _ _ _ _
  · exact matrixEmbed_unembedded _ _ _

theorem embedGroup_plain (h : s.f5.k.toNat ≤ 1) (val : Nat) :
    (embedGroup val s).2.ram.cw = s.ram.cw ∧ (embedGroup val s).2.f5.cwlen = s.f5.cwlen := by
  rw [embedGroup, if_pos h]
  exact lsbEmbed_codeWord _ _ _

end

/-! ### EMBPAY -/

/-- The state with what EMBPAY writes as `t` has it. -/
def State.withPayment (s t : State) : State :=
  { s.withEmbedding t with
    fifo.rng := t.fifo.rng
    fifo.payin := t.fifo.payin
    f5.embBits := t.f5.embBits
    f5.embBytes := t.f5.embBytes
    warn := t.warn }

theorem withPayment_trans {s t u : State} (h : t = s.withPayment t) (k : u = t.withPayment u) : u = s.withPayment u :=
  k.trans (by rw [h]; rfl)

theorem withPayment_of_unembedded {s t : State} (h : t.unembedded = s.unembedded) : t = s.withPayment t := by
  have k := eq_withEmbedding h
  rw [k]
  rfl

/-- EMBPAY has taken `w` generator bytes and `popped` payload bytes, and embedded `done` bits in the coefficients `ds`. -/
structure Paid (s : State) (w popped done : Nat) (ds : List Nat) (t : State) : Prop where
  frame : t = s.withPayment t
  draws : Embeds ds s t
  bytes : t.fifo.rng = s.fifo.rng.drop w
  payload : t.fifo.payin = s.fifo.payin.drop popped
  bits : t.f5.embBits = s.f5.embBits + BitVec.ofNat 32 done
  count : t.f5.embBytes = t.f5.embBits >>> 3 ∨ (t.f5.embBits = s.f5.embBits ∧ t.f5.embBytes = s.f5.embBytes)
  beyond : ∀ i, 2 ^ s.f5.k.toNat - 1 ≤ i → t.cwAt i = s.cwAt i
  plain : s.f5.k.toNat ≤ 1 → t.ram.cw = s.ram.cw ∧ t.f5.cwlen = s.f5.cwlen

/-- The bits in hand of EMBPAY under way, and those that stand in whole groups of carried bits. -/
structure Embedding (s : State) (w done : Nat) (ds : List Nat) (c : EmbCtx) (t : State) : Prop where
  popped : c.popped = w + (if c.hold = none then 0 else 1)
  held : ∀ p, c.hold = some p → p = s.fifo.payin.getD w 0
  within : c.popped ≤ s.payLength
  avail : c.avail ≤ 8
  size : c.m ≤ groupWidth s.f5.k.toNat
  count : done + c.m + c.avail = 8 * w
  next : s.whiteBits.drop (done + c.m) = lowestBits c.avail c.cur.toNat ++ s.whiteBits.drop (8 * w)
  value : c.val = valueOf ((s.whiteBits.drop done).take c.m)
  groups : ∃ g, (t.carried (t.alive ds)).length = g * groupCoefs s.f5.k.toNat ∧
    (done = g * groupWidth s.f5.k.toNat ∨ (c.m = 0 ∧ c.avail = 0 ∧ c.hold = none ∧ c.popped = s.payLength))
  stands : s.whiteBits.take done <+: payloadBits s.f5.k.toNat (t.carried (t.alive ds))

/-- EMBPAY ran out of coefficients. -/
structure Cut (s : State) (w done : Nat) (t : State) : Prop where
  within : w ≤ s.payLength
  some : 0 < w
  pos : t.f5.pos = s.f5.permN
  warn : t.warn = s.warn ||| 0x0001
  stands : s.whiteBits.take done <+: payloadBits s.f5.k.toNat (t.carried (t.alive s.usableLeft))
  fits : done ≤ 8 * s.payLength

/-- The state of EMBPAY under way. -/
inductive EmbedsAt (s : State) : EmbpayAt → State → Prop
  | embed {c : EmbCtx} {w done : Nat} {ds : List Nat} {t : State} (paid : Paid s w c.popped done ds t) (going : Embedding s w done ds c t)
      (last : s.drewLast t ds) (warn : t.warn = s.warn) : EmbedsAt s (.embed c) t
  | drain {popped w done : Nat} {t : State} (paid : Paid s w popped done s.usableLeft t) (cut : Cut s w done t)
      (within : popped ≤ s.payLength) : EmbedsAt s (.drain popped) t

/-- EMBPAY's ends: everything is embedded, or the cursor exhausted. -/
inductive Embedded (s : State) : State → Prop
  | whole {g : Nat} {ds : List Nat} {t : State} (paid : Paid s s.payLength s.payLength (8 * s.payLength) ds t) (last : s.drewLast t ds)
      (warn : t.warn = s.warn) (groups : (t.carried (t.alive ds)).length = g * groupCoefs s.f5.k.toNat)
      (stands : s.whiteBits <+: payloadBits s.f5.k.toNat (t.carried (t.alive ds))) : Embedded s t
  | short {w done : Nat} {t : State} (paid : Paid s w s.payLength done s.usableLeft t) (cut : Cut s w done t) : Embedded s t

/-- EMBPAY can begin, with its payload and generator bytes at hand. -/
structure State.PayReady (s : State) : Prop extends s.Drawable where
  legal : s.f5.k.toNat ≤ s.cfg.kMaxEmb
  narrow : s.cfg.kMaxEmb ≤ 8
  payload : s.payLength ≤ s.fifo.payin.length
  bytes : s.payLength ≤ s.fifo.rng.length

section
variable {s t u : State} {w popped done : Nat} {ds : List Nat} {c : EmbCtx}

theorem Paid.k (h : Paid s w popped done ds t) : t.f5.k = s.f5.k := by rw [h.frame]; rfl

theorem Paid.payLength (h : Paid s w popped done ds t) : t.payLength = s.payLength := by rw [h.frame]; rfl

theorem Paid.groupSize (h : Paid s w popped done ds t) : t.groupSize = groupWidth s.f5.k.toNat := by rw [groupSize_eq, h.k]

/-- A move that only takes bytes. -/
theorem Paid.takes (h : Paid s w popped done ds t) {w' popped' : Nat}
    (hu : u = { t with fifo.rng := u.fifo.rng, fifo.payin := u.fifo.payin }) (bytes : u.fifo.rng = s.fifo.rng.drop w')
    (payload : u.fifo.payin = s.fifo.payin.drop popped') : Paid s w' popped' done ds u := by
  have hframe : u = t.withPayment u := by rw [hu]; rfl
  have hsame : SameArray t u := by rw [hu]; exact ⟨rfl, rfl, rfl, rfl, rfl, rfl⟩
  have hbits : u.f5 = t.f5 := by rw [hu]
  have hcw : u.ram.cw = t.ram.cw := by rw [hu]
  refine { h with
    frame := withPayment_trans h.frame hframe
    draws := h.draws.thenSame hsame (by rw [hbits])
    bytes, payload
    bits := by rw [hbits, h.bits]
    count := by rw [hbits]; exact h.count
    beyond := fun i hi => (cwAt_congr hsame.cycles hcw i).trans (h.beyond i hi)
    plain := by rw [hbits, hcw]; exact h.plain }

/-- An embedding takes no byte and counts no bit. -/
theorem Paid.embeds (h : Paid s w popped done ds t) (hn : s.usableLeft.Nodup) {es : List Nat} (draws : Embeds es t u)
    (hframe : u.unembedded = t.unembedded) (beyond : ∀ i, 2 ^ s.f5.k.toNat - 1 ≤ i → u.cwAt i = t.cwAt i)
    (plain : s.f5.k.toNat ≤ 1 → u.ram.cw = t.ram.cw ∧ u.f5.cwlen = t.f5.cwlen) : Paid s w popped done (ds ++ es) u := by
  have hbits : u.f5.embBits = t.f5.embBits := congrArg (·.f5.embBits) hframe
  have hbytes : u.f5.embBytes = t.f5.embBytes := congrArg (·.f5.embBytes) hframe
  have hfifo : u.fifo = t.fifo := congrArg (·.fifo) hframe
  refine {
    frame := withPayment_trans h.frame (withPayment_of_unembedded hframe)
    draws := h.draws.trans draws hn
    bytes := by rw [hfifo, h.bytes]
    payload := by rw [hfifo, h.payload]
    bits := hbits.trans h.bits
    count := by rw [hbits, hbytes]; exact h.count
    beyond := fun i hi => (beyond i hi).trans (h.beyond i hi)
    plain := fun hk => ?_ }
  obtain ⟨hcw, hlen⟩ := plain hk
  obtain ⟨hcw', hlen'⟩ := h.plain hk
  exact ⟨hcw.trans hcw', hlen.trans hlen'⟩

theorem Paid.counted (h : Paid s w popped done ds t) (m : Nat) : Paid s w popped (done + m) ds (countEmbedded m t) where
  frame := withPayment_trans h.frame rfl
  draws := h.draws.thenSame ⟨rfl, rfl, rfl, rfl, rfl, rfl⟩
  bytes := h.bytes
  payload := h.payload
  bits := by
    show t.f5.embBits + BitVec.ofNat 32 m = _
    rw [h.bits, BitVec.add_assoc, BitVec.ofNat_add]
  count := .inl rfl
  beyond := h.beyond
  plain := h.plain

theorem Paid.warned (h : Paid s w popped done ds t) (warning : Warning) : Paid s w popped done ds (t.warns warning) where
  frame := withPayment_trans h.frame rfl
  draws := h.draws.thenSame ⟨rfl, rfl, rfl, rfl, rfl, rfl⟩
  bytes := h.bytes
  payload := h.payload
  bits := h.bits
  count := h.count
  beyond := h.beyond
  plain := h.plain

/-- Groups that stand carry their bits behind whatever is drawn next. -/
theorem Embedding.stands_append (h : Embedding s w done ds c t) {more : List Nat} (hmore : ∀ x ∈ more, x < 2) :
    s.whiteBits.take done <+: payloadBits s.f5.k.toNat (t.carried (t.alive ds) ++ more) := by
  obtain ⟨g, hlen, -⟩ := h.groups
  rw [(payloadBits_groups (fun x hx => carried_lt hx) hlen hmore).1]
  exact h.stands.trans (List.prefix_append _ _)

/-- A group more stands. -/
theorem stands_group {k g m : Nat} {white bits group : List Nat} (hbits : ∀ x ∈ bits, x < 2) (hlen : bits.length = g * groupCoefs k)
    (hdone : done = g * groupWidth k) (hwhite : done ≤ white.length) (stands : white.take done <+: payloadBits k bits)
    (hgroup : ∀ x ∈ group, x < 2) (hsize : group.length = groupCoefs k)
    (carries : (white.drop done).take m <+: lowestBits (groupWidth k) (syndromeOf group)) :
    white.take (done + m) <+: payloadBits k (bits ++ group) := by
  obtain ⟨happ, hwidth⟩ := payloadBits_groups hbits hlen hgroup
  have hall : white.take done = payloadBits k bits :=
    stands.eq_of_length (by rw [List.length_take, hwidth, ← hdone, Nat.min_eq_left hwhite])
  rw [happ, payloadBits_group hgroup hsize.ge, List.take_of_length_le hsize.le, ← hall, List.take_add]
  exact (List.prefix_append_right_inj _).2 (carries.trans (List.prefix_append _ _))

/-- The bits in hand are bits of the payload. -/
theorem Embedding.fits (h : Embedding s w done ds c t) : w ≤ s.payLength ∧ done + c.m ≤ s.whiteBits.length := by
  have hpopped := h.popped
  have hwithin := h.within
  have hcount := h.count
  rw [whiteBits_length]
  omega

/-- The group in hand is embedded, or the cursor exhausted. -/
theorem Embedding.group (hs : s.PayReady) (paid : Paid s w c.popped done ds t) (going : Embedding s w done ds c t)
    (last : s.drewLast t ds) (warn : t.warn = s.warn) (hready : groupReady c t = true) :
    (embpayStep (.embed c) t).Meets (EmbedsAt s) (Embedded s) := by
  have hcase : c.m = groupWidth s.f5.k.toNat ∨ (0 < c.m ∧ c.avail = 0 ∧ c.hold = none ∧ c.popped = s.payLength) := by
    simpa [groupReady, paid.groupSize, paid.payLength, and_assoc] using hready
  have hpos := groupWidth_pos s.f5.k.toNat
  have hm : 0 < c.m := by omega
  obtain ⟨hw, hfits⟩ := going.fits
  have hcount := going.count
  obtain ⟨g, hlen, hexact⟩ := going.groups
  have hdone : done = g * groupWidth s.f5.k.toNat := hexact.resolve_right fun h => hm.ne' h.1
  have hk : t.f5.k.toNat ≤ 8 := paid.k ▸ hs.legal.trans hs.narrow
  have hbits : ((s.whiteBits.drop done).take c.m).length = c.m := by
    rw [List.length_take, List.length_drop]
    omega
  have hends := embedGroup_ends (paid.draws.drawable hs.toDrawable) hk (bits := (s.whiteBits.drop done).take c.m)
    (fun x hx => whiteBits_lt (List.mem_of_mem_drop (List.mem_of_mem_take hx))) (List.length_pos_iff.1 (hbits.symm ▸ hm))
    (by rw [hbits, paid.k]; exact going.size)
  rw [← going.value] at hends
  have hframe := embedGroup_unembedded c.val t
  have hplain (h : s.f5.k.toNat ≤ 1) := embedGroup_plain (paid.k.symm ▸ h) c.val
  simp only [embpayStep, hready, if_true]
  generalize embedGroup c.val t = r at hends hframe hplain
  cases hends with
  | @embedded es u draws hlast size carries beyond =>
    rw [paid.k] at size carries beyond
    have hcarried := paid.draws.carried_alive_append draws hs.nodup
    have hsame : SameArray u (countEmbedded c.m u) := ⟨rfl, rfl, rfl, rfl, rfl, rfl⟩
    refine .embed ((paid.embeds hs.nodup draws hframe beyond hplain).counted c.m) (ds := ds ++ es) {
      popped := going.popped
      held := going.held
      within := going.within
      avail := going.avail
      size := Nat.zero_le _
      count := hcount
      next := going.next
      value := rfl
      groups := ⟨g + 1, ?_, ?_⟩
      stands := ?_ } ?_ ?_
    · rw [hsame.alive, hsame.carried, hcarried, List.length_append, hlen, size, Nat.succ_mul]
    · rcases hcase with hfull | ⟨-, hrest⟩
      · exact .inl (by rw [Nat.succ_mul, hdone, hfull])
      · exact .inr ⟨rfl, hrest⟩
    · rw [hsame.alive, hsame.carried, hcarried]
      exact stands_group (fun x hx => carried_lt hx) hlen hdone (by omega) going.stands (fun x hx => carried_lt hx) size carries
    · exact drewLast_append last hlast paid.draws.permAt
    · exact (congrArg (·.warn) hframe).trans warn
  | @exhausted u draws pos beyond =>
    rw [paid.k] at beyond
    have hall := (paid.embeds hs.nodup draws hframe beyond hplain).warned .trunc
    have hcarried := paid.draws.carried_alive_append draws hs.nodup
    rw [← paid.draws.left] at hall hcarried
    have hsame : SameArray u (u.warns .trunc) := ⟨rfl, rfl, rfl, rfl, rfl, rfl⟩
    refine .drain hall {
      within := hw
      some := by omega
      pos := pos.trans paid.draws.permN
      warn := congrArg (· ||| 0x0001) ((congrArg (·.warn) hframe).trans warn)
      stands := ?_
      fits := by rw [← whiteBits_length]; omega } going.within
    rw [hsame.alive, hsame.carried, hcarried]
    exact going.stands_append fun x hx => carried_lt hx

/-- A payload bit joins the group. -/
theorem Embedding.bit (paid : Paid s w c.popped done ds t) (going : Embedding s w done ds c t) (last : s.drewLast t ds)
    (warn : t.warn = s.warn) (hready : groupReady c t = false) (havail : 0 < c.avail) :
    (embpayStep (.embed c) t).Meets (EmbedsAt s) (Embedded s) := by
  have hm : c.m ≠ groupWidth s.f5.k.toNat := fun h => by simp [groupReady, paid.groupSize, h] at hready
  obtain ⟨avail, ha⟩ := Nat.exists_eq_succ_of_ne_zero havail.ne'
  obtain ⟨-, hfits⟩ := going.fits
  have hnext := going.next
  rw [ha, lowestBits_succ, List.cons_append] at hnext
  have hsize := going.size
  have hcount := going.count
  have hwithin := going.avail
  obtain ⟨g, hlen, hexact⟩ := going.groups
  have hbits : (s.whiteBits.drop done).take (c.m + 1) = (s.whiteBits.drop done).take c.m ++ [c.cur.toNat % 2] := by
    rw [List.take_add, List.drop_drop, hnext, List.take_succ_cons, List.take_zero]
  have hlength : ((s.whiteBits.drop done).take c.m).length = c.m := by
    rw [List.length_take, List.length_drop]
    omega
  have hvalue := valueOf_lt (xs := (s.whiteBits.drop done).take c.m) fun x hx => whiteBits_lt (List.mem_of_mem_drop (List.mem_of_mem_take hx))
  rw [hlength] at hvalue
  simp only [embpayStep, hready, Bool.false_eq_true, if_false, if_pos havail]
  refine .embed paid (ds := ds) {
    popped := going.popped
    held := going.held
    within := going.within
    avail := show c.avail - 1 ≤ 8 by omega
    size := show c.m + 1 ≤ _ by omega
    count := show done + (c.m + 1) + (c.avail - 1) = _ by omega
    next := ?_
    value := ?_
    groups := ⟨g, hlen, .inl (hexact.resolve_right fun h => havail.ne' h.2.1)⟩
    stands := going.stands } last warn
  · have htail := congrArg (List.drop 1) hnext
    rw [List.drop_drop] at htail
    simpa [ha, Nat.shiftRight_eq_div_pow, ← Nat.add_assoc] using htail
  · show c.val ||| bitOf (c.cur.getLsbD 0) * 2 ^ c.m = _
    rw [hbits, valueOf_append, hlength, going.value, bitOf_getLsbD, Nat.pow_zero, Nat.div_one, Nat.mul_comm (_ % 2), Nat.or_comm,
      ← Nat.two_pow_add_eq_or_of_lt hvalue, Nat.add_comm]
    rfl

/-- A payload byte is whitened. -/
theorem Embedding.whiten (hs : s.PayReady) (paid : Paid s w c.popped done ds t) (going : Embedding s w done ds c t)
    (last : s.drewLast t ds) (warn : t.warn = s.warn) (hready : groupReady c t = false) (havail : ¬ 0 < c.avail) {p : Byte}
    (hhold : c.hold = some p) : (embpayStep (.embed c) t).Meets (EmbedsAt s) (Embedded s) := by
  have hpopped := going.popped
  rw [hhold, if_neg nofun] at hpopped
  have hwithin := going.within
  have hw : w < s.payLength := by omega
  have hrng : w < s.fifo.rng.length := hw.trans_le hs.bytes
  have hcount := going.count
  have hcur : p ^^^ s.fifo.rng[w] = s.whiteByte w := by
    rw [going.held p hhold, State.whiteByte, List.getD_eq_getElem _ _ hrng]
  obtain ⟨g, hlen, hexact⟩ := going.groups
  simp only [embpayStep, hready, Bool.false_eq_true, if_false, if_neg havail, hhold,
    popRng_cons (paid.bytes.trans (List.drop_eq_getElem_cons hrng)), hcur]
  refine .embed (paid.takes (w' := w + 1) rfl rfl paid.payload) (ds := ds) {
    popped := hpopped
    held := nofun
    within := hwithin
    avail := Nat.le_refl 8
    size := going.size
    count := show done + c.m + 8 = 8 * (w + 1) by omega
    next := ?_
    value := going.value
    groups := ⟨g, hlen, .inl (hexact.resolve_right fun h => by rw [hhold] at h; cases h.2.2.1)⟩
    stands := going.stands } last warn
  show s.whiteBits.drop (done + c.m) = _
  rw [show done + c.m = 8 * w by omega]
  exact whiteBits_drop hw

/-- The next payload byte is popped, or all of them are embedded. -/
theorem Embedding.take (hs : s.PayReady) (paid : Paid s w c.popped done ds t) (going : Embedding s w done ds c t) (last : s.drewLast t ds)
    (warn : t.warn = s.warn) (hready : groupReady c t = false) (havail : ¬ 0 < c.avail) (hhold : c.hold = none) :
    (embpayStep (.embed c) t).Meets (EmbedsAt s) (Embedded s) := by
  have hpopped := going.popped
  rw [hhold, if_pos rfl] at hpopped
  have hzero : c.avail = 0 := Nat.eq_zero_of_not_pos havail
  have hcount := going.count
  have hwithin := going.within
  obtain ⟨g, hlen, hexact⟩ := going.groups
  simp only [embpayStep, hready, Bool.false_eq_true, if_false, if_neg havail, hhold, paid.payLength]
  by_cases hend : c.popped = s.payLength
  · have hm : c.m = 0 := by
      by_contra hne
      simp [groupReady, hzero, hhold, hend, paid.payLength, Nat.pos_of_ne_zero hne] at hready
    obtain rfl : w = s.payLength := by omega
    obtain rfl : done = 8 * s.payLength := by omega
    have hstands := going.stands
    rw [List.take_of_length_le (whiteBits_length s).le] at hstands
    rw [hend] at paid
    rw [if_pos hend]
    exact .whole paid last warn hlen hstands
  · have hpayin : c.popped < s.fifo.payin.length := by
      have := hs.payload
      omega
    simp only [if_neg hend, popPayin_cons (paid.payload.trans (List.drop_eq_getElem_cons hpayin))]
    refine .embed (paid.takes (popped' := c.popped + 1) rfl paid.bytes rfl) (ds := ds) {
      popped := show c.popped + 1 = w + 1 by omega
      held := fun p hp => ?_
      within := show c.popped + 1 ≤ _ by omega
      avail := going.avail
      size := going.size
      count := hcount
      next := going.next
      value := going.value
      groups := ⟨g, hlen, .inl (hexact.resolve_right fun h => hend h.2.2.2)⟩
      stands := going.stands } last warn
    cases hp
    have hwp : w = c.popped := by omega
    subst hwp
    exact (List.getD_eq_getElem _ _ hpayin).symm

/-- A payload byte is thrown away. -/
theorem Cut.drains (hs : s.PayReady) (paid : Paid s w popped done s.usableLeft t) (cut : Cut s w done t) (within : popped ≤ s.payLength) :
    (embpayStep (.drain popped) t).Meets (EmbedsAt s) (Embedded s) := by
  simp only [embpayStep, paid.payLength]
  split
  · obtain rfl : popped = s.payLength := by omega
    exact .short paid cut
  · have hpayin : popped < s.fifo.payin.length := by
      have := hs.payload
      omega
    simp only [popPayin_cons (paid.payload.trans (List.drop_eq_getElem_cons hpayin))]
    exact .drain (paid.takes (popped' := popped + 1) rfl paid.bytes rfl) { cut with } (by omega)

theorem embpay_meets (hs : s.PayReady) (p : EmbpayAt) (t : State) (h : EmbedsAt s p t) :
    (embpayStep p t).Meets (EmbedsAt s) (Embedded s) := by
  cases h with
  | @embed c w done ds _ paid going last warn =>
    cases hready : groupReady c t with
    | true => exact going.group hs paid last warn hready
    | false =>
      by_cases havail : 0 < c.avail
      · exact going.bit paid last warn hready havail
      · cases hhold : c.hold with
        | some p => exact going.whiten hs paid last warn hready havail hhold
        | none => exact going.take hs paid last warn hready havail hhold
  | drain paid cut within => exact cut.drains hs paid within

theorem EmbedsAt.legal (hs : s.PayReady) {p : EmbpayAt} (h : EmbedsAt s p t) : embpayBody.legal p t := by
  cases h with
  | embed paid going _ _ =>
    refine ⟨?_, going.avail⟩
    rw [paid.k, paid.frame]
    exact hs.legal
  | drain paid _ _ =>
    refine ⟨?_, trivial⟩
    rw [paid.k, paid.frame]
    exact hs.legal

theorem paid_nothing (h : s.f5.pos.toNat ≤ s.f5.permN.toNat) : Paid s 0 0 0 [] s where
  frame := rfl
  draws := .refl h
  bytes := rfl
  payload := rfl
  bits := (BitVec.add_zero _).symm
  count := .inr ⟨rfl, rfl⟩
  beyond _ _ := rfl
  plain _ := ⟨rfl, rfl⟩

theorem embpay_ends (hs : s.PayReady) (hr : s.permReady = true) : ∃ b, Embedded s b ∧ exec .embpay s = .next (retire b) := by
  obtain ⟨b, hb, hrun⟩ := embpayBody_resumes.run_meets (fun _ _ h => h.legal hs) (embpay_meets hs)
    (.embed (c := { popped := 0, hold := none, cur := 0, avail := 0, val := 0, m := 0 }) (w := 0) (done := 0) (paid_nothing hs.cursor) {
      popped := rfl
      held := nofun
      within := Nat.zero_le _
      avail := Nat.zero_le 8
      size := Nat.zero_le _
      count := rfl
      next := rfl
      value := rfl
      groups := ⟨0, (Nat.zero_mul _).symm, .inl (Nat.zero_mul _).symm⟩
      stands := List.nil_prefix } (drewLast_nil.2 rfl) rfl)
  exact ⟨b, hb, congrArg Host.Outcome.next ((if_neg (Nat.not_lt.2 hs.legal)).trans ((if_neg (not_noperm hr)).trans hrun))⟩

/-- What an end of EMBPAY says of the state, whichever it is. -/
theorem Paid.retires (h : Paid s w s.payLength done ds t) :
    retire t = retire { s with
      ram.coef := t.ram.coef
      ram.cw := t.ram.cw
      fifo.rng := s.fifo.rng.drop w
      fifo.payin := s.fifo.payin.drop s.payLength
      f5.pos := t.f5.pos
      f5.cwlen := t.f5.cwlen
      f5.embBits := t.f5.embBits
      f5.embBytes := t.f5.embBytes
      f5.embChanged := s.f5.embChanged + BitVec.ofNat 32 (s.changedAmong t ds)
      f5.embShrink := s.f5.embShrink + BitVec.ofNat 32 (t.zerosAmong ds)
      warn := t.warn } := by
  rw [← h.bytes, ← h.payload, ← h.draws.changed, ← h.draws.shrunk]
  exact congrArg retire h.frame

/-- The bytes whose bits are counted are read back from the starting position. -/
theorem Paid.readsBack (h : Paid s w popped done ds t) (hdone : done ≤ 8 * s.payLength)
    (stands : s.whiteBits.take done <+: payloadBits s.f5.k.toNat (t.carried (t.alive ds ++ t.usableLeft))) {j : Nat}
    (hj : 8 * (j + 1) ≤ (t.f5.embBits - s.f5.embBits).toNat) :
    byteOfBits (payloadBits s.f5.k.toNat (t.carried (State.usableLeft { t with f5.pos := s.f5.pos }))) j = s.whiteByte j := by
  have hcounted : (t.f5.embBits - s.f5.embBits).toNat ≤ done := by
    rw [h.bits, BitVec.add_comm, BitVec.add_sub_cancel, BitVec.toNat_ofNat]
    exact Nat.mod_le _ _
  rw [h.draws.usableLeft_rewind]
  exact byteOfBits_of_prefix stands hdone (hj.trans hcounted)

end

end Sys2Proof.Machine

namespace Sys2Proof

open Machine

/-- Settles O57: every move of EMBPAY keeps `EmbedsAt`, in which the bits in hand and the ones in whole groups of carried bits are those of
the whitened payload. -/
theorem embpayEmbedsThePayload : Obligations.EmbpayEmbedsThePayload := by
  unfold Obligations.EmbpayEmbedsThePayload
  intro s hwf hp hN hperm hr hk len hpayin hrng
  have hs : s.PayReady := {
    toDrawable := hperm.drawable hr hp
    legal := hk
    narrow := kMaxEmb_le hwf
    payload := hpayin
    bytes := hrng }
  obtain ⟨b, hend, hexec⟩ := embpay_ends hs hr
  cases hend with
  | @whole g ds _ paid last warn groups stands =>
    have htake : s.usableLeft.take ds.length = ds := paid.draws.take_left
    refine ⟨retire b, len, ds.length, hexec, Nat.le_refl _, ?_⟩
    rw [htake]
    refine ⟨paid.retires, paid.draws.toggled, paid.draws.left_drop, paid.beyond, paid.plain, .inl ⟨warn, rfl, paid.bits, last⟩, paid.count,
      fun j hj => paid.readsBack (Nat.le_refl _) ?_ hj⟩
    rw [List.take_of_length_le (whiteBits_length s).le, State.carried, List.map_append]
    show s.whiteBits <+: payloadBits s.f5.k.toNat (b.carried (b.alive ds) ++ b.carried b.usableLeft)
    rw [(payloadBits_groups (fun x hx => carried_lt hx) groups fun x hx => carried_lt hx).1]
    exact stands.trans (List.prefix_append _ _)
  | @short w done _ paid cut =>
    refine ⟨retire b, w, s.usableLeft.length, hexec, cut.within, ?_⟩
    rw [List.take_length]
    refine ⟨paid.retires, paid.draws.toggled, paid.draws.left_drop, paid.beyond, paid.plain, .inr ⟨cut.warn, rfl, cut.pos, cut.some⟩,
      paid.count, fun j hj => paid.readsBack cut.fits ?_ hj⟩
    rw [usableLeft_exhausted (cut.pos.trans paid.draws.permN.symm), List.append_nil]
    exact cut.stands

end Sys2Proof

/-! SUPPORT. Decoding of what the encoder codes (44_entropy_encoder.md R295 to R300, 45_entropy_decoder.md R360 to R366): DecodeBlock on a stream
of bits that begins with a block's codes. -/

namespace Sys2Proof.Machine

/-! ### Bits of codes -/

theorem lowBits_succ (code n : Nat) : lowBits code (n + 1) = code.testBit n :: lowBits code n := by
  rw [lowBits, List.range_succ_eq_map, List.map_cons, List.map_map]
  refine congrArg₂ (· :: ·) (by rw [Nat.add_sub_cancel, Nat.sub_zero]) (List.map_congr_left fun i _ => ?_)
  rw [Function.comp, Nat.succ_eq_add_one, Nat.add_sub_cancel, Nat.sub_add_eq, Nat.sub_right_comm]

/-- The next bit joins the bits read so far. -/
theorem two_mul_add_testBit (code n : Nat) : 2 * (code / 2 ^ (n + 1)) + bitOf (code.testBit n) = code / 2 ^ n := by
  rw [pow_succ, ← Nat.div_div_eq_div_mul, Nat.testBit_eq_decide_div_mod_eq, bitOf_decide]
  split <;> omega

theorem extraBits_lt (v : Int) : extraBits v < 2 ^ category v := by
  have hpos : (0 : Int) < (2 ^ category v : Nat) := Int.natCast_pos.2 (Nat.two_pow_pos _)
  unfold extraBits
  have := Int.emod_lt_of_pos (if 0 ≤ v then v else v - 1) hpos
  omega

theorem category_pos {v : Int} (hv : v ≠ 0) : 0 < category v := by
  rw [category, bitlen, if_neg (Int.natAbs_ne_zero.2 hv)]
  exact Nat.succ_pos _

theorem natAbs_bounds {v : Int} (hv : v ≠ 0) : 2 ^ (category v - 1) ≤ v.natAbs ∧ v.natAbs < 2 ^ category v := by
  have habs := Int.natAbs_ne_zero.2 hv
  rw [category, bitlen, if_neg habs]
  exact ⟨Nat.log2_self_le habs, Nat.lt_log2_self⟩

/-- Extend() is the inverse of Extra() (44_entropy_encoder.md R299, 45_entropy_decoder.md R362). -/
theorem extend_extraBits {v : Int} (hv : v ≠ 0) : extend (extraBits v) (category v) = v := by
  obtain ⟨hlo, hhi⟩ := natAbs_bounds hv
  have hpow : 2 ^ category v = 2 * 2 ^ (category v - 1) := by rw [← pow_succ', Nat.sub_add_cancel (category_pos hv)]
  have hcast : ((2 : Int) ^ category v) = ((2 ^ category v : Nat) : Int) := by push_cast; rfl
  rw [extend, hcast]
  by_cases hpos : 0 ≤ v
  · have hextra : extraBits v = v.natAbs := by
      rw [extraBits, if_pos hpos, Int.emod_eq_of_lt hpos (by omega)]
      omega
    rw [hextra, if_neg (by omega)]
    omega
  · have hextra : (extraBits v : Int) = v - 1 + (2 ^ category v : Nat) := by
      rw [extraBits, if_neg hpos, ← Int.add_emod_right, Int.emod_eq_of_lt (by omega) (by omega)]
      omega
    rw [if_pos (by omega), hextra]
    omega

/-! ### Canonical codes -/

theorem codesOfLength_bounds {l n code : Nat} {syms : List Nat} {e : Nat × HuffCode} (h : e ∈ codesOfLength l n code syms) :
    code ≤ e.2.code ∧ e.2.code < code + n := by
  induction n generalizing code syms with
  | zero => cases h
  | succ n ih =>
    cases syms with
    | nil => cases h
    | cons sym syms =>
      rcases List.mem_cons.1 h with rfl | h
      · exact ⟨Nat.le_refl _, Nat.lt_add_of_pos_right (Nat.succ_pos n)⟩
      · obtain ⟨hlo, hhi⟩ := ih h
        omega

/-- One bit less of a code. -/
theorem le_div_of_two_mul_le {a code size l : Nat} (hl : l + 1 ≤ size) (h : 2 * code ≤ a / 2 ^ (size - (l + 1))) :
    code ≤ a / 2 ^ (size - l) := by
  rw [show size - l = size - (l + 1) + 1 by omega, pow_succ, ← Nat.div_div_eq_div_mul]
  omega

/-- The codes of length `l` or more begin with at least `code`. -/
theorem canonicalFrom_ge {l code : Nat} {bits syms : List Nat} {e : Nat × HuffCode} (h : e ∈ canonicalFrom l code bits syms) :
    l ≤ e.2.size ∧ code ≤ e.2.code / 2 ^ (e.2.size - l) := by
  induction bits generalizing l code syms with
  | nil => cases h
  | cons n bits ih =>
    rcases List.mem_append.1 h with h | h
    · rw [codesOfLength_size _ _ _ _ _ h, Nat.sub_self, Nat.pow_zero, Nat.div_one]
      exact ⟨Nat.le_refl l, (codesOfLength_bounds h).1⟩
    · obtain ⟨hsize, hcode⟩ := ih h
      exact ⟨Nat.le_of_succ_le hsize, (Nat.le_add_right _ _).trans (le_div_of_two_mul_le hsize hcode)⟩

/-- A shorter code is below the beginning of a longer one: no code begins another (44_entropy_encoder.md R296). -/
theorem canonicalFrom_lt {l code : Nat} {bits syms : List Nat} {e e' : Nat × HuffCode} (h : e ∈ canonicalFrom l code bits syms)
    (h' : e' ∈ canonicalFrom l code bits syms) (hsize : e'.2.size < e.2.size) : e'.2.code < e.2.code / 2 ^ (e.2.size - e'.2.size) := by
  induction bits generalizing l code syms with
  | nil => cases h
  | cons n bits ih =>
    rcases List.mem_append.1 h with h | h
    · have hge := (canonicalFrom_ge h').1
      rw [codesOfLength_size _ _ _ _ _ h] at hsize
      omega
    rcases List.mem_append.1 h' with h' | h'
    · obtain ⟨hlong, hcode⟩ := canonicalFrom_ge h
      rw [codesOfLength_size _ _ _ _ _ h']
      exact (codesOfLength_bounds h').2.trans_le (le_div_of_two_mul_le hlong hcode)
    · exact ih h h'

/-- What decoding needs of a table: every code has from 1 to 16 bits and fits them, and a length with an entry in BITS has a code. -/
structure Decodable (h : HuffSpec) : Prop where
  fits : ∀ e ∈ canonical h, 1 ≤ e.2.size ∧ e.2.size ≤ 16 ∧ e.2.code < 2 ^ e.2.size
  used : ∀ l < 16, h.bits.getD l 0 ≠ 0 → ∃ e ∈ canonical h, e.2.size = l + 1

theorem decodable_dc (d : Fin 2) : Decodable (huffDc d) := by
  fin_cases d
  · exact ⟨by decide +kernel, by decide +kernel⟩
  · exact ⟨by decide +kernel, by decide +kernel⟩

theorem decodable_ac (a : Fin 2) : Decodable (huffAc a) := by
  fin_cases a
  · exact ⟨by decide +kernel, by decide +kernel⟩
  · exact ⟨by decide +kernel, by decide +kernel⟩

/-- Every DC category has a code (44_entropy_encoder.md R295). -/
theorem codeOf_dc (d : Fin 2) {sym : Nat} (h : sym ≤ 11) :
    (sym, ⟨(codeOf (huffDc d) sym).1, (codeOf (huffDc d) sym).2⟩) ∈ canonical (huffDc d) := by
  have hall : ∀ d : Fin 2, ∀ sym < 12,
      (sym, (⟨(codeOf (huffDc d) sym).1, (codeOf (huffDc d) sym).2⟩ : HuffCode)) ∈ canonical (huffDc d) := by
    decide +kernel
  exact hall d sym (Nat.lt_succ_of_le h)

/-- Every run and AC category has a code, and so have EOB and ZRL (44_entropy_encoder.md R295). -/
theorem codeOf_ac (a : Fin 2) {sym : Nat} (h : sym = 0x00 ∨ sym = 0xF0 ∨ (sym < 256 ∧ 1 ≤ sym % 16 ∧ sym % 16 ≤ 10)) :
    (sym, ⟨(codeOf (huffAc a) sym).1, (codeOf (huffAc a) sym).2⟩) ∈ canonical (huffAc a) := by
  have hall : ∀ a : Fin 2, ∀ sym < 256, (sym = 0x00 ∨ sym = 0xF0 ∨ (1 ≤ sym % 16 ∧ sym % 16 ≤ 10)) →
      (sym, (⟨(codeOf (huffAc a) sym).1, (codeOf (huffAc a) sym).2⟩ : HuffCode)) ∈ canonical (huffAc a) := by
    decide +kernel
  exact hall a sym (by omega) (h.imp_right (Or.imp_right And.right))

/-! ### The bits left to DecodeBlock -/

/-- A body whose move completes it retires. -/
theorem Body.Resumes.run_done {π : Type} {B : Body π} (hB : B.Resumes) {p : π} {s t : State} (hl : B.legal p s) (h : B.move p s = .done t) :
    B.run p s = retire t := by
  rw [← hB.drive_eq_run hl (Nat.lt_succ_self _), drive, h]

/-- The bits the reader holds and those of the stuffed bytes ahead of `rest` are `bits`. -/
def State.Streams (s : State) (bits : List Bool) (rest : List Byte) : Prop :=
  s.reader.latch = .empty ∧ ∃ bytes, s.fifo.inp = stuff bytes ++ rest ∧ s.readerBits ++ streamBits bytes = bits

/-- Between `s` and `t` only coefficients were written and input taken. -/
structure Decodes (s t : State) : Prop where
  frame : t = { s with
    ram.coef := t.ram.coef
    coder.incnt := t.coder.incnt
    reader := t.reader
    fifo.inp := t.fifo.inp }
  taken : t.coder.incnt + BitVec.ofNat 32 t.fifo.inp.length = s.coder.incnt + BitVec.ofNat 32 s.fifo.inp.length

/-- DecodeBlock runs from this move on to its end `ok`. -/
inductive BlkRuns (c : BlkCtx) : BlkStep → State → Prop
  | ended (t : State) : BlkRuns c (.ended .ok t) t
  | go {ff : Bool} {p : BlkPhase} {s t : State} (h : BlkRuns c (blkStep c ff p s) t) : BlkRuns c (.go ff p s) t

theorem Decodes.trans {s t u : State} (h : Decodes s t) (k : Decodes t u) : Decodes s u where
  frame := k.frame.trans (by rw [h.frame])
  taken := k.taken.trans h.taken

theorem Decodes.refl (s : State) : Decodes s s := ⟨rfl, rfl⟩

theorem Decodes.holdsTable {s t : State} (h : Decodes s t) {j : Nat} {spec : HuffSpec} (hs : s.holdsTable j spec) : t.holdsTable j spec := by
  rw [h.frame]
  exact hs

/-- Input was taken, and `bits` are left ahead of `rest`. -/
structure Fetches (s : State) (bits : List Bool) (rest : List Byte) (t : State) : Prop extends Decodes s t where
  ram : t.ram = s.ram
  streams : t.Streams bits rest

theorem Fetches.trans {s t u : State} {bits more : List Bool} {rest : List Byte} (h : Fetches s bits rest t) (k : Fetches t more rest u) :
    Fetches s more rest u :=
  { h.toDecodes.trans k.toDecodes with ram := k.ram.trans h.ram, streams := k.streams }

theorem Fetches.coefAt {s t : State} {bits : List Bool} {rest : List Byte} (h : Fetches s bits rest t) (a : Nat) : t.coefAt a = s.coefAt a := by
  refine coefAt_congr (congrArg (·.coef) h.ram) ?_ a
  rw [h.frame]

section
variable {c : BlkCtx} {s : State} {b : Bool} {bits : List Bool} {rest : List Byte}

/-- A bit the reader holds. -/
theorem bit_held (hs : s.Streams (b :: bits) rest) (h : 0 < s.reader.bitcnt) :
    ∃ t, Fetches s bits rest t ∧ ∀ p, blkStep c false p s = blkBit c b p t := by
  obtain ⟨hlatch, bytes, hinp, hbits⟩ := hs
  obtain ⟨n, hn⟩ := Nat.exists_eq_succ_of_ne_zero h.ne'
  have hreader : s.readerBits = s.reader.bitbuf.getLsbD n :: State.readerBits { s with reader.bitcnt := n } := by
    rw [State.readerBits, hn, List.range_succ_eq_map, List.map_cons, List.map_map]
    refine congrArg₂ (· :: ·) rfl (List.map_congr_left fun i _ => ?_)
    show s.reader.bitbuf.getLsbD (n + 1 - 1 - (i + 1)) = s.reader.bitbuf.getLsbD (n - 1 - i)
    rw [Nat.add_sub_cancel, Nat.sub_add_eq, Nat.sub_right_comm]
  rw [hreader] at hbits
  obtain ⟨rfl, hrest⟩ := List.cons.inj hbits
  refine ⟨{ s with reader.bitcnt := n }, ⟨⟨rfl, rfl⟩, rfl, hlatch, bytes, hinp, hrest⟩, fun p => ?_⟩
  rw [blkStep, bitStep, if_pos h, hn]
  rfl

/-- A byte is taken from the input. -/
def State.tookByte (s : State) (q : List Byte) : State := { s with fifo.inp := q, coder.incnt := s.coder.incnt + 1 }

theorem readIn_took {y : Byte} {q : List Byte} (h : s.fifo.inp = y :: q) : readIn s = .byte y (s.tookByte q) := readIn_cons h

theorem decodes_tookByte {y : Byte} {q : List Byte} (h : s.fifo.inp = y :: q) : Decodes s (s.tookByte q) where
  frame := rfl
  taken := by
    rw [h, List.length_cons, Nat.add_comm, BitVec.ofNat_add, ← BitVec.add_assoc]
    rfl

/-- NEXTBIT takes a byte where the reader holds no bit (45_entropy_decoder.md R360). -/
theorem bitStep_byte {y : Byte} {q : List Byte} (ff : Bool) (h : s.reader.bitcnt = 0) (hlatch : s.reader.latch = .empty)
    (hinp : s.fifo.inp = y :: q) :
    bitStep ff s =
      if y = 0xFF then .more true (s.tookByte q)
      else if ff = false then .more false ((s.tookByte q).loadByte y)
      else if y = 0x00 then .more false ((s.tookByte q).loadByte 0xFF)
      else .none ((s.tookByte q).setLatch (.marker y)) := by
  rw [bitStep, if_neg (Nat.not_lt.2 h.le), hlatch]
  simp only [readIn_took hinp]

/-- The next byte is loaded. -/
theorem byte_loaded (hs : s.Streams (b :: bits) rest) (h : s.reader.bitcnt = 0) :
    ∃ t, Fetches s (b :: bits) rest t ∧ 0 < t.reader.bitcnt ∧
      ∀ p u, BlkRuns c (.go false p t) u → BlkRuns c (.go false p s) u := by
  obtain ⟨hlatch, bytes, hinp, hbits⟩ := hs
  have hnone : s.readerBits = [] := by
    rw [State.readerBits, h]
    rfl
  rw [hnone, List.nil_append] at hbits
  cases bytes with
  | nil => cases hbits
  | cons y bytes =>
    rw [stuff_cons, stuffed] at hinp
    have hloaded {t : State} (hreader : t.reader = s.reader) (ht : t.fifo.inp = stuff bytes ++ rest) :
        State.Streams (t.loadByte y) (b :: bits) rest :=
      ⟨(congrArg (·.latch) hreader).trans hlatch, bytes, ht, hbits⟩
    by_cases hff : y = 0xFF
    · subst hff
      rw [if_pos rfl] at hinp
      have hinp : s.fifo.inp = 0xFF :: 0x00 :: (stuff bytes ++ rest) := hinp
      have hfirst := bitStep_byte false h hlatch hinp
      have hsecond := bitStep_byte true (s := s.tookByte (0x00 :: (stuff bytes ++ rest))) h hlatch rfl
      refine ⟨((s.tookByte (0x00 :: (stuff bytes ++ rest))).tookByte (stuff bytes ++ rest)).loadByte 0xFF,
        ⟨((decodes_tookByte hinp).trans (decodes_tookByte rfl)).trans ⟨rfl, rfl⟩, rfl, hloaded rfl rfl⟩,
        Nat.succ_pos 7, fun p u hu => .go ?_⟩
      rw [blkStep, hfirst, if_pos rfl]
      refine .go ?_
      rw [blkStep, hsecond]
      exact hu
    · rw [if_neg hff] at hinp
      have hinp : s.fifo.inp = y :: (stuff bytes ++ rest) := hinp
      refine ⟨(s.tookByte (stuff bytes ++ rest)).loadByte y, ⟨(decodes_tookByte hinp).trans ⟨rfl, rfl⟩, rfl, hloaded rfl rfl⟩,
        Nat.succ_pos 7, fun p u hu => .go ?_⟩
      rw [blkStep, bitStep_byte false h hlatch hinp, if_neg hff, if_pos rfl]
      exact hu

/-- NEXTBIT gives the stream's next bit. -/
theorem bit_read (c : BlkCtx) (hs : s.Streams (b :: bits) rest) :
    ∃ t, Fetches s bits rest t ∧ ∀ p u, BlkRuns c (blkBit c b p t) u → BlkRuns c (.go false p s) u := by
  by_cases h : 0 < s.reader.bitcnt
  · obtain ⟨t, ht, hstep⟩ := bit_held (c := c) hs h
    exact ⟨t, ht, fun p u hu => .go (hstep p ▸ hu)⟩
  · obtain ⟨t, ht, hpos, hrun⟩ := byte_loaded (c := c) hs (Nat.eq_zero_of_not_pos h)
    obtain ⟨u, hu, hstep⟩ := bit_held (c := c) ht.streams hpos
    exact ⟨u, ht.trans hu, fun p v hv => hrun p v (.go (hstep p ▸ hv))⟩

/-! ### Symbols and their extra bits -/

/-- What a DECODE makes of a symbol: `K` once it is complete. -/
def SymStep.next (P : Nat → Nat → BlkPhase) (K : Nat → State → BlkStep) (s : State) : SymStep → BlkStep
  | .more code len => .go false (P code len) s
  | .bad => .ended .bad s
  | .sym v => K v s

theorem blkBit_dcCode (c : BlkCtx) (b : Bool) (code len : Nat) (s : State) :
    blkBit c b (.dcCode code len) s = (decodeBit s c.dt.val code len b).next .dcCode (dcSymbol c) s := rfl

theorem blkBit_acCode (c : BlkCtx) (b : Bool) (k code len : Nat) (s : State) :
    blkBit c b (.acCode k code len) s = (decodeBit s (2 + c.ac.val) code len b).next (.acCode k) (acSymbol k) s := rfl

/-- The bits of a code name its symbol, and no fewer name any (45_entropy_decoder.md R363). -/
theorem decodeBit_code {j : Nat} {h : HuffSpec} (hs : s.holdsTable j h) (hd : Decodable h) {e : Nat × HuffCode} (he : e ∈ canonical h) {n : Nat}
    (hn : n + 1 ≤ e.2.size) :
    decodeBit s j (e.2.code / 2 ^ (n + 1)) (e.2.size - (n + 1)) (e.2.code.testBit n) =
      if n = 0 then .sym e.1 else .more (e.2.code / 2 ^ n) (e.2.size - n) := by
  obtain ⟨hunused, hcodes⟩ := hs
  obtain ⟨hpos, hsize, -⟩ := hd.fits e he
  obtain ⟨-, hmax, hval, -⟩ := hcodes e he
  rw [decodeBit]
  simp only [two_mul_add_testBit, show e.2.size - (n + 1) + 1 = e.2.size - n by omega]
  cases n with
  | zero =>
    rw [Nat.pow_zero, Nat.div_one, Nat.sub_zero, if_neg (Int.not_lt.2 hmax), if_pos rfl, hval]
  | succ n =>
    have hshort : s.maxcodeAt j (e.2.size - (n + 1)) < (e.2.code / 2 ^ (n + 1) : Nat) := by
      by_cases hbits : h.bits.getD (e.2.size - (n + 1) - 1) 0 = 0
      · rw [hunused _ (by omega) (by omega) hbits]
        exact lt_of_lt_of_le (by decide) (Int.natCast_nonneg _)
      · obtain ⟨e', he', hsize'⟩ := hd.used _ (by omega) hbits
        rw [Nat.sub_add_cancel (by omega)] at hsize'
        obtain ⟨-, -, -, last, hlast, hsame, hcode⟩ := hcodes e' he'
        rw [hsize'] at hsame hcode
        have hlt := canonicalFrom_lt he hlast (by omega)
        rw [hsame, Nat.sub_sub_self (by omega)] at hlt
        omega
    rw [if_pos hshort, if_neg (by omega), if_neg (Nat.succ_ne_zero n)]

theorem symbol_read_from {P : Nat → Nat → BlkPhase} {K : Nat → State → BlkStep} {j : Nat} {h : HuffSpec}
    (hP : ∀ b code len t, blkBit c b (P code len) t = (decodeBit t j code len b).next P K t) (hs : s.holdsTable j h) (hd : Decodable h)
    {e : Nat × HuffCode} (he : e ∈ canonical h) {n : Nat} (hn : n + 1 ≤ e.2.size) (hbits : s.Streams (lowBits e.2.code (n + 1) ++ bits) rest) :
    ∃ t, Fetches s bits rest t ∧
      ∀ u, BlkRuns c (K e.1 t) u → BlkRuns c (.go false (P (e.2.code / 2 ^ (n + 1)) (e.2.size - (n + 1))) s) u := by
  induction n generalizing s with
  | zero =>
    rw [lowBits_succ, List.cons_append] at hbits
    obtain ⟨t, ht, hrun⟩ := bit_read c hbits
    refine ⟨t, ht, fun u hu => hrun _ u ?_⟩
    rw [hP, decodeBit_code (ht.holdsTable hs) hd he hn, if_pos rfl]
    exact hu
  | succ n ih =>
    rw [lowBits_succ, List.cons_append] at hbits
    obtain ⟨t, ht, hrun⟩ := bit_read c hbits
    obtain ⟨v, hv, hrest⟩ := ih (ht.holdsTable hs) (Nat.le_of_succ_le hn) ht.streams
    refine ⟨v, ht.trans hv, fun u hu => hrun _ u ?_⟩
    rw [hP, decodeBit_code (ht.holdsTable hs) hd he hn, if_neg (Nat.succ_ne_zero n)]
    exact hrest u hu

/-- A code is decoded to its symbol. -/
theorem symbol_read {P : Nat → Nat → BlkPhase} {K : Nat → State → BlkStep} {j : Nat} {h : HuffSpec}
    (hP : ∀ b code len t, blkBit c b (P code len) t = (decodeBit t j code len b).next P K t) (hs : s.holdsTable j h) (hd : Decodable h)
    {sym : Nat} (he : (sym, ⟨(codeOf h sym).1, (codeOf h sym).2⟩) ∈ canonical h)
    (hbits : s.Streams (lowBits (codeOf h sym).1 (codeOf h sym).2 ++ bits) rest) :
    ∃ t, Fetches s bits rest t ∧ ∀ u, BlkRuns c (K sym t) u → BlkRuns c (.go false (P 0 0) s) u := by
  obtain ⟨hpos, -, hfits⟩ := hd.fits _ he
  obtain ⟨n, hn⟩ := Nat.exists_eq_succ_of_ne_zero (Nat.ne_of_gt hpos)
  simp only at hn hfits
  rw [hn] at hbits
  obtain ⟨t, ht, hrun⟩ := symbol_read_from hP hs hd he (n := n) (by simp only; omega) hbits
  simp only [← Nat.succ_eq_add_one, ← hn, Nat.div_eq_of_lt hfits, Nat.sub_self] at hrun
  exact ⟨t, ht, hrun⟩

theorem extra_read_from {R : Nat → Nat → BlkPhase} {K : Nat → State → BlkStep}
    (hR : ∀ b value left t, blkBit c b (R value left) t =
      if left ≤ 1 then K (2 * value + bitOf b) t else .go false (R (2 * value + bitOf b) (left - 1)) t)
    (value n : Nat) (hbits : s.Streams (lowBits value (n + 1) ++ bits) rest) :
    ∃ t, Fetches s bits rest t ∧ ∀ u, BlkRuns c (K value t) u → BlkRuns c (.go false (R (value / 2 ^ (n + 1)) (n + 1)) s) u := by
  induction n generalizing s with
  | zero =>
    rw [lowBits_succ, List.cons_append] at hbits
    obtain ⟨t, ht, hrun⟩ := bit_read c hbits
    refine ⟨t, ht, fun u hu => hrun _ u ?_⟩
    rw [hR, if_pos (Nat.le_refl 1), two_mul_add_testBit, Nat.pow_zero, Nat.div_one]
    exact hu
  | succ n ih =>
    rw [lowBits_succ, List.cons_append] at hbits
    obtain ⟨t, ht, hrun⟩ := bit_read c hbits
    obtain ⟨v, hv, hrest⟩ := ih ht.streams
    refine ⟨v, ht.trans hv, fun u hu => hrun _ u ?_⟩
    rw [hR, if_neg (by omega), two_mul_add_testBit]
    exact hrest u hu

/-- RECEIVE gives the extra bits of a value (45_entropy_decoder.md R362). -/
theorem extra_read {R : Nat → Nat → BlkPhase} {K : Nat → State → BlkStep}
    (hR : ∀ b value left t, blkBit c b (R value left) t =
      if left ≤ 1 then K (2 * value + bitOf b) t else .go false (R (2 * value + bitOf b) (left - 1)) t)
    {v : Int} (hv : v ≠ 0) (hbits : s.Streams (lowBits (extraBits v) (category v) ++ bits) rest) :
    ∃ t, Fetches s bits rest t ∧ ∀ u, BlkRuns c (K (extraBits v) t) u → BlkRuns c (.go false (R 0 (category v)) s) u := by
  have hlt := extraBits_lt v
  obtain ⟨n, hn⟩ := Nat.exists_eq_succ_of_ne_zero (Nat.ne_of_gt (category_pos hv))
  rw [hn] at hbits
  obtain ⟨t, ht, hrun⟩ := extra_read_from hR (extraBits v) n hbits
  rw [← Nat.succ_eq_add_one, ← hn, Nat.div_eq_of_lt hlt] at hrun
  exact ⟨t, ht, hrun⟩

/-! ### The block's values -/

theorem nextAc_lt {k : Nat} (h : k < 64) (s : State) : nextAc k s = .go false (.acCode k 0 0) s := if_pos h

/-- An AC code is decoded to its symbol. -/
theorem ac_symbol {k sym : Nat} (hk : k < 64) (hs : s.holdsTable (2 + c.ac.val) (huffAc c.ac))
    (hsym : sym = 0x00 ∨ sym = 0xF0 ∨ (sym < 256 ∧ 1 ≤ sym % 16 ∧ sym % 16 ≤ 10)) {codes : List (Nat × Nat)}
    (hbits : s.Streams (codeBits (codeOf (huffAc c.ac) sym :: codes) ++ bits) rest) :
    ∃ t, Fetches s (codeBits codes ++ bits) rest t ∧ ∀ u, BlkRuns c (acSymbol k sym t) u → BlkRuns c (nextAc k s) u := by
  rw [codeBits_cons (codeOf (huffAc c.ac) sym).1, List.append_assoc] at hbits
  rw [nextAc_lt hk]
  exact symbol_read (blkBit_acCode c · k) hs (decodable_ac c.ac) (codeOf_ac c.ac hsym) hbits

/-- Sixteen zeros at a time are skipped (45_entropy_decoder.md R365, ZRL). -/
theorem zrl_decodes {k m : Nat} (hk : k + 16 * m < 64) (hs : s.holdsTable (2 + c.ac.val) (huffAc c.ac)) {codes : List (Nat × Nat)}
    (hbits : s.Streams (codeBits (List.replicate m (codeOf (huffAc c.ac) 0xF0) ++ codes) ++ bits) rest) :
    ∃ t, Fetches s (codeBits codes ++ bits) rest t ∧ ∀ u, BlkRuns c (nextAc (k + 16 * m) t) u → BlkRuns c (nextAc k s) u := by
  induction m generalizing k s with
  | zero => exact ⟨s, ⟨.refl s, rfl, hbits⟩, fun u hu => hu⟩
  | succ m ih =>
    obtain ⟨t, ht, hrun⟩ := ac_symbol (k := k) (by omega) hs (.inr (.inl rfl)) hbits
    obtain ⟨u, hu, hrest⟩ := ih (k := k + 16) (by omega) (ht.holdsTable hs) ht.streams
    rw [Nat.add_assoc, Nat.add_comm 16, ← Nat.mul_succ] at hrest
    exact ⟨u, ht.trans hu, fun v hv => hrun v (hrest v hv)⟩

/-- A value is decoded behind its run of zeros. -/
theorem value_decodes {k r : Nat} {v : Int} (hk : k + r < 64) (hv : v ≠ 0) (hcat : category v ≤ 10)
    (hs : s.holdsTable (2 + c.ac.val) (huffAc c.ac)) {codes : List (Nat × Nat)}
    (hbits : s.Streams (codeBits (List.replicate (r / 16) (codeOf (huffAc c.ac) 0xF0)
      ++ codeOf (huffAc c.ac) (r % 16 * 16 + category v) :: (extraBits v, category v) :: codes) ++ bits) rest) :
    ∃ t, Fetches s (codeBits codes ++ bits) rest t ∧
      ∀ u, BlkRuns c (nextAc (k + r + 1) (t.setCoef (64 * c.blk + zz (k + r)) v)) u → BlkRuns c (nextAc k s) u := by
  have hpos := category_pos hv
  have hr := Nat.div_add_mod r 16
  obtain ⟨t, ht, hzeros⟩ := zrl_decodes (k := k) (m := r / 16) (by omega) hs hbits
  obtain ⟨u, hu, hsymbol⟩ := ac_symbol (k := k + 16 * (r / 16)) (by omega) (ht.holdsTable hs) (.inr (.inr (by omega))) ht.streams
  have hbits' := hu.streams
  rw [codeBits_cons, List.append_assoc] at hbits'
  obtain ⟨w, hw, hextra⟩ := extra_read (c := c) (R := .acBits (k + r) (category v))
    (K := fun x t => nextAc (k + r + 1) (t.setCoef (64 * c.blk + zz (k + r)) (extend x (category v)))) (fun _ _ _ _ => rfl) hv hbits'
  refine ⟨w, (ht.trans hu).trans hw, fun x hx => hzeros x (hsymbol x ?_)⟩
  rw [acSymbol]
  simp only [show (r % 16 * 16 + category v) / 16 = r % 16 by omega, show (r % 16 * 16 + category v) % 16 = category v by omega]
  rw [if_neg hpos.ne', if_neg (by omega), show k + 16 * (r / 16) + r % 16 = k + r by omega]
  rw [extend_extraBits hv] at hextra
  exact hextra x hx

theorem setCoef_decodes (s : State) (i : Nat) (v : Int) : Decodes s (s.setCoef i v) := ⟨rfl, rfl⟩

/-- DecodeBlock from `nextAc` on writes the values `f` to the entries from `p` on, which were 0. -/
structure AcDecoded (c : BlkCtx) (f : Nat → Int) (p : Nat) (s t : State) : Prop extends Decodes s t where
  values : ∀ q, p ≤ q → q < 64 → t.coefAt (64 * c.blk + zz q) = BitVec.ofInt 16 (f q)
  others : ∀ a, (∀ q, p ≤ q → q < 64 → a ≠ 64 * c.blk + zz q) → t.coefAt a = s.coefAt a

/-- An entry is reached once only. -/
theorem zz_entry_ne {p q b : Nat} (hp : p < q) (hq : q < 64) : 64 * b + zz p ≠ 64 * b + zz q := fun h => by
  have hzz := congrArg zzi (Nat.add_left_cancel h)
  rw [zzi_zz p (hp.trans hq), zzi_zz q hq] at hzz
  exact hp.ne hzz

theorem ac_decodes {f : Nat → Int} (hf : ∀ q < 64, 1 ≤ q → category (f q) ≤ 10) {n r k : Nat} (hk : 1 ≤ k) (hn : k + r + n = 64)
    (hs : s.holdsTable (2 + c.ac.val) (huffAc c.ac)) (hzero : ∀ q, k + r ≤ q → q < 64 → s.coefAt (64 * c.blk + zz q) = 0)
    (hbits : s.Streams (codeBits (acCodes (huffAc c.ac) r ((List.range' (k + r) n).map f)) ++ bits) rest) :
    ∃ t, AcDecoded c f (k + r) s t ∧ t.Streams bits rest ∧ BlkRuns c (nextAc k s) t := by
  induction n generalizing r k s with
  | zero =>
    rw [List.range'_zero, List.map_nil, acCodes] at hbits
    have hnone (t : State) (ht : Decodes s t) (hcoef : ∀ a, t.coefAt a = s.coefAt a) : AcDecoded c f (k + r) s t :=
      { ht with values := fun q hlo hhi => by omega, others := fun a _ => hcoef a }
    split at hbits
    · obtain ⟨t, ht, hrun⟩ := ac_symbol (k := k) (by omega) hs (.inl rfl) hbits
      exact ⟨t, hnone t ht.toDecodes ht.coefAt, ht.streams, hrun t (.ended t)⟩
    · refine ⟨s, hnone s (.refl s) fun _ => rfl, hbits, ?_⟩
      rw [nextAc, if_neg (by omega)]
      exact .ended s
  | succ n ih =>
    rw [List.range'_succ, List.map_cons, acCodes] at hbits
    split at hbits
    · rename_i hv
      obtain ⟨t, ht, hstream, hrun⟩ := ih (r := r + 1) hk (by omega) hs (fun q hlo hhi => hzero q (by omega) hhi) hbits
      refine ⟨t, { ht.toDecodes with values := fun q hlo hhi => ?_, others := fun a ha => ht.others a fun q hlo hhi => ha q (by omega) hhi },
        hstream, hrun⟩
      obtain rfl | hlt := Nat.eq_or_lt_of_le hlo
      · rw [ht.others _ fun q hlo' hhi' => zz_entry_ne (by omega) hhi', hzero _ hlo hhi, hv]
        rfl
      · exact ht.values q hlt hhi
    · rename_i hv
      obtain ⟨t, ht, hrun⟩ := value_decodes (k := k) (r := r) (by omega) hv (hf _ (by omega) (by omega)) hs hbits
      have hset := setCoef_decodes t (64 * c.blk + zz (k + r)) (f (k + r))
      have hall := ht.toDecodes.trans hset
      obtain ⟨u, hu, hstream, hrest⟩ := ih (s := t.setCoef (64 * c.blk + zz (k + r)) (f (k + r))) (k := k + r + 1) (r := 0) (by omega)
        (by omega) (hall.holdsTable hs)
        (fun q hlo hhi => by
          rw [coefAt_setCoef_ne _ _ (zz_entry_ne (by omega) hhi).symm, ht.coefAt]
          exact hzero q (by omega) hhi) ht.streams
      refine ⟨u, { hall.trans hu.toDecodes with values := fun q hlo hhi => ?_, others := fun a ha => ?_ }, hstream, hrun u hrest⟩
      · obtain rfl | hlt := Nat.eq_or_lt_of_le hlo
        · rw [hu.others _ fun q hlo' hhi' => zz_entry_ne (by omega) hhi', coefAt_setCoef_self]
        · exact hu.values q hlt hhi
      · rw [hu.others a fun q hlo hhi => ha q (by omega) hhi, coefAt_setCoef_ne _ _ (ha _ (Nat.le_refl _) (by omega)), ht.coefAt]

/-- The DC difference is decoded. -/
theorem dc_decodes {diff : Int} (hdiff : category diff ≤ 11) (hs : s.holdsTable c.dt.val (huffDc c.dt))
    (hbits : s.Streams (codeBits (dcCodes (huffDc c.dt) diff) ++ bits) rest) :
    ∃ t, Fetches s bits rest t ∧ ∀ u, BlkRuns c (dcDone c diff t) u → BlkRuns c (.go false (.dcCode 0 0) s) u := by
  rw [dcCodes, codeBits_cons (codeOf (huffDc c.dt) (category diff)).1, List.append_assoc] at hbits
  obtain ⟨t, ht, hrun⟩ := symbol_read (blkBit_dcCode c) hs (decodable_dc c.dt) (codeOf_dc c.dt hdiff) hbits
  by_cases hzero : diff = 0
  · have hstream := ht.streams
    rw [if_pos hzero] at hstream
    refine ⟨t, ⟨ht.toDecodes, ht.ram, hstream⟩, fun u hu => hrun u ?_⟩
    rw [hzero] at hu ⊢
    exact hu
  · have hstream := ht.streams
    rw [if_neg hzero, codeBits_cons, List.append_assoc] at hstream
    obtain ⟨v, hv, hextra⟩ := extra_read (c := c) (R := .dcBits (category diff)) (K := fun x t => dcDone c (extend x (category diff)) t)
      (fun _ _ _ _ => rfl) hzero hstream
    rw [extend_extraBits hzero] at hextra
    refine ⟨v, ht.trans hv, fun u hu => hrun u ?_⟩
    rw [dcSymbol, if_neg (Nat.not_lt.2 hdiff), if_neg (category_pos hzero).ne']
    exact hextra u hu

/-- DecodeBlock has decoded the block that `e` holds, into the entries it has cleared (45_entropy_decoder.md R365). -/
structure BlockDecoded (c : BlkCtx) (e s t : State) : Prop where
  frame : t = { s with
    ram.coef := t.ram.coef
    coder.pred := s.coder.pred.set c.comp.val (e.coefAt (64 * c.blk))
    coder.incnt := t.coder.incnt
    reader := t.reader
    fifo.inp := t.fifo.inp }
  taken : t.coder.incnt + BitVec.ofNat 32 t.fifo.inp.length = s.coder.incnt + BitVec.ofNat 32 s.fifo.inp.length
  inside : ∀ i < 64, t.coefAt (64 * c.blk + i) = e.coefAt (64 * c.blk + i)
  outside : ∀ a, a < 64 * c.blk ∨ 64 * c.blk + 64 ≤ a → t.coefAt a = s.coefAt a

theorem acValues_eq (blk : Nat) (e : State) : acValues blk e = (List.range' 1 63).map (fun q => e.coefInt (64 * blk + zz q)) := by
  rw [acValues, List.range'_eq_map_range, List.map_map]
  exact List.map_congr_left fun q _ => by rw [Function.comp, Nat.add_comm q]

theorem coefAt_beginBlock {blk a : Nat} (h : 64 * blk ≤ a) (h' : a < 64 * blk + 64) (s : State) : (beginBlock blk s).coefAt a = 0 := by
  obtain ⟨i, rfl⟩ := Nat.exists_eq_add_of_le h
  have hi : i < (List.replicate 64 (0 : BitVec 16)).length := by
    rw [List.length_replicate]
    omega
  rw [beginBlock, coefAt_setCoefs_in _ _ _ _ hi, List.getElem_replicate]

/-- The block's DC value is written, and is its component's predictor (45_entropy_decoder.md R365). -/
def dcWritten (c : BlkCtx) (v : BitVec 16) (s : State) : State := (s.setPred c.comp.val v).setCoef (64 * c.blk) v.toInt

/-- The difference and the predictor give the DC value. -/
theorem dcDone_eq {v : BitVec 16} {diff : Int} (h : diff = v.toInt - (s.coder.pred.get c.comp.val).toInt) :
    dcDone c diff s = nextAc 1 (dcWritten c v s) := by
  have hv : s.coder.pred.get c.comp.val + BitVec.ofInt 16 diff = v := by
    rw [h, Int.sub_eq_add_neg, BitVec.ofInt_add, BitVec.ofInt_neg, BitVec.ofInt_toInt, BitVec.ofInt_toInt, BitVec.add_comm,
      ← BitVec.sub_eq_add_neg, BitVec.sub_add_cancel]
  rw [dcDone, hv]
  rfl

theorem coefAt_dcWritten_self (v : BitVec 16) : (dcWritten c v s).coefAt (64 * c.blk) = v := by
  rw [dcWritten, coefAt_setCoef_self, BitVec.ofInt_toInt]

theorem coefAt_dcWritten_ne (v : BitVec 16) {a : Nat} (h : a ≠ 64 * c.blk) : (dcWritten c v s).coefAt a = s.coefAt a := coefAt_setCoef_ne _ _ h

/-- DecodeBlock decodes the codes of a block (46_f5_matrix.md R417). -/
theorem block_decodes {e : State} (hdc : s.holdsTable c.dt.val (huffDc c.dt)) (hac : s.holdsTable (2 + c.ac.val) (huffAc c.ac))
    (hcodable : codable c.comp.val c.blk e = true) (hpred : e.coder.pred.get c.comp.val = s.coder.pred.get c.comp.val)
    (hbits : s.Streams (codeBits (blockCodes c.comp.val c.dt c.ac c.blk e) ++ bits) rest) :
    ∃ t, BlockDecoded c e s t ∧ t.Streams bits rest ∧ BlkRuns c (.go false (.dcCode 0 0) (beginBlock c.blk s)) t := by
  obtain ⟨hdiff, hvalues⟩ := codable_iff.1 hcodable
  rw [blockCodes, codeBits_append, List.append_assoc, acValues_eq] at hbits
  obtain ⟨t, ht, hrun⟩ := dc_decodes (s := beginBlock c.blk s) hdiff hdc hbits
  have htpred : t.coder.pred = s.coder.pred := by rw [ht.frame]; rfl
  have hdiff : dcDiff c.comp.val c.blk e = (e.coefAt (64 * c.blk)).toInt - (t.coder.pred.get c.comp.val).toInt := by
    rw [htpred, ← hpred]
    rfl
  rw [show e.coefInt (64 * c.blk) - (e.coder.pred.get c.comp.val).toInt = _ from hdiff, dcDone_eq rfl] at hrun
  have hne (q : Nat) (hlo : 1 ≤ q) (hhi : q < 64) : 64 * c.blk + zz q ≠ 64 * c.blk := (zz_entry_ne (p := 0) hlo hhi).symm
  obtain ⟨u, hu, hstream, hrest⟩ := ac_decodes (c := c) (s := dcWritten c (e.coefAt (64 * c.blk)) t)
    (f := fun q => e.coefInt (64 * c.blk + zz q)) (n := 63) (r := 0) (k := 1) (fun q hhi hlo => hvalues q hlo hhi) (Nat.le_refl 1) rfl
    (ht.holdsTable hac)
    (fun q hlo hhi => by
      have hzz := zz_lt q hhi
      rw [coefAt_dcWritten_ne _ (hne q hlo hhi), ht.coefAt]
      exact coefAt_beginBlock (by omega) (by omega) s) ht.streams
  refine ⟨u, {
    frame := hu.frame.trans ?_
    taken := hu.taken.trans ht.taken
    inside := fun i hi => ?_
    outside := fun a ha => ?_ }, hstream, hrun u hrest⟩
  · have hwritten : dcWritten c (e.coefAt (64 * c.blk)) t = { t with
        ram.coef := (dcWritten c (e.coefAt (64 * c.blk)) t).ram.coef
        coder.pred := t.coder.pred.set c.comp.val (e.coefAt (64 * c.blk)) } := rfl
    rw [hwritten, htpred, ht.frame]
    rfl
  · by_cases hzero : i = 0
    · subst hzero
      rw [Nat.add_zero, hu.others _ fun q hlo hhi => (hne q hlo hhi).symm, coefAt_dcWritten_self]
    · have hpos : 1 ≤ zzi i := Nat.pos_of_ne_zero fun h => hzero (by rw [← zz_zzi i hi, h]; rfl)
      have hvalue := hu.values (zzi i) hpos (zzi_lt i hi)
      rw [zz_zzi i hi, State.coefInt, BitVec.ofInt_toInt] at hvalue
      exact hvalue
  · have hout (q : Nat) (hq : q < 64) : a ≠ 64 * c.blk + zz q := by
      have hzz := zz_lt q hq
      omega
    rw [hu.others a fun q _ hhi => hout q hhi, coefAt_dcWritten_ne _ (hout 0 (by decide)), ht.coefAt]
    exact coefAt_setCoefs_out _ _ _ _ (by rw [List.length_replicate]; exact ha)

/-- DECBLK retires where DecodeBlock ends. -/
theorem decblk_runs {r : BlkStep} {t : State} (h : BlkRuns c r t) :
    ∀ (ff : Bool) (p : BlkPhase) (s : State), r = .go ff p s →
      decblkBody.run { ctx := c, ff := ff, phase := p } s = retire { t with result := 0 } := by
  induction h with
  | ended t => exact fun _ _ _ h => by cases h
  | @go ff p s t h ih =>
    intro ff' p' s' heq
    cases heq
    cases hstep : blkStep c ff p s with
    | go ff' p' s' =>
      have hmove : decblkBody.move { ctx := c, ff := ff, phase := p } s = .go { ctx := c, ff := ff', phase := p' } s' := by
        show decblkStep _ _ = _
        rw [decblkStep, hstep]
      exact (decblkBody_resumes.run_go trivial hmove).trans (ih ff' p' s' hstep)
    | wait =>
      rw [hstep] at h
      cases h
    | ended e s' =>
      rw [hstep] at h
      cases h
      have hmove : decblkBody.move { ctx := c, ff := ff, phase := p } s = .done { t with result := 0 } := by
        show decblkStep _ _ = _
        rw [decblkStep, hstep]
        rfl
      exact decblkBody_resumes.run_done trivial hmove

end

end Sys2Proof.Machine

namespace Sys2Proof

open Machine

/-- Settles O42: DecodeBlock reads the symbols and the extra bits of the block's codes one after the other. -/
theorem decblkInvertsEncblk : Obligations.DecblkInvertsEncblk := by
  unfold Obligations.DecblkInvertsEncblk
  intro comp dt ac blk s e bytes rest pad hinside hdc hac hholdsDc hholdsAc hlatch hinp hcodable hpred hbits hpad
  obtain ⟨t, ht, ⟨hempty, left, hleft, hstream⟩, hrun⟩ := block_decodes (c := { blk := blk, comp := comp, dt := dt, ac := ac })
    hholdsDc hholdsAc hcodable hpred ⟨hlatch, bytes, hinp, hbits⟩
  have hnone : left = [] := by
    have hlen := congrArg List.length hstream
    rw [List.length_append, streamBits_length] at hlen
    exact List.length_eq_zero_iff.1 (by omega)
  rw [hnone, show streamBits [] = [] from rfl, List.append_nil] at hstream
  rw [hnone, show stuff [] = [] from rfl, List.nil_append] at hleft
  have hexec : exec (.decblk comp dt ac blk) s = _ := congrArg Host.Outcome.next ((if_neg (by rw [blockInside_iff.2 hinside]; decide)).trans
    ((if_neg (by rw [hdc, hac]; decide)).trans (decblk_runs hrun _ _ _ rfl)))
  refine ⟨_, hexec, ?_, hstream, ht.inside, ht.outside⟩
  have hreader : t.reader = { bitbuf := t.reader.bitbuf, bitcnt := pad.length, latch := .empty } := by
    rw [← hempty, ← hstream, State.readerBits, List.length_map, List.length_range]
  have htaken := ht.taken
  rw [hleft, hinp, List.length_append, BitVec.ofNat_add, ← BitVec.add_assoc] at htaken
  have hincnt := add_right_cancel htaken
  have hfinal : t = { s with
      ram.coef := t.ram.coef
      coder.pred := s.coder.pred.set comp.val (e.coefAt (64 * blk))
      coder.incnt := s.coder.incnt + BitVec.ofNat 32 (stuff bytes).length
      reader := { bitbuf := t.reader.bitbuf, bitcnt := pad.length, latch := .empty }
      fifo.inp := rest } := by
    rw [← hincnt, ← hreader, ← hleft]
    exact ht.frame
  exact congrArg (fun u : State => retire { u with result := 0 }) hfinal

end Sys2Proof
